-- ==== Sys2Proof/Word.lean ====
section
/-! DEFINITION. The word types of the LD4610 model.

The part carries bytes on every link (R192); the only other bit vectors are fields the manual treats as bits
(byte enables, check codes, the report enables, the owed flags, the generator of the check pattern). Counts,
granule numbers, slot numbers and addresses are plain numbers. -/

namespace Sys2Proof

/-- A byte, as every packet, frame, block and reply carries it (R192). -/
abbrev Byte := BitVec 8

/-- A frame or block on the store link: the bytes it lists, then zero bytes up to its length. A header block, an
index block and a READ_BLOCK response are 262,144 bytes and more, most of them zero (R74, R75, R192). -/
structure Frame where
  bytes : List Byte
  length : Nat
  deriving DecidableEq, Repr

end Sys2Proof
end

