-- ==== Sys2Proof/Syntax.lean ====
section
/-! DEFINITION. The commands of the LD4610: one constructor for each row of spec/opcode_table.json.

The operands are what the sender puts on the link or what the row names: the parameter bytes of a command frame
(R183, R192), a request packet (R192), a response frame (R192), a rail, a wake line, a tag, a granule. Frames are
carried as bytes, so that wrong lengths and unknown codes are commands too (R184, R193, R195). -/

namespace Sys2Proof

/-- The two rails that the power sequencer reports (12-1). -/
inductive Rail where
  | main | mem
  deriving DecidableEq, Repr

/-- A command: one row of the table of operations and events. -/
inductive Instr where
  /-- START (R137): mode, DRAM units, store-use flag, a zero byte, table address. -/
  | start (params : List Byte)
  /-- LOAD_REGIONS (R36): table address. -/
  | loadRegions (params : List Byte)
  /-- ATTACH_STORE (R87). -/
  | attachStore (params : List Byte)
  /-- SLEEP (R139): abortable flag. -/
  | sleep (params : List Byte)
  /-- HYBRID (R99): abortable flag. -/
  | hybrid (params : List Byte)
  /-- HIBERNATE (R99): abortable flag. -/
  | hibernate (params : List Byte)
  /-- ABORT_ENTRY (R148). -/
  | abortEntry (params : List Byte)
  /-- EXIT_SLEEP (R146). -/
  | exitSleep (params : List Byte)
  /-- EXIT_IMAGED (R130). -/
  | exitImaged (params : List Byte)
  /-- PRESAVE (R91): OFF, ON, PAUSE or RESUME. -/
  | presave (params : List Byte)
  /-- RELEASE_POISON (R131): first granule, count. -/
  | releasePoison (params : List Byte)
  /-- SET_PARAM (R186): name, a zero byte, value. -/
  | setParam (params : List Byte)
  /-- SET_WAKE (R157): line, mode, hold time. -/
  | setWake (params : List Byte)
  /-- CLEAR_WAKE (R164). -/
  | clearWake (params : List Byte)
  /-- REPORT (R180): fault code, setting. -/
  | report (params : List Byte)
  /-- REPORT_ALL (R180): mask. -/
  | reportAll (params : List Byte)
  /-- ALERT_DISABLE (R179): SET or CLEAR. -/
  | alertDisable (params : List Byte)
  /-- READ_FAULT (R181). -/
  | readFault (params : List Byte)
  /-- CLEAR_FAULT (R182). -/
  | clearFault (params : List Byte)
  /-- STATUS (R187). -/
  | status (params : List Byte)
  /-- READ_GRANULE (R188): granule number. -/
  | readGranule (params : List Byte)
  /-- SNAPSHOT (R189): mask. -/
  | snapshot (params : List Byte)
  /-- READ_SNAPSHOT (R190): timer number. -/
  | readSnapshot (params : List Byte)
  /-- INJECT_CHECK_ERROR (R169). -/
  | injectCheckError (params : List Byte)
  /-- RESET_PART (R191). -/
  | resetPart (params : List Byte)
  /-- A command frame whose code names no command (R184 step 1). -/
  | unknownCommandFrame (code : Byte) (params : List Byte)
  /-- The power sequencer reads the reply buffer (R183). -/
  | readReply
  /-- An upstream request packet arrives (R50, R193). -/
  | upstreamRequest (packet : List Byte)
  /-- The memory controller resets the link (R65). -/
  | linkReset
  /-- The DRAM Port has performed the issued access of this tag, and its completion is sent (R53). -/
  | upstreamAccessDone (tag : BitVec 5)
  /-- The DRAM Port performs the next line access of an engine transfer (R64). -/
  | engineAccessDone
  /-- MAIN_OK or MEM_OK falls (R149, R153). -/
  | railFall (rail : Rail)
  /-- MAIN_OK or MEM_OK rises (R153). -/
  | railRise (rail : Rail)
  /-- A wake line is asserted (R159, R160). -/
  | wkAssert (line : Fin 5)
  /-- A wake line is deasserted (R159, R160). -/
  | wkDeassert (line : Fin 5)
  /-- The HOLD timer of a line expires (R160). -/
  | holdTimerExpiry (line : Fin 5)
  /-- The PACE timer expires (R92). -/
  | paceTimerExpiry
  /-- The FILL timer expires (R117). -/
  | fillTimerExpiry
  /-- The STORE timer expires (R70). -/
  | storeTimerExpiry
  /-- The SLEEP timer expires (R145). -/
  | sleepTimerExpiry
  /-- A response frame arrives on the store link (R69). -/
  | storeResponse (frame : Frame)
  /-- The last line write of the fill of this granule is performed (R119). -/
  | fillEnd (granule : Nat)
  /-- The last zero line write of the zero fill is performed (R120). -/
  | zeroFillEnd
  /-- DRAM bring-up ends, having found this many bytes of DRAM (R135, R62). -/
  | dramBringupEnd (installed : Nat)
  /-- Self-refresh entry ends (R141). -/
  | selfRefreshEntryEnd
  /-- Self-refresh exit ends; `decay` names the bits the DIMMs lost meanwhile, as address and bit mask (R146). -/
  | selfRefreshExitEnd (decay : List Host.Cell)
  /-- The last line of the check pattern is written (R168). -/
  | patternWriteEnd
  /-- The last line of the check granule is compared (R170). -/
  | compareEnd
  /-- The fetch of the region table for LOAD_REGIONS ends (R37). -/
  | regionFetchEnd
  /-- The fetch of the region table for START FRESH ends (R40). -/
  | startTableFetchEnd
  /-- The standby rail is applied to the part (R4). -/
  | standbyPowerOn
  deriving DecidableEq, Repr

end Sys2Proof
end

