-- ==== Sys2Proof/Decode.lean ====
section
/-! DEFINITION. The opcode table gives no row bits, so no word spells a command (notes/assumptions/22.md). -/

namespace Sys2Proof

/-- The command a word spells by the opcode table's bits. No row of the table gives any ("fields" is empty in all
51 rows, and none has a pattern), so there is none. The layouts of the frames (R192) are read by the meanings, and
those of command frames by `Machine.commandOfFrame`. -/
def decodeTableWord (_nbits _w : Nat) : Option Instr := none

end Sys2Proof
end

