-- ==== Sys2Proof/Config.lean ====
section
/-! DEFINITION. What is fixed for the part, and the one free value of the model.

The sizes are the manual's (00_scope.md 0-5). `dramFree` is what the manual leaves open: DRAM content is not valid
after a bring-up (R135), so a byte that nothing has written since then reads as an unconstrained value
(notes/assumptions/1.md). -/

namespace Sys2Proof.Config

/-- A granule, and a store block, is 262,144 bytes (R1, R72). -/
def granuleBytes : Nat := 262144

/-- A line is 64 bytes (0-5). -/
def lineBytes : Nat := 64

/-- A granule is 4,096 lines (3-7). -/
def granuleLines : Nat := 4096

/-- The Granule Tracker holds 65,536 records (R2). -/
def maxGranules : Nat := 65536

/-- One DRAM unit is 1,024 granules (R1). -/
def unitGranules : Nat := 1024

/-- The DRAM size is 4 to 64 units (0-5, R137). -/
def minUnits : Nat := 4
def maxUnits : Nat := 64

/-- The request table holds at most 32 requests (R48), and the fill list at most 32 granules (R114). -/
def tableSize : Nat := 32
def fillListSize : Nat := 32

/-- The retired list holds at most 256 slots (R81). -/
def retiredSize : Nat := 256

/-- S is at most 131,072, and a store of fewer than 2,052 blocks is refused (R85). -/
def maxSlots : Nat := 131072
def minBlocks : Nat := 2052

/-- Four blocks of metadata stand before the slots: slot n is block n + 4 (R72). -/
def metadataBlocks : Nat := 4

/-- An entry makes at most four passes (R109). -/
def maxPasses : Nat := 4

/-- At most 8 upstream accesses are served in a row while an engine access waits (R64). -/
def maxRun : Nat := 8

/-- The value a header block begins with (12-2). -/
def formatMark : Nat := 0x4D544831

/-- The first bytes of a header block, up to and with its check code; the rest is zero (12-2). -/
def headerBytes : Nat := 1576

/-- A parameter list is at most 16 bytes (R183). -/
def maxParams : Nat := 16

/-- Upstream addresses are 34-bit byte addresses (0-5). -/
def addressSpace : Nat := 2 ^ 34

/-- FREE VALUE: what DRAM holds, after the `gen`-th bring-up, at a byte that nothing has written since
(R135; notes/assumptions/1.md). -/
opaque dramFree (gen addr : Nat) : Byte

end Sys2Proof.Config
end

