-- ==== Sys2Proof/Machine/State.lean ====
section
/-! DEFINITION. The state of the LD4610: one structure for each block of the block diagram (0-3), the level lines,
the queue of commands that wait, and the record of what left the part. Plain data, with its values at standby
power-on. Nothing here acts: the operations are in the other files of this folder. -/

namespace Sys2Proof.Machine

/-! ## Names the manual sets in capitals -/

/-- The eleven transition states (R133). -/
inductive TState where
  | unconfigured | starting | active | restoring | saving | committing | parking | sleeping | unparking
  | imagedOff | reviving
  deriving DecidableEq, Repr

/-- Origins, interrupted operations and outcome operations (R133, R154). -/
inductive LongOp where
  | none | start | sleep | hybrid | hibernate | exitSleep | exitImaged | escalate | railLoss | attachStore
  deriving DecidableEq, Repr

/-- Outcome results (R154). -/
inductive OutcomeResult where
  | completed | abortedWake | abortedRequest | abortedTraffic | failed
  deriving DecidableEq, Repr

/-- Outcome reasons (R154). -/
inductive OutcomeReason where
  | none | slots | unsettled | store | imageStale | imageInvalid | imageMismatch | noImage | railLoss | retention
  deriving DecidableEq, Repr

/-- Kinds of waiting abort (R110, R133). -/
inductive AbortKind where
  | wake | request | traffic
  deriving DecidableEq, Repr

/-- Park phases (R133). -/
inductive ParkPhase where
  | none | drain | pattern | srEntry | undo
  deriving DecidableEq, Repr

/-- DRAM conditions (R135). -/
inductive DramCond where
  | notUp | bringingUp | up | enteringSr | selfRefresh | exitingSr
  deriving DecidableEq, Repr

/-- Check phases (R166). -/
inductive CheckPhase where
  | idle | writing | comparing
  deriving DecidableEq, Repr

/-- The nine granule states (1-1). -/
inductive GState where
  | void | clean | dirty | copying | recopy | saved | absent | filling | poison
  deriving DecidableEq, Repr

/-- The four classes (1-1). -/
inductive GClass where
  | preserve | fixed | zero | discard
  deriving DecidableEq, Repr

/-- Store status (R77). -/
inductive StoreStatus where
  | detached | attached | down
  deriving DecidableEq, Repr

/-- Reasons of a store DOWN (R78). -/
inductive StoreReason where
  | timeout | metadata | worn | identify
  deriving DecidableEq, Repr

/-- Statuses of a store response (R69). -/
inductive RespStatus where
  | good | mediaError | badBlock
  deriving DecidableEq, Repr

/-- Resume mark states (R97). -/
inductive Mark where
  | clear | clearing | set
  deriving DecidableEq, Repr

/-- Commit phases (R90). -/
inductive CommitPhase where
  | none | waiting | index | header
  deriving DecidableEq, Repr

/-- The thirteen fault classes, in the order of the table of R175. -/
inductive FaultClass where
  | storeDown | linkViolation | railLoss | poisonRead | fixedWrite | range | slotRetired | fillFailed
  | retentionLost | slotExhausted | lateWrite | entryAborted | entryUnsettled
  deriving DecidableEq, Repr

/-- A fault detail: a number, or a store reason (R174). -/
inductive FaultDetail where
  | number (n : Nat)
  | reason (r : StoreReason)
  deriving DecidableEq, Repr

/-- Timer statuses (11-6). -/
inductive TimerStatus where
  | stopped | running | gated | expired
  deriving DecidableEq, Repr

/-- Completion statuses (R47). -/
inductive CompletionStatus where
  | good | poisoned | refused | range
  deriving DecidableEq, Repr

/-- Request kinds (R47). -/
inductive ReqKind where
  | read | write
  deriving DecidableEq, Repr

/-- Hold reasons (R57). -/
inductive Hold where
  | fill | regionLoad | commit | parking
  deriving DecidableEq, Repr

/-- Wake line modes (R156). -/
inductive WakeMode where
  | disabled | edge | hold
  deriving DecidableEq, Repr

/-- Wake line machines (R156). -/
inductive WakeMachine where
  | idle | blocked | armed | timing | qualified | releasing
  deriving DecidableEq, Repr

/-- Reply codes (R184). -/
inductive ReplyCode where
  | done | accepted | wrongState | busy | badArgument | storeUnavailable | unknownCommand
  deriving DecidableEq, Repr

/-! ## Timers -/

/-- A timer's status and the time remaining, in ms (11-6). -/
structure Timer where
  status : TimerStatus
  count : Nat
  deriving DecidableEq, Repr

/-- STOPPED with count 0. -/
def Timer.stopped : Timer := { status := .stopped, count := 0 }

/-- EXPIRED with count 0. -/
def Timer.expired : Timer := { status := .expired, count := 0 }

/-- Loaded with a time and RUNNING. -/
def Timer.load (ms : Nat) : Timer := { status := .running, count := ms }

/-! ## Request Unit -/

/-- What a request table entry waits for (R48). An ISSUED entry whose access the DRAM Port has performed, and whose
completion is still to be sent, holds the data of its completion (notes/assumptions/5.md). -/
inductive EntryState where
  | waiting
  | held (reason : Hold)
  | issued (performed : Option (List Byte))
  deriving DecidableEq, Repr

/-- A request table entry (R48). The line is held as its number, the line address divided by 64. -/
structure Entry where
  tag : BitVec 5
  kind : ReqKind
  line : Nat
  data : List Byte
  enables : BitVec 64
  cls : Option GClass
  st : EntryState
  deriving DecidableEq, Repr

/-- The Request Unit (R48, R49): the request table in order of arrival, and the link ready line. -/
structure RequestUnit where
  table : List Entry
  linkReady : Bool
  deriving DecidableEq, Repr

/-! ## Region Unit -/

/-- A region descriptor (R29), its class and unit as the bytes read, since a descriptor that is not valid is not
checked. -/
structure Descriptor where
  written : Bool
  valid : Bool
  cls : Byte
  unit : Byte
  base : Nat
  extent : Nat
  deriving DecidableEq, Repr

/-- A descriptor of the empty file (R30). -/
def Descriptor.empty : Descriptor :=
  { written := false, valid := false, cls := 0, unit := 0, base := 0, extent := 0 }

/-- The region file (R30). -/
structure RegionFile where
  descs : Vector Descriptor 32
  tableAddr : Option Nat
  owed : BitVec 32
  deriving DecidableEq, Repr

/-- The empty region file (R30). -/
def RegionFile.empty : RegionFile :=
  { descs := Vector.replicate 32 Descriptor.empty, tableAddr := none, owed := 0 }

/-- A region load in progress: its address, and the table bytes fetched so far (R37 step 1). -/
structure Load where
  addr : Nat
  fetched : List Byte
  deriving DecidableEq, Repr

/-- The Region Unit (R30, R37). -/
structure RegionUnit where
  file : RegionFile
  load : Option Load
  deriving DecidableEq, Repr

/-! ## Granule Tracker -/

/-- A granule record (1-1). -/
structure GRec where
  st : GState
  committed : Option Nat
  pending : Option Nat
  cls : GClass
  deriving DecidableEq, Repr

/-- VOID, DISCARD, no slots: what every record is at standby power-on (R4). -/
def GRec.blank : GRec := { st := .void, committed := none, pending := none, cls := .discard }

/-- A directory entry's four counts (R26). -/
structure DirEntry where
  dirty : Nat
  saved : Nat
  absent : Nat
  poison : Nat
  deriving DecidableEq, Repr

/-- The counts of a span with nothing to count. -/
def DirEntry.zero : DirEntry := { dirty := 0, saved := 0, absent := 0, poison := 0 }

/-- The records that are not blank, by granule number, numbers strictly rising. -/
abbrev GTable := List (Nat × GRec)

/-- The Granule Tracker (R1, R2, R26). A granule that the table does not list is blank. -/
structure Tracker where
  units : Nat
  table : GTable
  dir : Vector DirEntry 64
  pendingTotal : Nat
  deriving DecidableEq, Repr

/-! ## The image on the store -/

/-- A header block's contents (R74). The retired list of a header that was read may claim a length that its slots do
not have (R85, R126), so the length is kept as read. -/
structure Header where
  epoch : BitVec 32
  mark : Bool
  units : Nat
  slots : Nat
  indexCode : BitVec 32
  file : RegionFile
  retiredLength : Nat
  retired : List Nat
  deriving DecidableEq, Repr

/-- The store operations of START and ATTACH_STORE (R85, R86, R125, R127). -/
inductive StoreStep where
  | identify | header0 | header1 | index | emptyIndex | emptyHeader
  deriving DecidableEq, Repr

/-- Which command's steps run on the store link. -/
inductive BringUpMode where
  | fresh | resume | attach
  deriving DecidableEq, Repr

/-- The steps of START or ATTACH_STORE under way: the next step, and what the earlier ones gave. `header0` and `header1`
are the headers read; from then on `header0` is the header that a resume takes up (R126), or the one that an empty epoch
is written with (R86). -/
structure BringUp where
  mode : BringUpMode
  step : StoreStep
  slots : Nat
  header0 : Option Header
  header1 : Option Header
  oldEpoch : BitVec 32
  indexCode : BitVec 32
  formerRetired : List Nat
  deriving DecidableEq, Repr

/-! ## Store Port -/

/-- Request kinds on the store link (R68). -/
inductive FrameKind where
  | identify | readBlock | writeBlock
  deriving DecidableEq, Repr

/-- What an operation is for. -/
inductive Purpose where
  | copy (granule slot : Nat)
  | fill (granule : Nat)
  | markClear
  | commitIndex
  | commitHeader
  | bringUp (step : StoreStep)
  deriving DecidableEq, Repr

/-- The operation on the store link (R68), with the block it writes, and whether it has been disregarded (R71). -/
structure StoreOp where
  num : BitVec 8
  kind : FrameKind
  block : Nat
  payload : Frame
  purpose : Purpose
  disregarded : Bool
  deriving DecidableEq, Repr

/-- The Store Port (R68, R70, R77, R191). The hold-back flag is set when `holdBack` names the operation that
RESET_PART left on the link (notes/assumptions/18.md). -/
structure StorePort where
  status : StoreStatus
  op : Option StoreOp
  opNum : BitVec 8
  timer : Timer
  holdBack : Option (BitVec 8)
  slots : Nat
  deriving DecidableEq, Repr

/-! ## Image Engine -/

/-- A fill from a slot in flight (R119): its granule and, once the response has been taken, the bytes that the DRAM
Port has still to write (zero bytes follow those listed). -/
structure Fill where
  granule : Nat
  rest : Option (List Byte)
  deriving DecidableEq, Repr

/-- The Image Engine (R81, R82, R90, R114, R117). -/
structure ImageEngine where
  freeSlots : List Nat
  retired : List Nat
  epoch : BitVec 32
  presaveOn : Bool
  presavePaused : Bool
  paceTimer : Timer
  presaveCursor : Nat
  exhaustionNoted : Bool
  mark : Mark
  markClearQueued : Bool
  headerRecord : Option Header
  commitPhase : CommitPhase
  builtIndex : Frame
  builtHeader : Option Header
  passes : Nat
  lateNoted : Bool
  fillList : List Nat
  fillCursor : Nat
  fillTimer : Timer
  grant : Bool
  fills : List Fill
  zeroFill : Option Nat
  bringUp : Option BringUp
  deriving DecidableEq, Repr

/-! ## DRAM Port -/

/-- The engine transfers that present line accesses (3-7). -/
inductive Owner where
  | copy
  | fill (granule : Nat)
  | zeroFill
  | writeBack (descriptor : Nat)
  | fetch
  | pattern
  | compare
  deriving DecidableEq, Repr

/-- Who issued or presented an access. An upstream access is live while its request is in the request table: a
link reset leaves the access and discards the request (R65). -/
inductive Source where
  | upRead (tag : BitVec 5) (live : Bool)
  | upWrite (tag : BitVec 5) (live : Bool) (data : List Byte) (enables : BitVec 64)
  | engine (owner : Owner)
  deriving DecidableEq, Repr

/-- An access to one line, by line number. -/
structure Access where
  src : Source
  line : Nat
  deriving DecidableEq, Repr

/-- The bytes of DRAM written since the last bring-up: addresses strictly rising. A byte not listed has not been
written. -/
abbrev Memory := List Host.Cell

/-- The DRAM Port (R64, R135, R166): the accesses that wait, in the order they were issued or presented, DRAM
itself, and the retention checker. `invertFirst` says that the first line write of the present pattern was presented
with the inject flag armed, and so carries bit 0 of its byte 0 inverted (R168). -/
structure DramPort where
  cond : DramCond
  queue : List Access
  runCount : Nat
  mem : Memory
  bringUps : Nat
  installed : Nat
  parkCount : Nat
  inject : Bool
  invertFirst : Bool
  lastErrors : Nat
  checkPhase : CheckPhase
  generator : BitVec 23
  mismatches : Nat
  deriving DecidableEq, Repr

/-! ## Transition Controller -/

/-- The outcome record (R154). -/
structure OutcomeRec where
  op : LongOp
  result : OutcomeResult
  reason : OutcomeReason
  passes : Nat
  deriving DecidableEq, Repr

/-- Where a START stands: its table is being fetched, the request table drains, or its store steps run
(R137, R63, R138). -/
inductive StartPhase where
  | fetching | draining | running
  deriving DecidableEq, Repr

/-- A START (R137). -/
structure StartReq where
  fresh : Bool
  units : Nat
  tableAddr : Nat
  storeUse : Bool
  phase : StartPhase
  fetched : List Byte
  deriving DecidableEq, Repr

/-- The Transition Controller (R133). `fetching` is the START FRESH whose table is being fetched and that is not yet
answered, and `start` the START that has been answered ACCEPTED and not ended (R137). -/
structure TransitionController where
  state : TState
  origin : LongOp
  interrupted : LongOp
  abortable : Bool
  waitingAbort : Option AbortKind
  parkPhase : ParkPhase
  parkStoreDown : Bool
  railLoss : Bool
  sleepTimer : Timer
  outcome : OutcomeRec
  fetching : Option StartReq
  start : Option StartReq
  deriving DecidableEq, Repr

/-! ## Wake Unit -/

/-- A wake line (R156): its level, setting, machine and HOLD timer. -/
structure WakeLine where
  level : Bool
  mode : WakeMode
  hold : Nat
  machine : WakeMachine
  timer : Timer
  deriving DecidableEq, Repr

/-- A line at standby power-on, deasserted (R156). -/
def WakeLine.reset : WakeLine :=
  { level := false, mode := .disabled, hold := 0, machine := .idle, timer := .stopped }

/-- An entry of the cause record (R156). -/
structure Cause where
  line : Fin 5
  count : Nat
  deriving DecidableEq, Repr

/-- The Wake Unit (R156). -/
structure WakeUnit where
  lines : Vector WakeLine 5
  causes : List Cause
  escalate : Bool
  deferred : Bool
  wakeReq : Bool
  deriving DecidableEq, Repr

/-! ## Fault Unit -/

/-- The Fault Unit (R174). `enables` has bit i for the maskable class of code i + 4 (12-2). -/
structure FaultUnit where
  code : Option FaultClass
  addr : Nat
  detail : FaultDetail
  stateAt : Option TState
  count : Nat
  error : Bool
  enables : BitVec 10
  alertDisable : Bool
  alert : Bool
  deriving DecidableEq, Repr

/-! ## Sideband Port -/

/-- A reply frame (R183): the code of the command it answers, the reply code, and the data. -/
structure Reply where
  command : Nat
  code : ReplyCode
  data : List Byte
  deriving DecidableEq, Repr

/-- The five parameters of SET_PARAM (R186), in ms, minutes and bit errors. -/
structure Params where
  storeTimeout : Nat
  presavePace : Nat
  fillPace : Nat
  escalateAfter : Nat
  checkThreshold : Nat
  deriving DecidableEq, Repr

/-- The defaults of R186. -/
def Params.default : Params :=
  { storeTimeout := 500, presavePace := 20, fillPace := 0, escalateAfter := 0, checkThreshold := 0 }

/-- The Sideband Port (R183, R186, R189): HANDLING or READY, the reply buffer, the parameters, and the snapshot
latches in the order PACE, FILL, STORE, SLEEP, HOLD0 to HOLD4. -/
structure SidebandPort where
  handling : Bool
  buffer : Option Reply
  params : Params
  latches : Vector (Option Timer) 9
  deriving DecidableEq, Repr

/-! ## Lines and what leaves the part -/

/-- The rail lines in and the transition lines out (12-1). -/
structure Lines where
  mainOk : Bool
  memOk : Bool
  stable : Bool
  dramHold : Bool
  deriving DecidableEq, Repr

/-- An upstream completion (R47). -/
structure Completion where
  tag : BitVec 5
  status : CompletionStatus
  data : List Byte
  deriving DecidableEq, Repr

/-- The packets and frames that have left the part, oldest first: completions, reply frames, and the request frames
of the operations that have ended on the store link. The model's own record (notes/assumptions/19.md). -/
structure Sent where
  completions : List Completion
  replies : List Reply
  operations : List StoreOp
  deriving DecidableEq, Repr

/-! ## The state of the part -/

/-- The LD4610: its blocks, its lines, and the commands that wait to be taken, first in, first out. -/
structure State where
  pending : List Instr
  ru : RequestUnit
  region : RegionUnit
  tracker : Tracker
  engine : ImageEngine
  store : StorePort
  dram : DramPort
  tc : TransitionController
  wake : WakeUnit
  faults : FaultUnit
  side : SidebandPort
  lines : Lines
  sent : Sent
  deriving DecidableEq, Repr

/-- What stops the part. Nothing does: the thirteen fault classes of R175 are reports that the part records and goes
on from, so no command of the table ends in a fault of the model. Safe: there is nothing to raise. -/
inductive Fault where
  deriving DecidableEq, Repr

/-- Why the model has no meaning for a command. -/
inductive Refusal where
  /-- Raised by an arm of the dispatch whose meaning has not been written. Safe: nothing is claimed of it. -/
  | notModelled (mnemonic : String)
  deriving DecidableEq, Repr

namespace State

/-! One update for each block. -/

def setPending (s : State) (x : List Instr) : State := { s with pending := x }
def setRu (s : State) (x : RequestUnit) : State := { s with ru := x }
def setRegion (s : State) (x : RegionUnit) : State := { s with region := x }
def setTracker (s : State) (x : Tracker) : State := { s with tracker := x }
def setEngine (s : State) (x : ImageEngine) : State := { s with engine := x }
def setStore (s : State) (x : StorePort) : State := { s with store := x }
def setDram (s : State) (x : DramPort) : State := { s with dram := x }
def setTc (s : State) (x : TransitionController) : State := { s with tc := x }
def setWake (s : State) (x : WakeUnit) : State := { s with wake := x }
def setFaults (s : State) (x : FaultUnit) : State := { s with faults := x }
def setSide (s : State) (x : SidebandPort) : State := { s with side := x }
def setLines (s : State) (x : Lines) : State := { s with lines := x }
def setSent (s : State) (x : Sent) : State := { s with sent := x }

end State

/-! ## Standby power-on -/

/-- R48, R49. -/
def RequestUnit.reset : RequestUnit := { table := [], linkReady := false }

/-- R30. -/
def RegionUnit.reset : RegionUnit := { file := RegionFile.empty, load := none }

/-- R4. -/
def Tracker.reset : Tracker :=
  { units := 0, table := [], dir := Vector.replicate 64 DirEntry.zero, pendingTotal := 0 }

/-- R81, R82, R90, R106, R114, R117. -/
def ImageEngine.reset : ImageEngine :=
  { freeSlots := [], retired := [], epoch := 0, presaveOn := false, presavePaused := false,
    paceTimer := .stopped, presaveCursor := 0, exhaustionNoted := false, mark := .clear,
    markClearQueued := false, headerRecord := none, commitPhase := .none,
    builtIndex := { bytes := [], length := 0 }, builtHeader := none, passes := 0, lateNoted := false,
    fillList := [], fillCursor := 0, fillTimer := .stopped, grant := false, fills := [], zeroFill := none,
    bringUp := none }

/-- R68, R70, R77, R191. -/
def StorePort.reset : StorePort :=
  { status := .detached, op := none, opNum := 0, timer := .stopped, holdBack := none, slots := 0 }

/-- R64, R135, R166. -/
def DramPort.reset : DramPort :=
  { cond := .notUp, queue := [], runCount := 0, mem := [], bringUps := 0, installed := 0, parkCount := 0,
    inject := false, invertFirst := false, lastErrors := 0, checkPhase := .idle, generator := 0, mismatches := 0 }

/-- The empty outcome record (R154). -/
def OutcomeRec.empty : OutcomeRec := { op := .none, result := .completed, reason := .none, passes := 0 }

/-- R133. -/
def TransitionController.reset : TransitionController :=
  { state := .unconfigured, origin := .none, interrupted := .none, abortable := false, waitingAbort := none,
    parkPhase := .none, parkStoreDown := false, railLoss := false, sleepTimer := .stopped,
    outcome := OutcomeRec.empty, fetching := none, start := none }

/-- R156. -/
def WakeUnit.reset : WakeUnit :=
  { lines := Vector.replicate 5 WakeLine.reset, causes := [], escalate := false, deferred := false,
    wakeReq := false }

/-- R174. -/
def FaultUnit.reset : FaultUnit :=
  { code := none, addr := 0, detail := .number 0, stateAt := none, count := 0, error := false,
    enables := BitVec.allOnes 10, alertDisable := false, alert := false }

/-- R183, R186, R189. -/
def SidebandPort.reset : SidebandPort :=
  { handling := false, buffer := none, params := Params.default, latches := Vector.replicate 9 none }

/-- The part right after standby power-on with every line into it deasserted (R4, R30, R48, R68, R90, R114, R133,
R135, R156, R166, R174, R183; the lines: notes/assumptions/7.md). -/
def State.reset : State :=
  { pending := [], ru := RequestUnit.reset, region := RegionUnit.reset, tracker := Tracker.reset,
    engine := ImageEngine.reset, store := StorePort.reset, dram := DramPort.reset,
    tc := TransitionController.reset, wake := WakeUnit.reset, faults := FaultUnit.reset,
    side := SidebandPort.reset,
    lines := { mainOk := false, memOk := false, stable := true, dramHold := false },
    sent := { completions := [], replies := [], operations := [] } }

end Sys2Proof.Machine
end

