-- ==== Sys2Proof/Machine/Formats.lean ====
section
/-! DEFINITION. The layouts and codes of Section 12: numbers as bytes, the check code, region descriptors, headers,
index blocks, request packets, completions, request and response frames, replies. -/

namespace Sys2Proof.Machine

/-! ## Numbers, least significant byte first (R192) -/

/-- `n` as `k` bytes. -/
def leBytes (k n : Nat) : List Byte := (List.range k).map fun i => BitVec.ofNat 8 (n / 256 ^ i)

/-- The number that some bytes carry. -/
def leNat : List Byte → Nat
  | [] => 0
  | b :: bs => b.toNat + 256 * leNat bs

/-- The byte at an offset; a byte that the frame does not have reads as zero (notes/assumptions/10.md). -/
def byteAt (bs : List Byte) (off : Nat) : Byte := bs.getD off 0

/-- The number carried in `k` bytes from an offset. -/
def numberAt (bs : List Byte) (off k : Nat) : Nat := leNat ((List.range k).map fun i => byteAt bs (off + i))

/-- Some bytes, cut or followed by zeros to `n`. -/
def padTo (n : Nat) (bs : List Byte) : List Byte := bs.take n ++ List.replicate (n - bs.length) 0

/-! ## The check code (R74) -/

/-- One step of the cyclic code with the generator of R74, least significant bit first. -/
def crcStep (c : BitVec 32) : BitVec 32 :=
  if c.getLsbD 0 then (c >>> 1) ^^^ 0xEDB88320#32 else c >>> 1

/-- The code after one more byte. -/
def crcByte (c : BitVec 32) (b : Byte) : BitVec 32 :=
  crcStep (crcStep (crcStep (crcStep (crcStep (crcStep (crcStep (crcStep (c ^^^ b.setWidth 32))))))))

/-- The code after `n` more zero bytes. -/
def crcZeros : Nat → BitVec 32 → BitVec 32
  | 0, c => c
  | n + 1, c => crcZeros n (crcByte c 0)

/-- The check code of a frame's bytes: preset to all ones, result inverted (R74). -/
def checkCode (f : Frame) : BitVec 32 :=
  ~~~(crcZeros (f.length - f.bytes.length) ((f.bytes.take f.length).foldl crcByte (BitVec.allOnes 32)))

/-! ## Codes of the enumerated fields (R192) -/

def TState.code : TState → Nat
  | .unconfigured => 0 | .starting => 1 | .active => 2 | .restoring => 3 | .saving => 4 | .committing => 5
  | .parking => 6 | .sleeping => 7 | .unparking => 8 | .imagedOff => 9 | .reviving => 10

def GState.code : GState → Nat
  | .void => 0 | .clean => 1 | .dirty => 2 | .copying => 3 | .recopy => 4 | .saved => 5 | .absent => 6
  | .filling => 7 | .poison => 8

def GClass.code : GClass → Nat
  | .preserve => 0 | .fixed => 1 | .zero => 2 | .discard => 3

def LongOp.code : LongOp → Nat
  | .none => 0 | .start => 1 | .sleep => 2 | .hybrid => 3 | .hibernate => 4 | .exitSleep => 5 | .exitImaged => 6
  | .escalate => 7 | .railLoss => 8 | .attachStore => 9

def OutcomeResult.code : OutcomeResult → Nat
  | .completed => 0 | .abortedWake => 1 | .abortedRequest => 2 | .abortedTraffic => 3 | .failed => 4

def OutcomeReason.code : OutcomeReason → Nat
  | .none => 0 | .slots => 1 | .unsettled => 2 | .store => 3 | .imageStale => 4 | .imageInvalid => 5
  | .imageMismatch => 6 | .noImage => 7 | .railLoss => 8 | .retention => 9

def StoreStatus.code : StoreStatus → Nat
  | .detached => 0 | .attached => 1 | .down => 2

def Mark.code : Mark → Nat
  | .clear => 0 | .clearing => 1 | .set => 2

/-- 1 to 13 in the order of the table of R175. -/
def FaultClass.code : FaultClass → Nat
  | .storeDown => 1 | .linkViolation => 2 | .railLoss => 3 | .poisonRead => 4 | .fixedWrite => 5 | .range => 6
  | .slotRetired => 7 | .fillFailed => 8 | .retentionLost => 9 | .slotExhausted => 10 | .lateWrite => 11
  | .entryAborted => 12 | .entryUnsettled => 13

def StoreReason.code : StoreReason → Nat
  | .timeout => 1 | .metadata => 2 | .worn => 3 | .identify => 4

def FaultDetail.code : FaultDetail → Nat
  | .number n => n
  | .reason r => r.code

def TimerStatus.code : TimerStatus → Nat
  | .stopped => 0 | .running => 1 | .gated => 2 | .expired => 3

def CompletionStatus.code : CompletionStatus → Nat
  | .good => 0 | .poisoned => 1 | .refused => 2 | .range => 3

def ReplyCode.code : ReplyCode → Nat
  | .done => 0 | .accepted => 1 | .wrongState => 2 | .busy => 3 | .badArgument => 4 | .storeUnavailable => 5
  | .unknownCommand => 6

/-- The class a code names, if it names one. -/
def classOfCode (n : Nat) : Option GClass :=
  if n = 0 then some .preserve
  else if n = 1 then some .fixed
  else if n = 2 then some .zero
  else if n = 3 then some .discard
  else none

/-- The status of a response; one outside the three is handled as MEDIA_ERROR (R69). -/
def statusOfCode (n : Nat) : RespStatus :=
  if n = 0 then .good else if n = 2 then .badBlock else .mediaError

/-- A flag as a number. -/
def bit (b : Bool) : Nat := if b then 1 else 0

/-! ## Region descriptors (12-2) -/

/-- A descriptor from its 16 bytes: the bits of R194, and the class and unit codes as they stand. -/
def Descriptor.decode (bs : List Byte) : Descriptor :=
  { written := (byteAt bs 0).getLsbD 0
    valid := (byteAt bs 1).getLsbD 0
    cls := byteAt bs 2
    unit := byteAt bs 3
    base := numberAt bs 4 2
    extent := numberAt bs 6 2 }

/-- The 16 bytes of a descriptor; those that the layout does not name are zero (R192). -/
def Descriptor.encode (d : Descriptor) : List Byte :=
  leBytes 1 (bit d.written) ++ leBytes 1 (bit d.valid) ++ [d.cls, d.unit] ++ leBytes 2 d.base ++
    leBytes 2 d.extent ++ List.replicate 8 0

/-- The 32 descriptors in 512 bytes, descriptor n at 16 × n (2-1). -/
def decodeDescriptors (bs : List Byte) : Vector Descriptor 32 :=
  Vector.ofFn fun n : Fin 32 => Descriptor.decode ((bs.drop (16 * n.val)).take 16)

/-- A region table's 512 bytes. -/
def encodeDescriptors (ds : Vector Descriptor 32) : List Byte := ds.toList.flatMap Descriptor.encode

/-! ## Headers (R74, 12-2) -/

/-- The header's bytes before its check code, offsets 0 to 1,571. -/
def Header.body (h : Header) : List Byte :=
  leBytes 4 Config.formatMark ++ leBytes 4 h.epoch.toNat ++ leBytes 1 (bit h.mark) ++ leBytes 1 h.units ++
    leBytes 2 0 ++ leBytes 4 h.slots ++ leBytes 4 h.indexCode.toNat ++ leBytes 4 h.file.owed.toNat ++
    leBytes 8 (h.file.tableAddr.getD 0) ++ encodeDescriptors h.file.descs ++ leBytes 2 h.retiredLength ++
    leBytes 2 0 ++ padTo 1024 (h.retired.flatMap (leBytes 4))

/-- The check code over offsets 0 to 1,571. -/
def headerCode (body : List Byte) : BitVec 32 := checkCode { bytes := body, length := body.length }

/-- The header block: the body, its check code, and zeros. -/
def Header.block (h : Header) : Frame :=
  { bytes := h.body ++ leBytes 4 (headerCode h.body).toNat, length := Config.granuleBytes }

/-- The header in a block, if it is valid: format mark and check code (R74). The mark is set when byte 8 holds 1
(R194). -/
def Header.decode (bs : List Byte) : Option Header :=
  let b := padTo Config.headerBytes bs
  let body := b.take 1572
  if numberAt b 0 4 = Config.formatMark ∧ numberAt b 1572 4 = (headerCode body).toNat then
    let n := numberAt b 544 2
    some
      { epoch := BitVec.ofNat 32 (numberAt b 4 4)
        mark := byteAt b 8 = 1
        units := numberAt b 9 1
        slots := numberAt b 12 4
        indexCode := BitVec.ofNat 32 (numberAt b 16 4)
        file :=
          { descs := decodeDescriptors ((b.drop 32).take 512)
            tableAddr := some (numberAt b 24 8)
            owed := BitVec.ofNat 32 (numberAt b 20 4) }
        retiredLength := n
        retired := (List.range (min n Config.retiredSize)).map fun i => numberAt b (548 + 4 * i) 4 }
  else none

/-! ## Index blocks (R75, 12-2) -/

/-- An index entry (R75). -/
inductive IndexEntry where
  | none
  | slot (n : Nat)
  | lost
  deriving DecidableEq, Repr

/-- An entry's 4 bytes: slot in bits 0 to 23, kind in bits 24 to 31. -/
def IndexEntry.bytes : IndexEntry → List Byte
  | .none => leBytes 4 0
  | .slot n => leBytes 3 n ++ [1]
  | .lost => leBytes 3 0 ++ [2]

/-- Bytes in groups of four, the last one filled with zeros. -/
def chunks4 : List Byte → List (List Byte)
  | [] => []
  | [a] => [[a, 0, 0, 0]]
  | [a, b] => [[a, b, 0, 0]]
  | [a, b, c] => [[a, b, c, 0]]
  | a :: b :: c :: d :: rest => [a, b, c, d] :: chunks4 rest

/-- An entry from its 4 bytes; a kind other than 0, 1 and 2 is no entry (R194). -/
def IndexEntry.decode (bs : List Byte) : Option IndexEntry :=
  if numberAt bs 3 1 = 0 then some IndexEntry.none
  else if numberAt bs 3 1 = 1 then some (.slot (numberAt bs 0 3))
  else if numberAt bs 3 1 = 2 then some .lost
  else Option.none

/-- The entries of an index block up to the last byte listed (the entries after it are NONE), or none where a kind
is unknown (R194). -/
def decodeIndex (block : Frame) : Option (List IndexEntry) :=
  (chunks4 (block.bytes.take Config.granuleBytes)).mapM IndexEntry.decode

/-- The entry of a record in a new epoch (R16). -/
def indexEntry (r : GRec) : IndexEntry :=
  match r.st with
  | .saved => match r.pending with
    | some n => .slot n
    | none => .none
  | .clean | .absent | .filling => match r.committed with
    | some n => .slot n
    | none => .none
  | .poison => .lost
  | _ => .none

/-- The entries of granules `g` and up, of a table listed in rising order. -/
def indexBytesFrom (g : Nat) : GTable → List Byte
  | [] => []
  | (k, r) :: rest => List.replicate (4 * (k - g)) 0 ++ (indexEntry r).bytes ++ indexBytesFrom (k + 1) rest

/-- The index block of a granule table (R16, R75); entries not listed are NONE, which is zero. -/
def indexBlock (t : GTable) : Frame := { bytes := indexBytesFrom 0 t, length := Config.granuleBytes }

/-- The index of an empty epoch: all NONE (R75). -/
def emptyIndexBlock : Frame := { bytes := [], length := Config.granuleBytes }

/-! ## Upstream packets (12-2) -/

/-- A request packet's kind code: bits 6 and 7 of byte 0. -/
def packetKind (bs : List Byte) : Nat := (byteAt bs 0).toNat / 64

/-- A request packet's tag: bits 0 to 4 of byte 0. -/
def packetTag (bs : List Byte) : BitVec 5 := (byteAt bs 0).setWidth 5

/-- A request packet's line number: bits 0 to 27 of offsets 4 to 7 (R193). -/
def packetLine (bs : List Byte) : Nat := numberAt bs 4 4 % 2 ^ 28

/-- A WRITE packet's byte enables and data bytes. -/
def packetEnables (bs : List Byte) : BitVec 64 := BitVec.ofNat 64 (numberAt bs 8 8)
def packetData (bs : List Byte) : List Byte := (List.range 64).map fun i => byteAt bs (16 + i)

/-- The kind of a well-formed packet: a READ is 8 bytes and a WRITE 80 (R193). -/
def packetReqKind (bs : List Byte) : Option ReqKind :=
  if packetKind bs = 1 ∧ bs.length = 8 then some .read
  else if packetKind bs = 2 ∧ bs.length = 80 then some .write
  else none

/-- A completion packet: 72 bytes with data, 8 without. -/
def Completion.bytes (c : Completion) : List Byte :=
  leBytes 1 c.tag.toNat ++ leBytes 1 c.status.code ++ leBytes 6 0 ++ c.data

/-! ## Store frames (12-2) -/

def FrameKind.code : FrameKind → Nat
  | .identify => 1 | .readBlock => 2 | .writeBlock => 3

/-- The request frame of an operation. -/
def StoreOp.frame (o : StoreOp) : Frame :=
  { bytes := leBytes 1 o.kind.code ++ leBytes 1 o.num.toNat ++ leBytes 2 0 ++ leBytes 4 o.block ++ o.payload.bytes
    length := 8 + (if o.kind = .writeBlock then Config.granuleBytes else 0) }

/-- A response frame's operation number, status and block count. -/
def respNum (f : Frame) : BitVec 8 := byteAt f.bytes 1
def respStatus (f : Frame) : RespStatus := statusOfCode (byteAt f.bytes 0).toNat
def respCount (f : Frame) : Nat := numberAt f.bytes 4 4

/-- The block that a response carries. -/
def respBlock (f : Frame) : Frame := { bytes := f.bytes.drop 8, length := f.length - 8 }

/-! ## Sideband frames (12-2) -/

/-- The parameters of a command frame: as many bytes as byte 1 says, from byte 2. -/
def frameParams (bs : List Byte) : List Byte := (List.range (byteAt bs 1).toNat).map fun i => byteAt bs (2 + i)

/-- The command that a command frame carries: code in byte 0, parameter length in byte 1, parameters from byte 2, codes
1 to 25 in the order of the table of R184 (R192). -/
def commandOfFrame (bs : List Byte) : Instr :=
  let p := frameParams bs
  match (byteAt bs 0).toNat with
  | 1 => .start p
  | 2 => .loadRegions p
  | 3 => .attachStore p
  | 4 => .sleep p
  | 5 => .hybrid p
  | 6 => .hibernate p
  | 7 => .abortEntry p
  | 8 => .exitSleep p
  | 9 => .exitImaged p
  | 10 => .presave p
  | 11 => .releasePoison p
  | 12 => .setParam p
  | 13 => .setWake p
  | 14 => .clearWake p
  | 15 => .report p
  | 16 => .reportAll p
  | 17 => .alertDisable p
  | 18 => .readFault p
  | 19 => .clearFault p
  | 20 => .status p
  | 21 => .readGranule p
  | 22 => .snapshot p
  | 23 => .readSnapshot p
  | 24 => .injectCheckError p
  | 25 => .resetPart p
  | _ => .unknownCommandFrame (byteAt bs 0) p

/-- A reply frame's bytes. -/
def Reply.bytes (r : Reply) : List Byte :=
  leBytes 1 r.command ++ leBytes 1 r.code.code ++ leBytes 2 r.data.length ++ r.data

/-- The frame returned when the buffer is empty: command NONE, DONE, no data (R183). -/
def Reply.emptyFrame : Reply := { command := 0, code := .done, data := [] }

/-- An absent slot reads 4294967295. -/
def slotNumber (o : Option Nat) : Nat := o.getD 4294967295

/-- A timer's status byte, two zero bytes and its count (READ_SNAPSHOT). -/
def timerBytes (latched : Bool) (t : Timer) : List Byte :=
  leBytes 1 (bit latched) ++ leBytes 1 t.status.code ++ leBytes 2 0 ++ leBytes 4 t.count

end Sys2Proof.Machine
end

