-- ==== Sys2Proof/Machine/Ops.lean ====
section
/-! DEFINITION. The named operations over the part's memories: DRAM, the granule table with its directory, the
request table, and the region file. Every read and write of them goes through these. -/

namespace Sys2Proof.Machine

/-! ## DRAM -/

/-- The canonical form of DRAM: addresses strictly rising. What an unlisted address reads as is no byte at all, so
no entry equals it. -/
def Memory.wf (m : Memory) : Bool := decide (m.Pairwise fun x y => x.1 < y.1)

/-- The byte written at an address since the last bring-up, if one was. -/
def Memory.get (m : Memory) (a : Nat) : Option Byte := m.lookup a

/-- The cells of a run of bytes: a byte that is not enabled stays as it was (R47). -/
def Memory.runCells (m : Memory) (a : Nat) (bs : List (Option Byte)) : Memory :=
  bs.zipIdx.filterMap fun (b, i) =>
    match b with
    | some v => some (a + i, v)
    | none => (Memory.get m (a + i)).map fun v => (a + i, v)

/-- DRAM with the enabled bytes of a run written from an address. -/
def Memory.write (m : Memory) (a : Nat) (bs : List (Option Byte)) : Memory :=
  let stop := a + bs.length
  m.filter (fun c => decide (c.1 < a)) ++
    Memory.runCells (m.filter fun c => decide (a ≤ c.1) && decide (c.1 < stop)) a bs ++
    m.filter (fun c => decide (stop ≤ c.1))

/-- The bytes at `n` addresses from `a`, in a memory that lists nothing below `a`. -/
def Memory.readRun : Nat → Nat → Memory → List (Option Byte)
  | 0, _, _ => []
  | n + 1, a, [] => none :: Memory.readRun n (a + 1) []
  | n + 1, a, (k, b) :: m =>
    if k = a then some b :: Memory.readRun n (a + 1) m else none :: Memory.readRun n (a + 1) ((k, b) :: m)

/-- The bytes written at `n` addresses from `a`. -/
def Memory.readFrom (m : Memory) (a n : Nat) : List (Option Byte) :=
  Memory.readRun n a (m.dropWhile fun c => decide (c.1 < a))

/-- What the DIMMs answer for a byte: zero where there is no DRAM (R62), the byte written since bring-up, or the
free value of this bring-up (R135, notes/assumptions/1.md). -/
def DramPort.byte (d : DramPort) (a : Nat) : Byte :=
  if d.installed ≤ a then 0 else ((Memory.get d.mem a).getD (Config.dramFree d.bringUps a))

/-- What reads of `n` lines return. -/
def DramPort.readLines (d : DramPort) (line n : Nat) : List Byte :=
  let a := Config.lineBytes * line
  (Memory.readFrom d.mem a (Config.lineBytes * n)).zipIdx.map fun (b, i) =>
    if d.installed ≤ a + i then 0 else b.getD (Config.dramFree d.bringUps (a + i))

/-- What a read of a line returns. -/
def DramPort.readLine (d : DramPort) (line : Nat) : List Byte := d.readLines line 1

/-- DRAM with the enabled bytes of a run of lines written; a line where there is no DRAM is not written (R62). -/
def DramPort.writeRun (d : DramPort) (line : Nat) (bs : List (Option Byte)) : DramPort :=
  let a := Config.lineBytes * line
  { d with mem := Memory.write d.mem a (bs.take (d.installed - a)) }

/-- The data of a WRITE with its byte enables (R47). -/
def enabledBytes (data : List Byte) (enables : BitVec 64) : List (Option Byte) :=
  data.zipIdx.map fun (b, i) => if enables.getLsbD i then some b else none

/-- DRAM after the DIMMs have lost some bits (09, introduction): each address names the bits that changed. -/
def DramPort.decay (d : DramPort) (flips : List Host.Cell) : DramPort :=
  flips.foldl (fun d c =>
    if d.installed ≤ c.1 then d
    else { d with mem := Memory.write d.mem c.1 [some (d.byte c.1 ^^^ c.2)] }) d

/-! ## The granule table (R2) -/

/-- The record of a granule; one that the table does not list is blank (R2, R4). -/
def GTable.get (t : GTable) (g : Nat) : GRec := (t.lookup g).getD GRec.blank

/-- The canonical form of the granule table: numbers strictly rising, and no blank record listed. -/
def GTable.wf (t : GTable) : Bool :=
  decide (t.Pairwise fun x y => x.1 < y.1) && t.all fun x => decide (x.2 ≠ GRec.blank)

/-- The listing of one record: nothing where it is blank. -/
def GTable.cell (g : Nat) (r : GRec) : GTable := if r = GRec.blank then [] else [(g, r)]

/-- The table with one record set. -/
def GTable.put (t : GTable) (g : Nat) (r : GRec) : GTable :=
  t.filter (fun x => decide (x.1 < g)) ++ GTable.cell g r ++ t.filter (fun x => decide (g < x.1))

/-- The table with every record changed by a claim that leaves a blank record blank. -/
def GTable.mapRecs (t : GTable) (f : Nat → GRec → GRec) : GTable :=
  t.flatMap fun x => GTable.cell x.1 (f x.1 x.2)

/-- The table whose first `n` records are given. -/
def GTable.build (n : Nat) (f : Nat → GRec) : GTable :=
  (List.range n).flatMap fun g => GTable.cell g (f g)

/-! ## The directory and the pending total (R26) -/

/-- The states each count of a directory entry counts (R26). -/
def GState.countsDirty : GState → Bool
  | .dirty | .copying | .recopy => true
  | _ => false

def GState.countsAbsent : GState → Bool
  | .absent | .filling => true
  | _ => false

/-- The counts of the granules of one span (R26). -/
def spanCounts (t : GTable) (d : Nat) : DirEntry :=
  let span := t.filter fun x => decide (x.1 / Config.unitGranules = d)
  { dirty := span.countP fun x => x.2.st.countsDirty
    saved := span.countP fun x => decide (x.2.st = .saved)
    absent := span.countP fun x => x.2.st.countsAbsent
    poison := span.countP fun x => decide (x.2.st = .poison) }

/-- The directory of a table (R26). -/
def directoryOf (t : GTable) : Vector DirEntry 64 := Vector.ofFn fun d : Fin 64 => spanCounts t d.val

/-- The number of granules that hold a pending slot (R26). -/
def pendingOf (t : GTable) : Nat := t.countP fun x => x.2.pending.isSome

/-- The tracker with a new table: the directory and the pending total are updated in the same claim (R26). -/
def Tracker.withTable (tr : Tracker) (t : GTable) : Tracker :=
  { tr with table := t, dir := directoryOf t, pendingTotal := pendingOf t }

/-- G, the number of granules (R1). -/
def Tracker.granules (tr : Tracker) : Nat := Config.unitGranules * tr.units

/-- The record of a granule. -/
def Tracker.recAt (tr : Tracker) (g : Nat) : GRec := GTable.get tr.table g

/-- A claim on one granule. -/
def Tracker.putRec (tr : Tracker) (g : Nat) (r : GRec) : Tracker := tr.withTable (GTable.put tr.table g r)

/-- A claim on every granule that the table lists. -/
def Tracker.mapRecs (tr : Tracker) (f : Nat → GRec → GRec) : Tracker := tr.withTable (GTable.mapRecs tr.table f)

/-! ## Scans (R27) -/

/-- The lowest granule below G in a state, at or after `from_`, and then from 0. -/
def Tracker.scan (tr : Tracker) (st : GState) (from_ : Nat) : Option Nat :=
  let found := (tr.table.filter fun x => decide (x.2.st = st) && decide (x.1 < tr.granules)).map Prod.fst
  (found.find? fun g => decide (from_ ≤ g)).or found.head?

/-- The dirty scan. -/
def Tracker.dirtyScan (tr : Tracker) (from_ : Nat) : Option Nat := tr.scan .dirty from_

/-- The absent scan. -/
def Tracker.absentScan (tr : Tracker) (from_ : Nat) : Option Nat := tr.scan .absent from_

/-- The granule after one that a cursor has passed: `g + 1`, or 0 where that is G (R93, R118). -/
def Tracker.after (tr : Tracker) (g : Nat) : Nat := if g + 1 = tr.granules then 0 else g + 1

/-! ## Classification (R32, R33) -/

/-- The preserved classes (1-1). -/
def GClass.preserved : GClass → Bool
  | .preserve | .fixed => true
  | _ => false

/-- The last granule a descriptor covers, without wrapping (R32). -/
def Descriptor.last (d : Descriptor) : Nat :=
  if d.unit.toNat = 1 then d.base + Config.unitGranules * (d.extent + 1) - 1 else d.base + d.extent

/-- Whether a descriptor is valid and covers a granule (R32). -/
def Descriptor.covers (d : Descriptor) (g : Nat) : Bool :=
  d.valid && decide (d.base ≤ g) && decide (g ≤ d.last)

/-- The governing descriptor of a granule below the check granule: the lowest-numbered valid one that covers it
(R33). -/
def RegionFile.governing (f : RegionFile) (granules g : Nat) : Option (Fin 32) :=
  if granules ≤ g + 1 then none
  else (List.finRange 32).find? fun n => f.descs[n].covers g

/-- The class that governs a granule; DISCARD where no descriptor does, and for the check granule (R33). -/
def RegionFile.classOf (f : RegionFile) (granules g : Nat) : GClass :=
  match f.governing granules g with
  | some n => (classOfCode f.descs[n].cls.toNat).getD .discard
  | none => .discard

/-! ## The request table (R48) -/

/-- The byte address of an entry's line. -/
def Entry.addr (e : Entry) : Nat := Config.lineBytes * e.line

/-- The granule an entry's line lies in (R1). -/
def Entry.granule (e : Entry) : Nat := e.addr / Config.granuleBytes

/-- The entry of a tag. -/
def RequestUnit.find (r : RequestUnit) (tag : BitVec 5) : Option Entry :=
  r.table.find? fun e => decide (e.tag = tag)

/-- The table with the entry of a tag changed. -/
def RequestUnit.update (r : RequestUnit) (tag : BitVec 5) (f : Entry → Entry) : RequestUnit :=
  { r with table := r.table.map fun e => if e.tag = tag then f e else e }

/-- The table without the entry of a tag. -/
def RequestUnit.drop (r : RequestUnit) (tag : BitVec 5) : RequestUnit :=
  { r with table := r.table.filter fun e => decide (e.tag ≠ tag) }

/-- The oldest entry for a line. -/
def RequestUnit.oldest (r : RequestUnit) (line : Nat) : Option Entry :=
  r.table.find? fun e => decide (e.line = line)

/-- The tags of the entries held with a reason, in order of arrival. -/
def RequestUnit.heldTags (r : RequestUnit) (reason : Hold) : List (BitVec 5) :=
  (r.table.filter fun e => decide (e.st = .held reason)).map Entry.tag

/-- Whether a request is held with reason FILL on a granule. -/
def RequestUnit.fillHeld (r : RequestUnit) (g : Nat) : Bool :=
  r.table.any fun e => decide (e.st = .held .fill) && decide (e.granule = g)

/-- The first line of a granule (R1, 0-5). -/
def firstLine (g : Nat) : Nat := Config.granuleLines * g

/-! ## State accessors -/

namespace State

/-- The request table entry of a tag changed. -/
def updateEntry (s : State) (tag : BitVec 5) (f : Entry → Entry) : State := s.setRu (s.ru.update tag f)

/-- An access added at the end of the DRAM Port's queue: issued or presented now (R64). -/
def enqueue (s : State) (a : Access) : State := s.setDram { s.dram with queue := s.dram.queue ++ [a] }

/-- An engine transfer presents a line access (R64). -/
def present (s : State) (o : Owner) (line : Nat) : State := s.enqueue { src := .engine o, line := line }

/-- The accesses of an engine transfer are no longer presented. -/
def withdraw (s : State) (gone : Owner → Bool) : State :=
  s.setDram
    { s.dram with
      queue := s.dram.queue.filter fun a =>
        match a.src with
        | .engine o => !gone o
        | _ => true }

/-- The record of a granule. -/
def recOf (s : State) (g : Nat) : GRec := s.tracker.recAt g

/-- G (R1). -/
def granules (s : State) : Nat := s.tracker.granules

/-- The check granule (R1). -/
def checkGranule (s : State) : Nat := s.granules - 1


/-- A completion sent on the upstream link (R47). -/
def sendCompletion (s : State) (c : Completion) : State :=
  s.setSent { s.sent with completions := s.sent.completions ++ [c] }

/-- A reply placed in the buffer (R183). -/
def putReply (s : State) (command : Nat) (code : ReplyCode) (data : List Byte) : State :=
  s.setSide { s.side with buffer := some { command := command, code := code, data := data } }

/-- The deferred reply: placed in the buffer, and the port becomes READY (R183). -/
def putDeferred (s : State) (command : Nat) (code : ReplyCode) : State :=
  s.setSide { s.side with buffer := some { command := command, code := code, data := [] }, handling := false }

end State

end Sys2Proof.Machine
end

