-- ==== Sys2Proof/Machine/Flags.lean ====
section
/-! DEFINITION. Every flag, total and line that the manual computes from the state: the directory totals, the
summary flags of STATUS, link ready, STABLE, DRAM_HOLD, ALERT, and the conditions that rules share. -/

namespace Sys2Proof.Machine

/-! ## Totals (R26) -/

def Tracker.dirtyTotal (tr : Tracker) : Nat := (tr.dir.toList.map DirEntry.dirty).sum
def Tracker.savedTotal (tr : Tracker) : Nat := (tr.dir.toList.map DirEntry.saved).sum
def Tracker.absentTotal (tr : Tracker) : Nat := (tr.dir.toList.map DirEntry.absent).sum
def Tracker.poisonTotal (tr : Tracker) : Nat := (tr.dir.toList.map DirEntry.poison).sum

namespace State

/-! ## Summary flags of STATUS (R28) -/

def anyDirty (s : State) : Bool := decide (s.tracker.dirtyTotal ≠ 0)
def anyAbsent (s : State) : Bool := decide (s.tracker.absentTotal ≠ 0)
def anyPoison (s : State) : Bool := decide (s.tracker.poisonTotal ≠ 0)
def epochOpen (s : State) : Bool := decide (s.tracker.pendingTotal ≠ 0)
def imageCurrent (s : State) : Bool := decide (s.engine.mark = .set)

/-! ## Conditions -/

/-- MAIN_OK and MEM_OK are both asserted. -/
def railsOk (s : State) : Bool := s.lines.mainOk && s.lines.memOk

/-- START has been answered ACCEPTED and its request table is draining (R63). -/
def draining (s : State) : Bool :=
  match s.tc.start with
  | some r => decide (r.phase = .draining)
  | none => false

/-- ATTACH_STORE runs (R87). -/
def attaching (s : State) : Bool :=
  match s.engine.bringUp with
  | some b => decide (b.mode = .attach)
  | none => false

/-- A copy is in flight and has not been disregarded (R71, R95). -/
def copyInFlight (s : State) : Bool :=
  match s.store.op with
  | some o =>
    match o.purpose with
    | .copy _ _ => !o.disregarded
    | _ => false
  | none => false

/-- A mark clear is queued or in flight (R97). -/
def markClearPending (s : State) : Bool :=
  s.engine.markClearQueued ||
    match s.store.op with
    | some o => decide (o.purpose = .markClear) && !o.disregarded
    | none => false

/-- A fill or a zero fill is in flight (R114). -/
def fillsRunning (s : State) : Bool := !s.engine.fills.isEmpty || s.engine.zeroFill.isSome

/-- Some granule is COPYING or RECOPY (R36). -/
def anyCopying (s : State) : Bool :=
  s.tracker.table.any fun x => decide (x.2.st = .copying) || decide (x.2.st = .recopy)

/-- A region load is in progress (R37). -/
def loading (s : State) : Bool := s.region.load.isSome

/-- Where an entry or a park returns to (R103, R142): RESTORING while some granule is ABSENT or FILLING. -/
def returnTarget (s : State) : TState := if s.anyAbsent then .restoring else .active

end State

/-- The states in which the wake lines are monitored (R158). -/
def TState.monitored : TState → Bool
  | .saving | .committing | .parking | .sleeping | .imagedOff => true
  | _ => false

/-- ACTIVE and RESTORING, where the machine runs and no entry is under way (R92). -/
def TState.running : TState → Bool
  | .active | .restoring => true
  | _ => false

/-! ## Lines out -/

/-- STABLE (R134). -/
def stableIn : TState → Bool
  | .unconfigured | .active | .restoring | .sleeping | .imagedOff => true
  | .starting | .saving | .committing | .parking | .unparking | .reviving => false

/-- DRAM_HOLD (R134). -/
def dramHoldIn : TState → Bool
  | .unconfigured | .imagedOff => false
  | .starting | .active | .restoring | .saving | .committing | .parking | .sleeping | .unparking | .reviving => true

/-- Link ready (R49, R149). -/
def State.linkReadyNow (s : State) : Bool :=
  match s.tc.state with
  | .unconfigured => s.railsOk && decide (s.dram.cond = .up) && !s.draining
  | .active | .restoring | .saving | .committing => !s.tc.railLoss
  | .parking => !s.tc.railLoss && (decide (s.tc.parkPhase = .drain) || decide (s.tc.parkPhase = .pattern))
  | .starting | .sleeping | .unparking | .imagedOff | .reviving => false

/-- The lines out as the state gives them: STABLE and DRAM_HOLD (R134) and link ready (R49). -/
def State.drive (s : State) : State :=
  (s.setLines { s.lines with stable := stableIn s.tc.state, dramHold := dramHoldIn s.tc.state }).setRu
    { s.ru with linkReady := s.linkReadyNow }

/-- ALERT (R179). -/
def FaultUnit.alertNow (f : FaultUnit) : Bool := f.error && !f.alertDisable

/-- The Fault Unit with ALERT driven (R179). -/
def FaultUnit.driveAlert (f : FaultUnit) : FaultUnit := { f with alert := f.alertNow }

/-! ## Report enables (R175, R180) -/

/-- Whether a report of a class is taken: the three classes that cannot be masked always are. -/
def FaultUnit.reportable (f : FaultUnit) (c : FaultClass) : Bool :=
  if c.code ≤ 3 then true else f.enables.getLsbD (c.code - 4)

end Sys2Proof.Machine
end

