-- ==== Sys2Proof/Machine/Operands.lean ====
section
/-! DEFINITION. The operand forms of the sideband commands: what their parameter bytes carry (12-2), and the values
that R195 and the owning rules refuse. A value of `none` here is answered BAD_ARGUMENT. -/

namespace Sys2Proof.Machine

/-- A flag byte: 0 or 1, and no other value (R195). -/
def flagOf (n : Nat) : Option Bool := if n = 0 then some false else if n = 1 then some true else none

/-- START's arguments. The byte at offset 3, which the layout gives as zero, is not examined: the model's choice
(notes/assumptions/39.md). -/
structure StartArgs where
  fresh : Bool
  units : Nat
  storeUse : Bool
  tableAddr : Nat
  deriving DecidableEq, Repr

/-- START: mode (0 FRESH, 1 RESUME), DRAM units from 4 to 64, store-use flag, table address (R137 step 2, R195). -/
def startArgs (p : List Byte) : Option StartArgs :=
  match flagOf (numberAt p 0 1), flagOf (numberAt p 2 1) with
  | some resume, some storeUse =>
    if Config.minUnits ≤ numberAt p 1 1 ∧ numberAt p 1 1 ≤ Config.maxUnits then
      some { fresh := !resume, units := numberAt p 1 1, storeUse := storeUse, tableAddr := numberAt p 4 8 }
    else none
  | _, _ => none

/-- The abortable flag of SLEEP, HYBRID and HIBERNATE. -/
def abortableArg (p : List Byte) : Option Bool := flagOf (numberAt p 0 1)

/-- PRESAVE's argument (R91). -/
inductive PresaveArg where
  | off | on | pause | resume
  deriving DecidableEq, Repr

def presaveArg (p : List Byte) : Option PresaveArg :=
  if numberAt p 0 1 = 0 then some .off
  else if numberAt p 0 1 = 1 then some .on
  else if numberAt p 0 1 = 2 then some .pause
  else if numberAt p 0 1 = 3 then some .resume
  else none

/-- RELEASE_POISON: first granule and count, whose range ends below G (R131 step 2). -/
def releaseArgs (granules : Nat) (p : List Byte) : Option (Nat × Nat) :=
  let first := numberAt p 0 4
  let count := numberAt p 4 4
  if count = 0 ∨ granules < first + count then none else some (first, count)

/-- SET_PARAM: the parameters with one of them set, within its range and a whole number of its step (R186). The byte
at offset 1, which the layout gives as zero, is not examined: the model's choice (notes/assumptions/39.md). -/
def setParamArg (ps : Params) (p : List Byte) : Option Params :=
  let v := numberAt p 2 2
  if numberAt p 0 1 = 1 then
    if 50 ≤ v ∧ v ≤ 5000 ∧ v % 10 = 0 then some { ps with storeTimeout := v } else none
  else if numberAt p 0 1 = 2 then
    if 1 ≤ v ∧ v ≤ 1000 then some { ps with presavePace := v } else none
  else if numberAt p 0 1 = 3 then
    if v ≤ 1000 then some { ps with fillPace := v } else none
  else if numberAt p 0 1 = 4 then
    if v ≤ 1440 then some { ps with escalateAfter := v } else none
  else if numberAt p 0 1 = 5 then
    if v ≤ 15 then some { ps with checkThreshold := v } else none
  else none

/-- A wake mode's code (SET_WAKE). -/
def wakeModeOfCode (n : Nat) : Option WakeMode :=
  if n = 0 then some .disabled else if n = 1 then some .edge else if n = 2 then some .hold else none

/-- SET_WAKE: line 0 to 4, mode, hold time up to 10,000 ms in steps of 10 ms (R157). -/
def setWakeArgs (p : List Byte) : Option (Fin 5 × WakeMode × Nat) :=
  match wakeModeOfCode (numberAt p 1 1) with
  | some mode =>
    if h : numberAt p 0 1 < 5 then
      if numberAt p 2 2 ≤ 10000 ∧ numberAt p 2 2 % 10 = 0 then
        some (⟨numberAt p 0 1, h⟩, mode, numberAt p 2 2)
      else none
    else none
  | none => none

/-- REPORT: the position in the enables of a maskable class, fault codes 4 to 13, and the setting (R180, R195). -/
def reportArgs (p : List Byte) : Option (Nat × Bool) :=
  match flagOf (numberAt p 1 1) with
  | some on =>
    if 4 ≤ numberAt p 0 1 ∧ numberAt p 0 1 ≤ 13 then some (numberAt p 0 1 - 4, on) else none
  | none => none

/-- REPORT_ALL: the ten enables; bits 10 to 15 are not examined (R195). -/
def reportAllArg (p : List Byte) : BitVec 10 := BitVec.ofNat 10 (numberAt p 0 2)

/-- ALERT_DISABLE: SET or CLEAR (R179). -/
def alertDisableArg (p : List Byte) : Option Bool := flagOf (numberAt p 0 1)

/-- SNAPSHOT: the nine selections; bits 9 to 15 are not examined (R195). -/
def snapshotArg (p : List Byte) : BitVec 9 := BitVec.ofNat 9 (numberAt p 0 2)

/-- READ_SNAPSHOT: a timer number from 0 to 8 (R190). -/
def timerArg (p : List Byte) : Option (Fin 9) :=
  if h : numberAt p 0 1 < 9 then some ⟨numberAt p 0 1, h⟩ else none

/-! ## The checks of a region table (R34) -/

/-- The table address is a multiple of 512 and lies before the check granule. -/
def tableAddrOk (granules addr : Nat) : Bool :=
  decide (addr % 512 = 0) && decide (addr < Config.granuleBytes * (granules - 1))

/-- A descriptor is not valid, or its class, unit and reach are as R34 allows. -/
def Descriptor.ok (granules : Nat) (d : Descriptor) : Bool :=
  !d.valid ||
    (decide (d.cls.toNat ≤ 3) && decide (d.unit.toNat ≤ 1) && decide (d.last + 2 ≤ granules))

/-- All 32 descriptors pass. -/
def descriptorsOk (granules : Nat) (ds : Vector Descriptor 32) : Bool :=
  ds.toList.all (Descriptor.ok granules)

/-- P: the granules that a file makes preserved (R35). -/
def preservedCount (f : RegionFile) (granules : Nat) : Nat :=
  (List.range granules).countP fun g => (f.classOf granules g).preserved

/-- O: the granules that would be VOID and hold a committed slot after the reload (R35). -/
def orphanCount (f : RegionFile) (tr : Tracker) : Nat :=
  tr.table.countP fun x =>
    decide (x.1 < tr.granules) && x.2.committed.isSome && !(f.classOf tr.granules x.1).preserved

/-- The capacity check: it fails when 2 × P + O is greater than S − R (R35). -/
def capacityOk (preserved orphans slots retired : Nat) : Bool :=
  decide (2 * preserved + orphans + retired ≤ slots)

end Sys2Proof.Machine
end

