-- ==== Sys2Proof/Machine/Faults.lean ====
section
/-! DEFINITION. The Fault Unit's operations: taking a report (R176, R177), the report enables (R180), ALERT (R179)
and CLEAR_FAULT (R182). -/

namespace Sys2Proof.Machine

/-- A report reaches the Fault Unit: one of a reportable class is latched and counted; one of a masked class
changes nothing (R176, R177). `st` is the transition state at that moment. -/
def FaultUnit.take (f : FaultUnit) (c : FaultClass) (addr : Nat) (detail : FaultDetail) (st : TState) : FaultUnit :=
  if f.reportable c then
    FaultUnit.driveAlert
      { f with
        code := some c
        addr := addr
        detail := detail
        stateAt := some st
        count := min (f.count + 1) 255
        error := true }
  else f

/-- CLEAR_FAULT: the count and ERROR are cleared, the latch is kept (R182). -/
def FaultUnit.clear (f : FaultUnit) : FaultUnit := FaultUnit.driveAlert { f with count := 0, error := false }

/-- REPORT: one maskable class is enabled or masked (R180). -/
def FaultUnit.setEnable (f : FaultUnit) (i : Nat) (on : Bool) : FaultUnit :=
  { f with enables := if on then f.enables ||| BitVec.twoPow 10 i else f.enables &&& ~~~(BitVec.twoPow 10 i) }

/-- ALERT_DISABLE (R179). -/
def FaultUnit.setAlertDisable (f : FaultUnit) (on : Bool) : FaultUnit :=
  FaultUnit.driveAlert { f with alertDisable := on }

/-- A block reports a fault (R176). -/
def State.report (s : State) (c : FaultClass) (addr : Nat) (detail : FaultDetail) : State :=
  s.setFaults (s.faults.take c addr detail s.tc.state)

end Sys2Proof.Machine
end

