-- ==== Sys2Proof/Machine/Wake.lean ====
section
/-! DEFINITION. The Wake Unit's line machines (R159, R160), monitoring (R158), the cause record (R161) and its
clearing (R164). -/

namespace Sys2Proof.Machine

/-! ## Starting afresh and monitoring (R157, R158) -/

/-- The machine of a line that is started: by its mode, whether lines are monitored, and its level. -/
def WakeLine.startMachine (l : WakeLine) (monitored : Bool) : WakeMachine :=
  if l.mode = .disabled then .idle
  else if monitored then (if l.level then .blocked else .armed)
  else .idle

/-- A new setting: the machine is started afresh and the HOLD timer stopped (R157). -/
def WakeLine.setting (l : WakeLine) (mode : WakeMode) (hold : Nat) (monitored : Bool) : WakeLine :=
  let l := { l with mode := mode, hold := hold, timer := Timer.stopped }
  { l with machine := l.startMachine monitored }

/-- A line follows a change of the transition state (R158). -/
def WakeLine.follow (l : WakeLine) (before after : Bool) : WakeLine :=
  if l.mode = .disabled then l
  else if !before && after then { l with machine := l.startMachine true }
  else if before && !after then { l with machine := .idle, timer := Timer.stopped }
  else l

/-! ## The line machines -/

/-- A line that is asserted, and whether it qualifies (R159, R160). A hold time of 0 expires as it is loaded. -/
def WakeLine.assert (l : WakeLine) : WakeLine × Bool :=
  let l := { l with level := true }
  match l.mode, l.machine with
  | .edge, .armed => ({ l with machine := .qualified }, true)
  | .hold, .armed =>
    if l.hold = 0 then ({ l with machine := .qualified, timer := Timer.expired }, true)
    else ({ l with machine := .timing, timer := Timer.load l.hold }, false)
  | .hold, .releasing => ({ l with machine := .qualified, timer := Timer.stopped }, false)
  | _, _ => (l, false)

/-- A line that is deasserted (R159, R160). -/
def WakeLine.deassert (l : WakeLine) : WakeLine :=
  let l := { l with level := false }
  match l.mode, l.machine with
  | .edge, .blocked => { l with machine := .armed }
  | .edge, .qualified => { l with machine := .armed }
  | .hold, .blocked => { l with machine := .armed }
  | .hold, .timing => { l with machine := .armed, timer := Timer.stopped }
  | .hold, .qualified =>
    if l.hold = 0 then { l with machine := .armed, timer := Timer.expired }
    else { l with machine := .releasing, timer := Timer.load l.hold }
  | _, _ => l

/-- A line whose HOLD timer expires, and whether it qualifies (R160). -/
def WakeLine.expire (l : WakeLine) : WakeLine × Bool :=
  match l.mode, l.machine with
  | .hold, .timing => ({ l with machine := .qualified, timer := Timer.expired }, true)
  | .hold, .releasing => ({ l with machine := .armed, timer := Timer.expired }, false)
  | _, _ => (l, false)

/-! ## The cause record (R161, R164) -/

/-- A qualification enters the record: the line's count rises, stopping at 15, or the line joins the end (R161). -/
def addCause (cs : List Cause) (line : Fin 5) : List Cause :=
  if cs.any fun c => decide (c.line = line) then
    cs.map fun c => if c.line = line then { c with count := min (c.count + 1) 15 } else c
  else cs ++ [{ line := line, count := 1 }]

/-- The cause record, ESCALATE and the deferred request are cleared, and WAKE_REQ is deasserted (R164). -/
def WakeUnit.clearCauses (w : WakeUnit) : WakeUnit :=
  { w with causes := [], escalate := false, deferred := false, wakeReq := false }

/-- The lines with one of them changed. -/
def WakeUnit.setLine (w : WakeUnit) (i : Fin 5) (l : WakeLine) : WakeUnit := { w with lines := w.lines.set i l }

/-- Every line follows a change of the transition state (R158). -/
def WakeUnit.follow (w : WakeUnit) (before after : TState) : WakeUnit :=
  { w with lines := Vector.ofFn fun i : Fin 5 => w.lines[i].follow before.monitored after.monitored }

/-- The states whose entry turns a deferred request into WAKE_REQ (R163). -/
def TState.servesDeferred : TState → Bool
  | .sleeping | .imagedOff | .active | .restoring | .unconfigured => true
  | _ => false

/-- A state is entered: a deferred request is served there (R163). -/
def WakeUnit.serveDeferred (w : WakeUnit) (st : TState) : WakeUnit :=
  if w.deferred && st.servesDeferred then { w with deferred := false, wakeReq := true } else w

end Sys2Proof.Machine
end

