-- ==== Sys2Proof/Machine/Claims.lean ====
section
/-! DEFINITION. Every claim on the Granule Tracker (Section 1): what it makes of a record, the slots it releases, and
what the tracker hands on to the Image Engine (R6). -/

namespace Sys2Proof.Machine

/-! ## What each claim makes of a record -/

/-- A write taken (R9). -/
def GRec.write (r : GRec) : GRec :=
  match r.st with
  | .clean => { r with st := .dirty }
  | .copying => { r with st := .recopy }
  | .saved => { r with st := .dirty, pending := none }
  | _ => r

/-- The slots a write taken releases (R9). -/
def GRec.writeFrees (r : GRec) : List Nat :=
  match r.st with
  | .saved => r.pending.toList
  | _ => []

/-- A copy start with a slot (R12). -/
def GRec.copyStart (slot : Nat) (r : GRec) : GRec :=
  match r.st with
  | .dirty => { r with st := .copying, pending := some slot }
  | _ => r

/-- A copy end answered GOOD (R13). -/
def GRec.copyGood (r : GRec) : GRec :=
  match r.st with
  | .copying => { r with st := .saved }
  | .recopy => { r with st := .dirty, pending := none }
  | _ => r

/-- The slots a copy end answered GOOD releases (R13). -/
def GRec.copyGoodFrees (r : GRec) : List Nat :=
  match r.st with
  | .recopy => r.pending.toList
  | _ => []

/-- A copy end answered MEDIA_ERROR or BAD_BLOCK (R14), and the claim on a copy's granule at a rail loss
(R149 step 4): DIRTY, the pending slot field cleared. -/
def GRec.copyLost (r : GRec) : GRec :=
  match r.st with
  | .copying | .recopy => { r with st := .dirty, pending := none }
  | _ => r

/-- The commit (R16). -/
def GRec.commit (r : GRec) : GRec :=
  match r.st with
  | .saved => { r with st := .clean, committed := r.pending, pending := none }
  | .poison | .void => { r with committed := none }
  | _ => r

/-- The slots the commit releases (R16). -/
def GRec.commitFrees (r : GRec) : List Nat :=
  match r.st with
  | .saved | .poison | .void => r.committed.toList
  | _ => []

/-- Abandonment of the open epoch (R17). -/
def GRec.abandon (r : GRec) : GRec :=
  match r.st with
  | .saved => { r with st := .dirty, pending := none }
  | _ => r

/-- The slots an abandonment releases (R17). -/
def GRec.abandonFrees (r : GRec) : List Nat :=
  match r.st with
  | .saved => r.pending.toList
  | _ => []

/-- A fill start (R18). -/
def GRec.fillStart (r : GRec) : GRec :=
  match r.st with
  | .absent => { r with st := .filling }
  | _ => r

/-- A fill end answered GOOD (R19). -/
def GRec.fillGood (r : GRec) : GRec :=
  match r.st with
  | .filling => { r with st := if r.cls.preserved then .clean else .void }
  | _ => r

/-- A fill end answered MEDIA_ERROR or BAD_BLOCK, which happens to preserved granules only (R19). -/
def GRec.fillBad (r : GRec) : GRec :=
  match r.st with
  | .filling => if r.cls.preserved then { r with st := .poison, committed := none } else r
  | _ => r

/-- A release of poison (R20). -/
def GRec.releasePoison (r : GRec) : GRec :=
  match r.st with
  | .poison => { r with st := .dirty }
  | _ => r

/-- DRAM-loss marking (R21). -/
def GRec.dramLoss (r : GRec) : GRec :=
  match r.st with
  | .clean => { r with st := .absent }
  | .dirty => { r with st := .poison }
  | .saved | .copying | .recopy => { r with st := .poison, pending := none }
  | .filling => { r with st := .absent }
  | .void => if r.cls = .zero then { r with st := .absent, committed := none } else r
  | .absent | .poison => r

/-- The slots a DRAM-loss marking releases (R21). The slot of a copy in flight stays with the copy. -/
def GRec.dramLossFrees (r : GRec) : List Nat :=
  match r.st with
  | .saved => r.pending.toList
  | .void => if r.cls = .zero then r.committed.toList else []
  | _ => []

/-- Store DOWN (R22). -/
def GRec.storeDown (r : GRec) : GRec :=
  let st :=
    match r.st with
    | .clean | .saved | .copying | .recopy => .dirty
    | .absent | .filling => if r.cls.preserved then .poison else r.st
    | st => st
  { r with st := st, committed := none, pending := none }

/-- Whether store DOWN makes a record POISON, and so hands on a left-ABSENT notice (R22). -/
def GRec.poisonedByDown (r : GRec) : Bool := r.st.countsAbsent && r.cls.preserved

/-- The region reload, with the class from the new file (R24). -/
def GRec.reload (cls : GClass) (r : GRec) : GRec :=
  match r.cls.preserved, cls.preserved with
  | false, true => { r with st := .dirty, pending := none, cls := cls }
  | true, true => { r with cls := cls }
  | true, false => { r with st := .void, pending := none, cls := cls }
  | false, false => { r with st := .void, cls := cls }

/-- The record that a resume builds from an index entry and a class (R25). -/
def GRec.resume (entry : IndexEntry) (cls : GClass) : GRec :=
  if cls.preserved then
    match entry with
    | .slot n => { st := .absent, committed := some n, pending := none, cls := cls }
    | .lost | .none => { st := .poison, committed := none, pending := none, cls := cls }
  else if cls = .zero then { st := .absent, committed := none, pending := none, cls := cls }
  else { st := .void, committed := none, pending := none, cls := cls }

/-- Whether a claim took a record into DIRTY from another state (R6). -/
def GRec.entersDirty (before after : GRec) : Bool := decide (after.st = .dirty) && decide (before.st ≠ .dirty)

/-! ## What a claim hands on (R6) -/

namespace State

/-- An entered-DIRTY notice: a SET mark becomes CLEARING and a mark clear is queued (R6, R97). -/
def noticeDirty (s : State) : State :=
  if s.engine.mark = .set then s.setEngine { s.engine with mark := .clearing, markClearQueued := true } else s

/-- Slots join the tail of the free slot queue (R82), which clears the exhaustion noted flag (R94). -/
def appendSlots (s : State) (slots : List Nat) : State :=
  if slots.isEmpty then s
  else s.setEngine { s.engine with freeSlots := s.engine.freeSlots ++ slots, exhaustionNoted := false }

/-- A claim on one granule, with what it hands on. -/
def claim (s : State) (g : Nat) (f : GRec → GRec) (frees : GRec → List Nat) : State :=
  let r := s.recOf g
  let s := (s.setTracker (s.tracker.putRec g (f r))).appendSlots (frees r)
  if r.entersDirty (f r) then s.noticeDirty else s

/-- A claim that releases no slots. -/
def claimKeep (s : State) (g : Nat) (f : GRec → GRec) : State := s.claim g f fun _ => []

/-- A claim on every granule, in ascending number, with what it hands on. -/
def claimAll (s : State) (f : Nat → GRec → GRec) (frees : GRec → List Nat) : State :=
  let t := s.tracker.table
  let s := (s.setTracker (s.tracker.mapRecs f)).appendSlots (t.flatMap fun x => frees x.2)
  if t.any fun x => x.2.entersDirty (f x.1 x.2) then s.noticeDirty else s

/-! ## The claims -/

/-- A write taken on a granule (R9). -/
def claimWrite (s : State) (g : Nat) : State := s.claim g GRec.write GRec.writeFrees

/-- A copy start on a granule with the head of the free slot queue (R12). -/
def claimCopyStart (s : State) (g slot : Nat) : State :=
  (s.setEngine { s.engine with freeSlots := s.engine.freeSlots.tail }).claimKeep g (GRec.copyStart slot)

/-- A copy end answered GOOD (R13). -/
def claimCopyGood (s : State) (g : Nat) : State := s.claim g GRec.copyGood GRec.copyGoodFrees

/-- A copy's granule becomes DIRTY and its pending slot field is cleared (R14, R149). -/
def claimCopyLost (s : State) (g : Nat) : State := s.claimKeep g GRec.copyLost

/-- The commit claim (R16). -/
def claimCommit (s : State) : State := s.claimAll (fun _ => GRec.commit) GRec.commitFrees

/-- The abandonment claim (R17). -/
def claimAbandon (s : State) : State := s.claimAll (fun _ => GRec.abandon) GRec.abandonFrees

/-- The fill start claim; the granule leaves the fill list (R18, R115). -/
def claimFillStart (s : State) (g : Nat) : State :=
  (s.setEngine { s.engine with fillList := s.engine.fillList.filter fun x => decide (x ≠ g) }).claimKeep g
    GRec.fillStart

/-- The fill end claim, answered GOOD (R19). -/
def claimFillGood (s : State) (g : Nat) : State := s.claimKeep g GRec.fillGood

/-- The fill end claim, answered otherwise (R19). -/
def claimFillBad (s : State) (g : Nat) : State := s.claimKeep g GRec.fillBad

/-- The release of poison over a range (R20). -/
def claimRelease (s : State) (first count : Nat) : State :=
  s.claimAll (fun g r => if first ≤ g ∧ g < first + count then r.releasePoison else r) fun _ => []

/-- The number of POISON granules of a range (R131). -/
def poisonIn (s : State) (first count : Nat) : Nat :=
  s.tracker.table.countP fun x =>
    decide (first ≤ x.1) && decide (x.1 < first + count) && decide (x.2.st = .poison)

/-- The DRAM-loss marking claim (R21). -/
def claimDramLoss (s : State) : State := s.claimAll (fun _ => GRec.dramLoss) GRec.dramLossFrees

/-- The store DOWN claim, which hands on no slots and no entered-DIRTY notice (R22, R6). -/
def claimStoreDown (s : State) : State := s.setTracker (s.tracker.mapRecs fun _ => GRec.storeDown)

/-- The granules that a store DOWN makes POISON (R22). -/
def poisonedByDown (s : State) : List Nat :=
  (s.tracker.table.filter fun x => x.2.poisonedByDown).map Prod.fst

/-- The clearing claim (R23); no DRAM size is known after it (notes/assumptions/20.md). -/
def claimClear (s : State) : State := s.setTracker Tracker.reset

/-- The region reload claim under the region file in force (R24). -/
def claimReload (s : State) : State :=
  let old := s.tracker.table
  let new := GTable.build s.granules fun g =>
    (GTable.get old g).reload (s.region.file.classOf s.granules g)
  let s := s.setTracker (s.tracker.withTable new)
  if new.any fun x => (GTable.get old x.1).entersDirty x.2 then s.noticeDirty else s

/-- The resume build claim under the region file in force (R25). -/
def claimResume (s : State) (index : List IndexEntry) : State :=
  s.setTracker (s.tracker.withTable (GTable.build s.granules fun g =>
    GRec.resume (index.getD g .none) (s.region.file.classOf s.granules g)))

end State

end Sys2Proof.Machine
end

