-- ==== Sys2Proof/Machine/Requests.lean ====
section
/-! DEFINITION. The Request Unit's judgement of requests (Section 3) and the Region Unit's written flags and
write-backs (Section 2, 2-7): what a request becomes when it is judged, completed, held and released. -/

namespace Sys2Proof.Machine

namespace State

/-! ## Written flags and write-backs (R41 to R44) -/

/-- The line that holds the flag byte of descriptor `n` of a table (R42). -/
def flagLine (tableAddr : Nat) (n : Fin 32) : Nat := (tableAddr + 16 * n.val) / Config.lineBytes

/-- The granule that holds a table: a table never crosses into another one (R34). -/
def tableGranule (tableAddr : Nat) : Nat := tableAddr / Config.granuleBytes

/-- A write-back is issued: an engine access to the flag byte, claimed as a write (R42). -/
def issueWriteBack (s : State) (tableAddr : Nat) (n : Fin 32) : State :=
  (s.present (.writeBack n.val) (flagLine tableAddr n)).claimWrite (tableGranule tableAddr)

/-- The write-back of a flag just set: skipped, owed, or issued (R42, R43, R44). -/
def writeBack (s : State) (n : Fin 32) : State :=
  match s.region.file.tableAddr with
  | none => s
  | some a =>
    let r := s.recOf (tableGranule a)
    if r.cls = .fixed then s
    else if r.st.countsAbsent then
      s.setRegion
        { s.region with file := { s.region.file with owed := s.region.file.owed ||| BitVec.twoPow 32 n.val } }
    else s.issueWriteBack a n

/-- A taken write sets its governing descriptor's written flag, if it is clear, and begins its write-back (R41). -/
def markWritten (s : State) (g : Nat) : State :=
  match s.region.file.governing s.granules g with
  | none => s
  | some n =>
    let d := s.region.file.descs[n]
    if d.written then s
    else
      (s.setRegion
        { s.region with
          file := { s.region.file with descs := s.region.file.descs.set n { d with written := true } } }).writeBack n

/-- A descriptor's owed flag is cleared (R44). -/
def clearOwed (s : State) (n : Fin 32) : State :=
  s.setRegion
    { s.region with file := { s.region.file with owed := s.region.file.owed &&& ~~~(BitVec.twoPow 32 n.val) } }

/-- An owed write-back is issued and its owed flag cleared (R44). Where the table's granule is of FIXED class, which
only the file of a header can bring about (R46), it is not performed (R9, R42, R43), and its flag is cleared with the
others (notes/assumptions/34.md). -/
def payOwed (s : State) (tableAddr : Nat) (n : Fin 32) : State :=
  if s.region.file.owed.getLsbD n.val then
    if (s.recOf (tableGranule tableAddr)).cls = .fixed then s.clearOwed n
    else (s.clearOwed n).issueWriteBack tableAddr n
  else s

/-- The left-ABSENT notice at the Region Unit: the owed write-backs of the table are issued in ascending descriptor
number when its granule is among those that left (R44). -/
def payOwedIn (s : State) (left : List Nat) : State :=
  match s.region.file.tableAddr with
  | none => s
  | some a =>
    if left.contains (tableGranule a) then (List.finRange 32).foldl (fun s n => s.payOwed a n) s else s

/-! ## The fill list (R115) -/

/-- The list without the oldest granule on which no request is held with reason FILL (R115,
notes/assumptions/27.md). -/
def evict (held : Nat → Bool) : List Nat → List Nat
  | [] => []
  | g :: gs => if held g then g :: evict held gs else gs

/-- A granule joins the tail of the fill list, unless it is listed (R10, R115). -/
def joinFillList (s : State) (g : Nat) : State :=
  let l := s.engine.fillList
  if l.contains g then s
  else
    let kept := if l.length < Config.fillListSize then l else evict s.ru.fillHeld l
    s.setEngine { s.engine with fillList := kept ++ [g] }

/-! ## Judgement (R52) -/

end State

/-- How a judged request is settled (R52). -/
inductive Judgement where
  | untracked | range | fixedWrite | commitHold | fillHold | poisonRead | proceed
  deriving DecidableEq, Repr

/-- Whether the part answers the request itself, at once (3-4). -/
def Judgement.answered : Judgement → Bool
  | .range | .fixedWrite | .poisonRead => true
  | _ => false

namespace State

/-- The first way that applies (R52, R8, R10). -/
def judgement (s : State) (e : Entry) : Judgement :=
  if s.tc.state = .unconfigured then .untracked
  else if Config.granuleBytes * s.granules ≤ e.addr then .range
  else if e.kind = .write ∧ e.cls = some .fixed then .fixedWrite
  else if e.kind = .write ∧ s.tc.state = .committing then .commitHold
  else if (s.recOf e.granule).st.countsAbsent then .fillHold
  else if e.kind = .read ∧ (s.recOf e.granule).st = .poison then .poisonRead
  else .proceed

/-- The 64 zero bytes of a masked read (R54, R56). -/
def zeroLine : List Byte := List.replicate Config.lineBytes 0

/-- A request that the part answers itself leaves the table with a completion: the class's own status and a report
where the class is enabled, GOOD (a READ with zeros) where it is masked (R54, R55, R56). -/
def answer (s : State) (e : Entry) (c : FaultClass) (status : CompletionStatus) : State :=
  let s := s.setRu (s.ru.drop e.tag)
  if s.faults.reportable c then
    (s.report c e.addr (.number 0)).sendCompletion { tag := e.tag, status := status, data := [] }
  else
    s.sendCompletion { tag := e.tag, status := .good, data := if e.kind = .read then zeroLine else [] }

/-- An entry becomes ISSUED and its access joins the DRAM Port's queue (R53). -/
def issue (s : State) (e : Entry) : State :=
  let s := s.updateEntry e.tag fun x => { x with st := .issued none }
  match e.kind with
  | .read => s.enqueue { src := .upRead e.tag true, line := e.line }
  | .write => s.enqueue { src := .upWrite e.tag true e.data e.enables, line := e.line }

/-- An entry becomes HELD (R57). -/
def hold (s : State) (e : Entry) (reason : Hold) : State :=
  s.updateEntry e.tag fun x => { x with st := .held reason }

/-- A hold with reason FILL: an ABSENT granule is listed, a FILLING one is not (R10, R59). -/
def holdFill (s : State) (e : Entry) : State :=
  let s := s.hold e .fill
  if (s.recOf e.granule).st = .absent then s.joinFillList e.granule else s

/-- A request issued after its verdict: a WRITE is taken with the same event (R53, R9, R41). -/
def proceed (s : State) (e : Entry) : State :=
  match e.kind with
  | .read => s.issue e
  | .write => ((s.issue e).claimWrite e.granule).markWritten e.granule

/-- One entry is judged and settled (R52). -/
def settleEntry (s : State) (e : Entry) : State :=
  match s.judgement e with
  | .untracked => s.issue e
  | .range => s.answer e .range .range
  | .fixedWrite => s.answer e .fixedWrite .refused
  | .commitHold => s.hold e .commit
  | .fillHold => s.holdFill e
  | .poisonRead => s.answer e .poisonRead .poisoned
  | .proceed => s.proceed e

/-- After an entry of a line has left the table, its oldest entry, if it is WAITING, is judged; and the next one,
where that one is answered at once (R51). -/
def judgeLine : Nat → Nat → State → State
  | 0, _, s => s
  | fuel + 1, line, s =>
    match s.ru.oldest line with
    | none => s
    | some e =>
      if e.st = .waiting then
        let s' := s.settleEntry e
        if (s.judgement e).answered then judgeLine fuel line s' else s'
      else s

/-- An entry is judged, and the entries that wait behind it where it is answered at once (R51, R52). -/
def judge (s : State) (e : Entry) : State :=
  let s' := s.settleEntry e
  if (s.judgement e).answered then judgeLine s.ru.table.length e.line s' else s'

/-- An earlier entry for the line of an entry is in the table (R51). -/
def behind (s : State) (e : Entry) : Bool :=
  match s.ru.oldest e.line with
  | some o => decide (o.tag ≠ e.tag)
  | none => false

/-- An entry made or released at arrival's rules becomes WAITING behind an earlier one for its line, or is judged
(R51, R57). -/
def takeUp (s : State) (e : Entry) : State :=
  if s.behind e then s.updateEntry e.tag fun x => { x with st := .waiting } else s.judge e

/-- The class the Region Unit gives for an entry's granule now (R33, R50). -/
def classify (s : State) (e : Entry) : Entry := { e with cls := some (s.region.file.classOf s.granules e.granule) }

/-! ## Releases (R57) -/

/-- One held entry is released: held at arrival, it is classified first; held at judgement, it is judged again. -/
def release (reason : Hold) (s : State) (tag : BitVec 5) : State :=
  match s.ru.find tag with
  | none => s
  | some e =>
    if e.st = .held reason then
      match reason with
      | .regionLoad | .parking =>
        let e := s.classify e
        (s.updateEntry tag fun _ => e).takeUp e
      | .fill | .commit => s.judge e
    else s

/-- The entries held with a reason are released in order of arrival. -/
def releaseAll (s : State) (reason : Hold) : State := (s.ru.heldTags reason).foldl (release reason) s

/-- The left-ABSENT notice for some granules: their FILL-held requests are released in order of arrival, and then
the owed write-backs whose table they hold are issued (R6, R59, R122 steps 3 and 4). -/
def leftAbsent (s : State) (left : List Nat) : State :=
  let tags := (s.ru.table.filter fun e =>
    decide (e.st = .held .fill) && left.contains e.granule).map Entry.tag
  (tags.foldl (release .fill) s).payOwedIn left

/-! ## Completion and discard -/

/-- The completion GOOD of an issued request: its entry leaves the table and the line's next one is judged
(R53, R51). -/
def complete (s : State) (e : Entry) (data : List Byte) : State :=
  let s := (s.setRu (s.ru.drop e.tag)).sendCompletion { tag := e.tag, status := .good, data := data }
  judgeLine s.ru.table.length e.line s

/-- An access whose request has been discarded is performed without one (R65). -/
def Source.orphan : Source → Source
  | .upRead tag _ => .upRead tag false
  | .upWrite tag _ data enables => .upWrite tag false data enables
  | .engine o => .engine o

/-- Every entry of the request table is discarded without completion; accesses already issued stay (R65). -/
def discardTable (s : State) : State :=
  (s.setRu { s.ru with table := [] }).setDram
    { s.dram with queue := s.dram.queue.map fun a => { a with src := Source.orphan a.src } }

/-- The line address of the oldest entry held with reason COMMIT (R109). -/
def oldestCommitHeld (s : State) : Option Nat :=
  (s.ru.table.find? fun e => decide (e.st = .held .commit)).map Entry.addr

end State

end Sys2Proof.Machine
end

