-- ==== Sys2Proof/Machine/Transitions.lean ====
section
/-! DEFINITION. The Transition Controller: entering a state, the outcome record, the returns and failures of an
entry, parking and its undoing, IMAGED_OFF, the UNCONFIGURED path and the course of a rail loss (Section 7, with
R102 to R110). -/

namespace Sys2Proof.Machine

/-! ## Timers that follow the transition state -/

/-- The PACE timer at a load with PRESAVE_PACE (R92). -/
def ImageEngine.paceLoaded (e : ImageEngine) (pace : Nat) : Timer :=
  { status := if e.presavePaused then .gated else .running, count := pace }

/-- The PACE timer at a change of state (R92). -/
def ImageEngine.paceAt (e : ImageEngine) (pace : Nat) (before after : TState) : Timer :=
  if after.running && !before.running then (if e.presaveOn then e.paceLoaded pace else e.paceTimer)
  else if before.running && !after.running then Timer.stopped
  else e.paceTimer

/-- The FILL timer and the background grant at a change of state (R117). -/
def ImageEngine.fillAt (e : ImageEngine) (pace : Nat) (before after : TState) : Timer × Bool :=
  if after = .restoring ∧ before ≠ .restoring then
    if pace = 0 then (Timer.stopped, true) else (Timer.load pace, false)
  else if before = .restoring ∧ after ≠ .restoring then (Timer.stopped, false)
  else (e.fillTimer, e.grant)

/-- The SLEEP timer at a change of state (R145): minutes to ms. -/
def TransitionController.sleepAt (t : TransitionController) (minutes : Nat) (before after : TState) : Timer :=
  if after = .sleeping ∧ before ≠ .sleeping then
    if minutes = 0 then Timer.stopped else Timer.load (60000 * minutes)
  else if before = .sleeping ∧ after ≠ .sleeping then Timer.stopped
  else t.sleepTimer

namespace State

/-! ## A change of the transition state -/

/-- A transition state is entered: the PACE, FILL and SLEEP timers (R92, R117, R145), the monitoring of the wake lines
(R158) and the deferred request (R163) follow in the same event. -/
def enterState (s : State) (st : TState) : State :=
  let old := s.tc.state
  let fill := s.engine.fillAt s.side.params.fillPace old st
  let s := s.setEngine
    { s.engine with
      paceTimer := s.engine.paceAt s.side.params.presavePace old st
      fillTimer := fill.1
      grant := fill.2 }
  let s := s.setTc { s.tc with state := st, sleepTimer := s.tc.sleepAt s.side.params.escalateAfter old st }
  s.setWake ((s.wake.follow old st).serveDeferred st)

/-- ACTIVE or RESTORING is entered, by the absent total (R113, R142). -/
def enterRunning (s : State) : State := s.enterState s.returnTarget

/-! ## The outcome record (R154, R155) -/

/-- The passes of a record: the pass count for HYBRID and HIBERNATE, 0 for the others (R155). -/
def passesOf (s : State) (op : LongOp) : Nat :=
  if op = .hybrid ∨ op = .hibernate then s.engine.passes else 0

/-- The record is written whole (R154). -/
def writeOutcome (s : State) (op : LongOp) (result : OutcomeResult) (reason : OutcomeReason) : State :=
  s.setTc { s.tc with outcome := { op := op, result := result, reason := reason, passes := s.passesOf op } }

/-- A new origin (R133). -/
def setOrigin (s : State) (op : LongOp) : State := s.setTc { s.tc with origin := op }

/-! ## Returns and failures of an entry -/

/-- The result of an abort of a kind (R110, R142). -/
def abortResult : AbortKind → OutcomeResult
  | .wake => .abortedWake
  | .request => .abortedRequest
  | .traffic => .abortedTraffic

/-- The commit in progress, if any, is over. -/
def endCommit (s : State) : State :=
  s.setEngine
    { s.engine with commitPhase := .none, builtIndex := { bytes := [], length := 0 }, builtHeader := none }

/-- An abort returns the part from SAVING or COMMITTING (R110). -/
def returnEntry (s : State) (kind : AbortKind) : State :=
  let s := s.enterRunning
  let s := s.setTc { s.tc with waitingAbort := none }
  let s := s.releaseAll .commit
  let s := s.report .entryAborted 0 (.number 0)
  s.writeOutcome s.tc.origin (abortResult kind) .none

/-- An entry fails: the part returns, and COMMIT-held writes are released and judged in the state entered (R103,
R107, R109, R111). -/
def failEntry (s : State) (reason : OutcomeReason) : State :=
  let s := s.endCommit.enterRunning
  let s := s.setTc { s.tc with waitingAbort := none }
  let s := s.releaseAll .commit
  s.writeOutcome s.tc.origin .failed reason

/-! ## SAVING and the commit's wait -/

/-- SAVING, with no rail loss and no copy in flight: a waiting abort returns (R110); nothing dirty leads to COMMITTING
(R102, R104); nothing to copy into fails the entry (R103). -/
def savingTest (s : State) : State :=
  if s.tc.state = .saving ∧ s.tc.railLoss = false ∧ s.copyInFlight = false then
    match s.tc.waitingAbort with
    | some kind => s.returnEntry kind
    | none =>
      if s.tracker.dirtyTotal = 0 then
        let s := s.enterState .committing
        s.setEngine { s.engine with commitPhase := .waiting }
      else if s.engine.freeSlots = [] then
        (s.report .slotExhausted ((s.tracker.dirtyScan 0).getD 0) (.number 0)).failEntry .slots
      else s
  else s

/-- The commit leaves WAITING with its index built (R104, R16). -/
def buildIndex (s : State) : State :=
  s.setEngine { s.engine with commitPhase := .index, builtIndex := indexBlock s.tracker.table }

/-- COMMITTING in phase WAITING: with no fill in flight, a dirty granule returns the part to SAVING, where no rail
loss is in progress; with no fill, no mark clear and nothing dirty the index is built (R104, R152). -/
def commitWait (s : State) : State :=
  if s.tc.state = .committing ∧ s.engine.commitPhase = .waiting ∧ s.fillsRunning = false then
    if s.tracker.dirtyTotal = 0 then
      if s.markClearPending then s else s.buildIndex
    else if s.tc.railLoss then s
    else
      let s := s.enterState .saving
      let s := s.setEngine { s.engine with commitPhase := .none }
      s.releaseAll .commit
  else s

/-- RESTORING with nothing ABSENT or FILLING becomes ACTIVE (R113). -/
def restoringTest (s : State) : State :=
  if s.tc.state = .restoring ∧ s.tc.railLoss = false ∧ s.anyAbsent = false then s.enterState .active else s

/-! ## Parking (R140 to R142) -/

/-- PARKING is entered in phase DRAIN (R139). -/
def enterParking (s : State) : State :=
  let s := s.enterState .parking
  s.setTc { s.tc with parkPhase := .drain, parkStoreDown := false }

/-- The return of a park (R142). -/
def parkReturn (s : State) (kind : AbortKind) : State :=
  let s := s.enterRunning
  let s := s.setTc { s.tc with parkPhase := .none, waitingAbort := none, parkStoreDown := false }
  let s := s.releaseAll .parking
  let s := s.report .entryAborted 0 (.number 0)
  s.writeOutcome s.tc.origin (abortResult kind) .none

/-- A park is aborted: the first abort gives the kind, and the park is undone by its phase (R142). In PATTERN the
write being performed ends first. -/
def parkAbort (s : State) (kind : AbortKind) : State :=
  match s.tc.waitingAbort with
  | some _ => s
  | none =>
    match s.tc.parkPhase with
    | .drain => s.parkReturn kind
    | .pattern => s.setTc { s.tc with waitingAbort := some kind }
    | .srEntry => s.setTc { s.tc with waitingAbort := some kind, parkPhase := .undo }
    | .none | .undo => s

/-- The seed of the check pattern for a park count (R167). -/
def seedOf (parkCount : Nat) : BitVec 23 := BitVec.ofNat 23 (parkCount + 1)

/-- The pattern write begins and its first line is presented, which disarms an armed inject flag (R141, R168,
notes/assumptions/14.md). -/
def beginPattern (s : State) : State :=
  let n := (s.dram.parkCount + 1) % 65536
  let s := s.setTc { s.tc with parkPhase := .pattern }
  let s := s.setDram
    { s.dram with
      parkCount := n
      generator := seedOf n
      checkPhase := .writing
      inject := false
      invertFirst := s.dram.inject }
  s.present .pattern (firstLine s.checkGranule)

/-- The drain of a park is over when the table is empty, the Store Port idle, no mark clear queued and no fill in
flight (R140). -/
def parkTest (s : State) : State :=
  if s.tc.state = .parking ∧ s.tc.parkPhase = .drain ∧ s.tc.railLoss = false ∧ s.ru.table = [] ∧
      s.store.op = none ∧ s.engine.markClearQueued = false ∧ s.fillsRunning = false then
    s.beginPattern
  else s

/-- Self-refresh entry begins once the pattern is written (R141). -/
def beginSelfRefresh (s : State) : State :=
  (s.setTc { s.tc with parkPhase := .srEntry }).setDram { s.dram with cond := .enteringSr, checkPhase := .idle }

/-- SLEEPING is entered (R141). -/
def enterSleeping (s : State) : State :=
  let reason := if s.tc.parkStoreDown then OutcomeReason.store else .none
  let s := s.setTc { s.tc with parkPhase := .none, parkStoreDown := false }
  let s := s.enterState .sleeping
  s.writeOutcome s.tc.origin .completed reason

/-! ## DRAM-loss marking and IMAGED_OFF (R123, R147) -/

/-- An operation on the link is disregarded (R71). -/
def disregardOp (s : State) : State :=
  s.setStore { s.store with op := s.store.op.map fun o => { o with disregarded := true } }

/-- The operation on the link is disregarded when it is a copy or a fill (R71, R123). -/
def disregardData (s : State) : State :=
  match s.store.op with
  | none => s
  | some o =>
    match o.purpose with
    | .copy _ _ | .fill _ => s.disregardOp
    | _ => s

/-- The transfers that a marking or a rail loss stops: copies, fills and zero fills (R123). -/
def Owner.moves : Owner → Bool
  | .copy | .fill _ | .zeroFill => true
  | _ => false

/-- Every copy, fill and zero fill in flight is disregarded and presents no further accesses (R71, R123). -/
def disregardTransfers (s : State) : State :=
  let s := s.disregardData.withdraw Owner.moves
  s.setEngine { s.engine with fills := [], zeroFill := none }

/-- The DRAM-loss marking, with the Image Engine's actions (R21, R123). -/
def markDramLoss (s : State) : State := s.disregardTransfers.claimDramLoss

/-- IMAGED_OFF is entered (R147). Entries of the request table that wait or are held as HIBERNATE comes here stay in
it, and so do accesses that wait at the DRAM Port: the model's choice (notes/assumptions/35.md, 15.md). -/
def enterImagedOff (s : State) : State :=
  let s := s.markDramLoss
  let s := s.setDram { s.dram with cond := .notUp }
  let s := s.setTc { s.tc with railLoss := false, parkPhase := .none, sleepTimer := Timer.stopped }
  let s := s.setEngine { s.engine with paceTimer := Timer.stopped, fillTimer := Timer.stopped, grant := false }
  s.enterState .imagedOff

/-! ## The UNCONFIGURED path (R151) -/

/-- DRAM bring-up begins (R135). -/
def beginBringUp (s : State) : State := s.setDram { s.dram with cond := .bringingUp }

/-- Bring-up begins where both rails are asserted and DRAM is NOT_UP (R49, R135). -/
def bringUpIfReady (s : State) : State :=
  if s.railsOk ∧ s.dram.cond = .notUp then s.beginBringUp else s

/-- The Image Engine's part of the UNCONFIGURED path (R151 step 2, R90, R114). -/
def clearEngine (s : State) : State :=
  s.endCommit.setEngine
    { s.endCommit.engine with
      freeSlots := []
      retired := []
      fillList := []
      presaveCursor := 0
      fillCursor := 0
      mark := .clear
      markClearQueued := false
      headerRecord := none
      fillTimer := Timer.stopped
      grant := false
      fills := []
      zeroFill := none
      bringUp := none }

/-- The UNCONFIGURED path up to its last step (R151 steps 1 to 5). -/
def toUnconfigured (s : State) : State :=
  let s := (s.claimAbandon.claimClear).clearEngine
  let s := s.setRegion { s.region with file := RegionFile.empty }
  let s := s.disregardOp
  let s := s.setStore { s.store with status := .detached }
  let s := s.setTc { s.tc with railLoss := false, start := none, parkPhase := .none }
  s.enterState .unconfigured

/-! ## The course of a rail loss (R150, R152) -/

/-- The record at the end of a rail loss (R155): the interrupted operation's, or RAIL_LOSS with the result given. -/
def railLossOutcome (s : State) (result : OutcomeResult) : State :=
  let s :=
    if s.tc.interrupted = .none then s.writeOutcome .railLoss result .railLoss
    else s.writeOutcome s.tc.interrupted .failed .railLoss
  s.setTc { s.tc with interrupted := .none }

/-- A rail loss ends in IMAGED_OFF (R147, R155). -/
def railLossToImagedOff (s : State) : State := s.enterImagedOff.railLossOutcome .completed

/-- A rail loss ends in UNCONFIGURED (R151, R155). -/
def railLossToUnconfigured (s : State) : State :=
  (s.toUnconfigured.railLossOutcome .failed).bringUpIfReady

/-- Where a rail loss in progress goes on to, as soon as what it waits for has ended (R150, R152). -/
def railCourse (s : State) : State :=
  if s.tc.railLoss then
    match s.tc.state with
    | .starting => s.railLossToUnconfigured
    | .committing =>
      if s.engine.commitPhase = .none then s.railLossToImagedOff
      else if s.engine.commitPhase = .waiting ∧ s.tracker.dirtyTotal ≠ 0 ∧ s.markClearPending = false then
        (s.endCommit).railLossToImagedOff
      else s
    | _ =>
      if s.engine.mark = .set then s.railLossToImagedOff
      else if s.markClearPending then s
      else s.railLossToUnconfigured
  else s

end State

end Sys2Proof.Machine
end

