-- ==== Sys2Proof/Machine/StoreLink.lean ====
section
/-! DEFINITION. The Store Port and the Image Engine's choices: sending an operation (R68), store DOWN (R79),
retirement (R81), the store arbiter (R83), the zero-fill choice (R84, R116, R118), the steps of START, and `settle`,
which lets every block that waits for a condition test it. -/

namespace Sys2Proof.Machine

namespace State

/-! ## Sending (R68, R70) -/

/-- A request frame is sent: the operation number rises and the STORE timer is loaded (R68, R70). -/
def sendOp (s : State) (kind : FrameKind) (block : Nat) (payload : Frame) (purpose : Purpose) : State :=
  let n := s.store.opNum + 1
  s.setStore
    { s.store with
      opNum := n
      timer := Timer.load s.side.params.storeTimeout
      op := some
        { num := n, kind := kind, block := block, payload := payload, purpose := purpose, disregarded := false } }

/-- A frame that carries no block. -/
def noPayload : Frame := { bytes := [], length := 0 }

/-- The Store Port may send: it is IDLE and the hold-back flag is clear (R68, R191). -/
def storeFree (s : State) : Bool := s.store.op.isNone && s.store.holdBack.isNone

/-! ## The end of START and ATTACH_STORE -/

/-- START ends, and leaves STARTING for a running state (R138). -/
def finishStart (s : State) (reason : OutcomeReason) (st : TState) : State :=
  let s := s.setEngine { s.engine with bringUp := none }
  let s := s.setTc { s.tc with start := none }
  (s.enterState st).writeOutcome .start .completed reason

/-- ATTACH_STORE ends with its deferred reply and its record (R87, R88). -/
def finishAttach (s : State) (reply : ReplyCode) (result : OutcomeResult) (reason : OutcomeReason) : State :=
  let s := s.setEngine { s.engine with bringUp := none }
  (s.putDeferred 3 reply).writeOutcome .attachStore result reason

/-- START RESUME fails: the part is UNCONFIGURED again, its region file empty and its table all VOID, its DRAM size
unknown (R129, notes/assumptions/20.md). -/
def resumeFail (s : State) (reason : OutcomeReason) : State :=
  let s := s.setEngine { s.engine with bringUp := none }
  let s := s.setTc { s.tc with start := none }
  let s := s.claimClear.setRegion { s.region with file := RegionFile.empty }
  (s.enterState .unconfigured).writeOutcome .start .failed reason

/-! ## Store DOWN (R79) -/

/-- The fills from slots in flight are disregarded: those on granules the DOWN claim made POISON (R132). -/
def Owner.isFill : Owner → Bool
  | .fill _ => true
  | _ => false

/-- Step 4 of R79: the long operation that used the store is told, unless a rail loss is in progress. -/
def tellStoreDown (s : State) : State :=
  match s.tc.state with
  | .committing => if s.tc.railLoss then s.endCommit else s.failEntry .store
  | .saving => if s.tc.railLoss then s else s.failEntry .store
  | .starting => if s.tc.railLoss then s else s.finishStart .store .active
  | .parking => s.setTc { s.tc with parkStoreDown := true }
  | _ => if s.attaching then s.finishAttach .storeUnavailable .failed .store else s

/-- The store becomes DOWN (R79): the claims with their left-ABSENT notices, the queues and the mark, the report, and
the long operation. A line write of a fill that waits at the DRAM Port is withdrawn with those to come (R132): the
model's choice (notes/assumptions/37.md). -/
def storeDown (s : State) (reason : StoreReason) : State :=
  let poisoned := s.poisonedByDown
  let s := s.setStore { s.store with status := .down }
  let s := s.claimAbandon.claimStoreDown
  let s := s.withdraw Owner.isFill
  let s := s.setEngine
    { s.engine with
      freeSlots := []
      retired := []
      mark := .clear
      markClearQueued := false
      fillList := s.engine.fillList.filter fun g => !poisoned.contains g
      fills := [] }
  let s := s.leftAbsent poisoned
  let s := s.report .storeDown 0 (.reason reason)
  s.tellStoreDown

/-- A slot joins the tail of the retired list (R81). -/
def retireSlot (s : State) (slot : Nat) : State :=
  s.setEngine { s.engine with retired := s.engine.retired ++ [slot] }

/-- The retired list is full (R81). -/
def retiredFull (s : State) : Bool := decide (Config.retiredSize ≤ s.engine.retired.length)

/-! ## Starts (R12, R18, R95, R119, R120) -/

/-- A block of 262,144 bytes whose bytes are still to come from DRAM. -/
def emptyBlock : Frame := { bytes := [], length := Config.granuleBytes }

/-- A copy starts: the claim, the WRITE_BLOCK, and the first line read (R95, R12). -/
def startCopy (s : State) (g slot : Nat) : State :=
  ((s.claimCopyStart g slot).sendOp .writeBlock (slot + Config.metadataBlocks) emptyBlock (.copy g slot)).present
    .copy (firstLine g)

/-- A fill from a slot starts: the claim and the READ_BLOCK (R119, R18). -/
def startFill (s : State) (g : Nat) : State :=
  let slot := ((s.recOf g).committed).getD 0
  let s := s.claimFillStart g
  let s := s.setEngine { s.engine with fills := s.engine.fills ++ [{ granule := g, rest := none }] }
  s.sendOp .readBlock (slot + Config.metadataBlocks) noPayload (.fill g)

/-- A zero fill starts: the claim and the first line write (R120, R18). -/
def startZeroFill (s : State) (g : Nat) : State :=
  let s := s.claimFillStart g
  let s := s.setEngine { s.engine with zeroFill := some g }
  s.present .zeroFill (firstLine g)

/-- A background start has been applied: the cursor moves on and the grant is consumed (R118, R117). -/
def consumeGrant (s : State) (g : Nat) : State :=
  let pace := s.side.params.fillPace
  s.setEngine
    { s.engine with
      fillCursor := s.tracker.after g
      fillTimer := if pace = 0 then Timer.stopped else Timer.load pace
      grant := decide (pace = 0) }

/-- The PACE timer is loaded again and RUNNING (R92, R93). -/
def reloadPace (s : State) : State :=
  s.setEngine { s.engine with paceTimer := Timer.load s.side.params.presavePace }

/-- A presave copy starts: the cursor moves on and the PACE timer is loaded (R93). -/
def startPresave (s : State) (g slot : Nat) : State :=
  let s := s.startCopy g slot
  (s.setEngine { s.engine with presaveCursor := s.tracker.after g }).reloadPace

/-! ## The store arbiter (R83) -/

end State

/-- What the store link carries next. -/
inductive StoreWork where
  | bringUp (step : StoreStep)
  | markClear
  | commitIndex
  | commitHeader
  | demandFill (g : Nat)
  | saveCopy (g slot : Nat)
  | backgroundFill (g : Nat)
  | presaveCopy (g slot : Nat)
  | presaveNone
  deriving DecidableEq, Repr

namespace State

/-- From the end of the drain on, a park leaves no rank any work (R140). -/
def parked (s : State) : Bool :=
  decide (s.tc.state = .parking) &&
    (decide (s.tc.parkPhase = .pattern) || decide (s.tc.parkPhase = .srEntry) || decide (s.tc.parkPhase = .undo))

/-- The states in which demand fills start (R113). -/
def demandState (s : State) : Bool :=
  s.tc.state.running || decide (s.tc.state = .saving) || decide (s.tc.state = .parking)

/-- The oldest granule of the fill list whose class is, or is not, preserved (R116). -/
def listed (s : State) (preserved : Bool) : Option Nat :=
  s.engine.fillList.find? fun g => decide ((s.recOf g).cls.preserved = preserved)

/-- Rank 3 (R83, R116). -/
def rankDemand (s : State) : Option StoreWork :=
  if s.demandState then (s.listed true).map .demandFill else none

/-- Rank 4 (R83, R100, R110). -/
def rankSave (s : State) : Option StoreWork :=
  if s.tc.state = .saving ∧ s.tc.waitingAbort = none then
    match s.tracker.dirtyScan 0, s.engine.freeSlots with
    | some g, n :: _ => some (.saveCopy g n)
    | _, _ => none
  else none

/-- The next background granule, while the grant is held (R118). -/
def background (s : State) : Option Nat :=
  if s.tc.state = .restoring ∧ s.engine.grant = true then s.tracker.absentScan s.engine.fillCursor else none

/-- Rank 5 (R83, R118). -/
def rankBackground (s : State) : Option StoreWork :=
  match s.background with
  | some g => if (s.recOf g).cls.preserved then some (.backgroundFill g) else none
  | none => none

/-- Rank 6 (R83, R93). -/
def rankPresave (s : State) : Option StoreWork :=
  if s.tc.state.running ∧ s.engine.presaveOn = true ∧ s.engine.paceTimer.status = .expired ∧ s.loading = false then
    match s.engine.freeSlots, s.tracker.dirtyScan s.engine.presaveCursor with
    | n :: _, some g => some (.presaveCopy g n)
    | _ :: _, none => some .presaveNone
    | [], _ => none
  else none

/-- Rank 2: the commit's next write (R83, R105). -/
def rankCommit (s : State) : Option StoreWork :=
  if s.tc.state = .committing then
    match s.engine.commitPhase with
    | .index => some .commitIndex
    | .header => some .commitHeader
    | _ => none
  else none

/-- The first rank that has work (R83). The steps of START and ATTACH_STORE come alone (R83), and the operations of a
rail loss are ranks 1 and 2 only (R149). -/
def chooseStore (s : State) : Option StoreWork :=
  match s.engine.bringUp with
  | some b => some (.bringUp b.step)
  | none =>
    if s.store.status ≠ .attached ∨ s.parked = true then none
    else if s.engine.markClearQueued then some .markClear
    else
      s.rankCommit.or
        (if s.tc.railLoss then none
         else s.rankDemand.or (s.rankSave.or (s.rankBackground.or s.rankPresave)))

/-- The header block of an epoch's parity (R72). -/
def headerBlock (epoch : BitVec 32) : Nat := epoch.toNat % 2

/-- The index block of an epoch's parity (R72). -/
def indexBlockOf (epoch : BitVec 32) : Nat := 2 + epoch.toNat % 2

/-- The header of the empty epoch that a bring-up writes, as it stands when its write is chosen (R68, R86, R46). -/
def emptyHeader (s : State) (b : BringUp) : Header :=
  { epoch := b.oldEpoch + 1
    mark := false
    units := s.tracker.units
    slots := b.slots
    indexCode := checkCode emptyIndexBlock
    file := s.region.file
    retiredLength := s.engine.retired.length
    retired := s.engine.retired }

/-- The frame of a step of START or ATTACH_STORE (R85, R86, R125, R127). -/
def sendStep (s : State) (b : BringUp) : State :=
  match b.step with
  | .identify => s.sendOp .identify 0 noPayload (.bringUp .identify)
  | .header0 => s.sendOp .readBlock 0 noPayload (.bringUp .header0)
  | .header1 => s.sendOp .readBlock 1 noPayload (.bringUp .header1)
  | .index => s.sendOp .readBlock (indexBlockOf b.oldEpoch) noPayload (.bringUp .index)
  | .emptyIndex => s.sendOp .writeBlock (indexBlockOf (b.oldEpoch + 1)) emptyIndexBlock (.bringUp .emptyIndex)
  | .emptyHeader =>
    s.sendOp .writeBlock (headerBlock (b.oldEpoch + 1)) ((b.header0.map Header.block).getD emptyBlock)
      (.bringUp .emptyHeader)

/-- The committed header with its mark cleared (R98). -/
def unmarkedHeader (s : State) : Frame :=
  match s.engine.headerRecord with
  | some h => ({ h with mark := false } : Header).block
  | none => emptyBlock

/-- The work that the arbiter chose is started (R83). -/
def startWork (s : State) (w : StoreWork) : State :=
  match w with
  | .bringUp _ =>
    match s.engine.bringUp with
    | some b => s.sendStep b
    | none => s
  | .markClear =>
    (s.setEngine { s.engine with markClearQueued := false }).sendOp .writeBlock (headerBlock s.engine.epoch)
      s.unmarkedHeader .markClear
  | .commitIndex => s.sendOp .writeBlock (indexBlockOf (s.engine.epoch + 1)) s.engine.builtIndex .commitIndex
  | .commitHeader =>
    s.sendOp .writeBlock (headerBlock (s.engine.epoch + 1))
      ((s.engine.builtHeader.map Header.block).getD emptyBlock) .commitHeader
  | .demandFill g => s.startFill g
  | .saveCopy g slot => s.startCopy g slot
  | .backgroundFill g => (s.startFill g).consumeGrant g
  | .presaveCopy g slot => s.startPresave g slot
  | .presaveNone => s.reloadPace

/-- The store arbiter's choice, whenever the Store Port may send (R83). -/
def storeChoice (s : State) : State :=
  if s.storeFree then
    match s.chooseStore with
    | some w => s.startWork w
    | none => s
  else s

/-- The zero-fill choice: from the fill list first, and from the background (R84, R116, R118). -/
def zeroChoice (s : State) : State :=
  if s.engine.zeroFill = none ∧ s.tc.railLoss = false ∧ s.parked = false then
    match (if s.demandState then s.listed false else none) with
    | some g => s.startZeroFill g
    | none =>
      match s.background with
      | some g => if (s.recOf g).cls = .zero then (s.startZeroFill g).consumeGrant g else s
      | none => s
  else s

/-! ## START's course (R63, R138) -/

/-- The steps of a bring-up, at its first one. -/
def newBringUp (mode : BringUpMode) : BringUp :=
  { mode := mode, step := .identify, slots := 0, header0 := none, header1 := none, oldEpoch := 0, indexCode := 0,
    formerRetired := [] }

/-- START goes on: STARTING once the request table has drained (R63, R137), and its store steps, or its end, once DRAM
is UP (R138). -/
def startTest (s : State) : State :=
  match s.tc.start with
  | none => s
  | some r =>
    let s :=
      if r.phase = .draining ∧ s.tc.state = .unconfigured ∧ s.ru.table = [] then
        let s := s.enterState .starting
        s.setTc { s.tc with start := some { r with phase := .running } }
      else s
    if s.tc.state = .starting ∧ s.dram.cond = .up ∧ s.engine.bringUp = none then
      if r.fresh && !r.storeUse then s.finishStart .none .active
      else s.setEngine { s.engine with bringUp := some (newBringUp (if r.fresh then .fresh else .resume)) }
    else s

/-! ## Settling -/

/-- The Transition Controller's tests, each of a condition that some rule tells it to wait for (R102 to R104, R110,
R113, R150, R152). -/
def tcTests (s : State) : State := s.restoringTest.commitWait.savingTest.commitWait.railCourse

/-- What follows an event within its step: the Transition Controller's tests, the choices of the store arbiter and of
the zero fill, the test of a park's drain, which comes after the arbiter's choice (R140), and the lines out
(notes/assumptions/24.md). -/
def settle (s : State) : State := s.startTest.tcTests.storeChoice.zeroChoice.storeChoice.parkTest.drive

end State

end Sys2Proof.Machine
end

