-- ==== Sys2Proof/Machine/Lines.lean ====
section
/-! DEFINITION. What an access does to DRAM, and what a line of each engine transfer is: the check pattern (R167), the
lines of transfers (3-7), and upstream accesses (R53). -/

namespace Sys2Proof.Machine

/-! ## The check pattern (R167) -/

/-- The generator holds s(k) to s(k + 22), s(k) in bit 0; one step brings in s(k + 23) = s(k + 18) ^ s(k). -/
def lfsrStep (g : BitVec 23) : BitVec 23 :=
  (g >>> 1) ||| (BitVec.ofBool (g.getLsbD 18 ^^ g.getLsbD 0)).setWidth 23 <<< 22

/-- Eight steps: one byte of the pattern further. -/
def lfsrByte (g : BitVec 23) : BitVec 23 :=
  lfsrStep (lfsrStep (lfsrStep (lfsrStep (lfsrStep (lfsrStep (lfsrStep (lfsrStep g)))))))

/-- The next `n` bytes of the pattern: bit s(k) is bit k mod 8 of its byte. -/
def patternBytes : Nat → BitVec 23 → List Byte
  | 0, _ => []
  | n + 1, g => g.setWidth 8 :: patternBytes n (lfsrByte g)

/-- The generator after `n` bytes. -/
def patternAfter : Nat → BitVec 23 → BitVec 23
  | 0, g => g
  | n + 1, g => patternAfter n (lfsrByte g)

/-- The number of bits set in a byte. -/
def bitCount (b : Byte) : Nat := ((List.range 8).filter fun i => b.getLsbD i).length

/-- The bits in which two runs of bytes differ (R170). -/
def mismatchesOf (as bs : List Byte) : Nat := (as.zipWith (fun a b => bitCount (a ^^^ b)) bs).sum

/-- The pattern's bytes as a line write carries them: bit 0 of byte 0 inverted in a first line that was presented with
the inject flag armed (R168). -/
def injected (inverted : Bool) (bs : List Byte) : List Byte :=
  if inverted then
    match bs with
    | b :: rest => (b ^^^ 1) :: rest
    | [] => []
  else bs

/-! ## Lines (3-7) -/

/-- The lines of a transfer from one of them to its last: 8 for a table fetch, a granule's 4,096 for the others, and
the line itself for a write-back. -/
def linesLeft (o : Owner) (line : Nat) : Nat :=
  match o with
  | .writeBack _ => 1
  | .fetch => 8 - line % 8
  | _ => Config.granuleLines - line % Config.granuleLines

/-- An access of the upstream link. -/
def Access.upstream (a : Access) : Bool :=
  match a.src with
  | .engine _ => false
  | _ => true

/-- The tag of an upstream access. -/
def Access.tag (a : Access) : Option (BitVec 5) :=
  match a.src with
  | .upRead t _ | .upWrite t _ _ _ => some t
  | .engine _ => none

namespace State

/-- Bytes are written to DRAM. -/
def writeDram (s : State) (line : Nat) (bs : List (Option Byte)) : State := s.setDram (s.dram.writeRun line bs)

/-- One line of an engine transfer is performed: a copy's goes into its frame (R68), a fill's and a zero fill's are
written (R119, R120), a write-back writes its flag byte (R42), a fetch's is taken (R37, R40), the pattern's is written
(R168), and a compare's is compared (R170). -/
def performLine (s : State) (o : Owner) (line : Nat) : State :=
  match o with
  | .copy =>
    s.setStore
      { s.store with
        op := s.store.op.map fun op =>
          { op with payload := { op.payload with bytes := op.payload.bytes ++ s.dram.readLine line } } }
  | .fill g =>
    let rest := ((s.engine.fills.find? fun x => decide (x.granule = g)).bind Fill.rest).getD []
    (s.writeDram line ((padTo Config.lineBytes rest).map some)).setEngine
      { s.engine with
        fills := s.engine.fills.map fun x =>
          if x.granule = g then { x with rest := some (rest.drop Config.lineBytes) } else x }
  | .zeroFill => s.writeDram line (List.replicate Config.lineBytes (some 0))
  | .writeBack d =>
    s.writeDram line (List.replicate (16 * (d % 4)) none ++ [some 1])
  | .fetch =>
    let bs := s.dram.readLine line
    match s.region.load with
    | some l => s.setRegion { s.region with load := some { l with fetched := l.fetched ++ bs } }
    | none =>
      s.setTc { s.tc with fetching := s.tc.fetching.map fun r => { r with fetched := r.fetched ++ bs } }
  | .pattern =>
    let first := decide (line % Config.granuleLines = 0) && s.dram.invertFirst
    let bs := injected first (patternBytes Config.lineBytes s.dram.generator)
    let s := s.writeDram line (bs.map some)
    s.setDram { s.dram with generator := patternAfter Config.lineBytes s.dram.generator }
  | .compare =>
    s.setDram
      { s.dram with
        mismatches :=
          s.dram.mismatches + mismatchesOf (s.dram.readLine line) (patternBytes Config.lineBytes s.dram.generator)
        generator := patternAfter Config.lineBytes s.dram.generator }

/-- An upstream access has been performed for a request that is still in the table: its completion is to be sent
(R53, notes/assumptions/5.md). -/
def performed (s : State) (tag : BitVec 5) (live : Bool) (data : List Byte) : State :=
  if live then s.updateEntry tag fun e => { e with st := .issued (some data) } else s

/-- An access is performed: it leaves the queue, and reads or writes DRAM (R53, R64). -/
def perform (s : State) (a : Access) : State :=
  let s := s.setDram { s.dram with queue := s.dram.queue.erase a }
  match a.src with
  | .upRead tag live => s.performed tag live (s.dram.readLine a.line)
  | .upWrite tag live data enables => (s.writeDram a.line (enabledBytes data enables)).performed tag live []
  | .engine o => s.performLine o a.line

/-- The access that an engine transfer has presented. -/
def presented (s : State) (o : Owner) : Option Access :=
  s.dram.queue.find? fun a => decide (a.src = .engine o)

end State

end Sys2Proof.Machine
end

