-- ==== Sys2Proof/Machine/StoreEvents.lean ====
section
/-! DEFINITION. What the end of each kind of store operation does: copies, fills, mark clears, commits, and the steps
of START and ATTACH_STORE (R81, R85 to R89, R95, R98, R105 to R109, R119, R122, R125 to R129). -/

namespace Sys2Proof.Machine

namespace State

/-! ## Copies and fills -/

/-- A copy answered GOOD (R13, R95). -/
def copyGood (s : State) (g : Nat) : State := (s.withdraw fun o => o = .copy).claimCopyGood g

/-- A copy answered MEDIA_ERROR or BAD_BLOCK: its slot is retired, or the store goes DOWN with WORN (R14, R81). A line
read of it that waits at the DRAM Port is withdrawn: the model's choice (notes/assumptions/37.md). -/
def copyBad (s : State) (g slot : Nat) : State :=
  let s := s.withdraw fun o => o = .copy
  if s.retiredFull then s.storeDown .worn
  else ((s.claimCopyLost g).retireSlot slot).report .slotRetired slot (.number 0)

/-- A fill from a slot leaves the fills in flight (R122 step 1). -/
def dropFill (s : State) (g : Nat) : State :=
  s.setEngine { s.engine with fills := s.engine.fills.filter fun x => decide (x.granule ≠ g) }

/-- A fill's READ_BLOCK answered GOOD: the DRAM Port begins its line writes (R119). -/
def fillArrives (s : State) (g : Nat) (block : Frame) : State :=
  let s := s.setEngine
    { s.engine with
      fills := s.engine.fills.map fun x =>
        if x.granule = g then { x with rest := some (block.bytes.take Config.granuleBytes) } else x }
  s.present (.fill g) (firstLine g)

/-- The end of a fill from a slot, its lines written (R122, R19). -/
def fillGood (s : State) (g : Nat) : State := ((s.dropFill g).claimFillGood g).leftAbsent [g]

/-- The end of a zero fill (R120, R122, R19). -/
def zeroFillGood (s : State) (g : Nat) : State :=
  ((s.setEngine { s.engine with zeroFill := none }).claimFillGood g).leftAbsent [g]

/-- The end of a fill answered MEDIA_ERROR or BAD_BLOCK: the granule is POISON and its committed slot retired, or the
store goes DOWN with WORN (R19, R81, R122). -/
def fillBad (s : State) (g : Nat) : State :=
  let slot := ((s.recOf g).committed).getD 0
  let s := s.dropFill g
  if s.retiredFull then s.storeDown .worn
  else (((s.claimFillBad g).retireSlot slot).report .fillFailed g (.number 0)).leftAbsent [g]

/-! ## The mark clear (R98) -/

/-- A mark clear answered GOOD. -/
def markCleared (s : State) : State :=
  s.setEngine
    { s.engine with
      mark := .clear
      headerRecord := s.engine.headerRecord.map fun h => { h with mark := false } }

/-! ## The commit (R105, R106, R109) -/

/-- The header of epoch E + 1 (R105). -/
def commitHeader (s : State) : Header :=
  { epoch := s.engine.epoch + 1
    mark := true
    units := s.tracker.units
    slots := s.store.slots
    indexCode := checkCode s.engine.builtIndex
    file := s.region.file
    retiredLength := s.engine.retired.length
    retired := s.engine.retired }

/-- The index write answered GOOD: the header is built and its write is due (R105). -/
def indexWritten (s : State) : State :=
  s.setEngine { s.engine with commitPhase := .header, builtHeader := some s.commitHeader }

/-- The header write answered GOOD: the epoch, the commit claim, the mark, the header record and the phase (R106). -/
def commitDone (s : State) : State :=
  let s := s.setEngine { s.engine with epoch := s.engine.epoch + 1 }
  let s := s.claimCommit
  let s := s.setEngine { s.engine with mark := .set, headerRecord := s.engine.builtHeader }
  s.endCommit

/-- Another pass: LATE_WRITE once in an entry, the pass count, SAVING, and the held writes (R109 case 3). -/
def nextPass (s : State) (addr : Nat) : State :=
  let s := if s.engine.lateNoted then s else s.report .lateWrite addr (.number 0)
  let s := s.setEngine { s.engine with lateNoted := true, passes := s.engine.passes + 1 }
  (s.enterState .saving).releaseAll .commit

/-- The entry begun by HIBERNATE ends in IMAGED_OFF (R147). -/
def hibernated (s : State) : State := s.enterImagedOff.writeOutcome .hibernate .completed .none

/-- What follows a commit that ended in success (R109); under a rail loss these steps do not run (R152). -/
def commitDecision (s : State) : State :=
  if s.tc.railLoss then s
  else
    match s.tc.waitingAbort with
    | some kind => s.returnEntry kind
    | none =>
      match s.oldestCommitHeld with
      | none => if s.tc.origin = .hibernate then s.hibernated else s.enterParking
      | some addr =>
        if s.engine.passes < Config.maxPasses then s.nextPass addr
        else (s.report .entryUnsettled addr (.number 0)).failEntry .unsettled

/-! ## Headers read (R76, R81, R85, R126) -/

end State

/-- The higher of two valid headers (R76). -/
def Header.higher (a b : Header) : Header :=
  if b.epoch = a.epoch + 1 then b
  else if a.epoch = b.epoch + 1 then a
  else if b.epoch.toNat ≤ a.epoch.toNat then a
  else b

/-- The highest valid header (R76). -/
def highest : Option Header → Option Header → Option Header
  | some a, some b => some (Header.higher a b)
  | some a, none => some a
  | none, some b => some b
  | none, none => none

/-- A header's retired list may be adopted: no longer than 256, every slot below S, none twice (R85, R126). -/
def Header.retiredOk (h : Header) (slots : Nat) : Bool :=
  decide (h.retiredLength ≤ Config.retiredSize) && h.retired.all (fun n => decide (n < slots)) &&
    decide h.retired.Nodup

/-- S from a block count (R85, R125). -/
def slotsOf (blocks : Nat) : Nat := min (blocks - Config.metadataBlocks) Config.maxSlots

/-- Every slot below S that two lists do not name, in ascending number (R86, R89). -/
def freeOf (slots : Nat) (named retired : List Nat) : List Nat :=
  (List.range slots).filter fun n => !named.contains n && !retired.contains n

/-- The slots that an index names. -/
def namedSlots (index : List IndexEntry) : List Nat :=
  index.filterMap fun e =>
    match e with
    | .slot n => some n
    | _ => none

/-- One entry of an index passes the checks of R25. -/
def entryOk (granules slots : Nat) (h : Header) (g : Nat) (e : IndexEntry) : Bool :=
  match e with
  | .none => true
  | .lost => decide (g + 1 < granules) && (h.file.classOf granules g).preserved
  | .slot n =>
    decide (g + 1 < granules) && (h.file.classOf granules g).preserved && decide (n < slots) &&
      !h.retired.contains n

/-- An index passes the checks of R25 against a header. -/
def indexOk (granules slots : Nat) (h : Header) (index : List IndexEntry) : Bool :=
  (index.zipIdx.all fun x => entryOk granules slots h x.2 x.1) && decide (namedSlots index).Nodup

/-- The retired list that an empty epoch takes over from the highest valid header (R85). -/
def adoptedRetired (h : Option Header) (slots : Nat) : List Nat :=
  match h with
  | some h => if h.slots = slots ∧ h.retiredOk slots = true then h.retired else []
  | none => []

/-- The epoch that an empty epoch follows: that of the highest valid header, or 0 (R85). -/
def adoptedEpoch (h : Option Header) : BitVec 32 :=
  match h with
  | some h => h.epoch
  | none => 0

/-- Why a resume cannot take up a header, if it cannot (R126). -/
def headerFault (granules units slots : Nat) (h : Header) : Option OutcomeReason :=
  if !h.mark then some .imageStale
  else if h.units ≠ units ∨ h.slots ≠ slots then some .imageMismatch
  else if !h.retiredOk slots || !descriptorsOk granules h.file.descs ||
      !tableAddrOk granules (h.file.tableAddr.getD 0) then some .imageInvalid
  else none

namespace State

/-! ## The steps of START and ATTACH_STORE -/

/-- The next step of a bring-up is due. -/
def nextStep (s : State) (b : BringUp) : State := s.setEngine { s.engine with bringUp := some b }

/-- A step failed: a resume ends with reason STORE (R125, R127), the others with the store DOWN (R85, R86). -/
def stepFailed (s : State) (b : BringUp) (reason : StoreReason) : State :=
  if b.mode = .resume then s.resumeFail .store else s.storeDown reason

/-- Step 4 of R85 failed: ATTACH_STORE gives back the retired list, START completes without the store (R40, R88). -/
def capacityFails (s : State) (b : BringUp) : State :=
  if b.mode = .attach then
    (s.setEngine { s.engine with retired := b.formerRetired }).finishAttach .storeUnavailable .failed .slots
  else (s.setEngine { s.engine with retired := [] }).finishStart .slots .active

/-- Steps 3 and 4 of R85: adoption of the highest valid header, and the capacity check. -/
def adopt (s : State) (b : BringUp) : State :=
  let h := highest b.header0 b.header1
  let retired := adoptedRetired h b.slots
  let former := s.engine.retired
  let s := s.setEngine { s.engine with retired := retired }
  let b := { b with oldEpoch := adoptedEpoch h, formerRetired := former, step := .emptyIndex }
  if capacityOk (preservedCount s.region.file s.granules) 0 b.slots retired.length then s.nextStep b
  else s.capacityFails b

/-- The header a resume chooses is judged (R126). -/
def judgeHeader (s : State) (b : BringUp) : State :=
  match highest b.header0 b.header1 with
  | none => s.resumeFail .noImage
  | some h =>
    match headerFault s.granules s.tracker.units b.slots h with
    | some reason => s.resumeFail reason
    | none =>
      s.nextStep
        { b with step := .index, header0 := some h, header1 := none, oldEpoch := h.epoch, indexCode := h.indexCode }

/-- A resume completes (R128). The exhaustion noted flag is cleared with the queue build, also where the build puts no
slot in the queue: the model's choice (R94, notes/assumptions/40.md). -/
def resumeDone (s : State) (b : BringUp) (h : Header) (index : List IndexEntry) : State :=
  let s := s.setRegion { s.region with file := h.file }
  let s := s.claimResume index
  let s := s.setEngine
    { s.engine with
      retired := h.retired
      freeSlots := freeOf b.slots (namedSlots index) h.retired
      exhaustionNoted := false
      epoch := h.epoch
      mark := .set
      headerRecord := some h }
  let s := s.setStore { s.store with status := .attached, slots := b.slots }
  s.finishStart .none s.returnTarget

/-- The index a resume has read is checked (R127, R25, R194). -/
def judgeIndex (s : State) (b : BringUp) (block : Frame) : State :=
  match b.header0 with
  | none => s.resumeFail .imageInvalid
  | some h =>
    if checkCode { bytes := block.bytes.take Config.granuleBytes, length := Config.granuleBytes } ≠ b.indexCode then
      s.resumeFail .imageInvalid
    else
      match decodeIndex block with
      | none => s.resumeFail .imageInvalid
      | some index =>
        if indexOk s.granules b.slots h index then s.resumeDone b h index else s.resumeFail .imageInvalid

/-- The empty epoch is written: the store is ATTACHED (R86 step 7). -/
def attached (s : State) (b : BringUp) : State :=
  let s := s.setEngine
    { s.engine with
      epoch := b.oldEpoch + 1
      mark := .clear
      headerRecord := b.header0
      freeSlots := freeOf b.slots [] s.engine.retired
      exhaustionNoted := false }
  let s := s.setStore { s.store with status := .attached, slots := b.slots }
  if b.mode = .attach then s.finishAttach .done .completed .none else s.finishStart .none .active

/-- A step answered GOOD (R85, R86, R125 to R127). -/
def stepGood (s : State) (b : BringUp) (f : Frame) : State :=
  match b.step with
  | .identify =>
    if Config.minBlocks ≤ respCount f then s.nextStep { b with slots := slotsOf (respCount f), step := .header0 }
    else s.stepFailed b .identify
  | .header0 => s.nextStep { b with header0 := Header.decode (respBlock f).bytes, step := .header1 }
  | .header1 =>
    let b := { b with header1 := Header.decode (respBlock f).bytes }
    if b.mode = .resume then s.judgeHeader b else s.adopt b
  | .index => s.judgeIndex b (respBlock f)
  | .emptyIndex => s.nextStep { b with step := .emptyHeader, header0 := some (s.emptyHeader b) }
  | .emptyHeader => s.attached b

/-- A step answered otherwise (R85, R86, R125, R127). -/
def stepBad (s : State) (b : BringUp) : State :=
  match b.step with
  | .identify => s.stepFailed b .identify
  | _ => s.stepFailed b .metadata

/-- A step whose STORE timer expired (R78, R125). -/
def stepExpired (s : State) (b : BringUp) : State :=
  match b.step with
  | .identify => s.stepFailed b .identify
  | _ => s.stepFailed b .timeout

end State

end Sys2Proof.Machine
end

