-- ==== Sys2Proof/Machine/Loads.lean ====
section
/-! DEFINITION. What follows the fetch of a region table: the end of LOAD_REGIONS (R37, R38) and of START FRESH's
fourth step (R40, R137). -/

namespace Sys2Proof.Machine

namespace State

/-- The region file that a fetched table makes: descriptors as read, every owed flag clear (R37 step 4, R40). -/
def fileOf (addr : Nat) (fetched : List Byte) : RegionFile :=
  { descs := decodeDescriptors fetched, tableAddr := some addr, owed := 0 }

/-- The checks of a fetched table: the descriptors (R34), and the capacity where the store is ATTACHED (R35). -/
def tablePasses (s : State) (file : RegionFile) : Bool :=
  descriptorsOk s.granules file.descs &&
    (decide (s.store.status ≠ .attached) ||
      capacityOk (preservedCount file s.granules) (orphanCount file s.tracker) s.store.slots
        s.engine.retired.length)

/-- A load ends: the requests it held are released, and the deferred reply is given (R37, R38). -/
def endLoad (s : State) (reply : ReplyCode) : State :=
  ((s.setRegion { s.region with load := none }).releaseAll .regionLoad).putDeferred 2 reply

/-- Steps 3 and 4 of a load: abandonment, the new file and the reload claim (R37). -/
def applyLoad (s : State) (file : RegionFile) : State :=
  let s := s.claimAbandon
  (s.setRegion { s.region with file := file }).claimReload

/-- The fetch of a load has ended: steps 2 to 4 (R37, R38, notes/assumptions/17.md). -/
def loadFetched (s : State) (l : Load) : State :=
  let file := fileOf l.addr l.fetched
  if s.tablePasses file then (s.applyLoad file).endLoad .done else s.endLoad .badArgument

/-- START is answered ACCEPTED: the origin, the DRAM size, the cursors, and the drain of the request table
(R137, R90, R114, R63). It begins from an empty region file and a table that is all VOID (R40, R129); a START that was
still draining gives way to it (notes/assumptions/8.md). -/
def acceptStart (s : State) (r : StartReq) : State :=
  let s := s.setOrigin .start
  let s := s.setTc { s.tc with fetching := none, start := some { r with phase := .draining } }
  let s := s.setRegion { s.region with file := RegionFile.empty }
  let s := s.setTracker { Tracker.reset with units := r.units }
  let s := s.setEngine { s.engine with presaveCursor := 0, fillCursor := 0 }
  s.putDeferred 1 .accepted

/-- A START whose table is being fetched ends before it is accepted, with a reply of its own (R137, R40). -/
def refuseStart (s : State) (reply : ReplyCode) : State :=
  (s.setTc { s.tc with fetching := none }).putDeferred 1 reply

/-- The fetch of START FRESH has ended: the descriptor checks, and the reload (R40). A part that a START given before
has meanwhile taken out of UNCONFIGURED does not take it (R137 step 1, notes/assumptions/8.md). -/
def startFetched (s : State) (r : StartReq) : State :=
  let file := fileOf r.tableAddr r.fetched
  if s.tc.state ≠ .unconfigured then s.refuseStart .wrongState
  else if descriptorsOk (Config.unitGranules * r.units) file.descs then
    let s := s.acceptStart r
    (s.setRegion { s.region with file := file }).claimReload
  else s.refuseStart .badArgument

end State

end Sys2Proof.Machine
end

