-- ==== Sys2Proof/Machine/DramAccess.lean ====
section
/-! DEFINITION. The DRAM Port: the access arbiter (R64), what follows the last line of an engine transfer (R119, R120,
R141, R168, R170 to R172), and the commands that end accesses, transfers, bring-up and self-refresh. -/

namespace Sys2Proof.Machine

namespace State

/-! ## The end of a transfer -/

/-- The retention check passes (R171). -/
def checkPasses (s : State) : State := s.enterRunning.writeOutcome .exitSleep .completed .none

/-- The retention check fails: the marking, RETENTION_LOST with the number of granules it made POISON, and the end of
UNPARKING (R172). -/
def checkFails (s : State) : State :=
  let before := s.tracker.poisonTotal
  let s := s.markDramLoss
  let s := s.report .retentionLost 0 (.number (s.tracker.poisonTotal - before))
  s.enterRunning.writeOutcome .exitSleep .completed .retention

/-- The last line has been compared (R170). -/
def compareDone (s : State) : State :=
  let count := min s.dram.mismatches 65535
  let s := s.setDram { s.dram with lastErrors := count, checkPhase := .idle }
  if count ≤ s.side.params.checkThreshold then s.checkPasses else s.checkFails

/-- The compare begins (R146, R170). -/
def beginCompare (s : State) : State :=
  let s := s.setDram
    { s.dram with checkPhase := .comparing, generator := seedOf s.dram.parkCount, mismatches := 0 }
  s.present .compare (firstLine s.checkGranule)

/-- The pattern write has ended: with an abort waiting the park returns, and otherwise self-refresh entry begins
(R141, R142, R168). -/
def patternDone (s : State) : State :=
  match s.tc.waitingAbort with
  | some kind => (s.setDram { s.dram with checkPhase := .idle }).parkReturn kind
  | none => s.beginSelfRefresh

/-- The fetch of a table has ended (R37, R40). -/
def fetchDone (s : State) : State :=
  match s.region.load, s.tc.fetching with
  | some l, _ => s.loadFetched l
  | none, some r => s.startFetched r
  | none, none => s

/-- The last line of an engine transfer has been performed. -/
def transferEnd (s : State) (o : Owner) : State :=
  match o with
  | .copy | .writeBack _ => s
  | .fill g => s.fillGood g
  | .zeroFill =>
    match s.engine.zeroFill with
    | some g => s.zeroFillGood g
    | none => s
  | .fetch => s.fetchDone
  | .pattern => s.patternDone
  | .compare => s.compareDone

/-- A pattern write with an abort waiting presents no further line (R142, R168). -/
def patternStopped (s : State) (o : Owner) : Bool := decide (o = .pattern) && s.tc.waitingAbort.isSome

/-- After the last line of a transfer: its end, and what follows it in the part before another access is served. The
end of a copy is its answer on the store link, and a write-back has none. -/
def transferOver (s : State) (o : Owner) : State :=
  match o with
  | .copy | .writeBack _ => s
  | _ => (s.transferEnd o).settle

/-- After a line of a transfer: its end, or its next line is presented (R64). -/
def afterLine (s : State) (o : Owner) (line : Nat) : State :=
  if linesLeft o line = 1 ∨ s.patternStopped o = true then s.transferOver o else s.present o (line + 1)

/-! ## The arbiter (R64) -/

end State

/-- The access that the arbiter serves next, of those that wait: upstream before engine, an engine access after 8
upstream ones in a row, and an earlier access to the same line first (R64). -/
def pickAccess (queue : List Access) (run : Nat) : Option Access :=
  let chosen :=
    match queue.find? Access.upstream, queue.find? fun a => !a.upstream with
    | some u, some e => if Config.maxRun ≤ run then some e else some u
    | some u, none => some u
    | none, e => e
  match chosen with
  | some c => queue.find? fun a => decide (a.line = c.line)
  | none => none

/-- The upstream run count after an access is served (R64, notes/assumptions/16.md). -/
def runAfter (queue : List Access) (run : Nat) (a : Access) : Nat :=
  if a.upstream && queue.any (fun x => !x.upstream) then min (run + 1) Config.maxRun else 0

namespace State

/-- The access served next, while DRAM is UP (R64). -/
def arbiterChoice (s : State) : Option Access :=
  if s.dram.cond = .up then pickAccess s.dram.queue s.dram.runCount else none

/-- An access is served (R64). -/
def serve (s : State) (a : Access) : State :=
  let s := (s.perform a).setDram
    { (s.perform a).dram with runCount := runAfter s.dram.queue s.dram.runCount a }
  match a.src with
  | .engine o => s.afterLine o a.line
  | _ => s

/-- The arbiter serves accesses until it has served one that `stop` names. -/
def serveUntil (stop : Access → Bool) : Nat → State → State
  | 0, s => s
  | fuel + 1, s =>
    match s.arbiterChoice with
    | none => s
    | some a => if stop a then s.serve a else serveUntil stop fuel (s.serve a)

/-- Enough turns for the arbiter to come to any access of the queue. -/
def turns (s : State) : Nat := 2 * s.dram.queue.length + 2

end State

/-- The access to the last line of an engine transfer. -/
def Access.lastOf (o : Owner) (a : Access) : Bool := decide (a.src = .engine o) && decide (linesLeft o a.line = 1)

namespace State

/-- Enough turns for the arbiter to come to the last line of a transfer that has presented `line`. -/
def lineTurns (s : State) (o : Owner) (line : Nat) : Nat := linesLeft o line * (s.dram.queue.length + 128)

/-- An engine transfer runs to its last line, from the line it has presented: the arbiter serves accesses, its own and
others, in its own order until it has served that one (R64, notes/assumptions/6.md). -/
def runTransfer (s : State) (o : Owner) (a : Access) : State :=
  serveUntil (Access.lastOf o) (s.lineTurns o a.line) s

/-- The last line of an engine transfer is performed: taken while DRAM is UP and the transfer is presenting its
lines (notes/assumptions/4.md). -/
def lastLine (s : State) (o : Owner) : State :=
  match s.presented o with
  | some a =>
    if s.dram.cond = .up ∧ (s.patternStopped o = true → linesLeft o a.line = 1) then (s.runTransfer o a).settle else s
  | none => s

/-! ## Events of the DRAM Port -/

/-- The data of a performed access of a request (R53). -/
def performedData (s : State) (tag : BitVec 5) : Option (Entry × List Byte) :=
  match s.ru.find tag with
  | some e =>
    match e.st with
    | .issued (some data) => some (e, data)
    | _ => none
  | none => none

/-- The completion of a performed request is sent, if it is in the table (R53). -/
def sendPerformed (s : State) (tag : BitVec 5) : State :=
  match s.performedData tag with
  | some (e, data) => s.complete e data
  | none => s

/-- UPSTREAM_ACCESS_DONE: the DRAM Port performs the access of a tag, where it has not, and its completion is sent
(R53). Where an access that a link reset left without its request has the tag of a later request, the row names the
first of them that is served: the model's choice (notes/assumptions/36.md). -/
def upstreamAccessDone (s : State) (tag : BitVec 5) : State :=
  if (s.performedData tag).isSome then (s.sendPerformed tag).settle
  else if s.dram.cond = .up ∧ (s.dram.queue.any fun a => decide (a.tag = some tag)) = true then
    ((serveUntil (fun a => decide (a.tag = some tag)) s.turns s).sendPerformed tag).settle
  else s

/-- ENGINE_ACCESS_DONE: the arbiter serves accesses up to its next engine access (R64). -/
def engineAccessDone (s : State) : State :=
  if s.dram.cond = .up ∧ (s.dram.queue.any fun a => !a.upstream) = true then
    (serveUntil (fun a => !a.upstream) s.turns s).settle
  else s

/-- ZERO_FILL_END (R120). -/
def zeroFillEnd (s : State) : State := s.lastLine .zeroFill

/-- REGION_FETCH_END (R37). -/
def regionFetchEnd (s : State) : State := if s.loading then s.lastLine .fetch else s

/-- START_TABLE_FETCH_END (R40). -/
def startTableFetchEnd (s : State) : State := if s.loading then s else s.lastLine .fetch

/-- DRAM_BRINGUP_END: DRAM is UP, nothing written in it (R135, R62); REVIVING ends (R130). -/
def dramBringupEnd (s : State) (installed : Nat) : State :=
  if s.dram.cond = .bringingUp then
    let s := s.setDram
      { s.dram with
        cond := .up
        runCount := 0
        mem := []
        bringUps := s.dram.bringUps + 1
        installed := installed }
    let s := if s.tc.state = .reviving then s.enterRunning.writeOutcome .exitImaged .completed .none else s
    s.settle
  else s

/-- SELF_REFRESH_ENTRY_END: the part sleeps, or a park being undone leaves self-refresh again (R141, R142). -/
def selfRefreshEntryEnd (s : State) : State :=
  if s.dram.cond = .enteringSr then
    if s.tc.parkPhase = .undo then (s.setDram { s.dram with cond := .exitingSr }).settle
    else (s.setDram { s.dram with cond := .selfRefresh }).enterSleeping.settle
  else s

/-- SELF_REFRESH_EXIT_END: the retention compare begins, or an undone park returns (R146, R142). `decay` is what DRAM
lost in self-refresh. -/
def selfRefreshExitEnd (s : State) (decay : List Host.Cell) : State :=
  if s.dram.cond = .exitingSr then
    let d := s.dram.decay decay
    let s := s.setDram { d with cond := .up }
    match s.tc.state, s.tc.waitingAbort with
    | .parking, some kind => (s.parkReturn kind).settle
    | _, _ => s.beginCompare.settle
  else s

end State

/-! ## The commands -/

/-- UPSTREAM_ACCESS_DONE (R53). -/
def execUpstreamAccessDone (tag : BitVec 5) (s : State) : Host.Outcome State Fault Refusal :=
  .next (s.upstreamAccessDone tag)

/-- ENGINE_ACCESS_DONE (R64). -/
def execEngineAccessDone (s : State) : Host.Outcome State Fault Refusal := .next s.engineAccessDone

/-- FILL_END (R119). -/
def execFillEnd (granule : Nat) (s : State) : Host.Outcome State Fault Refusal := .next (s.lastLine (.fill granule))

/-- ZERO_FILL_END (R120). -/
def execZeroFillEnd (s : State) : Host.Outcome State Fault Refusal := .next s.zeroFillEnd

/-- DRAM_BRINGUP_END (R135). -/
def execDramBringupEnd (installed : Nat) (s : State) : Host.Outcome State Fault Refusal :=
  .next (s.dramBringupEnd installed)

/-- SELF_REFRESH_ENTRY_END (R141). -/
def execSelfRefreshEntryEnd (s : State) : Host.Outcome State Fault Refusal := .next s.selfRefreshEntryEnd

/-- SELF_REFRESH_EXIT_END (R146). -/
def execSelfRefreshExitEnd (decay : List Host.Cell) (s : State) : Host.Outcome State Fault Refusal :=
  .next (s.selfRefreshExitEnd decay)

/-- PATTERN_WRITE_END (R168). -/
def execPatternWriteEnd (s : State) : Host.Outcome State Fault Refusal := .next (s.lastLine .pattern)

/-- COMPARE_END (R170). -/
def execCompareEnd (s : State) : Host.Outcome State Fault Refusal := .next (s.lastLine .compare)

/-- REGION_FETCH_END (R37). -/
def execRegionFetchEnd (s : State) : Host.Outcome State Fault Refusal := .next s.regionFetchEnd

/-- START_TABLE_FETCH_END (R40). -/
def execStartTableFetchEnd (s : State) : Host.Outcome State Fault Refusal := .next s.startTableFetchEnd

end Sys2Proof.Machine
end

