-- ==== Sys2Proof/Machine/StoreResponses.lean ====
section
/-! DEFINITION. The commands STORE_RESPONSE and STORE_TIMER_EXPIRY: which operation ends, and how (R69, R70, R71,
R191). -/

namespace Sys2Proof.Machine

namespace State

/-! ## The end of an operation (R69, R70, R71) -/

/-- A disregarded operation has ended: a copy's slot joins the queue of an ATTACHED store (R71). -/
def disregardedEnd (s : State) (o : StoreOp) : State :=
  match o.purpose with
  | .copy _ slot => if s.store.status = .attached then s.appendSlots [slot] else s
  | _ => s

/-- An operation answered GOOD. -/
def opGood (s : State) (o : StoreOp) (f : Frame) : State :=
  match o.purpose with
  | .copy g _ => s.copyGood g
  | .fill g => s.fillArrives g (respBlock f)
  | .markClear => s.markCleared
  | .commitIndex => s.indexWritten
  | .commitHeader => s.commitDone.commitDecision
  | .bringUp _ =>
    match s.engine.bringUp with
    | some b => s.stepGood b f
    | none => s

/-- An operation answered MEDIA_ERROR or BAD_BLOCK. -/
def opBad (s : State) (o : StoreOp) : State :=
  match o.purpose with
  | .copy g slot => s.copyBad g slot
  | .fill g => s.fillBad g
  | .markClear | .commitIndex | .commitHeader => s.storeDown .metadata
  | .bringUp _ =>
    match s.engine.bringUp with
    | some b => s.stepBad b
    | none => s

/-- An operation whose STORE timer expired (R70, R78, R95, R98, R107, R119). A line read of a copy that waits at the
DRAM Port is withdrawn: the model's choice (notes/assumptions/37.md). -/
def opExpired (s : State) (o : StoreOp) : State :=
  match o.purpose with
  | .copy _ _ => (s.withdraw fun o => o = .copy).storeDown .timeout
  | .fill _ | .markClear | .commitIndex | .commitHeader => s.storeDown .timeout
  | .bringUp _ =>
    match s.engine.bringUp with
    | some b => s.stepExpired b
    | none => s

end State

/-- Whether a response gives its operation a GOOD end: a READ_BLOCK must carry the whole block (R193). -/
def StoreOp.goodBy (o : StoreOp) (f : Frame) : Bool :=
  decide (respStatus f = .good) &&
    (decide (o.kind ≠ .readBlock) || decide (Config.granuleBytes + 8 ≤ f.length))

namespace State

/-- The Store Port becomes IDLE, its timer as given (R69, R70); the ended operation's frame is on record. -/
def endOp (s : State) (timer : Timer) : State :=
  let s := s.setSent { s.sent with operations := s.sent.operations ++ s.store.op.toList }
  s.setStore { s.store with op := none, timer := timer }

/-- The hold-back flag is cleared (R191). -/
def endHoldBack (s : State) (timer : Timer) : State :=
  s.setStore { s.store with holdBack := none, timer := timer }

/-- A copy that is answered GOOD has had all its lines read (R68, notes/assumptions/6.md). -/
def copyRead (s : State) : State :=
  match s.presented .copy with
  | some a => if s.dram.cond = .up then s.runTransfer .copy a else s
  | none => s

/-- The reads that a copy answered GOOD has had performed (R68, notes/assumptions/6.md). -/
def readOut (s : State) (o : StoreOp) (f : Frame) : State :=
  match o.purpose with
  | .copy _ _ => if !o.disregarded && o.goodBy f then s.copyRead else s
  | _ => s

/-- A response that matches the operation in flight (R69). -/
def answered (s : State) (o : StoreOp) (f : Frame) : State :=
  let s := (s.readOut o f).endOp Timer.stopped
  if o.disregarded then s.disregardedEnd o
  else if o.goodBy f then s.opGood o f
  else s.opBad o

/-- STORE_RESPONSE: one that matches ends its operation, and others are discarded (R69, R191). -/
def storeResponse (s : State) (f : Frame) : State :=
  match s.store.holdBack with
  | some n => if respNum f = n then (s.endHoldBack Timer.stopped).settle else s
  | none =>
    match s.store.op with
    | some o => if respNum f = o.num then (s.answered o f).settle else s
    | none => s

/-- The end of an operation by the timer (R70, R71). -/
def expired (s : State) (o : StoreOp) : State :=
  let s := s.endOp Timer.expired
  if o.disregarded then s.disregardedEnd o else s.opExpired o

/-- STORE_TIMER_EXPIRY (R70, R191). -/
def storeTimerExpiry (s : State) : State :=
  if s.store.timer.status = .running then
    match s.store.holdBack with
    | some _ => (s.endHoldBack Timer.expired).settle
    | none =>
      match s.store.op with
      | some o => (s.expired o).settle
      | none => s
  else s

end State

/-- STORE_RESPONSE (R69). -/
def execStoreResponse (frame : Frame) (s : State) : Host.Outcome State Fault Refusal := .next (s.storeResponse frame)

/-- STORE_TIMER_EXPIRY (R70). -/
def execStoreTimerExpiry (s : State) : Host.Outcome State Fault Refusal := .next s.storeTimerExpiry

end Sys2Proof.Machine
end

