-- ==== Sys2Proof/Machine/Traffic.lean ====
section
/-! DEFINITION. What arrives on the upstream link: UPSTREAM_REQUEST (R50, R193) and LINK_RESET (R65). -/

namespace Sys2Proof.Machine

namespace State

/-- A request that is discarded on arrival is a link violation (R50, R193). -/
def linkViolation (s : State) (packet : List Byte) : State :=
  s.report .linkViolation (Config.lineBytes * packetLine packet) (.number 0)

/-- The entry that a packet makes, in a state (R47, R48, R50). -/
def newEntry (packet : List Byte) (kind : ReqKind) (st : EntryState) : Entry :=
  { tag := packetTag packet
    kind := kind
    line := packetLine packet
    data := if kind = .write then packetData packet else []
    enables := if kind = .write then packetEnables packet else 0
    cls := none
    st := st }

/-- An entry joins the request table (R48). -/
def joinTable (s : State) (e : Entry) : State := s.setRu { s.ru with table := s.ru.table ++ [e] }

/-- A request makes its entry: held for a load or a park, or classified, and then WAITING or judged
(R50, R51, R58, R61, R62). -/
def acceptRequest (s : State) (packet : List Byte) (kind : ReqKind) : State :=
  let e := newEntry packet kind .waiting
  if s.tc.state = .unconfigured then (s.joinTable e).takeUp e
  else if s.loading then s.joinTable { e with st := .held .regionLoad }
  else if s.tc.state = .parking then (s.joinTable { e with st := .held .parking }).parkAbort .traffic
  else
    let e := s.classify e
    (s.joinTable e).takeUp e

/-- A request packet may make an entry: well formed, with link ready asserted and its tag free (R50, R193). -/
def accepts (s : State) (packet : List Byte) : Option ReqKind :=
  if s.ru.linkReady ∧ s.ru.find (packetTag packet) = none then packetReqKind packet else none

/-- UPSTREAM_REQUEST. -/
def upstreamRequest (s : State) (packet : List Byte) : State :=
  match s.accepts packet with
  | some kind => (s.acceptRequest packet kind).settle
  | none => s.linkViolation packet

/-- LINK_RESET: every entry is discarded, and what waits for an empty table tests it (R65, R63, R140). -/
def linkReset (s : State) : State := s.discardTable.settle

end State

/-- UPSTREAM_REQUEST (R50). -/
def execUpstreamRequest (packet : List Byte) (s : State) : Host.Outcome State Fault Refusal :=
  .next (s.upstreamRequest packet)

/-- LINK_RESET (R65). -/
def execLinkReset (s : State) : Host.Outcome State Fault Refusal := .next s.linkReset

end Sys2Proof.Machine
end

