-- ==== Sys2Proof/Machine/Rails.lean ====
section
/-! DEFINITION. The rails and the standby rail: RAIL_FALL (R49, R149, R153), RAIL_RISE (R153), STANDBY_POWER_ON (R4)
and what RESET_PART makes of every block (R191). -/

namespace Sys2Proof.Machine

namespace State

/-! ## Levels -/

/-- The level of a rail line. -/
def rail (s : State) (r : Rail) : Bool :=
  match r with
  | .main => s.lines.mainOk
  | .mem => s.lines.memOk

/-- A rail line changes level. -/
def setRail (s : State) (r : Rail) (level : Bool) : State :=
  match r with
  | .main => s.setLines { s.lines with mainOk := level }
  | .mem => s.setLines { s.lines with memOk := level }

/-! ## DRAM let go -/

/-- DRAM is no longer usable: the condition is NOT_UP, nothing that waited at the arbiter is served, and a pattern
write or compare stops (R135, R149, R168, R170). -/
def dropDram (s : State) : State :=
  s.setDram { s.dram with cond := .notUp, queue := [], checkPhase := .idle }

/-! ## A rail falls in UNCONFIGURED (R49, R137) -/

/-- A START whose table is being fetched ends with a rail, with the reply WRONG_STATE (R137). -/
def endFetchByRail (s : State) : State := if s.tc.fetching.isSome then s.refuseStart .wrongState else s

/-- A START under way ends with the rail: with the reply WRONG_STATE before its answer, and on the UNCONFIGURED path
with the record START, FAILED, RAIL_LOSS after it (R137). -/
def endStartByRail (s : State) : State :=
  if s.tc.start.isSome then s.endFetchByRail.toUnconfigured.writeOutcome .start .failed .railLoss
  else s.endFetchByRail

/-- A rail falls in UNCONFIGURED: DRAM is no longer brought up, and the request table is discarded (R49). -/
def unconfiguredFall (s : State) : State := s.discardTable.dropDram.endStartByRail

/-! ## A rail loss is taken (R149) -/

/-- A fall is a rail loss in this state (R149). -/
def losesRail (s : State) (r : Rail) : Bool :=
  match s.tc.state with
  | .unconfigured | .imagedOff => false
  | .sleeping => decide (r = .mem)
  | _ => true

/-- The operation that a rail loss interrupts (R149 step 1). -/
def interruptedBy (s : State) : LongOp :=
  if s.attaching then .attachStore
  else
    match s.tc.state with
    | .starting | .saving | .committing | .parking | .unparking | .reviving => s.tc.origin
    | _ => .none

/-- The copy in flight is disregarded and its granule made DIRTY (R149 step 4, R71). -/
def dropCopy (s : State) : State :=
  match s.store.op with
  | none => s
  | some o =>
    match o.purpose with
    | .copy g _ => if o.disregarded then s else s.claimCopyLost g
    | _ => s

/-- A load, an ATTACH_STORE or a START in progress ends (R39, R88, R129, R138, R149). -/
def endByRailLoss (s : State) : State :=
  let s := if s.loading then (s.setRegion { s.region with load := none }).putDeferred 2 .wrongState else s
  let s := s.endFetchByRail
  let s := if s.attaching then s.putDeferred 3 .storeUnavailable else s
  let s := if s.engine.bringUp.isSome then s.disregardOp else s
  (s.setEngine { s.engine with bringUp := none }).setTc { s.tc with start := none }

/-- A rail loss is taken (R149). The background grant goes with the FILL timer: the model's choice, which nothing can
observe, since no fill starts before the part has left RESTORING (R117, notes/assumptions/41.md). -/
def takeRailLoss (s : State) : State :=
  let op := s.interruptedBy
  let s := s.setTc
    { s.tc with
      railLoss := true
      interrupted := op
      origin := .railLoss
      waitingAbort := none
      parkPhase := .none
      sleepTimer := Timer.stopped }
  let s := s.discardTable.dropDram
  let s := s.dropCopy.disregardTransfers
  let s := s.setEngine
    { s.engine with paceTimer := Timer.stopped, fillTimer := Timer.stopped, grant := false }
  let s := s.report .railLoss 0 (.number 0)
  s.endByRailLoss

/-- RAIL_FALL: a rail loss, a fall in UNCONFIGURED, or nothing more than the level (R49, R149, R153). -/
def railFall (s : State) (r : Rail) : State :=
  if s.rail r then
    let s := s.setRail r false
    if s.tc.railLoss then s.drive
    else if s.tc.state = .unconfigured then s.unconfiguredFall.settle
    else if s.losesRail r then s.takeRailLoss.settle
    else s
  else s

/-- RAIL_RISE: in UNCONFIGURED, with both rails asserted and DRAM NOT_UP, bring-up begins (R153, R135). -/
def railRise (s : State) (r : Rail) : State :=
  let s := s.setRail r true
  if s.tc.state = .unconfigured then s.bringUpIfReady.settle else s

/-! ## Standby power-on and RESET_PART -/

/-- A wake line at standby power-on, its level as it stands outside. -/
def resetLine (l : WakeLine) : WakeLine := { WakeLine.reset with level := l.level }

/-- Every block at its values for standby power-on, the levels into the part as they stand (R4, R191). The commands
that wait and the record of what was sent are not the part's, and bring-ups go on being counted
(notes/assumptions/1.md, notes/assumptions/19.md). -/
def powerOn (s : State) : State :=
  { State.reset with
    pending := s.pending
    sent := s.sent
    lines := { State.reset.lines with mainOk := s.lines.mainOk, memOk := s.lines.memOk }
    wake := { WakeUnit.reset with lines := Vector.ofFn fun i : Fin 5 => resetLine s.wake.lines[i] }
    dram := { DramPort.reset with bringUps := s.dram.bringUps } }

/-- The operation that RESET_PART leaves on the link: the one in flight, or the one it was held back for (R191). -/
def leftOnLink (s : State) : Option (BitVec 8) :=
  match s.store.op with
  | some o => some o.num
  | none => s.store.holdBack

/-- The hold-back flag and the timer that guards the operation left on the link (R191). -/
def holdBackStore (s : State) : StorePort :=
  { StorePort.reset with
    holdBack := s.leftOnLink
    timer := if s.leftOnLink.isSome then s.store.timer else Timer.stopped }

/-- STANDBY_POWER_ON (R4, R49, R133). -/
def standbyPowerOn (s : State) : State := s.powerOn.bringUpIfReady

/-- RESET_PART: the reset, the reply DONE, and bring-up where both rails are asserted (R191). -/
def resetPart (s : State) : State :=
  ((s.powerOn.setStore s.holdBackStore).putReply 25 .done []).bringUpIfReady

end State

/-- RAIL_FALL (R149). -/
def execRailFall (rail : Rail) (s : State) : Host.Outcome State Fault Refusal := .next (s.railFall rail)

/-- RAIL_RISE (R153). -/
def execRailRise (rail : Rail) (s : State) : Host.Outcome State Fault Refusal := .next (s.railRise rail)

/-- STANDBY_POWER_ON (R4). -/
def execStandbyPowerOn (s : State) : Host.Outcome State Fault Refusal := .next s.standbyPowerOn

end Sys2Proof.Machine
end

