-- ==== Sys2Proof/Machine/WakeEvents.lean ====
section
/-! DEFINITION. The commands WK_ASSERT, WK_DEASSERT and HOLD_TIMER_EXPIRY, and what the Transition Controller does with
a qualification (R159 to R163). -/

namespace Sys2Proof.Machine

namespace State

/-- WAKE_REQ is asserted (R163). -/
def assertWakeReq (s : State) : State := s.setWake { s.wake with wakeReq := true }

/-- The deferred request is set (R162). -/
def deferWake (s : State) : State := s.setWake { s.wake with deferred := true }

/-- A qualification in an entry, with no abort waiting: an abortable entry is aborted, another notes the wake
(R162). -/
def wakeInEntry (s : State) (abort : State → State) : State :=
  if s.tc.railLoss then s.deferWake
  else if s.tc.waitingAbort.isSome then s
  else if s.tc.abortable then abort s
  else s.deferWake

/-- The Transition Controller acts on a qualification (R162). -/
def actOnWake (s : State) : State :=
  match s.tc.state with
  | .saving | .committing => s.wakeInEntry fun s => s.setTc { s.tc with waitingAbort := some .wake }
  | .parking => s.wakeInEntry fun s => s.parkAbort .wake
  | .sleeping | .imagedOff => s.assertWakeReq
  | .unconfigured | .starting | .active | .restoring | .unparking | .reviving => s

/-- A line qualifies (R161). -/
def qualify (s : State) (line : Fin 5) : State :=
  (s.setWake { s.wake with causes := addCause s.wake.causes line }).actOnWake

/-- A line's machine has moved, and may have qualified. -/
def lineMoved (s : State) (line : Fin 5) (l : WakeLine × Bool) : State :=
  let s := s.setWake (s.wake.setLine line l.1)
  if l.2 then (s.qualify line).settle else s

/-- WK_ASSERT: a line changes level once (R159, R160). -/
def wkAssert (s : State) (line : Fin 5) : State :=
  if s.wake.lines[line].level then s else s.lineMoved line s.wake.lines[line].assert

/-- WK_DEASSERT (R159, R160). -/
def wkDeassert (s : State) (line : Fin 5) : State :=
  if s.wake.lines[line].level then s.setWake (s.wake.setLine line s.wake.lines[line].deassert) else s

/-- HOLD_TIMER_EXPIRY (R160). -/
def holdTimerExpiry (s : State) (line : Fin 5) : State :=
  if s.wake.lines[line].timer.status = .running then s.lineMoved line s.wake.lines[line].expire else s

end State

/-- WK_ASSERT (R159, R160). -/
def execWkAssert (line : Fin 5) (s : State) : Host.Outcome State Fault Refusal := .next (s.wkAssert line)

/-- WK_DEASSERT (R159, R160). -/
def execWkDeassert (line : Fin 5) (s : State) : Host.Outcome State Fault Refusal := .next (s.wkDeassert line)

/-- HOLD_TIMER_EXPIRY (R160). -/
def execHoldTimerExpiry (line : Fin 5) (s : State) : Host.Outcome State Fault Refusal :=
  .next (s.holdTimerExpiry line)

end Sys2Proof.Machine
end

