-- ==== Sys2Proof/Machine/Timers.lean ====
section
/-! DEFINITION. The commands PACE_TIMER_EXPIRY (R92, R94), FILL_TIMER_EXPIRY (R117) and SLEEP_TIMER_EXPIRY (R145), and
the ms that passes when no command waits. -/

namespace Sys2Proof.Machine

/-- A RUNNING timer one ms later: its count falls, and stops at 1 until its expiry is taken as a command
(notes/assumptions/2.md). -/
def Timer.tick (t : Timer) : Timer :=
  if t.status = .running ∧ 1 < t.count then { t with count := t.count - 1 } else t

namespace State

/-! ## PACE -/

/-- A PACE expiry that finds the free slot queue empty with a DIRTY granule waiting reports SLOT_EXHAUSTED once
(R94). -/
def noteExhaustion (s : State) : State :=
  if s.store.status = .attached ∧ s.engine.freeSlots = [] ∧ s.engine.exhaustionNoted = false then
    match s.tracker.dirtyScan s.engine.presaveCursor with
    | some g =>
      let s := s.report .slotExhausted g (.number 0)
      s.setEngine { s.engine with exhaustionNoted := true }
    | none => s
  else s

/-- The PACE timer is EXPIRED (R92, R94). -/
def paceExpires (s : State) : State :=
  (s.setEngine { s.engine with paceTimer := Timer.expired }).noteExhaustion

/-- PACE_TIMER_EXPIRY. -/
def paceTimerExpiry (s : State) : State :=
  if s.engine.paceTimer.status = .running then s.paceExpires.settle else s

/-! ## FILL -/

/-- FILL_TIMER_EXPIRY: the background grant is held (R117). -/
def fillTimerExpiry (s : State) : State :=
  if s.engine.fillTimer.status = .running then
    (s.setEngine { s.engine with fillTimer := Timer.expired, grant := true }).settle
  else s

/-! ## SLEEP -/

/-- The escalation of a sleep: to IMAGED_OFF with the mark SET, to WAKE_REQ otherwise (R145). -/
def escalate (s : State) : State :=
  if s.engine.mark = .set then
    ((s.setOrigin .escalate).enterImagedOff).writeOutcome .escalate .completed .none
  else
    (s.setTc { s.tc with sleepTimer := Timer.expired }).setWake { s.wake with escalate := true, wakeReq := true }

/-- SLEEP_TIMER_EXPIRY. -/
def sleepTimerExpiry (s : State) : State :=
  if s.tc.state = .sleeping ∧ s.tc.sleepTimer.status = .running ∧ s.tc.railLoss = false then s.escalate.settle else s

/-! ## No command waits -/

/-- One ms passes (notes/assumptions/2.md). -/
def idle (s : State) : State :=
  let s := s.setEngine
    { s.engine with paceTimer := s.engine.paceTimer.tick, fillTimer := s.engine.fillTimer.tick }
  let s := s.setStore { s.store with timer := s.store.timer.tick }
  let s := s.setTc { s.tc with sleepTimer := s.tc.sleepTimer.tick }
  s.setWake
    { s.wake with
      lines := Vector.ofFn fun i : Fin 5 => { s.wake.lines[i] with timer := s.wake.lines[i].timer.tick } }

end State

/-- PACE_TIMER_EXPIRY (R92). -/
def execPaceTimerExpiry (s : State) : Host.Outcome State Fault Refusal := .next s.paceTimerExpiry

/-- FILL_TIMER_EXPIRY (R117). -/
def execFillTimerExpiry (s : State) : Host.Outcome State Fault Refusal := .next s.fillTimerExpiry

/-- SLEEP_TIMER_EXPIRY (R145). -/
def execSleepTimerExpiry (s : State) : Host.Outcome State Fault Refusal := .next s.sleepTimerExpiry

end Sys2Proof.Machine
end

