-- ==== Sys2Proof/Machine/Sideband.lean ====
section
/-! DEFINITION. The Sideband Port's exchange: the judgement of a command frame (R183, R184), UNKNOWN_COMMAND_FRAME,
READ_REPLY and RESET_PART. -/

namespace Sys2Proof.Machine

namespace State

/-- Any reply in the buffer is discarded as a command frame arrives (R183). -/
def clearBuffer (s : State) : State := s.setSide { s.side with buffer := none }

/-- A command whose reply is deferred: the port is HANDLING and the buffer empty (R183, R185). -/
def beginHandling (s : State) : State := s.setSide { s.side with buffer := none, handling := true }

/-- A command frame is judged (R184 steps 2 to 5): its length, HANDLING, a rail loss for the commands that R136 names,
and then its owner. -/
def command (s : State) (code len : Nat) (p : List Byte) (named : Bool) (own : State → State) : State :=
  if p.length ≠ len then s.putReply code .badArgument []
  else if s.side.handling then s.putReply code .busy []
  else if named && s.tc.railLoss then s.putReply code .busy []
  else own s.clearBuffer

/-- A code that names no command (R184 step 1). -/
def unknownCommand (s : State) (code : Byte) : State := s.putReply code.toNat .unknownCommand []

/-- The sequencer reads the reply, or the empty frame (R183). -/
def readReply (s : State) : State :=
  (s.setSent { s.sent with replies := s.sent.replies ++ [s.side.buffer.getD Reply.emptyFrame] }).clearBuffer

/-- RESET_PART is taken while HANDLING and under a rail loss too (R184, R191). -/
def resetPartCommand (s : State) (p : List Byte) : State :=
  if p.length ≠ 0 then s.putReply 25 .badArgument [] else s.resetPart

end State

/-- UNKNOWN_COMMAND_FRAME (R184). -/
def execUnknownCommandFrame (code : Byte) (_params : List Byte) (s : State) : Host.Outcome State Fault Refusal :=
  .next (s.unknownCommand code)

/-- READ_REPLY (R183). -/
def execReadReply (s : State) : Host.Outcome State Fault Refusal := .next s.readReply

/-- RESET_PART (R191). -/
def execResetPart (params : List Byte) (s : State) : Host.Outcome State Fault Refusal :=
  .next (s.resetPartCommand params)

end Sys2Proof.Machine
end

