-- ==== Sys2Proof/Machine/SidebandTransitions.lean ====
section
/-! DEFINITION. The sideband commands that begin or end long operations: START (R137), LOAD_REGIONS (R36),
ATTACH_STORE (R87), SLEEP (R139), HYBRID and HIBERNATE (R99), ABORT_ENTRY (R148), EXIT_SLEEP (R144, R146), EXIT_IMAGED
(R130) and RELEASE_POISON (R131). -/

namespace Sys2Proof.Machine

namespace State

/-! ## START -/

/-- The START that a command's arguments ask for. -/
def startRequest (a : StartArgs) (phase : StartPhase) : StartReq :=
  { fresh := a.fresh, units := a.units, tableAddr := a.tableAddr, storeUse := a.storeUse, phase := phase,
    fetched := [] }

/-- START FRESH, its arguments sound: the table is fetched before the command is answered (R137 step 4, R40). -/
def fetchTable (s : State) (a : StartArgs) : State :=
  let s := s.beginHandling
  let s := s.setTc { s.tc with fetching := some (startRequest a .fetching) }
  (s.present .fetch (a.tableAddr / Config.lineBytes)).settle

/-- START is taken in UNCONFIGURED with both rails asserted (R137 step 1, R124 step 1). -/
def startTaken (s : State) : Bool := decide (s.tc.state = .unconfigured) && s.railsOk

/-- START's own checks, in order (R137, R195, R124, R40). -/
def start (s : State) (p : List Byte) : State :=
  if s.startTaken then
    match startArgs p with
    | none => s.putReply 1 .badArgument []
    | some a =>
      if a.fresh then
        if tableAddrOk (Config.unitGranules * a.units) a.tableAddr then s.fetchTable a
        else s.putReply 1 .badArgument []
      else if a.storeUse then (s.acceptStart (startRequest a .draining)).settle
      else s.putReply 1 .storeUnavailable []
  else s.putReply 1 .wrongState []

/-! ## LOAD_REGIONS and ATTACH_STORE -/

/-- A load begins with its fetch (R36, R37). -/
def beginLoad (s : State) (addr : Nat) : State :=
  let s := s.beginHandling
  let s := s.setRegion { s.region with load := some { addr := addr, fetched := [] } }
  (s.present .fetch (addr / Config.lineBytes)).settle

/-- LOAD_REGIONS' own checks, in order (R36). -/
def loadRegions (s : State) (p : List Byte) : State :=
  if s.tc.state ≠ .active then s.putReply 2 .wrongState []
  else if tableAddrOk s.granules (numberAt p 0 8) = false then s.putReply 2 .badArgument []
  else if s.anyCopying then s.putReply 2 .busy []
  else s.beginLoad (numberAt p 0 8)

/-- ATTACH_STORE's own checks, and the bring-up it begins (R87). -/
def attachStore (s : State) : State :=
  if s.tc.state ≠ .active ∨ s.store.status = .attached then s.putReply 3 .wrongState []
  else
    let s := s.beginHandling
    (s.setEngine { s.engine with bringUp := some (newBringUp .attach) }).settle

/-! ## Entries -/

/-- The acceptance of an entry or an exit clears the causes and WAKE_REQ and sets the origin (R164, R133). -/
def acceptTransition (s : State) (op : LongOp) : State := (s.setWake s.wake.clearCauses).setOrigin op

/-- The abortable flag of an entry (R133). -/
def setAbortable (s : State) (flag : Bool) : State := s.setTc { s.tc with abortable := flag }

/-- An entry by HYBRID or HIBERNATE begins (R99, R110). -/
def beginEntry (s : State) (op : LongOp) (flag : Bool) : State :=
  let s := (s.acceptTransition op).setAbortable flag
  let s := s.setTc { s.tc with waitingAbort := none }
  let s := s.setEngine { s.engine with passes := 1, lateNoted := false }
  s.enterState .saving

/-- HYBRID's and HIBERNATE's own checks, in order (R99, R195). -/
def imagedEntry (s : State) (code : Nat) (op : LongOp) (p : List Byte) : State :=
  if s.tc.state.running then
    match abortableArg p with
    | none => s.putReply code .badArgument []
    | some flag =>
      if s.store.status = .attached then ((s.beginEntry op flag).putReply code .accepted []).settle
      else s.putReply code .storeUnavailable []
  else s.putReply code .wrongState []

/-- SLEEP's own checks, and the park it begins (R139). -/
def sleep (s : State) (p : List Byte) : State :=
  if s.tc.state.running then
    match abortableArg p with
    | none => s.putReply 4 .badArgument []
    | some flag =>
      let s := ((s.acceptTransition .sleep).setAbortable flag).enterParking
      (s.putReply 4 .accepted []).settle
  else s.putReply 4 .wrongState []

/-- ABORT_ENTRY records a waiting abort, or aborts a park (R148, R110, R142). -/
def abortEntry (s : State) : State :=
  match s.tc.state with
  | .saving | .committing =>
    let s := s.setTc { s.tc with waitingAbort := s.tc.waitingAbort.or (some .request) }
    (s.putReply 7 .accepted []).settle
  | .parking => ((s.parkAbort .request).putReply 7 .accepted []).settle
  | _ => s.putReply 7 .wrongState []

/-! ## Exits -/

/-- EXIT_SLEEP (R144, R146). -/
def exitSleep (s : State) : State :=
  if s.tc.state = .sleeping ∧ s.railsOk = true then
    let s := (s.acceptTransition .exitSleep).enterState .unparking
    let s := s.setDram { s.dram with cond := .exitingSr }
    (s.putReply 8 .accepted []).settle
  else s.putReply 8 .wrongState []

/-- EXIT_IMAGED (R130). -/
def exitImaged (s : State) : State :=
  if s.tc.state = .imagedOff ∧ s.railsOk = true then
    let s := (s.acceptTransition .exitImaged).enterState .reviving
    (s.beginBringUp.putReply 9 .accepted []).settle
  else s.putReply 9 .wrongState []

/-! ## RELEASE_POISON -/

/-- RELEASE_POISON (R131, R20). -/
def releasePoison (s : State) (p : List Byte) : State :=
  if s.tc.state.running then
    match releaseArgs s.granules p with
    | none => s.putReply 11 .badArgument []
    | some (first, count) =>
      ((s.claimRelease first count).putReply 11 .done (leBytes 4 (s.poisonIn first count))).settle
  else s.putReply 11 .wrongState []

end State

/-- START (R137). -/
def execStart (params : List Byte) (s : State) : Host.Outcome State Fault Refusal :=
  .next (s.command 1 12 params true fun s => s.start params)

/-- LOAD_REGIONS (R36). -/
def execLoadRegions (params : List Byte) (s : State) : Host.Outcome State Fault Refusal :=
  .next (s.command 2 8 params true fun s => s.loadRegions params)

/-- ATTACH_STORE (R87). -/
def execAttachStore (params : List Byte) (s : State) : Host.Outcome State Fault Refusal :=
  .next (s.command 3 0 params true State.attachStore)

/-- SLEEP (R139). -/
def execSleep (params : List Byte) (s : State) : Host.Outcome State Fault Refusal :=
  .next (s.command 4 1 params true fun s => s.sleep params)

/-- HYBRID (R99). -/
def execHybrid (params : List Byte) (s : State) : Host.Outcome State Fault Refusal :=
  .next (s.command 5 1 params true fun s => s.imagedEntry 5 .hybrid params)

/-- HIBERNATE (R99). -/
def execHibernate (params : List Byte) (s : State) : Host.Outcome State Fault Refusal :=
  .next (s.command 6 1 params true fun s => s.imagedEntry 6 .hibernate params)

/-- ABORT_ENTRY (R148). -/
def execAbortEntry (params : List Byte) (s : State) : Host.Outcome State Fault Refusal :=
  .next (s.command 7 0 params true State.abortEntry)

/-- EXIT_SLEEP (R146). -/
def execExitSleep (params : List Byte) (s : State) : Host.Outcome State Fault Refusal :=
  .next (s.command 8 0 params true State.exitSleep)

/-- EXIT_IMAGED (R130). -/
def execExitImaged (params : List Byte) (s : State) : Host.Outcome State Fault Refusal :=
  .next (s.command 9 0 params true State.exitImaged)

/-- RELEASE_POISON (R131). -/
def execReleasePoison (params : List Byte) (s : State) : Host.Outcome State Fault Refusal :=
  .next (s.command 11 8 params true fun s => s.releasePoison params)

end Sys2Proof.Machine
end

