-- ==== Sys2Proof/Machine/SidebandSettings.lean ====
section
/-! DEFINITION. The sideband commands that change settings: PRESAVE (R91), SET_PARAM (R186), SET_WAKE (R157),
CLEAR_WAKE (R164), REPORT and REPORT_ALL (R180), ALERT_DISABLE (R179), CLEAR_FAULT (R182) and INJECT_CHECK_ERROR
(R169). -/

namespace Sys2Proof.Machine

namespace State

/-! ## PRESAVE (R91) -/

/-- A STOPPED PACE timer is loaded in a running state with presave on and running (R91). In a rail loss, which stops
the timer of a presave that is on (R149), ON and RESUME load it again: the model's choice
(notes/assumptions/38.md). -/
def startPace (s : State) : State :=
  if s.tc.state.running = true ∧ s.engine.presaveOn = true ∧ s.engine.presavePaused = false ∧
      s.engine.paceTimer.status = .stopped then s.reloadPace
  else s

/-- PRESAVE(ON). -/
def presaveOn (s : State) : State := (s.setEngine { s.engine with presaveOn := true }).startPace

/-- PRESAVE(OFF). -/
def presaveOff (s : State) : State :=
  s.setEngine { s.engine with presaveOn := false, paceTimer := Timer.stopped, exhaustionNoted := false }

/-- The PACE timer as PAUSE leaves it. -/
def gatePace (t : Timer) : Timer :=
  match t.status with
  | .running => { t with status := .gated }
  | .expired => { status := .gated, count := 0 }
  | .stopped | .gated => t

/-- PRESAVE(PAUSE). -/
def presavePause (s : State) : State :=
  s.setEngine { s.engine with presavePaused := true, paceTimer := gatePace s.engine.paceTimer }

/-- PRESAVE(RESUME). -/
def presaveResume (s : State) : State :=
  let s := s.setEngine { s.engine with presavePaused := false }
  match s.engine.paceTimer.status with
  | .gated =>
    if s.engine.paceTimer.count = 0 then s.paceExpires
    else s.setEngine { s.engine with paceTimer := Timer.load s.engine.paceTimer.count }
  | _ => s.startPace

/-- PRESAVE's effect by its argument. -/
def presaveAs (s : State) (a : PresaveArg) : State :=
  match a with
  | .on => s.presaveOn
  | .off => s.presaveOff
  | .pause => s.presavePause
  | .resume => s.presaveResume

/-- PRESAVE. -/
def presave (s : State) (p : List Byte) : State :=
  match presaveArg p with
  | none => s.putReply 10 .badArgument []
  | some a => ((s.presaveAs a).putReply 10 .done []).settle

/-! ## Parameters and wake settings -/

/-- SET_PARAM (R186). -/
def setParam (s : State) (p : List Byte) : State :=
  match setParamArg s.side.params p with
  | none => s.putReply 12 .badArgument []
  | some ps => (s.setSide { s.side with params := ps }).putReply 12 .done []

/-- SET_WAKE (R157). -/
def setWakeLine (s : State) (p : List Byte) : State :=
  match setWakeArgs p with
  | none => s.putReply 13 .badArgument []
  | some (line, mode, hold) =>
    (s.setWake (s.wake.setLine line (s.wake.lines[line].setting mode hold s.tc.state.monitored))).putReply 13 .done []

/-- CLEAR_WAKE (R164). -/
def clearWake (s : State) : State := (s.setWake s.wake.clearCauses).putReply 14 .done []

/-! ## Fault Unit settings -/

/-- REPORT (R180). -/
def setReport (s : State) (p : List Byte) : State :=
  match reportArgs p with
  | none => s.putReply 15 .badArgument []
  | some (i, on) => (s.setFaults (s.faults.setEnable i on)).putReply 15 .done []

/-- REPORT_ALL (R180). -/
def setReportAll (s : State) (p : List Byte) : State :=
  (s.setFaults { s.faults with enables := reportAllArg p }).putReply 16 .done []

/-- ALERT_DISABLE (R179). -/
def setAlertDisable (s : State) (p : List Byte) : State :=
  match alertDisableArg p with
  | none => s.putReply 17 .badArgument []
  | some on => (s.setFaults (s.faults.setAlertDisable on)).putReply 17 .done []

/-- CLEAR_FAULT (R182). -/
def clearFault (s : State) : State := (s.setFaults s.faults.clear).putReply 19 .done []

/-- INJECT_CHECK_ERROR (R169). -/
def injectCheckError (s : State) : State := (s.setDram { s.dram with inject := true }).putReply 24 .done []

end State

/-- PRESAVE (R91). -/
def execPresave (params : List Byte) (s : State) : Host.Outcome State Fault Refusal :=
  .next (s.command 10 1 params false fun s => s.presave params)

/-- SET_PARAM (R186). -/
def execSetParam (params : List Byte) (s : State) : Host.Outcome State Fault Refusal :=
  .next (s.command 12 4 params false fun s => s.setParam params)

/-- SET_WAKE (R157). -/
def execSetWake (params : List Byte) (s : State) : Host.Outcome State Fault Refusal :=
  .next (s.command 13 4 params false fun s => s.setWakeLine params)

/-- CLEAR_WAKE (R164). -/
def execClearWake (params : List Byte) (s : State) : Host.Outcome State Fault Refusal :=
  .next (s.command 14 0 params false State.clearWake)

/-- REPORT (R180). -/
def execReport (params : List Byte) (s : State) : Host.Outcome State Fault Refusal :=
  .next (s.command 15 2 params false fun s => s.setReport params)

/-- REPORT_ALL (R180). -/
def execReportAll (params : List Byte) (s : State) : Host.Outcome State Fault Refusal :=
  .next (s.command 16 2 params false fun s => s.setReportAll params)

/-- ALERT_DISABLE (R179). -/
def execAlertDisable (params : List Byte) (s : State) : Host.Outcome State Fault Refusal :=
  .next (s.command 17 1 params false fun s => s.setAlertDisable params)

/-- CLEAR_FAULT (R182). -/
def execClearFault (params : List Byte) (s : State) : Host.Outcome State Fault Refusal :=
  .next (s.command 19 0 params false State.clearFault)

/-- INJECT_CHECK_ERROR (R169). -/
def execInjectCheckError (params : List Byte) (s : State) : Host.Outcome State Fault Refusal :=
  .next (s.command 24 0 params false State.injectCheckError)

end Sys2Proof.Machine
end

