-- ==== Sys2Proof/Machine/SidebandReads.lean ====
section
/-! DEFINITION. The sideband commands that read: READ_FAULT (R181), STATUS (R187), READ_GRANULE (R188), SNAPSHOT (R189)
and READ_SNAPSHOT (R190), with their reply layouts (12-2). -/

namespace Sys2Proof.Machine

/-- A cause entry's two bytes. -/
def Cause.bytes (c : Cause) : List Byte := leBytes 1 c.line.val ++ leBytes 1 c.count

/-- READ_FAULT's 16 bytes (R181). -/
def FaultUnit.bytes (f : FaultUnit) : List Byte :=
  leBytes 1 ((f.code.map FaultClass.code).getD 0) ++ leBytes 1 ((f.stateAt.map TState.code).getD 255) ++
    leBytes 2 f.detail.code ++ leBytes 8 f.addr ++ leBytes 1 f.count ++
    leBytes 1 (bit f.error + 2 * bit f.alertDisable) ++ leBytes 2 f.enables.toNat

/-- READ_GRANULE's 12 bytes (R188). -/
def GRec.bytes (g : Nat) (r : GRec) : List Byte :=
  leBytes 2 g ++ leBytes 1 r.st.code ++ leBytes 1 r.cls.code ++ leBytes 4 (slotNumber r.committed) ++
    leBytes 4 (slotNumber r.pending)

namespace State

/-- The summary flags' byte (R28, R187). -/
def flagsByte (s : State) : Nat :=
  bit s.anyDirty + 2 * bit s.anyAbsent + 4 * bit s.anyPoison + 8 * bit s.imageCurrent + 16 * bit s.epochOpen

/-- STATUS's 52 bytes (R187). -/
def statusBytes (s : State) : List Byte :=
  leBytes 1 s.tc.state.code ++ leBytes 1 s.tc.origin.code ++ leBytes 1 s.store.status.code ++
    leBytes 1 s.engine.mark.code ++ leBytes 4 s.engine.epoch.toNat ++ leBytes 4 s.tracker.dirtyTotal ++
    leBytes 4 s.tracker.savedTotal ++ leBytes 4 s.tracker.absentTotal ++ leBytes 4 s.tracker.poisonTotal ++
    leBytes 4 s.engine.freeSlots.length ++ leBytes 2 s.engine.retired.length ++ leBytes 1 s.flagsByte ++
    leBytes 1 s.engine.passes ++ leBytes 1 s.tc.outcome.op.code ++ leBytes 1 s.tc.outcome.result.code ++
    leBytes 1 s.tc.outcome.reason.code ++ leBytes 1 s.tc.outcome.passes ++ leBytes 1 s.wake.causes.length ++
    leBytes 1 (bit s.wake.escalate) ++ padTo 10 (s.wake.causes.flatMap Cause.bytes) ++
    leBytes 2 s.dram.parkCount ++ leBytes 2 s.dram.lastErrors

/-- READ_FAULT. -/
def readFault (s : State) : State := s.putReply 18 .done s.faults.bytes

/-- STATUS. -/
def status (s : State) : State := s.putReply 20 .done s.statusBytes

/-- READ_GRANULE. -/
def readGranule (s : State) (p : List Byte) : State :=
  s.putReply 21 .done ((s.recOf (numberAt p 0 2)).bytes (numberAt p 0 2))

/-- The nine timers in the order of R189: PACE, FILL, STORE, SLEEP, HOLD0 to HOLD4. -/
def timers (s : State) : Vector Timer 9 :=
  #v[s.engine.paceTimer, s.engine.fillTimer, s.store.timer, s.tc.sleepTimer, s.wake.lines[0].timer,
    s.wake.lines[1].timer, s.wake.lines[2].timer, s.wake.lines[3].timer, s.wake.lines[4].timer]

/-- A timer that a SNAPSHOT latches: selected, and its latch unlatched (R189). -/
def latchesNow (s : State) (mask : BitVec 9) (i : Fin 9) : Bool :=
  mask.getLsbD i.val && s.side.latches[i].isNone

/-- The mask of the timers that a SNAPSHOT latches (R189). -/
def latchedMask (s : State) (mask : BitVec 9) : Nat :=
  ((List.finRange 9).map fun i => if s.latchesNow mask i then 2 ^ i.val else 0).sum

/-- SNAPSHOT. -/
def snapshot (s : State) (p : List Byte) : State :=
  let mask := snapshotArg p
  (s.setSide
    { s.side with
      latches := Vector.ofFn fun i : Fin 9 =>
        if s.latchesNow mask i then some s.timers[i] else s.side.latches[i] }).putReply 22 .done
    (leBytes 2 (s.latchedMask mask))

/-- READ_SNAPSHOT. -/
def readSnapshot (s : State) (p : List Byte) : State :=
  match timerArg p with
  | none => s.putReply 23 .badArgument []
  | some i =>
    let latch := s.side.latches[i]
    (s.setSide { s.side with latches := s.side.latches.set i none }).putReply 23 .done
      (timerBytes latch.isSome (latch.getD Timer.stopped))

end State

/-- READ_FAULT (R181). -/
def execReadFault (params : List Byte) (s : State) : Host.Outcome State Fault Refusal :=
  .next (s.command 18 0 params false State.readFault)

/-- STATUS (R187). -/
def execStatus (params : List Byte) (s : State) : Host.Outcome State Fault Refusal :=
  .next (s.command 20 0 params false State.status)

/-- READ_GRANULE (R188). -/
def execReadGranule (params : List Byte) (s : State) : Host.Outcome State Fault Refusal :=
  .next (s.command 21 2 params false fun s => s.readGranule params)

/-- SNAPSHOT (R189). -/
def execSnapshot (params : List Byte) (s : State) : Host.Outcome State Fault Refusal :=
  .next (s.command 22 2 params false fun s => s.snapshot params)

/-- READ_SNAPSHOT (R190). -/
def execReadSnapshot (params : List Byte) (s : State) : Host.Outcome State Fault Refusal :=
  .next (s.command 23 1 params false fun s => s.readSnapshot params)

end Sys2Proof.Machine
end

