-- ==== Sys2Proof/Machine/Dispatch.lean ====
section
/-! DEFINITION. The dispatch: one meaning for each command. -/

namespace Sys2Proof.Machine

def exec (i : Instr) (s : State) : Host.Outcome State Fault Refusal :=
  match i with
  | .start params => Sys2Proof.Machine.execStart params s
  | .loadRegions params => Sys2Proof.Machine.execLoadRegions params s
  | .attachStore params => Sys2Proof.Machine.execAttachStore params s
  | .sleep params => Sys2Proof.Machine.execSleep params s
  | .hybrid params => Sys2Proof.Machine.execHybrid params s
  | .hibernate params => Sys2Proof.Machine.execHibernate params s
  | .abortEntry params => Sys2Proof.Machine.execAbortEntry params s
  | .exitSleep params => Sys2Proof.Machine.execExitSleep params s
  | .exitImaged params => Sys2Proof.Machine.execExitImaged params s
  | .presave params => Sys2Proof.Machine.execPresave params s
  | .releasePoison params => Sys2Proof.Machine.execReleasePoison params s
  | .setParam params => Sys2Proof.Machine.execSetParam params s
  | .setWake params => Sys2Proof.Machine.execSetWake params s
  | .clearWake params => Sys2Proof.Machine.execClearWake params s
  | .report params => Sys2Proof.Machine.execReport params s
  | .reportAll params => Sys2Proof.Machine.execReportAll params s
  | .alertDisable params => Sys2Proof.Machine.execAlertDisable params s
  | .readFault params => Sys2Proof.Machine.execReadFault params s
  | .clearFault params => Sys2Proof.Machine.execClearFault params s
  | .status params => Sys2Proof.Machine.execStatus params s
  | .readGranule params => Sys2Proof.Machine.execReadGranule params s
  | .snapshot params => Sys2Proof.Machine.execSnapshot params s
  | .readSnapshot params => Sys2Proof.Machine.execReadSnapshot params s
  | .injectCheckError params => Sys2Proof.Machine.execInjectCheckError params s
  | .resetPart params => Sys2Proof.Machine.execResetPart params s
  | .unknownCommandFrame code params => Sys2Proof.Machine.execUnknownCommandFrame code params s
  | .readReply => Sys2Proof.Machine.execReadReply s
  | .upstreamRequest packet => Sys2Proof.Machine.execUpstreamRequest packet s
  | .linkReset => Sys2Proof.Machine.execLinkReset s
  | .upstreamAccessDone tag => Sys2Proof.Machine.execUpstreamAccessDone tag s
  | .engineAccessDone => Sys2Proof.Machine.execEngineAccessDone s
  | .railFall rail => Sys2Proof.Machine.execRailFall rail s
  | .railRise rail => Sys2Proof.Machine.execRailRise rail s
  | .wkAssert line => Sys2Proof.Machine.execWkAssert line s
  | .wkDeassert line => Sys2Proof.Machine.execWkDeassert line s
  | .holdTimerExpiry line => Sys2Proof.Machine.execHoldTimerExpiry line s
  | .paceTimerExpiry => Sys2Proof.Machine.execPaceTimerExpiry s
  | .fillTimerExpiry => Sys2Proof.Machine.execFillTimerExpiry s
  | .storeTimerExpiry => Sys2Proof.Machine.execStoreTimerExpiry s
  | .sleepTimerExpiry => Sys2Proof.Machine.execSleepTimerExpiry s
  | .storeResponse frame => Sys2Proof.Machine.execStoreResponse frame s
  | .fillEnd granule => Sys2Proof.Machine.execFillEnd granule s
  | .zeroFillEnd => Sys2Proof.Machine.execZeroFillEnd s
  | .dramBringupEnd installed => Sys2Proof.Machine.execDramBringupEnd installed s
  | .selfRefreshEntryEnd => Sys2Proof.Machine.execSelfRefreshEntryEnd s
  | .selfRefreshExitEnd decay => Sys2Proof.Machine.execSelfRefreshExitEnd decay s
  | .patternWriteEnd => Sys2Proof.Machine.execPatternWriteEnd s
  | .compareEnd => Sys2Proof.Machine.execCompareEnd s
  | .regionFetchEnd => Sys2Proof.Machine.execRegionFetchEnd s
  | .startTableFetchEnd => Sys2Proof.Machine.execStartTableFetchEnd s
  | .standbyPowerOn => Sys2Proof.Machine.execStandbyPowerOn s

end Sys2Proof.Machine
end

