-- ==== Sys2Proof/WellFormed.lean ====
section
/-! DEFINITION. Which commands the outside can send: the bounds the manual sets on their operands.

A command that breaks the part's own rules (a wrong length, an unknown mode) is well formed and has a meaning;
what is ruled out here is only what no link can carry. -/

namespace Sys2Proof

/-- The parameter length of a command frame is from 0 to 16 bytes (R183). -/
def paramsWellFormed (params : List Byte) : Bool :=
  decide (params.length ≤ Config.maxParams)

/-- A frame on the store link: no more bytes listed than its length, and no longer than a block behind its
8-byte head (R192). -/
def Frame.wellFormed (f : Frame) : Bool :=
  decide (f.bytes.length ≤ f.length) && decide (f.length ≤ Config.granuleBytes + 8)

/-- Whether the outside can send the command: the sideband commands are codes 1 to 25 (R192), granules
are 0 to 65,535, and addresses are 34-bit (R47). A request packet of any length can be sent (R193). -/
def Instr.wellFormed : Instr → Bool
  | .start p | .loadRegions p | .attachStore p | .sleep p | .hybrid p | .hibernate p | .abortEntry p
  | .exitSleep p | .exitImaged p | .presave p | .releasePoison p | .setParam p | .setWake p | .clearWake p
  | .report p | .reportAll p | .alertDisable p | .readFault p | .clearFault p | .status p | .readGranule p
  | .snapshot p | .readSnapshot p | .injectCheckError p | .resetPart p => paramsWellFormed p
  | .unknownCommandFrame code p => paramsWellFormed p && (decide (code.toNat = 0) || decide (25 < code.toNat))
  | .readReply => true
  | .upstreamRequest _ => true
  | .linkReset => true
  | .upstreamAccessDone _ => true
  | .engineAccessDone => true
  | .railFall _ => true
  | .railRise _ => true
  | .wkAssert _ => true
  | .wkDeassert _ => true
  | .holdTimerExpiry _ => true
  | .paceTimerExpiry => true
  | .fillTimerExpiry => true
  | .storeTimerExpiry => true
  | .sleepTimerExpiry => true
  | .storeResponse f => f.wellFormed
  | .fillEnd g => decide (g < Config.maxGranules)
  | .zeroFillEnd => true
  | .dramBringupEnd n => decide (n ≤ Config.addressSpace) && decide (n % Config.lineBytes = 0)
  | .selfRefreshEntryEnd => true
  | .selfRefreshExitEnd decay => decay.all fun c => decide (c.1 < Config.addressSpace)
  | .patternWriteEnd => true
  | .compareEnd => true
  | .regionFetchEnd => true
  | .startTableFetchEnd => true
  | .standbyPowerOn => true

end Sys2Proof
end

