-- ==== Sys2Proof/Safety.lean ====
section
/-! DEFINITION. What statements say about states of the part: the forms its memories are kept in, the agreements
between its blocks, and the states that runs reach. -/

namespace Sys2Proof.Machine

/-- The directory and the pending total count the granule table (R26). -/
abbrev Tracker.counted (tr : Tracker) : Prop :=
  tr.dir = directoryOf tr.table ∧ tr.pendingTotal = pendingOf tr.table

/-- The Fault Unit's flags agree: ERROR is set exactly when the count is not zero (R176), ALERT is asserted exactly
while ERROR is set and ALERT_DISABLE is clear (R179), and the count is at most 255 (R174). -/
abbrev FaultUnit.agrees (f : FaultUnit) : Prop :=
  (f.error = true ↔ f.count ≠ 0) ∧ f.alert = (f.error && !f.alertDisable) ∧ f.count ≤ 255

/-- STABLE and DRAM_HOLD are as the transition state gives them (R134), and link ready as R49 gives it. -/
abbrev State.linesDriven (s : State) : Prop :=
  s.lines.stable = stableIn s.tc.state ∧ s.lines.dramHold = dramHoldIn s.tc.state ∧ s.ru.linkReady = s.linkReadyNow

/-- What a granule's state says of its class and its slots (1-1, R7): a pending slot exactly in COPYING, RECOPY and
SAVED, a committed slot in CLEAN and in a preserved ABSENT or FILLING, and none in one of ZERO class. -/
def GRec.sound (r : GRec) : Prop :=
  match r.st with
  | .void => r.cls.preserved = false ∧ r.pending = none
  | .clean => r.cls.preserved = true ∧ r.committed.isSome = true ∧ r.pending = none
  | .dirty | .poison => r.cls.preserved = true ∧ r.pending = none
  | .copying | .recopy | .saved => r.cls.preserved = true ∧ r.pending.isSome = true
  | .absent | .filling =>
    r.pending = none ∧
      ((r.cls.preserved = true ∧ r.committed.isSome = true) ∨ (r.cls = .zero ∧ r.committed = none))

/-- Every record of the granule table is sound, and the table is in its canonical form (R2, R7). -/
def Tracker.sound (tr : Tracker) : Prop := GTable.wf tr.table = true ∧ ∀ x ∈ tr.table, x.2.sound

/-- No two requests of the request table have one tag (R48). -/
abbrev RequestUnit.tagsDistinct (r : RequestUnit) : Prop := (r.table.map Entry.tag).Nodup

/-- The parameters lie in their ranges (R186). -/
abbrev Params.inRange (p : Params) : Prop :=
  (50 ≤ p.storeTimeout ∧ p.storeTimeout ≤ 5000 ∧ p.storeTimeout % 10 = 0) ∧
    (1 ≤ p.presavePace ∧ p.presavePace ≤ 1000) ∧ p.fillPace ≤ 1000 ∧ p.escalateAfter ≤ 1440 ∧
    p.checkThreshold ≤ 15

/-- The cause record names a line at most once, with a count from 1 to 15 (R156, R161). -/
abbrev causesOk (cs : List Cause) : Prop :=
  (cs.map Cause.line).Nodup ∧ ∀ c ∈ cs, 1 ≤ c.count ∧ c.count ≤ 15

/-- The fill list names a granule at most once (R114), and an entry makes at most four passes (R109). -/
abbrev ImageEngine.inRange (e : ImageEngine) : Prop := e.fillList.Nodup ∧ e.passes ≤ Config.maxPasses

/-- The counters of the DRAM Port lie in their ranges: the park count (R166), the last error count (R166), and the
count of upstream accesses in a row (R64). -/
abbrev DramPort.inRange (d : DramPort) : Prop :=
  d.parkCount < 65536 ∧ d.lastErrors ≤ 65535 ∧ d.runCount ≤ Config.maxRun

/-- The retired list holds at most 256 slots, and so does each retired list that the steps of START or ATTACH_STORE may
still put in its place (R81, R85, R88, R126). -/
def ImageEngine.retiredInRange (e : ImageEngine) : Prop :=
  e.retired.length ≤ 256 ∧
    ∀ b, e.bringUp = some b →
      b.formerRetired.length ≤ 256 ∧ (∀ h, b.header0 = some h → h.retired.length ≤ 256) ∧
        ∀ h, b.header1 = some h → h.retired.length ≤ 256

/-- The check granule and the granules beyond it are VOID and DISCARD, and hold no slot (R3). -/
def State.checkBlank (s : State) : Prop := ∀ g, s.granules ≤ g + 1 → s.recOf g = GRec.blank

/-- The number of places that hold a slot (R82): the free slot queue, the committed slots of the granules, their pending
slots, the retired list, and a copy on the link that has been disregarded. -/
def State.placesOf (s : State) (n : Nat) : Nat :=
  s.engine.freeSlots.count n + (s.tracker.table.countP fun x => decide (x.2.committed = some n)) +
    (s.tracker.table.countP fun x => decide (x.2.pending = some n)) + s.engine.retired.count n +
    match s.store.op with
    | some o =>
      match o.purpose with
      | .copy _ slot => if o.disregarded = true ∧ slot = n then 1 else 0
      | _ => 0
    | none => 0

/-! ## The sideband exchange -/

end Sys2Proof.Machine

namespace Sys2Proof

/-- The layout of each sideband command (12-2): its code, its parameter length, and the parameters it came with. -/
def Instr.sidebandForm : Instr → Option (Nat × Nat × List Byte)
  | .start p => some (1, 12, p)
  | .loadRegions p => some (2, 8, p)
  | .attachStore p => some (3, 0, p)
  | .sleep p => some (4, 1, p)
  | .hybrid p => some (5, 1, p)
  | .hibernate p => some (6, 1, p)
  | .abortEntry p => some (7, 0, p)
  | .exitSleep p => some (8, 0, p)
  | .exitImaged p => some (9, 0, p)
  | .presave p => some (10, 1, p)
  | .releasePoison p => some (11, 8, p)
  | .setParam p => some (12, 4, p)
  | .setWake p => some (13, 4, p)
  | .clearWake p => some (14, 0, p)
  | .report p => some (15, 2, p)
  | .reportAll p => some (16, 2, p)
  | .alertDisable p => some (17, 1, p)
  | .readFault p => some (18, 0, p)
  | .clearFault p => some (19, 0, p)
  | .status p => some (20, 0, p)
  | .readGranule p => some (21, 2, p)
  | .snapshot p => some (22, 2, p)
  | .readSnapshot p => some (23, 1, p)
  | .injectCheckError p => some (24, 0, p)
  | .resetPart p => some (25, 0, p)
  | _ => none

/-- The commands that are refused with BUSY while a rail loss is in progress (R136). -/
def Instr.refusedInRailLoss : Instr → Bool
  | .start _ | .loadRegions _ | .attachStore _ | .sleep _ | .hybrid _ | .hibernate _ | .abortEntry _ | .exitSleep _
  | .exitImaged _ | .releasePoison _ => true
  | _ => false

end Sys2Proof

namespace Sys2Proof.Machine

/-- A command frame of the right length finds the port READY (R184 steps 2 and 3). -/
abbrev State.takes (s : State) (p : List Byte) (length : Nat) : Prop := p.length = length ∧ s.side.handling = false

/-- A command frame of the right length finds the port READY and no rail loss in progress (R184 steps 2 to 4). -/
abbrev State.takesLong (s : State) (p : List Byte) (length : Nat) : Prop := s.takes p length ∧ s.tc.railLoss = false

/-- The entered-DIRTY notice has been taken: a SET mark is CLEARING with a mark clear queued, and another mark is as it
was (R6). -/
def State.noticedDirty (s t : State) : Prop :=
  if s.engine.mark = .set then t.engine.mark = .clearing ∧ t.engine.markClearQueued = true
  else t.engine.mark = s.engine.mark ∧ t.engine.markClearQueued = s.engine.markClearQueued

/-! ## How entries, rail losses and escalations end -/

/-- The result of an abort of a kind (R110, R142). -/
def AbortKind.result : AbortKind → OutcomeResult
  | .wake => .abortedWake
  | .request => .abortedRequest
  | .traffic => .abortedTraffic

/-- The record of an entry that ends: the origin's operation, and the pass count for HYBRID and HIBERNATE (R155). -/
def State.entryRecord (s : State) (result : OutcomeResult) (reason : OutcomeReason) : OutcomeRec :=
  { op := s.tc.origin
    result := result
    reason := reason
    passes := if s.tc.origin = .hybrid ∨ s.tc.origin = .hibernate then s.engine.passes else 0 }

/-- An entry is taken back from SAVING or COMMITTING: RESTORING is entered where any granule is ABSENT or FILLING and
ACTIVE otherwise, no abort waits, and the COMMIT-held entries are released and judged there (R103, R107, R109, R110). -/
def State.entryReturned (s : State) : State :=
  let entered := s.enterState (if s.anyAbsent then .restoring else .active)
  (entered.setTc { entered.tc with waitingAbort := none }).releaseAll .commit

/-- `t` is what the entry into IMAGED_OFF makes of `s` (R147 steps 1 to 4): the DRAM-loss marking with the slots it
releases, every copy, fill and zero fill in flight disregarded and presenting nothing more, the lists and the mark kept
(R123), DRAM let go, the timers STOPPED and the rail loss cleared. The request table stays as it is (the model's choice,
notes/assumptions/35.md), and so do the accesses that R123 does not withdraw (notes/assumptions/15.md). -/
def State.imagedFrom (s t : State) : Prop :=
  t.tracker = s.claimDramLoss.tracker ∧
  t.engine.freeSlots = s.claimDramLoss.engine.freeSlots ∧ t.engine.retired = s.engine.retired ∧
  t.engine.fillList = s.engine.fillList ∧ t.engine.fillCursor = s.engine.fillCursor ∧
  t.engine.epoch = s.engine.epoch ∧ t.engine.mark = s.engine.mark ∧
  t.engine.headerRecord = s.engine.headerRecord ∧ t.engine.passes = s.engine.passes ∧
  t.engine.fills = [] ∧ t.engine.zeroFill = none ∧
  t.engine.paceTimer = Timer.stopped ∧ t.engine.fillTimer = Timer.stopped ∧ t.engine.grant = false ∧
  t.dram =
    { s.dram with
      cond := .notUp
      queue := s.dram.queue.filter fun a =>
        match a.src with
        | .engine .copy | .engine (.fill _) | .engine .zeroFill => false
        | _ => true } ∧
  (∀ o, s.store.op = some o →
    t.store.op = some
      (match o.purpose with
      | .copy _ _ | .fill _ => { o with disregarded := true }
      | _ => o)) ∧
  t.store.status = s.store.status ∧
  t.tc.state = .imagedOff ∧ t.tc.railLoss = false ∧ t.tc.parkPhase = .none ∧ t.tc.sleepTimer = Timer.stopped ∧
  t.wake = (s.enterState .imagedOff).wake ∧ t.ru.table = s.ru.table ∧ t.region = s.region

/-- `t` is what the UNCONFIGURED path makes of `s` (R151 steps 1 to 5): the clearing of the granule table (R23), the
Image Engine's queues and lists emptied, its cursors 0, its mark CLEAR and E kept, the region file emptied, the store
DETACHED with the operation on its link disregarded, and the state UNCONFIGURED. -/
def State.unconfiguredFrom (s t : State) : Prop :=
  t.tracker = State.reset.tracker ∧
  t.engine.freeSlots = [] ∧ t.engine.retired = [] ∧ t.engine.fillList = [] ∧
  t.engine.presaveCursor = 0 ∧ t.engine.fillCursor = 0 ∧ t.engine.commitPhase = .none ∧
  t.engine.mark = .clear ∧ t.engine.markClearQueued = false ∧ t.engine.headerRecord = none ∧
  t.engine.epoch = s.engine.epoch ∧ t.engine.fills = [] ∧ t.engine.zeroFill = none ∧ t.engine.bringUp = none ∧
  t.engine.paceTimer = (s.enterState .unconfigured).engine.paceTimer ∧ t.engine.fillTimer = Timer.stopped ∧
  t.engine.grant = false ∧ t.tc.sleepTimer = (s.enterState .unconfigured).tc.sleepTimer ∧
  t.region = { s.region with file := RegionFile.empty } ∧
  t.store =
    { s.store with status := .detached, op := s.store.op.map fun o => { o with disregarded := true } } ∧
  t.tc.state = .unconfigured ∧ t.tc.railLoss = false ∧ t.tc.start = none ∧ t.tc.parkPhase = .none ∧
  t.wake = (s.enterState .unconfigured).wake

/-- Every byte of DRAM reads as before. -/
def State.sameBytes (s t : State) : Prop := ∀ a, t.dram.byte a = s.dram.byte a

/-- The states that runs reach: from reset, by commands joining the queue and by steps. -/
inductive Reachable : State → Prop where
  | reset : Reachable State.reset
  | send (s : State) (c : Instr) : Reachable s → c.wellFormed = true → Reachable (s.setPending (s.pending ++ [c]))
  | step (s t : State) : Reachable s → Machine.step s = .next t → Reachable t

end Sys2Proof.Machine
end

