-- ==== Sys2Proof/Certificates/Slice0/Obligations.lean ====
section
/-! DEFINITION. The statements for the provers. -/

open Sys2Proof Sys2Proof.Machine

/-! ## The queue, reset, and invariants -/

/-- A step takes the command at the front of the queue and runs it on the queue's rest. -/
def Obligations.StepTakesFrontCommand : Prop :=
  ∀ (s : State) (c : Instr) (rest : List Instr), s.pending = c :: rest → step s = exec c (s.setPending rest)

/-- With no command waiting one ms passes: the timers tick, and nothing else changes (the model's choice,
notes/assumptions/2.md). A RUNNING count falls by one, and stops at 1 until its expiry is taken as a command; a timer
that is not RUNNING stands. -/
def Obligations.EmptyQueuePassesOneMs : Prop :=
  (∀ s : State, s.pending = [] →
    ∃ t, step s = .next t ∧ t.pending = [] ∧
      t.engine = { s.engine with paceTimer := s.engine.paceTimer.tick, fillTimer := s.engine.fillTimer.tick } ∧
      t.store = { s.store with timer := s.store.timer.tick } ∧
      t.tc = { s.tc with sleepTimer := s.tc.sleepTimer.tick } ∧
      (∀ i : Fin 5, t.wake.lines[i] = { s.wake.lines[i] with timer := s.wake.lines[i].timer.tick }) ∧
      t.wake.causes = s.wake.causes ∧ t.wake.escalate = s.wake.escalate ∧ t.wake.deferred = s.wake.deferred ∧
      t.wake.wakeReq = s.wake.wakeReq ∧ t.ru = s.ru ∧ t.region = s.region ∧ t.tracker = s.tracker ∧
      t.dram = s.dram ∧ t.faults = s.faults ∧ t.side = s.side ∧ t.lines = s.lines ∧ t.sent = s.sent) ∧
  ∀ x : Timer,
    (x.status = .running → x.tick = { status := .running, count := if x.count ≤ 1 then x.count else x.count - 1 }) ∧
    (x.status ≠ .running → x.tick = x)

/-- Every command answers a next state and leaves the commands that wait as they were. -/
def Obligations.EveryCommandKeepsTheQueue : Prop :=
  ∀ (c : Instr) (s : State), ∃ t, exec c s = .next t ∧ t.pending = s.pending

/-- What the manual gives each block at standby power-on; and STANDBY_POWER_ON puts every block there (R4), and
RESET_PART does too, keeping the operation left on the store link as its hold-back with that operation's number, or an
earlier hold-back where it stands (R191, notes/assumptions/18.md), and answering DONE, HANDLING or not. Where both
rails are asserted DRAM bring-up begins (R49). The levels into the part stay (notes/assumptions/7.md), and so do the
count of bring-ups (notes/assumptions/1.md), the commands that wait and the record of what was sent
(notes/assumptions/19.md). -/
def Obligations.ResetIsStandbyPowerOn : Prop :=
  (State.reset.pending = [] ∧ State.reset.ru.table = [] ∧ State.reset.ru.linkReady = false ∧
  (∀ g, State.reset.recOf g = { st := .void, committed := none, pending := none, cls := .discard }) ∧
  (∀ d : Fin 64, State.reset.tracker.dir[d] = { dirty := 0, saved := 0, absent := 0, poison := 0 }) ∧
  State.reset.tracker.pendingTotal = 0 ∧
  State.reset.region.file.tableAddr = none ∧ State.reset.region.file.owed = 0 ∧ State.reset.region.load = none ∧
  (∀ n : Fin 32, State.reset.region.file.descs[n] =
    { written := false, valid := false, cls := 0, unit := 0, base := 0, extent := 0 }) ∧
  State.reset.store.status = .detached ∧ State.reset.store.op = none ∧ State.reset.store.opNum = 0 ∧
  State.reset.store.timer = { status := .stopped, count := 0 } ∧ State.reset.store.holdBack = none ∧
  State.reset.engine.freeSlots = [] ∧ State.reset.engine.retired = [] ∧ State.reset.engine.epoch = 0 ∧
  State.reset.engine.mark = .clear ∧ State.reset.engine.markClearQueued = false ∧
  State.reset.engine.headerRecord = none ∧ State.reset.engine.presaveOn = false ∧
  State.reset.engine.presavePaused = false ∧
  State.reset.engine.paceTimer = { status := .stopped, count := 0 } ∧ State.reset.engine.presaveCursor = 0 ∧
  State.reset.engine.exhaustionNoted = false ∧ State.reset.engine.passes = 0 ∧
  State.reset.engine.lateNoted = false ∧ State.reset.engine.commitPhase = .none ∧
  State.reset.engine.fillList = [] ∧ State.reset.engine.fillCursor = 0 ∧
  State.reset.engine.fillTimer = { status := .stopped, count := 0 } ∧ State.reset.engine.grant = false ∧
  State.reset.engine.fills = [] ∧ State.reset.engine.zeroFill = none ∧ State.reset.engine.bringUp = none ∧
  State.reset.dram.cond = .notUp ∧ State.reset.dram.queue = [] ∧ State.reset.dram.parkCount = 0 ∧
  State.reset.dram.inject = false ∧ State.reset.dram.lastErrors = 0 ∧ State.reset.dram.checkPhase = .idle ∧
  State.reset.dram.runCount = 0 ∧
  State.reset.tc.state = .unconfigured ∧ State.reset.tc.origin = .none ∧ State.reset.tc.interrupted = .none ∧
  State.reset.tc.abortable = false ∧ State.reset.tc.waitingAbort = none ∧ State.reset.tc.parkPhase = .none ∧
  State.reset.tc.railLoss = false ∧ State.reset.tc.sleepTimer = { status := .stopped, count := 0 } ∧
  State.reset.tc.outcome = { op := .none, result := .completed, reason := .none, passes := 0 } ∧
  State.reset.tc.start = none ∧ State.reset.tc.fetching = none ∧
  (∀ i : Fin 5, State.reset.wake.lines[i].mode = .disabled ∧ State.reset.wake.lines[i].hold = 0 ∧
    State.reset.wake.lines[i].machine = .idle ∧
    State.reset.wake.lines[i].timer = { status := .stopped, count := 0 }) ∧
  State.reset.wake.causes = [] ∧ State.reset.wake.escalate = false ∧ State.reset.wake.deferred = false ∧
  State.reset.wake.wakeReq = false ∧
  State.reset.faults.code = none ∧ State.reset.faults.addr = 0 ∧ State.reset.faults.detail = .number 0 ∧
  State.reset.faults.stateAt = none ∧ State.reset.faults.count = 0 ∧ State.reset.faults.error = false ∧
  State.reset.faults.enables = BitVec.allOnes 10 ∧ State.reset.faults.alertDisable = false ∧
  State.reset.faults.alert = false ∧
  State.reset.side.handling = false ∧ State.reset.side.buffer = none ∧
  State.reset.side.params =
    { storeTimeout := 500, presavePace := 20, fillPace := 0, escalateAfter := 0, checkThreshold := 0 } ∧
  (∀ i : Fin 9, State.reset.side.latches[i] = none) ∧
  State.reset.lines.stable = true ∧ State.reset.lines.dramHold = false) ∧
  ∀ s : State,
    let fresh := fun (t : State) =>
      t.pending = s.pending ∧ t.ru = State.reset.ru ∧ t.region = State.reset.region ∧
      t.tracker = State.reset.tracker ∧ t.engine = State.reset.engine ∧ t.tc = State.reset.tc ∧
      t.faults = State.reset.faults ∧ t.sent = s.sent ∧
      t.dram =
        { State.reset.dram with
          bringUps := s.dram.bringUps
          cond := if s.lines.mainOk && s.lines.memOk then .bringingUp else .notUp } ∧
      t.lines = { mainOk := s.lines.mainOk, memOk := s.lines.memOk, stable := true, dramHold := false } ∧
      (∀ i : Fin 5, t.wake.lines[i] =
        { level := s.wake.lines[i].level, mode := .disabled, hold := 0, machine := .idle, timer := Timer.stopped }) ∧
      t.wake.causes = [] ∧ t.wake.escalate = false ∧ t.wake.deferred = false ∧ t.wake.wakeReq = false
    (∃ t : State, exec .standbyPowerOn s = .next t ∧ fresh t ∧ t.store = State.reset.store ∧ t.side = State.reset.side) ∧
    ∃ t : State, exec (.resetPart []) s = .next t ∧ fresh t ∧
      t.store =
        (match s.store.op, s.store.holdBack with
        | some o, _ => { State.reset.store with holdBack := some o.num, timer := s.store.timer }
        | none, some n => { State.reset.store with holdBack := some n, timer := s.store.timer }
        | none, none => State.reset.store) ∧
      t.side = { State.reset.side with buffer := some { command := 25, code := .done, data := [] } }

/-- The invariants below hold at standby power-on. -/
def Obligations.InvariantsHoldAtReset : Prop :=
  Memory.wf State.reset.dram.mem = true ∧ State.reset.tracker.counted ∧ State.reset.tracker.sound ∧
    State.reset.faults.agrees ∧ State.reset.linesDriven ∧ State.reset.ru.tagsDistinct ∧
    State.reset.dram.inRange ∧ State.reset.engine.inRange ∧ State.reset.side.params.inRange ∧
    causesOk State.reset.wake.causes

/-- DRAM stays in its canonical form. -/
def Obligations.StepKeepsMemoryForm : Prop :=
  ∀ s t : State, Memory.wf s.dram.mem = true → step s = .next t → Memory.wf t.dram.mem = true

/-- The directory and the pending total go on counting the granule table (R26). -/
def Obligations.StepKeepsDirectoryCounts : Prop :=
  ∀ s t : State, s.tracker.counted → step s = .next t → t.tracker.counted

/-- Every record goes on holding the slots and the class that its state calls for (R7). -/
def Obligations.StepKeepsRecordsSound : Prop :=
  ∀ s t : State, s.tracker.sound → step s = .next t → t.tracker.sound ∧ ∀ g, (t.recOf g).sound

/-- ERROR, the fault count and ALERT go on agreeing (R176, R179). -/
def Obligations.StepKeepsFaultUnitAgreeing : Prop :=
  ∀ s t : State, s.faults.agrees → step s = .next t → t.faults.agrees

/-- STABLE, DRAM_HOLD and link ready go on following the state, by the tables of R134 and R49: link ready in
UNCONFIGURED while both rails are asserted and DRAM is UP, until START is answered ACCEPTED; in ACTIVE, RESTORING,
SAVING and COMMITTING, and in PARKING until self-refresh entry begins, while no rail loss is in progress (R149). -/
def Obligations.StepKeepsLinesDriven : Prop :=
  ∀ s t : State, s.linesDriven → step s = .next t →
    t.linesDriven ∧
    (t.lines.stable = true ↔
      t.tc.state = .unconfigured ∨ t.tc.state = .active ∨ t.tc.state = .restoring ∨ t.tc.state = .sleeping ∨
        t.tc.state = .imagedOff) ∧
    (t.lines.dramHold = true ↔ t.tc.state ≠ .unconfigured ∧ t.tc.state ≠ .imagedOff) ∧
    (t.ru.linkReady = true ↔
      (t.tc.state = .unconfigured ∧ t.lines.mainOk = true ∧ t.lines.memOk = true ∧ t.dram.cond = .up ∧
        ∀ r, t.tc.start = some r → r.phase ≠ .draining) ∨
      ((t.tc.state = .active ∨ t.tc.state = .restoring ∨ t.tc.state = .saving ∨ t.tc.state = .committing) ∧
        t.tc.railLoss = false) ∨
      (t.tc.state = .parking ∧ t.tc.railLoss = false ∧ (t.tc.parkPhase = .drain ∨ t.tc.parkPhase = .pattern)))

/-- No two requests in the table come to have one tag (R48, R50). -/
def Obligations.StepKeepsTagsDistinct : Prop :=
  ∀ s t : State, s.ru.tagsDistinct → step s = .next t → t.ru.tagsDistinct

/-- The counters, the parameters, the fill list and the cause record stay in their ranges (R64, R109, R114, R161,
R166, R186); the fill list holds at most 32 granules where no two requests have one tag (R114), the retired list at
most 256 slots (R81), and the records of the check granule and beyond it stay VOID and DISCARD without slots (R3). Each
of these is kept on its own, and they hold at power-on. -/
def Obligations.StepKeepsRanges : Prop :=
  (State.reset.engine.fillList.length ≤ 32 ∧ State.reset.engine.retiredInRange ∧ State.reset.checkBlank) ∧
  ∀ s t : State, step s = .next t →
    (s.dram.inRange ∧ s.engine.inRange ∧ s.side.params.inRange ∧ causesOk s.wake.causes →
      t.dram.inRange ∧ t.engine.inRange ∧ t.side.params.inRange ∧ causesOk t.wake.causes) ∧
    (s.ru.tagsDistinct → s.engine.fillList.Nodup → s.engine.fillList.length ≤ 32 → t.engine.fillList.length ≤ 32) ∧
    (s.engine.retiredInRange → t.engine.retiredInRange) ∧
    (s.tracker.sound → s.checkBlank → t.checkBlank)

/-! ## Claims on the Granule Tracker -/

/-- A write taken (R9): what each state becomes, the slot released, which clears the exhaustion noted flag (R94), the
notice, and no other record. -/
def Obligations.WriteClaimFollowsItsTable : Prop :=
  ∀ (s : State) (g : Nat),
    (∀ h, h ≠ g → (s.claimWrite g).recOf h = s.recOf h) ∧
    (s.claimWrite g).recOf g =
      (match (s.recOf g).st with
      | .clean => { s.recOf g with st := .dirty }
      | .copying => { s.recOf g with st := .recopy }
      | .saved => { s.recOf g with st := .dirty, pending := none }
      | _ => s.recOf g) ∧
    (s.claimWrite g).engine.freeSlots =
      s.engine.freeSlots ++ (if (s.recOf g).st = .saved then (s.recOf g).pending.toList else []) ∧
    (s.claimWrite g).engine.exhaustionNoted =
      (if (s.recOf g).st = .saved ∧ (s.recOf g).pending ≠ none then false else s.engine.exhaustionNoted) ∧
    (if (s.recOf g).st = .clean ∨ (s.recOf g).st = .saved then s.noticedDirty (s.claimWrite g)
      else (s.claimWrite g).engine.mark = s.engine.mark ∧
        (s.claimWrite g).engine.markClearQueued = s.engine.markClearQueued) ∧
    (s.claimWrite g).dram = s.dram ∧ (s.claimWrite g).ru = s.ru ∧ (s.claimWrite g).tc = s.tc

/-- A copy start (R12) on a DIRTY granule, and a copy end answered GOOD (R13) on a COPYING and on a RECOPY one, whose
slot clears the exhaustion noted flag as it joins the queue (R94). -/
def Obligations.CopyClaimsFollowTheirTables : Prop :=
  ∀ (s : State) (g slot : Nat),
    ((s.recOf g).st = .dirty →
      (s.claimCopyStart g slot).recOf g = { s.recOf g with st := .copying, pending := some slot } ∧
      (s.claimCopyStart g slot).engine = { s.engine with freeSlots := s.engine.freeSlots.tail }) ∧
    ((s.recOf g).st = .copying →
      (s.claimCopyGood g).recOf g = { s.recOf g with st := .saved } ∧
      (s.claimCopyGood g).engine = s.engine) ∧
    ((s.recOf g).st = .recopy →
      (s.claimCopyGood g).recOf g = { s.recOf g with st := .dirty, pending := none } ∧
      (s.claimCopyGood g).engine.freeSlots = s.engine.freeSlots ++ (s.recOf g).pending.toList ∧
      (s.claimCopyGood g).engine.exhaustionNoted =
        (if (s.recOf g).pending = none then s.engine.exhaustionNoted else false) ∧
      s.noticedDirty (s.claimCopyGood g)) ∧
    ((s.recOf g).st ≠ .copying → (s.recOf g).st ≠ .recopy → (s.claimCopyGood g).recOf g = s.recOf g) ∧
    (∀ h, h ≠ g → (s.claimCopyStart g slot).recOf h = s.recOf h ∧ (s.claimCopyGood g).recOf h = s.recOf h)

/-- The commit claim (R16): the records, and the slots released in ascending granule number; the entries of a new
epoch's index, each in its 4 bytes (R16, R75); and the abandonment of the open epoch (R17): the records, the slots
released, and the notice. A claim that releases a slot clears the exhaustion noted flag (R94). -/
def Obligations.CommitClaimFollowsItsTable : Prop :=
  ∀ s : State, GTable.wf s.tracker.table = true →
    (∀ g, s.claimCommit.recOf g =
      (match (s.recOf g).st with
      | .saved => { s.recOf g with st := .clean, committed := (s.recOf g).pending, pending := none }
      | .poison | .void => { s.recOf g with committed := none }
      | _ => s.recOf g)) ∧
    s.claimCommit.engine.freeSlots =
      s.engine.freeSlots ++ (s.tracker.table.flatMap fun x =>
        match x.2.st with
        | .saved | .poison | .void => x.2.committed.toList
        | _ => []) ∧
    s.claimCommit.engine =
      { s.engine with
        freeSlots := s.claimCommit.engine.freeSlots
        exhaustionNoted :=
          s.engine.exhaustionNoted && decide (s.claimCommit.engine.freeSlots = s.engine.freeSlots) } ∧
    (∀ g,
      let named := fun (slot : Option Nat) =>
        match slot with
        | some n => 2 ^ 24 + n % 2 ^ 24
        | none => 0
      numberAt (indexBlock s.tracker.table).bytes (4 * g) 4 =
        (match (s.recOf g).st with
        | .saved => named (s.recOf g).pending
        | .clean | .absent | .filling => named (s.recOf g).committed
        | .poison => 2 * 2 ^ 24
        | .void | .dirty | .copying | .recopy => 0)) ∧
    (∀ g, s.claimAbandon.recOf g =
      if (s.recOf g).st = .saved then { s.recOf g with st := .dirty, pending := none } else s.recOf g) ∧
    s.claimAbandon.engine.freeSlots =
      s.engine.freeSlots ++ (s.tracker.table.flatMap fun x =>
        if x.2.st = .saved then x.2.pending.toList else []) ∧
    s.claimAbandon.engine.exhaustionNoted =
      (s.engine.exhaustionNoted && decide (s.claimAbandon.engine.freeSlots = s.engine.freeSlots)) ∧
    ((∃ x ∈ s.tracker.table, x.2.st = .saved) → s.noticedDirty s.claimAbandon) ∧
    ((∀ x ∈ s.tracker.table, x.2.st ≠ .saved) →
      s.claimAbandon.engine.mark = s.engine.mark ∧
        s.claimAbandon.engine.markClearQueued = s.engine.markClearQueued)

/-- DRAM-loss marking (R21): the records, the slots released in ascending granule number, which clear the exhaustion
noted flag (R94), and no notice. -/
def Obligations.DramLossClaimFollowsItsTable : Prop :=
  ∀ s : State, GTable.wf s.tracker.table = true →
    (∀ g, s.claimDramLoss.recOf g =
      (match (s.recOf g).st with
      | .clean | .filling => { s.recOf g with st := .absent }
      | .dirty => { s.recOf g with st := .poison }
      | .saved | .copying | .recopy => { s.recOf g with st := .poison, pending := none }
      | .void =>
        if (s.recOf g).cls = .zero then { s.recOf g with st := .absent, committed := none } else s.recOf g
      | .absent | .poison => s.recOf g)) ∧
    s.claimDramLoss.engine.freeSlots =
      s.engine.freeSlots ++ (s.tracker.table.flatMap fun x =>
        match x.2.st with
        | .saved => x.2.pending.toList
        | .void => if x.2.cls = .zero then x.2.committed.toList else []
        | _ => []) ∧
    s.claimDramLoss.engine =
      { s.engine with
        freeSlots := s.claimDramLoss.engine.freeSlots
        exhaustionNoted :=
          s.engine.exhaustionNoted && decide (s.claimDramLoss.engine.freeSlots = s.engine.freeSlots) }

/-- Store DOWN (R22): the records, every slot field cleared, no slot handed on and no notice. -/
def Obligations.StoreDownClaimFollowsItsTable : Prop :=
  ∀ s : State, GTable.wf s.tracker.table = true →
    (∀ g, (s.claimStoreDown.recOf g).st =
        (match (s.recOf g).st with
        | .clean | .saved | .copying | .recopy => .dirty
        | .absent => if (s.recOf g).cls.preserved then .poison else .absent
        | .filling => if (s.recOf g).cls.preserved then .poison else .filling
        | .void => .void
        | .dirty => .dirty
        | .poison => .poison) ∧
      (s.claimStoreDown.recOf g).cls = (s.recOf g).cls ∧
      (s.claimStoreDown.recOf g).committed = none ∧ (s.claimStoreDown.recOf g).pending = none) ∧
    s.claimStoreDown.tracker.pendingTotal = 0 ∧ s.claimStoreDown.engine = s.engine

/-- The region reload (R24): class and state of every granule, the check granule VOID and DISCARD (R3), and nothing
recorded at and beyond G; the entered-DIRTY notice where a granule becomes preserved and DIRTY (R6), and otherwise the
mark and its queue as they were; and no slot handed on. -/
def Obligations.ReloadClaimFollowsItsTable : Prop :=
  ∀ (s : State) (g : Nat),
    (g < s.granules →
      let cls := s.region.file.classOf s.granules g
      s.claimReload.recOf g =
        (if (s.recOf g).cls.preserved = false ∧ cls.preserved = true then
          { st := .dirty, committed := (s.recOf g).committed, pending := none, cls := cls }
        else if cls.preserved = true then { s.recOf g with cls := cls }
        else if (s.recOf g).cls.preserved = true then
          { st := .void, committed := (s.recOf g).committed, pending := none, cls := cls }
        else { s.recOf g with st := .void, cls := cls })) ∧
    (s.granules ≤ g → s.claimReload.recOf g = GRec.blank) ∧
    (let enters := ∃ h, h < s.granules ∧ (s.recOf h).st ≠ .dirty ∧ (s.recOf h).cls.preserved = false ∧
      (s.region.file.classOf s.granules h).preserved = true
    (enters → s.noticedDirty s.claimReload) ∧
    (¬ enters →
      s.claimReload.engine.mark = s.engine.mark ∧
        s.claimReload.engine.markClearQueued = s.engine.markClearQueued)) ∧
    s.claimReload.engine =
      { s.engine with
        mark := s.claimReload.engine.mark, markClearQueued := s.claimReload.engine.markClearQueued } ∧
    (g + 1 = s.granules → s.region.file.classOf s.granules g = .discard)

/-- The resume build (R25): the checks of an index against its header, and what each index entry makes of its
granule. -/
def Obligations.ResumeClaimFollowsItsTable : Prop :=
  (∀ (granules slots : Nat) (h : Header) (index : List IndexEntry),
    indexOk granules slots h index = true ↔
      (∀ (g : Nat) (e : IndexEntry), index[g]? = some e → e ≠ .none →
        g + 1 < granules ∧ (h.file.classOf granules g = .preserve ∨ h.file.classOf granules g = .fixed)) ∧
      (∀ g n : Nat, index[g]? = some (.slot n) → n < slots ∧ n ∉ h.retired) ∧
      ∀ g k n : Nat, index[g]? = some (.slot n) → index[k]? = some (.slot n) → g = k) ∧
  ∀ (s : State) (index : List IndexEntry) (g : Nat), g < s.granules →
    let cls := s.region.file.classOf s.granules g
    (s.claimResume index).recOf g =
      (match cls.preserved, index.getD g .none with
      | true, .slot n => { st := .absent, committed := some n, pending := none, cls := cls }
      | true, _ => { st := .poison, committed := none, pending := none, cls := cls }
      | false, _ =>
        { st := if cls = .zero then .absent else .void, committed := none, pending := none, cls := cls })

/-- The summary flags of the tracker say whether any granule is in the states counted (R26, R28). -/
def Obligations.SummaryFlagsFollowTheTable : Prop :=
  ∀ s : State, s.tracker.counted → (∀ x ∈ s.tracker.table, x.1 < 65536) →
    (s.anyDirty = true ↔ ∃ x ∈ s.tracker.table, x.2.st = .dirty ∨ x.2.st = .copying ∨ x.2.st = .recopy) ∧
    (s.anyAbsent = true ↔ ∃ x ∈ s.tracker.table, x.2.st = .absent ∨ x.2.st = .filling) ∧
    (s.anyPoison = true ↔ ∃ x ∈ s.tracker.table, x.2.st = .poison) ∧
    (s.epochOpen = true ↔ ∃ x ∈ s.tracker.table, x.2.pending.isSome = true)

/-! ## Regions, requests and the arbiter -/

/-- The class of a granule is that of the lowest-numbered valid descriptor that covers it, and DISCARD where none does
and at the check granule (R33). A valid descriptor covers the granules from its base to its last one, by its unit, with
no wrapping (R32); and the checks of a table: its address and its descriptors (R34), and the capacity while the store
is ATTACHED, where O counts the granules that would be VOID with a committed slot (R35). -/
def Obligations.ClassIsThatOfTheGoverningDescriptor : Prop :=
  let last := fun (d : Descriptor) => if d.unit = 1 then d.base + 1024 * (d.extent + 1) - 1 else d.base + d.extent
  (∀ (d : Descriptor) (g : Nat), d.covers g = true ↔ d.valid = true ∧ d.base ≤ g ∧ g ≤ last d) ∧
  (∀ granules addr : Nat, tableAddrOk granules addr = true ↔ addr % 512 = 0 ∧ addr < 262144 * (granules - 1)) ∧
  (∀ (granules : Nat) (descs : Vector Descriptor 32),
    descriptorsOk granules descs = true ↔
      ∀ n : Fin 32, descs[n].valid = true →
        descs[n].cls.toNat ≤ 3 ∧ (descs[n].unit = 0 ∨ descs[n].unit = 1) ∧ last descs[n] + 2 ≤ granules) ∧
  (∀ (s : State) (file : RegionFile), GTable.wf s.tracker.table = true →
    let preserved := fun g => (file.classOf s.granules g).preserved
    let p := (List.range s.granules).countP preserved
    let o := (List.range s.granules).countP fun g => (s.recOf g).committed.isSome && !preserved g
    (s.tablePasses file = true ↔
      descriptorsOk s.granules file.descs = true ∧
        (s.store.status = .attached → 2 * p + o + s.engine.retired.length ≤ s.store.slots))) ∧
  ∀ (f : RegionFile) (granules g : Nat),
    (granules ≤ g + 1 → f.classOf granules g = .discard) ∧
    (g + 1 < granules → (∀ n : Fin 32, f.descs[n].covers g = false) → f.classOf granules g = .discard) ∧
    (∀ n : Fin 32, g + 1 < granules → f.descs[n].covers g = true →
      (∀ m : Fin 32, m < n → f.descs[m].covers g = false) →
      f.classOf granules g =
        (if f.descs[n].cls = 0 then .preserve else if f.descs[n].cls = 1 then .fixed
          else if f.descs[n].cls = 2 then .zero else .discard))

/-- A request is settled in the first way of R52 that applies to it, with the verdict of R8 and R10. An issued
request's entry becomes ISSUED and its access joins the DRAM Port's queue, a WRITE's with its data and enables (R53); a
held one's becomes HELD with its reason (R57), and one held for a fill puts its granule on the fill list where that is
ABSENT, and not where it is FILLING (R10, R59). -/
def Obligations.RequestIsSettledInTheFirstWayThatApplies : Prop :=
  ∀ (s : State) (e : Entry),
    let made := fun (st : EntryState) =>
      s.setRu { s.ru with table := s.ru.table.map fun x => if x.tag = e.tag then { x with st := st } else x }
    let tracked := s.tc.state ≠ .unconfigured ∧ e.addr < 262144 * s.granules
    s.issue e =
      (made (.issued none)).setDram
        { s.dram with
          queue := s.dram.queue ++
            [{ src :=
                match e.kind with
                | .read => .upRead e.tag true
                | .write => .upWrite e.tag true e.data e.enables
               line := e.line }] } ∧
    (∀ reason, s.hold e reason = made (.held reason)) ∧
    ((s.recOf e.granule).st = .absent → s.holdFill e = (made (.held .fill)).joinFillList e.granule) ∧
    ((s.recOf e.granule).st ≠ .absent → s.holdFill e = made (.held .fill)) ∧
    (s.judgement e = .range ↔ s.tc.state ≠ .unconfigured ∧ 262144 * s.granules ≤ e.addr) ∧
    (s.judgement e = .fixedWrite ↔ tracked ∧ e.kind = .write ∧ e.cls = some .fixed) ∧
    (s.judgement e = .poisonRead ↔ tracked ∧ e.kind = .read ∧ (s.recOf e.granule).st = .poison) ∧
    (s.tc.state = .unconfigured → s.settleEntry e = s.issue e) ∧
    (s.tc.state ≠ .unconfigured → 262144 * s.granules ≤ e.addr → s.settleEntry e = s.answer e .range .range) ∧
    (s.tc.state ≠ .unconfigured → e.addr < 262144 * s.granules →
      (e.kind = .write ∧ e.cls = some .fixed → s.settleEntry e = s.answer e .fixedWrite .refused) ∧
      (e.kind = .write ∧ e.cls ≠ some .fixed →
        (s.tc.state = .committing → s.settleEntry e = s.hold e .commit) ∧
        (s.tc.state ≠ .committing →
          ((s.recOf e.granule).st = .absent ∨ (s.recOf e.granule).st = .filling → s.settleEntry e = s.holdFill e) ∧
          ((s.recOf e.granule).st ≠ .absent → (s.recOf e.granule).st ≠ .filling →
            s.settleEntry e = ((s.issue e).claimWrite e.granule).markWritten e.granule))) ∧
      (e.kind = .read →
        ((s.recOf e.granule).st = .absent ∨ (s.recOf e.granule).st = .filling → s.settleEntry e = s.holdFill e) ∧
        ((s.recOf e.granule).st = .poison → s.settleEntry e = s.answer e .poisonRead .poisoned) ∧
        ((s.recOf e.granule).st ≠ .absent → (s.recOf e.granule).st ≠ .filling →
          (s.recOf e.granule).st ≠ .poison → s.settleEntry e = s.issue e)))

/-- A request that the part answers itself is completed at once, as its fault class is enabled or masked, and nothing
else changes: it reaches neither the DRAM Port nor the Granule Tracker, and sets no written flag. So with a request out
of range (R54), with a WRITE whose recorded class is FIXED (R55), whatever its granule's state, and with a READ of a
POISON granule (R56). The recorded class is not looked at for a READ (R55). -/
def Obligations.OutOfRangeRequestIsAnsweredByItsFaultClass : Prop :=
  ∀ (s : State) (e : Entry), s.tc.state ≠ .unconfigured →
    let left := s.setRu { s.ru with table := s.ru.table.filter fun x => decide (x.tag ≠ e.tag) }
    let answered := fun (bit : Nat) (c : FaultClass) (status : CompletionStatus) =>
      if s.faults.enables.getLsbD bit then
        (left.setFaults (s.faults.take c e.addr (.number 0) s.tc.state)).setSent
          { s.sent with completions := s.sent.completions ++ [{ tag := e.tag, status := status, data := [] }] }
      else
        left.setSent
          { s.sent with
            completions := s.sent.completions ++
              [{ tag := e.tag, status := .good, data := if e.kind = .read then List.replicate 64 0 else [] }] }
    (262144 * s.granules ≤ e.addr → s.settleEntry e = answered 2 .range .range) ∧
    (e.addr < 262144 * s.granules → e.kind = .write → e.cls = some .fixed →
      s.settleEntry e = answered 1 .fixedWrite .refused) ∧
    (e.addr < 262144 * s.granules → e.kind = .read →
      ((s.recOf e.granule).st = .poison → s.settleEntry e = answered 0 .poisonRead .poisoned) ∧
      ∀ c, s.settleEntry { e with cls := c } = s.settleEntry e)

/-- The arbiter serves an access that waits, never ahead of an earlier one to its line; upstream accesses before
engine accesses, but an engine access after 8 upstream ones in a row (R64). -/
def Obligations.ArbiterServesUpstreamFirstUpToEight : Prop :=
  ∀ (queue : List Access) (run : Nat),
    (pickAccess queue run = none ↔ queue = []) ∧
    (∀ a, pickAccess queue run = some a → queue.find? (fun x => decide (x.line = a.line)) = some a) ∧
    (∀ a u, pickAccess queue run = some a → queue.find? Access.upstream = some u →
      (queue.all Access.upstream = true ∨ run < 8) → a.line = u.line) ∧
    (∀ a e, pickAccess queue run = some a → queue.find? (fun x => !x.upstream) = some e →
      (queue.any Access.upstream = false ∨ 8 ≤ run) → a.line = e.line) ∧
    (∀ a, runAfter queue run a =
      if a.upstream = true ∧ queue.any (fun x => !x.upstream) = true then min (run + 1) 8 else 0)

/-! ## Headers, indexes and faults -/

/-- Of two valid headers the one whose number follows the other's is the higher, and otherwise the larger number; with
the same number, header block 0 (R76). The next epoch after 4,294,967,295 is 0. -/
def Obligations.HigherHeaderFollowsTheEpochNumbers : Prop :=
  ∀ a b : Header,
    highest (some a) (some b) =
      some (if b.epoch = a.epoch + 1 then b else if a.epoch = b.epoch + 1 then a
        else if a.epoch.toNat < b.epoch.toNat then b else a) ∧
    highest (some a) none = some a ∧ highest none (some b) = some b ∧ highest none none = none ∧
    ∀ s : State, s.commitHeader.epoch.toNat = (s.engine.epoch.toNat + 1) % 4294967296

/-- A header block that the part writes is read back as the header it was written from (R74), and a sideband command
frame, its code in byte 0, its parameter length in byte 1 and its parameters from byte 2, is read as its command, or as
UNKNOWN_COMMAND_FRAME where its code names none (R192): decode of encode. An index block's entries are read back as
they were written (R75), and one entry whose kind is not 0, 1 or 2 makes the block no index (R194). -/
def Obligations.HeaderDecodesAsWritten : Prop :=
  (∀ (h : Header) (addr : Nat), h.file.tableAddr = some addr → addr < 2 ^ 64 → h.units < 256 → h.slots < 2 ^ 32 →
    h.retiredLength = h.retired.length → h.retired.length ≤ 256 → (∀ n ∈ h.retired, n < 2 ^ 32) →
    (∀ n : Fin 32, h.file.descs[n].base < 65536 ∧ h.file.descs[n].extent < 65536) →
      Header.decode h.block.bytes = some h) ∧
  (∀ (c : Instr) (code length : Nat) (p : List Byte), c.sidebandForm = some (code, length, p) → p.length ≤ 16 →
    commandOfFrame (BitVec.ofNat 8 code :: BitVec.ofNat 8 p.length :: p) = c) ∧
  (∀ (code : Byte) (p : List Byte), code = 0 ∨ 25 < code.toNat → p.length ≤ 16 →
    commandOfFrame (code :: BitVec.ofNat 8 p.length :: p) = .unknownCommandFrame code p) ∧
  ∀ entries : List IndexEntry, (∀ n, .slot n ∈ entries → n < 2 ^ 24) → entries.length ≤ 65536 →
    decodeIndex { bytes := entries.flatMap IndexEntry.bytes, length := 262144 } = some entries ∧
    ∀ (a b c kind : Byte) (rest : List Byte), 2 < kind.toNat → entries.length < 65536 →
      decodeIndex { bytes := entries.flatMap IndexEntry.bytes ++ [a, b, c, kind] ++ rest, length := 262144 } = none

/-- A report of a class that is enabled, or cannot be masked, is latched whole, counted up to 255, sets ERROR and
asserts ALERT unless it is disabled (R176); one of a masked class changes nothing (R177). The state at fault is the
transition state at that moment. -/
def Obligations.ReportIsLatchedAndCounted : Prop :=
  ∀ (s : State) (c : FaultClass) (addr : Nat) (detail : FaultDetail),
    s.report c addr detail = s.setFaults (s.faults.take c addr detail s.tc.state) ∧
    ((c = .storeDown ∨ c = .linkViolation ∨ c = .railLoss ∨ s.faults.enables.getLsbD (c.code - 4) = true) →
      s.report c addr detail = s.setFaults
        { s.faults with
          code := some c
          addr := addr
          detail := detail
          stateAt := some s.tc.state
          count := if s.faults.count < 255 then s.faults.count + 1 else 255
          error := true
          alert := !s.faults.alertDisable } ∧
      ∀ st, (s.faults.take c addr detail st) =
        { s.faults.take c addr detail s.tc.state with stateAt := some st }) ∧
    (c ≠ .storeDown → c ≠ .linkViolation → c ≠ .railLoss → s.faults.enables.getLsbD (c.code - 4) = false →
      s.report c addr detail = s ∧ ∀ st, s.faults.take c addr detail st = s.faults)

/-! ## The sideband exchange -/

/-- A command frame of the wrong length is answered BAD_ARGUMENT; then, while the port is HANDLING, every command other
than RESET_PART is answered BUSY; then, while a rail loss is in progress, so are the commands that R136 names. Each of
these answers changes nothing else (R184 steps 2 to 4). A code that names no command is answered UNKNOWN_COMMAND (R184
step 1). A read returns the buffer, or the empty frame, and empties it (R183). -/
def Obligations.CommandFramesAreJudgedAndRepliesRead : Prop :=
  (∀ (s : State) (c : Instr) (code length : Nat) (p : List Byte), c.sidebandForm = some (code, length, p) →
    (p.length ≠ length →
      exec c s =
        .next (s.setSide { s.side with buffer := some { command := code, code := .badArgument, data := [] } })) ∧
    (p.length = length → code ≠ 25 → s.side.handling = true →
      exec c s = .next (s.setSide { s.side with buffer := some { command := code, code := .busy, data := [] } })) ∧
    (p.length = length → c.refusedInRailLoss = true → s.side.handling = false → s.tc.railLoss = true →
      exec c s = .next (s.setSide { s.side with buffer := some { command := code, code := .busy, data := [] } }))) ∧
  ∀ (s : State) (code : Byte) (p : List Byte),
    exec (.unknownCommandFrame code p) s =
      .next (s.setSide
        { s.side with buffer := some { command := code.toNat, code := .unknownCommand, data := [] } }) ∧
    exec .readReply s =
      .next ((s.setSent
        { s.sent with
          replies := s.sent.replies ++
            [match s.side.buffer with
            | some r => r
            | none => { command := 0, code := .done, data := [] }] }).setSide { s.side with buffer := none })

/-- SET_PARAM sets the parameter named, where the value is in its range and of its step, and refuses every other name
and value with BAD_ARGUMENT (R186). The byte at offset 1 is not looked at, whatever it holds: the model's choice
(notes/assumptions/39.md). -/
def Obligations.SetParamSetsOneParameter : Prop :=
  ∀ (s : State) (p : List Byte), s.takes p 4 →
    let name := numberAt p 0 1
    let v := numberAt p 2 2
    let answered := fun (ok : Bool) (ps : Params) =>
      if ok then exec (.setParam p) s =
        .next (s.setSide { s.side with params := ps, buffer := some { command := 12, code := .done, data := [] } })
      else exec (.setParam p) s =
        .next (s.setSide { s.side with buffer := some { command := 12, code := .badArgument, data := [] } })
    (name = 1 → answered (decide (50 ≤ v ∧ v ≤ 5000 ∧ v % 10 = 0)) { s.side.params with storeTimeout := v }) ∧
    (name = 2 → answered (decide (1 ≤ v ∧ v ≤ 1000)) { s.side.params with presavePace := v }) ∧
    (name = 3 → answered (decide (v ≤ 1000)) { s.side.params with fillPace := v }) ∧
    (name = 4 → answered (decide (v ≤ 1440)) { s.side.params with escalateAfter := v }) ∧
    (name = 5 → answered (decide (v ≤ 15)) { s.side.params with checkThreshold := v }) ∧
    (name = 0 ∨ 5 < name → answered false s.side.params)

/-- SET_WAKE sets a line's mode and hold time and starts its machine afresh, or refuses its arguments (R157). -/
def Obligations.SetWakeStartsTheLineAfresh : Prop :=
  ∀ (s : State) (p : List Byte), s.takes p 4 →
    (∀ (i : Fin 5) (mode : WakeMode), numberAt p 0 1 = i.val → wakeModeOfCode (numberAt p 1 1) = some mode →
      numberAt p 2 2 ≤ 10000 → numberAt p 2 2 % 10 = 0 →
        exec (.setWake p) s =
          .next ((s.setWake (s.wake.setLine i
            { level := s.wake.lines[i].level
              mode := mode
              hold := numberAt p 2 2
              machine :=
                if mode = .disabled ∨ s.tc.state.monitored = false then .idle
                else if s.wake.lines[i].level then .blocked
                else .armed
              timer := Timer.stopped })).setSide
            { s.side with buffer := some { command := 13, code := .done, data := [] } })) ∧
    (4 < numberAt p 0 1 ∨ 2 < numberAt p 1 1 ∨ 10000 < numberAt p 2 2 ∨ numberAt p 2 2 % 10 ≠ 0 →
      exec (.setWake p) s =
        .next (s.setSide { s.side with buffer := some { command := 13, code := .badArgument, data := [] } }))

/-- CLEAR_WAKE clears the cause record, ESCALATE and the deferred request, and deasserts WAKE_REQ (R164);
INJECT_CHECK_ERROR arms the inject flag (R169). -/
def Obligations.ClearWakeAndInjectCheckError : Prop :=
  ∀ s : State, s.side.handling = false →
    exec (.clearWake []) s =
      .next ((s.setWake { s.wake with causes := [], escalate := false, deferred := false, wakeReq := false }).setSide
        { s.side with buffer := some { command := 14, code := .done, data := [] } }) ∧
    exec (.injectCheckError []) s =
      .next ((s.setDram { s.dram with inject := true }).setSide
        { s.side with buffer := some { command := 24, code := .done, data := [] } })

/-- REPORT enables or masks one maskable class, and REPORT_ALL all ten (R180); ALERT_DISABLE sets or clears its flag,
and ALERT follows at once (R179). -/
def Obligations.ReportEnablesAndAlertDisableAreSet : Prop :=
  (∀ (s : State) (p : List Byte), s.takes p 2 →
    (∀ on : Bool, 4 ≤ numberAt p 0 1 → numberAt p 0 1 ≤ 13 → numberAt p 1 1 = (if on then 1 else 0) →
      ∃ e : BitVec 10,
        exec (.report p) s =
          .next ((s.setFaults { s.faults with enables := e }).setSide
            { s.side with buffer := some { command := 15, code := .done, data := [] } }) ∧
        ∀ i, i < 10 → e.getLsbD i = if i + 4 = numberAt p 0 1 then on else s.faults.enables.getLsbD i) ∧
    (numberAt p 0 1 < 4 ∨ 13 < numberAt p 0 1 ∨ 1 < numberAt p 1 1 →
      exec (.report p) s =
        .next (s.setSide { s.side with buffer := some { command := 15, code := .badArgument, data := [] } })) ∧
    exec (.reportAll p) s =
      .next ((s.setFaults { s.faults with enables := BitVec.ofNat 10 (numberAt p 0 2) }).setSide
        { s.side with buffer := some { command := 16, code := .done, data := [] } })) ∧
  ∀ (s : State) (p : List Byte), s.takes p 1 →
    (∀ on : Bool, numberAt p 0 1 = (if on then 1 else 0) →
      exec (.alertDisable p) s =
        .next ((s.setFaults { s.faults with alertDisable := on, alert := s.faults.error && !on }).setSide
          { s.side with buffer := some { command := 17, code := .done, data := [] } })) ∧
    (1 < numberAt p 0 1 →
      exec (.alertDisable p) s =
        .next (s.setSide { s.side with buffer := some { command := 17, code := .badArgument, data := [] } }))

/-- CLEAR_FAULT clears the count, ERROR and ALERT, keeps the latch, and touches nothing else (R182). -/
def Obligations.ClearFaultKeepsTheLatch : Prop :=
  ∀ s : State, s.side.handling = false →
    exec (.clearFault []) s =
      .next ((s.setFaults { s.faults with count := 0, error := false, alert := false }).setSide
        { s.side with buffer := some { command := 19, code := .done, data := [] } })

/-- PRESAVE by its argument, as the table of R91 gives each, in the state settled after it and answered DONE; any other
argument is refused and changes nothing. ON and RESUME load a STOPPED PACE timer in ACTIVE and RESTORING, also while a
rail loss is in progress (the model's choice, notes/assumptions/38.md), ON only with the pause RUNNING
(notes/assumptions/32.md). RESUME of a timer GATED at 0 makes it EXPIRED, and that expiry tests the free slot queue as
any expiry does (notes/assumptions/12.md). Nothing else is touched before the state settles. -/
def Obligations.PresaveSetsTheEnableAndThePause : Prop :=
  ∀ (s : State) (p : List Byte), s.takes p 1 →
    let answered := fun (t : State) =>
      (t.setSide { s.side with buffer := some { command := 10, code := .done, data := [] } }).settle
    let runs := s.tc.state = .active ∨ s.tc.state = .restoring
    let loaded : Timer := { status := .running, count := s.side.params.presavePace }
    let timer := s.engine.paceTimer
    (numberAt p 0 1 = 1 →
      exec (.presave p) s = .next (answered (s.setEngine
        { s.engine with
          presaveOn := true
          paceTimer :=
            if runs ∧ s.engine.presavePaused = false ∧ timer.status = .stopped then loaded else timer }))) ∧
    (numberAt p 0 1 = 0 →
      exec (.presave p) s = .next (answered (s.setEngine
        { s.engine with
          presaveOn := false, paceTimer := { status := .stopped, count := 0 }, exhaustionNoted := false }))) ∧
    (numberAt p 0 1 = 2 →
      exec (.presave p) s = .next (answered (s.setEngine
        { s.engine with
          presavePaused := true
          paceTimer :=
            if timer.status = .running then { status := .gated, count := timer.count }
            else if timer.status = .expired then { status := .gated, count := 0 }
            else timer }))) ∧
    (numberAt p 0 1 = 3 →
      let resumed := { s.engine with presavePaused := false }
      (timer.status = .gated → timer.count ≠ 0 →
        exec (.presave p) s = .next (answered (s.setEngine
          { resumed with paceTimer := { status := .running, count := timer.count } }))) ∧
      (timer.status = .gated → timer.count = 0 →
        let expired := { resumed with paceTimer := { status := .expired, count := 0 } }
        exec (.presave p) s = .next (answered
          (match s.tracker.dirtyScan s.engine.presaveCursor with
          | some g =>
            if s.store.status = .attached ∧ s.engine.freeSlots = [] ∧ s.engine.exhaustionNoted = false then
              (s.setFaults (s.faults.take .slotExhausted g (.number 0) s.tc.state)).setEngine
                { expired with exhaustionNoted := true }
            else s.setEngine expired
          | none => s.setEngine expired))) ∧
      (timer.status ≠ .gated →
        exec (.presave p) s = .next (answered (s.setEngine
          { resumed with
            paceTimer :=
              if runs ∧ s.engine.presaveOn = true ∧ timer.status = .stopped then loaded else timer })))) ∧
    (3 < numberAt p 0 1 →
      exec (.presave p) s =
        .next (s.setSide { s.side with buffer := some { command := 10, code := .badArgument, data := [] } }))

/-- READ_FAULT (R181), STATUS (R187) and READ_GRANULE (R188) are answered DONE with their layouts, an absent slot as
4,294,967,295, and change nothing else. And the codes of the enumerated fields (R192; fault codes in the order of
R175), and of the statuses, requests and replies (12-2). -/
def Obligations.ReadingsReportAndChangeNothing : Prop :=
  ([TState.unconfigured, .starting, .active, .restoring, .saving, .committing, .parking, .sleeping, .unparking,
      .imagedOff, .reviving].map TState.code = List.range 11 ∧
    [GState.void, .clean, .dirty, .copying, .recopy, .saved, .absent, .filling, .poison].map GState.code =
      List.range 9 ∧
    [GClass.preserve, .fixed, .zero, .discard].map GClass.code = List.range 4 ∧
    [LongOp.none, .start, .sleep, .hybrid, .hibernate, .exitSleep, .exitImaged, .escalate, .railLoss,
      .attachStore].map LongOp.code = List.range 10 ∧
    [OutcomeResult.completed, .abortedWake, .abortedRequest, .abortedTraffic, .failed].map OutcomeResult.code =
      List.range 5 ∧
    [OutcomeReason.none, .slots, .unsettled, .store, .imageStale, .imageInvalid, .imageMismatch, .noImage, .railLoss,
      .retention].map OutcomeReason.code = List.range 10 ∧
    [StoreStatus.detached, .attached, .down].map StoreStatus.code = List.range 3 ∧
    [Mark.clear, .clearing, .set].map Mark.code = List.range 3 ∧
    [FaultClass.storeDown, .linkViolation, .railLoss, .poisonRead, .fixedWrite, .range, .slotRetired, .fillFailed,
      .retentionLost, .slotExhausted, .lateWrite, .entryAborted, .entryUnsettled].map FaultClass.code =
      (List.range 13).map (· + 1) ∧
    [StoreReason.timeout, .metadata, .worn, .identify].map (fun r => (FaultDetail.reason r).code) = [1, 2, 3, 4] ∧
    (∀ n, (FaultDetail.number n).code = n) ∧
    [TimerStatus.stopped, .running, .gated, .expired].map TimerStatus.code = List.range 4 ∧
    [CompletionStatus.good, .poisoned, .refused, .range].map CompletionStatus.code = List.range 4 ∧
    [FrameKind.identify, .readBlock, .writeBlock].map FrameKind.code = [1, 2, 3] ∧
    [ReplyCode.done, .accepted, .wrongState, .busy, .badArgument, .storeUnavailable, .unknownCommand].map
      ReplyCode.code = List.range 7) ∧
  ∀ s : State, s.side.handling = false →
    exec (.readFault []) s =
      .next (s.setSide
        { s.side with
          buffer := some
            { command := 18
              code := .done
              data :=
                leBytes 1 ((s.faults.code.map FaultClass.code).getD 0) ++
                leBytes 1 ((s.faults.stateAt.map TState.code).getD 255) ++ leBytes 2 s.faults.detail.code ++
                leBytes 8 s.faults.addr ++ leBytes 1 s.faults.count ++
                leBytes 1 (bit s.faults.error + 2 * bit s.faults.alertDisable) ++
                leBytes 2 s.faults.enables.toNat } }) ∧
    exec (.status []) s =
      .next (s.setSide
        { s.side with
          buffer := some
            { command := 20
              code := .done
              data :=
                leBytes 1 s.tc.state.code ++ leBytes 1 s.tc.origin.code ++ leBytes 1 s.store.status.code ++
                leBytes 1 s.engine.mark.code ++ leBytes 4 s.engine.epoch.toNat ++
                leBytes 4 s.tracker.dirtyTotal ++ leBytes 4 s.tracker.savedTotal ++
                leBytes 4 s.tracker.absentTotal ++ leBytes 4 s.tracker.poisonTotal ++
                leBytes 4 s.engine.freeSlots.length ++ leBytes 2 s.engine.retired.length ++
                leBytes 1 (bit s.anyDirty + 2 * bit s.anyAbsent + 4 * bit s.anyPoison +
                  8 * bit (decide (s.engine.mark = .set)) + 16 * bit s.epochOpen) ++
                leBytes 1 s.engine.passes ++ leBytes 1 s.tc.outcome.op.code ++
                leBytes 1 s.tc.outcome.result.code ++ leBytes 1 s.tc.outcome.reason.code ++
                leBytes 1 s.tc.outcome.passes ++ leBytes 1 s.wake.causes.length ++
                leBytes 1 (bit s.wake.escalate) ++
                padTo 10 (s.wake.causes.flatMap fun c => leBytes 1 c.line.val ++ leBytes 1 c.count) ++
                leBytes 2 s.dram.parkCount ++ leBytes 2 s.dram.lastErrors } }) ∧
    ∀ p : List Byte, p.length = 2 →
      let r := s.recOf (numberAt p 0 2)
      exec (.readGranule p) s =
        .next (s.setSide
          { s.side with
            buffer := some
              { command := 21
                code := .done
                data :=
                  leBytes 2 (numberAt p 0 2) ++ leBytes 1 r.st.code ++ leBytes 1 r.cls.code ++
                  leBytes 4 (r.committed.getD 4294967295) ++ leBytes 4 (r.pending.getD 4294967295) } })

/-- SNAPSHOT latches the selected timers whose latch is unlatched, and no other (R189); READ_SNAPSHOT returns the latch
of the timer named and unlatches it, and refuses a number above 8 (R190). The timers are PACE, FILL, STORE, SLEEP and
HOLD0 to HOLD4, in this order (R189). -/
def Obligations.SnapshotLatchesAndReadSnapshotUnlatches : Prop :=
  (∀ s : State,
    s.timers.toList =
      [s.engine.paceTimer, s.engine.fillTimer, s.store.timer, s.tc.sleepTimer] ++
        (List.finRange 5).map fun i : Fin 5 => s.wake.lines[i].timer) ∧
  (∀ (s : State) (p : List Byte), s.takes p 2 →
    ∃ latches : Vector (Option Timer) 9,
      exec (.snapshot p) s =
        .next (s.setSide
          { s.side with
            latches := latches
            buffer := some
              { command := 22
                code := .done
                data := leBytes 2 ((List.finRange 9).map fun i : Fin 9 =>
                  if (numberAt p 0 2).testBit i.val && s.side.latches[i].isNone then 2 ^ i.val else 0).sum } }) ∧
      ∀ i : Fin 9, latches[i] =
        if (numberAt p 0 2).testBit i.val && s.side.latches[i].isNone then some s.timers[i] else s.side.latches[i]) ∧
  ∀ (s : State) (p : List Byte), s.takes p 1 →
    (∀ i : Fin 9, numberAt p 0 1 = i.val →
      exec (.readSnapshot p) s =
        .next (s.setSide
          { s.side with
            latches := s.side.latches.set i none
            buffer := some
              { command := 23
                code := .done
                data :=
                  match s.side.latches[i] with
                  | some t => [1] ++ leBytes 1 t.status.code ++ [0, 0] ++ leBytes 4 t.count
                  | none => [0] ++ leBytes 1 TimerStatus.stopped.code ++ [0, 0] ++ leBytes 4 0 } })) ∧
    (8 < numberAt p 0 1 →
      exec (.readSnapshot p) s =
        .next (s.setSide { s.side with buffer := some { command := 23, code := .badArgument, data := [] } }))


/-! ## Long operations begun by the sideband -/

/-- START's own checks in the order of R137: WRONG_STATE outside UNCONFIGURED and without both rails; BAD_ARGUMENT;
RESUME without the store; FRESH with a table address that R34 refuses. A RESUME is then ACCEPTED, and begins from an
empty region file and a table all VOID; a START that was still draining gives way to it (the model's choice,
notes/assumptions/8.md). A FRESH fetches its table while the port is HANDLING. The byte at offset 3 is not looked at
(notes/assumptions/39.md). -/
def Obligations.StartIsJudgedInOrder : Prop :=
  ∀ (s : State) (p : List Byte), s.takesLong p 12 →
    let resume := numberAt p 0 1
    let units := numberAt p 1 1
    let use := numberAt p 2 1
    let addr := numberAt p 4 8
    let taken := s.tc.state = .unconfigured ∧ s.lines.mainOk = true ∧ s.lines.memOk = true
    let sound := resume ≤ 1 ∧ 4 ≤ units ∧ units ≤ 64 ∧ use ≤ 1
    let located := addr % 512 = 0 ∧ addr < 262144 * (1024 * units - 1)
    (¬ taken → exec (.start p) s = .next (s.putReply 1 .wrongState [])) ∧
    (taken → ¬ sound → exec (.start p) s = .next (s.putReply 1 .badArgument [])) ∧
    (taken → sound → resume = 1 → use = 0 → exec (.start p) s = .next (s.putReply 1 .storeUnavailable [])) ∧
    (taken → sound → resume = 1 → use = 1 →
      exec (.start p) s =
        .next (((((s.setTc
          { s.tc with
            origin := .start
            fetching := none
            start := some
              { fresh := false, units := units, tableAddr := addr, storeUse := true, phase := .draining,
                fetched := [] } }).setRegion { s.region with file := RegionFile.empty }).setTracker
          { State.reset.tracker with units := units }).setEngine
          { s.engine with presaveCursor := 0, fillCursor := 0 }).putReply 1 .accepted []).settle) ∧
    (taken → sound → resume = 0 → ¬ located → exec (.start p) s = .next (s.putReply 1 .badArgument [])) ∧
    (taken → sound → resume = 0 → located →
      exec (.start p) s =
        .next (((s.setSide { s.side with buffer := none, handling := true }).setTc
          { s.tc with
            fetching := some
              { fresh := true, units := units, tableAddr := addr, storeUse := decide (use = 1), phase := .fetching,
                fetched := [] } }).setDram
          { s.dram with queue := s.dram.queue ++ [{ src := .engine .fetch, line := addr / 64 }] }).settle)

/-- LOAD_REGIONS' checks in the order of R36, and the fetch it begins; ATTACH_STORE's checks in the order of R87, and
the IDENTIFY step it begins. Both run while the port is HANDLING. -/
def Obligations.LoadRegionsAndAttachStoreAreJudgedInOrder : Prop :=
  ∀ (s : State) (p : List Byte), s.side.handling = false → s.tc.railLoss = false →
    (p.length = 8 →
      let addr := numberAt p 0 8
      let located := addr % 512 = 0 ∧ addr < 262144 * (s.granules - 1)
      let copying := ∃ x ∈ s.tracker.table, x.2.st = .copying ∨ x.2.st = .recopy
      (s.tc.state ≠ .active → exec (.loadRegions p) s = .next (s.putReply 2 .wrongState [])) ∧
      (s.tc.state = .active → ¬ located → exec (.loadRegions p) s = .next (s.putReply 2 .badArgument [])) ∧
      (s.tc.state = .active → located → copying → exec (.loadRegions p) s = .next (s.putReply 2 .busy [])) ∧
      (s.tc.state = .active → located → ¬ copying →
        exec (.loadRegions p) s =
          .next (((s.setSide { s.side with buffer := none, handling := true }).setRegion
            { s.region with load := some { addr := addr, fetched := [] } }).setDram
            { s.dram with queue := s.dram.queue ++ [{ src := .engine .fetch, line := addr / 64 }] }).settle)) ∧
    (p = [] →
      (s.tc.state ≠ .active ∨ s.store.status = .attached →
        exec (.attachStore p) s = .next (s.putReply 3 .wrongState [])) ∧
      (s.tc.state = .active → s.store.status ≠ .attached →
        exec (.attachStore p) s =
          .next ((s.setSide { s.side with buffer := none, handling := true }).setEngine
            { s.engine with
              bringUp := some
                { mode := .attach, step := .identify, slots := 0, header0 := none, header1 := none, oldEpoch := 0,
                  indexCode := 0, formerRetired := [] } }).settle))

/-- SLEEP (R139), HYBRID and HIBERNATE (R99): WRONG_STATE outside ACTIVE and RESTORING, then BAD_ARGUMENT for a flag
other than 0 and 1 (its place in the order is notes/assumptions/9.md), then STORE_UNAVAILABLE for the two that need the
store. Then the causes and WAKE_REQ are cleared (R164), the origin and the abortable flag are set, and the part enters
PARKING in DRAIN, or SAVING for its first pass. -/
def Obligations.EntriesAreJudgedInOrder : Prop :=
  ∀ (s : State) (p : List Byte), s.takesLong p 1 →
    let running := s.tc.state = .active ∨ s.tc.state = .restoring
    let begun := fun (op : LongOp) (flag : Bool) =>
      (s.setWake { s.wake with causes := [], escalate := false, deferred := false, wakeReq := false }).setTc
        { s.tc with origin := op, abortable := flag }
    (¬ running →
      exec (.sleep p) s = .next (s.putReply 4 .wrongState []) ∧
      exec (.hybrid p) s = .next (s.putReply 5 .wrongState []) ∧
      exec (.hibernate p) s = .next (s.putReply 6 .wrongState [])) ∧
    (running → 1 < numberAt p 0 1 →
      exec (.sleep p) s = .next (s.putReply 4 .badArgument []) ∧
      exec (.hybrid p) s = .next (s.putReply 5 .badArgument []) ∧
      exec (.hibernate p) s = .next (s.putReply 6 .badArgument [])) ∧
    (running → ∀ flag : Bool, numberAt p 0 1 = (if flag then 1 else 0) →
      (let parking := (begun .sleep flag).enterState .parking
      exec (.sleep p) s =
        .next ((parking.setTc { parking.tc with parkPhase := .drain, parkStoreDown := false }).putReply
          4 .accepted []).settle) ∧
      (s.store.status ≠ .attached →
        exec (.hybrid p) s = .next (s.putReply 5 .storeUnavailable []) ∧
        exec (.hibernate p) s = .next (s.putReply 6 .storeUnavailable [])) ∧
      (s.store.status = .attached →
        let saving := fun op =>
          (((begun op flag).setTc { (begun op flag).tc with waitingAbort := none }).setEngine
            { s.engine with passes := 1, lateNoted := false }).enterState .saving
        exec (.hybrid p) s = .next ((saving .hybrid).putReply 5 .accepted []).settle ∧
        exec (.hibernate p) s = .next ((saving .hibernate).putReply 6 .accepted []).settle))

/-- ABORT_ENTRY (R148): a waiting abort in SAVING and COMMITTING, where the first one gives the kind (R110); in PARKING
by the phase (R142), a return at once in DRAIN; WRONG_STATE elsewhere. How an abort of any kind undoes a park by its
phase, and the return that ends it (R142): ACTIVE or RESTORING is entered, the park phase and the waiting abort become
none, then the PARKING-held requests are released and judged in that state (R61), then ENTRY_ABORTED is reported with
address 0 (in this order: notes/assumptions/13.md), and the record gives the origin's operation and the kind. -/
def Obligations.AbortEntryActsByState : Prop :=
  (∀ s : State, s.takesLong [] 0 →
    (s.tc.state = .saving ∨ s.tc.state = .committing →
      exec (.abortEntry []) s =
        .next ((s.setTc
          { s.tc with
            waitingAbort :=
              match s.tc.waitingAbort with
              | none => some .request
              | some k => some k }).putReply 7 .accepted []).settle) ∧
    (s.tc.state = .parking →
      (s.tc.waitingAbort = none → s.tc.parkPhase = .drain →
        exec (.abortEntry []) s = .next ((s.parkReturn .request).putReply 7 .accepted []).settle) ∧
      (s.tc.waitingAbort = none → s.tc.parkPhase = .pattern →
        exec (.abortEntry []) s =
          .next ((s.setTc { s.tc with waitingAbort := some .request }).putReply 7 .accepted []).settle) ∧
      (s.tc.waitingAbort = none → s.tc.parkPhase = .srEntry →
        exec (.abortEntry []) s =
          .next ((s.setTc { s.tc with waitingAbort := some .request, parkPhase := .undo }).putReply
            7 .accepted []).settle) ∧
      (s.tc.waitingAbort ≠ none → exec (.abortEntry []) s = .next (s.putReply 7 .accepted []).settle)) ∧
    (s.tc.state ≠ .saving → s.tc.state ≠ .committing → s.tc.state ≠ .parking →
      exec (.abortEntry []) s = .next (s.putReply 7 .wrongState []))) ∧
  ∀ (s : State) (kind : AbortKind),
    let running : TState := if s.anyAbsent then .restoring else .active
    let entered := s.enterState running
    let ended := { entered.tc with parkPhase := .none, waitingAbort := none, parkStoreDown := false }
    let released := (entered.setTc ended).releaseAll .parking
    (s.tc.waitingAbort ≠ none → s.parkAbort kind = s) ∧
    (s.tc.waitingAbort = none →
      (s.tc.parkPhase = .drain → s.parkAbort kind = s.parkReturn kind) ∧
      (s.tc.parkPhase = .pattern → s.parkAbort kind = s.setTc { s.tc with waitingAbort := some kind }) ∧
      (s.tc.parkPhase = .srEntry →
        s.parkAbort kind = s.setTc { s.tc with waitingAbort := some kind, parkPhase := .undo })) ∧
    s.parkReturn kind =
      (released.setFaults (released.faults.take .entryAborted 0 (.number 0) running)).setTc
        { ended with outcome := s.entryRecord kind.result .none } ∧
    (s.parkReturn kind).tc.state = running ∧ (s.parkReturn kind).tc.parkPhase = .none ∧
    (s.parkReturn kind).tc.waitingAbort = none ∧ (s.parkReturn kind).tc.origin = s.tc.origin ∧
    (s.parkReturn kind).tc.outcome.op = s.tc.origin ∧ (s.parkReturn kind).tc.outcome.reason = .none ∧
    (s.parkReturn kind).tc.outcome.result =
      (match kind with
      | .wake => .abortedWake
      | .request => .abortedRequest
      | .traffic => .abortedTraffic)

/-- EXIT_SLEEP begins the exit from self-refresh in UNPARKING (R144, R146), and EXIT_IMAGED DRAM bring-up in REVIVING
(R130); both need their state and both rails, and answer WRONG_STATE otherwise. -/
def Obligations.ExitsBeginOrAreRefused : Prop :=
  ∀ s : State, s.takesLong [] 0 →
    let begun := fun (op : LongOp) =>
      (s.setWake { s.wake with causes := [], escalate := false, deferred := false, wakeReq := false }).setTc
        { s.tc with origin := op }
    let rails := s.lines.mainOk = true ∧ s.lines.memOk = true
    (s.tc.state = .sleeping ∧ rails →
      exec (.exitSleep []) s =
        .next (((((begun .exitSleep).enterState .unparking).setDram { s.dram with cond := .exitingSr }).putReply
          8 .accepted []).settle)) ∧
    (¬ (s.tc.state = .sleeping ∧ rails) → exec (.exitSleep []) s = .next (s.putReply 8 .wrongState [])) ∧
    (s.tc.state = .imagedOff ∧ rails →
      exec (.exitImaged []) s =
        .next (((((begun .exitImaged).enterState .reviving).setDram { s.dram with cond := .bringingUp }).putReply
          9 .accepted []).settle)) ∧
    (¬ (s.tc.state = .imagedOff ∧ rails) → exec (.exitImaged []) s = .next (s.putReply 9 .wrongState []))

/-- RELEASE_POISON (R131, R20): POISON granules of the range become DIRTY, the notice is taken where there was one, and
the reply is their number. -/
def Obligations.ReleasePoisonMakesPoisonDirty : Prop :=
  ∀ (s : State) (p : List Byte), s.takesLong p 8 →
    let first := numberAt p 0 4
    let count := numberAt p 4 4
    let inside := fun g => first ≤ g ∧ g < first + count
    let n := s.tracker.table.countP fun x => decide (inside x.1) && decide (x.2.st = .poison)
    let running := s.tc.state = .active ∨ s.tc.state = .restoring
    (¬ running → exec (.releasePoison p) s = .next (s.putReply 11 .wrongState [])) ∧
    (running → count = 0 ∨ s.granules < first + count →
      exec (.releasePoison p) s = .next (s.putReply 11 .badArgument [])) ∧
    (running → 0 < count → first + count ≤ s.granules → GTable.wf s.tracker.table = true →
      ∃ t : State, exec (.releasePoison p) s = .next (t.putReply 11 .done (leBytes 4 n)).settle ∧
        (∀ g, t.recOf g =
          if inside g ∧ (s.recOf g).st = .poison then { s.recOf g with st := .dirty } else s.recOf g) ∧
        (if n = 0 then t.engine = s.engine else s.noticedDirty t) ∧
        t.engine.freeSlots = s.engine.freeSlots ∧ t.dram = s.dram ∧ t.ru = s.ru ∧ t.tc = s.tc ∧
        t.side = s.side ∧ t.store = s.store ∧ t.faults = s.faults ∧ t.region = s.region)

/-- While the store is ATTACHED, every slot below S is in exactly one place: the free slot queue, the committed slot of
one granule, the pending slot of one granule, the retired list, or the copy on the link that was disregarded, until its
answer or expiry; and no place holds a number at or above S (R82). So in every state that a run of commands, sent in
any order, reaches. -/
def Obligations.EverySlotIsInOnePlace : Prop :=
  ∀ s : State, Reachable s → s.store.status = .attached →
    ∀ n, s.placesOf n = if n < s.store.slots then 1 else 0

/-! ## The upstream link and DRAM accesses -/

/-- A request that arrives (R50, R193): a link violation where link ready is deasserted, the packet is not well formed
(the line address of one too short for it reads as if zeros followed, notes/assumptions/10.md) or its tag is in use;
else an entry, held for a load (R58) or a park, which it aborts (R61, R142), WAITING behind an earlier entry for its
line (R51), or settled at once (R52). LINK_RESET (R65) discards every entry: accesses already issued stay without their
requests, a WRITE's with its data and enables, nothing is completed, and no byte of DRAM changes. A release (R57):
entries held with the reason, in order of arrival, are judged again, those held at arrival classified first and WAITING
behind an earlier entry for their line; a left-ABSENT notice releases those held on its granules, and then pays the
owed write-backs. And how a granule joins the fill list (R115; a full list on every granule of which a request is held
loses none, notes/assumptions/27.md). -/
def Obligations.UpstreamRequestsAndLinkResetMakeTheTable : Prop :=
  (∀ (s : State) (packet : List Byte),
    let tag := packetTag packet
    let free := s.ru.linkReady = true ∧ ∀ x ∈ s.ru.table, x.tag ≠ tag
    (packetReqKind packet = none ∨ ¬ free →
      exec (.upstreamRequest packet) s =
        .next (s.setFaults (s.faults.take .linkViolation (64 * packetLine packet) (.number 0) s.tc.state))) ∧
    (∀ kind, packetReqKind packet = some kind → free →
      let e : Entry :=
        { tag := tag
          kind := kind
          line := packetLine packet
          data := if kind = .write then packetData packet else []
          enables := if kind = .write then packetEnables packet else 0
          cls := none
          st := .waiting }
      let joined := fun (x : Entry) => s.setRu { s.ru with table := s.ru.table ++ [x] }
      let classed : Entry :=
        if s.tc.state = .unconfigured then e
        else { e with cls := some (s.region.file.classOf s.granules e.granule) }
      (s.tc.state ≠ .unconfigured → s.region.load.isSome = true →
        exec (.upstreamRequest packet) s = .next (joined { e with st := .held .regionLoad }).settle) ∧
      (s.tc.state = .parking → s.region.load = none →
        exec (.upstreamRequest packet) s =
          .next ((joined { e with st := .held .parking }).parkAbort .traffic).settle) ∧
      (s.tc.state = .unconfigured ∨ (s.region.load = none ∧ s.tc.state ≠ .parking) →
        ((∃ x ∈ s.ru.table, x.line = e.line) →
          exec (.upstreamRequest packet) s = .next (joined classed).settle) ∧
        ((∀ x ∈ s.ru.table, x.line ≠ e.line) →
          exec (.upstreamRequest packet) s = .next ((joined classed).settleEntry classed).settle))) ∧
    ∃ t : State, exec .linkReset s = .next t.settle ∧
      t.ru = { s.ru with table := [] } ∧ t.sent = s.sent ∧ t.tracker = s.tracker ∧ t.engine = s.engine ∧
      t.region = s.region ∧ t.store = s.store ∧ t.tc = s.tc ∧ t.wake = s.wake ∧ t.faults = s.faults ∧
      t.side = s.side ∧ t.lines = s.lines ∧
      t.dram =
        { s.dram with
          queue := s.dram.queue.map fun a =>
            match a.src with
            | .upRead tag _ => { src := .upRead tag false, line := a.line }
            | .upWrite tag _ data enables => { src := .upWrite tag false data enables, line := a.line }
            | .engine o => { src := .engine o, line := a.line } }) ∧
  (∀ (s : State) (reason : Hold) (tag : BitVec 5),
    ((∀ e ∈ s.ru.table, e.tag = tag → e.st ≠ .held reason) → State.release reason s tag = s) ∧
    (∀ e, s.ru.table.find? (fun x => decide (x.tag = tag)) = some e → e.st = .held reason →
      (reason = .fill ∨ reason = .commit → State.release reason s tag = s.judge e) ∧
      (reason = .regionLoad ∨ reason = .parking →
        let classed := { e with cls := some (s.region.file.classOf s.granules e.granule) }
        let put := fun (x : Entry) =>
          s.setRu { s.ru with table := s.ru.table.map fun y => if y.tag = tag then x else y }
        ∀ first, s.ru.table.find? (fun x => decide (x.line = e.line)) = some first →
          (first.tag ≠ tag → State.release reason s tag = put { classed with st := .waiting }) ∧
          (first.tag = tag → State.release reason s tag = (put classed).judge classed))) ∧
    (∀ e, s.judge e =
      (match s.judgement e with
      | .range | .fixedWrite | .poisonRead => State.judgeLine s.ru.table.length e.line (s.settleEntry e)
      | _ => s.settleEntry e)) ∧
    s.releaseAll reason =
      ((s.ru.table.filter fun e => decide (e.st = .held reason)).map Entry.tag).foldl (State.release reason) s ∧
    ∀ left : List Nat,
      s.leftAbsent left =
        (((s.ru.table.filter fun e => decide (e.st = .held .fill ∧ e.granule ∈ left)).map Entry.tag).foldl
          (State.release .fill) s).payOwedIn left) ∧
  ∀ (s : State) (g : Nat),
    let l := s.engine.fillList
    let heldOn := fun x => ∃ e ∈ s.ru.table, e.st = .held .fill ∧ e.granule = x
    (g ∈ l → s.joinFillList g = s) ∧
    (g ∉ l → l.length < 32 ∨ (∀ x ∈ l, heldOn x) →
      s.joinFillList g = s.setEngine { s.engine with fillList := l ++ [g] }) ∧
    (∀ before x after, g ∉ l → 32 ≤ l.length → l = before ++ x :: after → (∀ y ∈ before, heldOn y) → ¬ heldOn x →
      s.joinFillList g = s.setEngine { s.engine with fillList := before ++ after ++ [g] })

/-- UPSTREAM_ACCESS_DONE sends the completion of a performed request, having served the accesses ahead of its own where
it is not performed; ENGINE_ACCESS_DONE serves accesses up to the next engine access; neither does anything while no
such access waits (R53, R64, notes/assumptions/4.md and 5.md). Where a link reset has left an access of the tag without
its request, the row ends at the first access of the tag that is served, that one too: the model's choice
(notes/assumptions/36.md). As an entry leaves the table, the oldest entry of its line is judged if it is WAITING, and
the next one too where that one is answered at once (R51), so that none is left WAITING with nothing ahead of it. -/
def Obligations.AccessesAreServedAndCompleted : Prop :=
  (∀ (s : State) (line fuel : Nat),
    let oldest := fun (t : State) => t.ru.table.find? fun x => decide (x.line = line)
    ((∀ e, oldest s = some e → e.st ≠ .waiting) → State.judgeLine fuel line s = s) ∧
    (∀ e, oldest s = some e → e.st = .waiting →
      State.judgeLine (fuel + 1) line s =
        (match s.judgement e with
        | .range | .fixedWrite | .poisonRead => State.judgeLine fuel line (s.settleEntry e)
        | _ => s.settleEntry e)) ∧
    (s.ru.tagsDistinct → s.ru.table.length ≤ fuel →
      ∀ e, oldest (State.judgeLine fuel line s) = some e → e.st ≠ .waiting)) ∧
  ∀ (s : State) (tag : BitVec 5),
    let waits := s.dram.cond = .up ∧ ∃ a ∈ s.dram.queue, a.tag = some tag
    (∀ e data, s.ru.table.find? (fun x => decide (x.tag = tag)) = some e → e.st = .issued (some data) →
      ∃ t : State, exec (.upstreamAccessDone tag) s = .next (State.judgeLine t.ru.table.length e.line t).settle ∧
        t.ru = { s.ru with table := s.ru.table.filter fun x => decide (x.tag ≠ tag) } ∧
        t.sent =
          { s.sent with completions := s.sent.completions ++ [{ tag := tag, status := .good, data := data }] } ∧
        t.dram = s.dram ∧ t.tracker = s.tracker ∧ t.engine = s.engine ∧ t.region = s.region ∧ t.tc = s.tc ∧
        t.faults = s.faults ∧ t.side = s.side) ∧
    (s.performedData tag = none → waits →
      exec (.upstreamAccessDone tag) s =
        .next ((State.serveUntil (fun a => decide (a.tag = some tag)) s.turns s).sendPerformed tag).settle) ∧
    (s.performedData tag = none → ¬ waits → exec (.upstreamAccessDone tag) s = .next s) ∧
    (s.dram.cond = .up ∧ (∃ a ∈ s.dram.queue, a.upstream = false) →
      exec .engineAccessDone s = .next (State.serveUntil (fun a => !a.upstream) s.turns s).settle) ∧
    (¬ (s.dram.cond = .up ∧ ∃ a ∈ s.dram.queue, a.upstream = false) → exec .engineAccessDone s = .next s) ∧
    (∀ (a : Access) (stop : Access → Bool), s.dram.cond = .up →
      pickAccess s.dram.queue s.dram.runCount = some a → stop a = true → State.serveUntil stop s.turns s = s.serve a)

/-- What serving one upstream access or write-back does to DRAM (R53, R47, R42): a read changes no byte and gives its
request the line, which its entry holds until the completion leaves (notes/assumptions/5.md); a write changes the
enabled bytes of its line, where there is DRAM, in every state (R62, notes/assumptions/25.md); a write-back sets its
flag byte to 1. Every other byte reads as before. And where write-backs come from: a taken write sets a clear written
flag of its governing descriptor (R41) and begins its write-back, which is skipped, owed or issued by the table's
granule (R42, R43); a left-ABSENT notice for that granule issues the owed ones in ascending descriptor number and
clears their flags (R44), and where the granule is of FIXED class clears them alone (R9, R43, notes/assumptions/34.md);
a DRAM-loss marking and the entry into IMAGED_OFF leave the region file alone (R45). -/
def Obligations.ServedAccessReadsOrWritesItsLine : Prop :=
  (∀ (s : State) (line : Nat), Memory.wf s.dram.mem = true →
    (∀ tag live,
      let t := s.serve { src := .upRead tag live, line := line }
      s.sameBytes t ∧
      t.ru.table =
        (if live then
          s.ru.table.map fun e =>
            if e.tag = tag then
              { e with st := .issued (some ((List.range 64).map fun i => s.dram.byte (64 * line + i))) }
            else e
        else s.ru.table)) ∧
    (∀ tag live (data : List Byte) (enables : BitVec 64), data.length = 64 →
      let t := s.serve { src := .upWrite tag live data enables, line := line }
      (∀ i, i < 64 →
        t.dram.byte (64 * line + i) =
          if enables.getLsbD i = true ∧ 64 * line + i < s.dram.installed then data.getD i 0
          else s.dram.byte (64 * line + i)) ∧
      (∀ a, a < 64 * line ∨ 64 * line + 64 ≤ a → t.dram.byte a = s.dram.byte a) ∧
      t.ru.table =
        (if live then s.ru.table.map fun e => if e.tag = tag then { e with st := .issued (some []) } else e
        else s.ru.table)) ∧
    (∀ n, n < 32 →
      let t := s.serve { src := .engine (.writeBack n), line := line }
      let flag := 64 * line + 16 * (n % 4)
      (flag < s.dram.installed → t.dram.byte flag = 1) ∧ (∀ a, a ≠ flag → t.dram.byte a = s.dram.byte a) ∧
      t.ru = s.ru)) ∧
  ∀ s : State,
    let file := s.region.file
    let issued := fun (t : State) (a : Nat) (n : Fin 32) =>
      (t.setDram { t.dram with
        queue := t.dram.queue ++ [{ src := .engine (.writeBack n.val), line := (a + 16 * n.val) / 64 }] }).claimWrite
          (a / 262144)
    (∀ g, file.governing s.granules g = none → s.markWritten g = s) ∧
    (∀ g n, file.governing s.granules g = some n →
      (file.descs[n].written = true → s.markWritten g = s) ∧
      (file.descs[n].written = false →
        s.markWritten g =
          (s.setRegion
            { s.region with
              file := { file with descs := file.descs.set n { file.descs[n] with written := true } } }).writeBack n)) ∧
    (file.tableAddr = none → ∀ n, s.writeBack n = s) ∧
    (∀ a (n : Fin 32), file.tableAddr = some a →
      let r := s.recOf (a / 262144)
      (r.cls = .fixed → s.writeBack n = s) ∧
      (r.cls ≠ .fixed → r.st = .absent ∨ r.st = .filling →
        ∃ owed : BitVec 32, s.writeBack n = s.setRegion { s.region with file := { file with owed := owed } } ∧
          ∀ i, i < 32 → owed.getLsbD i = (decide (i = n.val) || file.owed.getLsbD i)) ∧
      (r.cls ≠ .fixed → r.st ≠ .absent → r.st ≠ .filling → s.writeBack n = issued s a n)) ∧
    (∀ left : List Nat, (∀ a, file.tableAddr = some a → a / 262144 ∉ left) → s.payOwedIn left = s) ∧
    (∀ (left : List Nat) (a : Nat), file.tableAddr = some a → a / 262144 ∈ left →
      (file.owed = 0 → s.payOwedIn left = s) ∧
      ((s.recOf (a / 262144)).cls = .fixed →
        s.payOwedIn left = s.setRegion { s.region with file := { file with owed := 0 } }) ∧
      (file.owed ≠ 0 → (s.recOf (a / 262144)).cls ≠ .fixed →
        let claimed := s.claimWrite (a / 262144)
        s.payOwedIn left =
          (claimed.setRegion { s.region with file := { file with owed := 0 } }).setDram
            { s.dram with
              queue := s.dram.queue ++ (List.finRange 32).filterMap fun n : Fin 32 =>
                if file.owed.getLsbD n.val then
                  some { src := .engine (.writeBack n.val), line := (a + 16 * n.val) / 64 }
                else none })) ∧
    s.markDramLoss.region = s.region ∧ s.enterImagedOff.region = s.region

/-! ## Rails and wake lines -/

/-- RAIL_FALL (R49, R149, R153): no more than the level in a rail loss, in IMAGED_OFF, and in SLEEPING where MAIN_OK
falls; in UNCONFIGURED DRAM and the request table are let go, a START whose table is being fetched ends with
WRONG_STATE, and one that drains by the UNCONFIGURED path (R137, R151), which knows no DRAM size
(notes/assumptions/20.md); elsewhere a rail loss is taken, the interrupted operation is ATTACH_STORE where it runs, the
origin's where an entry, a START or an exit is under way and NONE elsewhere (R149 step 1), a copy's granule becomes
DIRTY with its notice, and an ATTACH_STORE, a START's fetch or a load in progress is answered (R39, R88, R137, R149).
Accesses that wait at the DRAM Port go with DRAM (notes/assumptions/15.md), and the background grant goes at once
(notes/assumptions/41.md). RAIL_RISE begins bring-up in UNCONFIGURED with both rails asserted and DRAM NOT_UP, and is
elsewhere no more than the level. A level that does not change has no effect (notes/assumptions/4.md). -/
def Obligations.RailEventsActByState : Prop :=
  ∀ (s : State) (r : Rail),
    let low :=
      match r with
      | .main => s.setLines { s.lines with mainOk := false }
      | .mem => s.setLines { s.lines with memOk := false }
    let high :=
      match r with
      | .main => s.setLines { s.lines with mainOk := true }
      | .mem => s.setLines { s.lines with memOk := true }
    let dropped := { s.dram with cond := .notUp, queue := [], checkPhase := .idle }
    let attaching := decide (s.engine.bringUp.map BringUp.mode = some .attach)
    let interrupted :=
      if attaching then .attachStore
      else if s.tc.state = .starting ∨ s.tc.state = .saving ∨ s.tc.state = .committing ∨ s.tc.state = .parking ∨
          s.tc.state = .unparking ∨ s.tc.state = .reviving then s.tc.origin
      else .none
    (s.rail r = false → exec (.railFall r) s = .next s) ∧
    (s.rail r = true → s.tc.railLoss = true → exec (.railFall r) s = .next low.drive) ∧
    (s.rail r = true → s.tc.railLoss = false → s.tc.state = .imagedOff ∨ (s.tc.state = .sleeping ∧ r = .main) →
      exec (.railFall r) s = .next low) ∧
    (s.rail r = true → s.tc.railLoss = false → s.tc.state = .unconfigured →
      ∃ t : State, exec (.railFall r) s = .next t.settle ∧ t.ru.table = [] ∧ t.dram = dropped ∧ t.lines = low.lines ∧
        t.faults = s.faults ∧ t.tc.start = none ∧ t.tc.fetching = none ∧ t.tc.railLoss = false ∧ t.sent = s.sent ∧
        (s.tc.fetching = none → t.side = s.side) ∧
        (s.tc.fetching ≠ none →
          t.side =
            { s.side with
              buffer := some { command := 1, code := .wrongState, data := [] }, handling := false }) ∧
        (s.tc.start = none →
          t.tc = { s.tc with fetching := none } ∧ t.tracker = s.tracker ∧ t.engine = s.engine ∧
            t.region = s.region) ∧
        (s.tc.start ≠ none →
          s.unconfiguredFrom t ∧
            t.tc.outcome = { op := .start, result := .failed, reason := .railLoss, passes := 0 })) ∧
    (s.rail r = true → s.tc.railLoss = false → s.tc.state ≠ .unconfigured → s.tc.state ≠ .imagedOff →
      ¬ (s.tc.state = .sleeping ∧ r = .main) →
      ∃ t : State, exec (.railFall r) s = .next t.settle ∧ t.lines = low.lines ∧ t.ru.table = [] ∧ t.dram = dropped ∧
        t.tc =
          { s.tc with
            railLoss := true
            interrupted := interrupted
            origin := .railLoss
            waitingAbort := none
            parkPhase := .none
            sleepTimer := Timer.stopped
            fetching := none
            start := none } ∧
        t.faults = s.faults.take .railLoss 0 (.number 0) s.tc.state ∧ t.sent = s.sent ∧
        t.engine.paceTimer = Timer.stopped ∧ t.engine.fillTimer = Timer.stopped ∧ t.engine.grant = false ∧
        t.engine.fills = [] ∧ t.engine.zeroFill = none ∧ t.engine.bringUp = none ∧ t.region.load = none ∧
        (∀ o, t.store.op = some o →
          (match o.purpose with
          | .copy _ _ | .fill _ => o.disregarded = true
          | _ => s.store.op = some o ∨ o.disregarded = true)) ∧
        (∀ o g slot, s.store.op = some o → o.purpose = .copy g slot → o.disregarded = false →
          (s.recOf g).st = .copying ∨ (s.recOf g).st = .recopy →
            t.recOf g = { s.recOf g with st := .dirty, pending := none } ∧ s.noticedDirty t ∧
              ∀ h, h ≠ g → t.recOf h = s.recOf h) ∧
        (s.copyInFlight = false →
          t.tracker = s.tracker ∧ t.engine.mark = s.engine.mark ∧
            t.engine.markClearQueued = s.engine.markClearQueued) ∧
        t.engine.freeSlots = s.engine.freeSlots ∧ t.engine.retired = s.engine.retired ∧
        t.region.file = s.region.file ∧
        (let replied := fun (command : Nat) (code : ReplyCode) =>
          { s.side with buffer := some { command := command, code := code, data := [] }, handling := false }
        (attaching = true → t.side = replied 3 .storeUnavailable) ∧
        (attaching = false → s.tc.fetching ≠ none → t.side = replied 1 .wrongState) ∧
        (attaching = false → s.tc.fetching = none → s.region.load ≠ none → t.side = replied 2 .wrongState) ∧
        (attaching = false → s.tc.fetching = none → s.region.load = none → t.side = s.side))) ∧
    (s.tc.state = .unconfigured →
      exec (.railRise r) s =
        .next ((if high.lines.mainOk = true ∧ high.lines.memOk = true ∧ s.dram.cond = .notUp then
          high.setDram { s.dram with cond := .bringingUp } else high).settle)) ∧
    (s.tc.state ≠ .unconfigured → exec (.railRise r) s = .next high)

/-- The line machines of EDGE and HOLD (R159, R160), with a hold time of 0 as R160 gives it, and the qualification they
end in. A machine that the tables leave alone only follows its level. A HOLD timer's expiry is taken at any count while
it is RUNNING (notes/assumptions/3.md; a level that does not change, and an expiry of a timer that does not run, have
no effect: notes/assumptions/4.md). -/
def Obligations.WakeLinesFollowTheirTables : Prop :=
  ∀ (s : State) (i : Fin 5),
    let l := s.wake.lines[i]
    let moved := fun (x : WakeLine) => s.setWake (s.wake.setLine i x)
    let up := fun m t => moved { l with level := true, machine := m, timer := t }
    let down := fun m t => moved { l with level := false, machine := m, timer := t }
    (l.level = true → exec (.wkAssert i) s = .next s) ∧
    (l.level = false →
      exec (.wkAssert i) s = .next
        (if l.mode = .edge ∧ l.machine = .armed then ((up .qualified l.timer).qualify i).settle
        else if l.mode = .hold ∧ l.machine = .armed then
          (if l.hold = 0 then ((up .qualified Timer.expired).qualify i).settle
          else up .timing { status := .running, count := l.hold })
        else if l.mode = .hold ∧ l.machine = .releasing then up .qualified Timer.stopped
        else up l.machine l.timer)) ∧
    (l.level = false → exec (.wkDeassert i) s = .next s) ∧
    (l.level = true →
      exec (.wkDeassert i) s = .next
        (if l.mode ≠ .disabled ∧ l.machine = .blocked then down .armed l.timer
        else if l.mode = .edge ∧ l.machine = .qualified then down .armed l.timer
        else if l.mode = .hold ∧ l.machine = .timing then down .armed Timer.stopped
        else if l.mode = .hold ∧ l.machine = .qualified then
          (if l.hold = 0 then down .armed Timer.expired
          else down .releasing { status := .running, count := l.hold })
        else down l.machine l.timer)) ∧
    (l.timer.status ≠ .running → exec (.holdTimerExpiry i) s = .next s) ∧
    (l.timer.status = .running → l.mode = .hold →
      (l.machine = .timing →
        exec (.holdTimerExpiry i) s =
          .next ((moved { l with machine := .qualified, timer := Timer.expired }).qualify i).settle) ∧
      (l.machine = .releasing →
        exec (.holdTimerExpiry i) s = .next (moved { l with machine := .armed, timer := Timer.expired })))

/-- A qualification enters the cause record (R161), and the Transition Controller acts on it by state, abortable flag
and waiting abort (R162); no other block changes, but a park aborted in DRAIN returns. -/
def Obligations.QualificationIsRecordedAndActedOn : Prop :=
  ∀ (s : State) (i : Fin 5),
    let noted := s.setWake
      { s.wake with
        causes :=
          if ∃ c ∈ s.wake.causes, c.line = i then
            s.wake.causes.map fun c =>
              if c.line = i then { c with count := if c.count < 15 then c.count + 1 else 15 } else c
          else s.wake.causes ++ [{ line := i, count := 1 }] }
    let entering := s.tc.state = .saving ∨ s.tc.state = .committing ∨ s.tc.state = .parking
    let deferred := noted.setWake { noted.wake with deferred := true }
    (s.tc.state = .sleeping ∨ s.tc.state = .imagedOff →
      s.qualify i = noted.setWake { noted.wake with wakeReq := true }) ∧
    (entering → s.tc.railLoss = true → s.qualify i = deferred) ∧
    (entering → s.tc.railLoss = false → s.tc.waitingAbort ≠ none → s.qualify i = noted) ∧
    (entering → s.tc.railLoss = false → s.tc.waitingAbort = none → s.tc.abortable = false →
      s.qualify i = deferred) ∧
    (s.tc.railLoss = false → s.tc.waitingAbort = none → s.tc.abortable = true →
      (s.tc.state = .saving ∨ s.tc.state = .committing →
        s.qualify i = noted.setTc { s.tc with waitingAbort := some .wake }) ∧
      (s.tc.state = .parking → s.qualify i = noted.parkAbort .wake)) ∧
    (¬ entering → s.tc.state ≠ .sleeping → s.tc.state ≠ .imagedOff → s.qualify i = noted)

/-! ## What follows every event -/

/-- What settles after an event moves no data: the queue, the sideband, DRAM's bytes and the last error count, the
rails, the cause record, the load in progress, the report enables, the presave settings and the epoch stay; the inject
flag and the park count too, but where a park's drain ends and its pattern's first line is presented (R168). With no
rail loss, outside the states that a test of the Transition Controller leaves, its state, the wake lines, the faults,
the request table, the region file and what was sent stay too. Where no test is due, settling is the choice of the
store arbiter (R83), that of the zero fill (R116, R118) and the arbiter's once more (notes/assumptions/24.md), and then
the lines out: STABLE and DRAM_HOLD (R134) and link ready (R49, R149). -/
def Obligations.SettlingMovesNoData : Prop :=
  ∀ s : State,
    s.settle.pending = s.pending ∧ s.settle.side = s.side ∧ s.sameBytes s.settle ∧
    s.settle.dram.mem = s.dram.mem ∧
    (¬ (s.tc.state = .parking ∧ s.tc.parkPhase = .drain) →
      s.settle.dram.inject = s.dram.inject ∧ s.settle.dram.parkCount = s.dram.parkCount) ∧
    s.settle.dram.lastErrors = s.dram.lastErrors ∧ s.settle.sent.replies = s.sent.replies ∧
    s.settle.sent.operations = s.sent.operations ∧ s.settle.lines.mainOk = s.lines.mainOk ∧
    s.settle.lines.memOk = s.lines.memOk ∧ s.settle.wake.causes = s.wake.causes ∧
    s.settle.wake.escalate = s.wake.escalate ∧ s.settle.region.load = s.region.load ∧
    s.settle.faults.enables = s.faults.enables ∧ s.settle.faults.alertDisable = s.faults.alertDisable ∧
    s.settle.engine.presaveOn = s.engine.presaveOn ∧ s.settle.engine.presavePaused = s.engine.presavePaused ∧
    s.settle.engine.epoch = s.engine.epoch ∧
    (s.tc.railLoss = false →
      s.tc.state = .active ∨ s.tc.state = .sleeping ∨ s.tc.state = .unparking ∨ s.tc.state = .imagedOff ∨
        s.tc.state = .reviving →
      s.settle.tc = s.tc ∧ s.settle.wake = s.wake ∧ s.settle.faults = s.faults ∧ s.settle.region = s.region ∧
        s.settle.sent = s.sent ∧ s.settle.ru.table = s.ru.table) ∧
    (s.tc.railLoss = false →
      s.tc.state = .active ∨ s.tc.state = .sleeping ∨ s.tc.state = .unparking ∨ s.tc.state = .imagedOff ∨
        s.tc.state = .reviving ∨ (s.tc.state = .unconfigured ∧ ∀ r, s.tc.start = some r → r.phase ≠ .draining) ∨
        (s.tc.state = .parking ∧ s.tc.parkPhase ≠ .drain) →
      s.settle = s.storeChoice.zeroChoice.storeChoice.drive) ∧
    s.drive =
      (s.setLines
        { s.lines with
          stable := decide (s.tc.state = .unconfigured ∨ s.tc.state = .active ∨ s.tc.state = .restoring ∨
            s.tc.state = .sleeping ∨ s.tc.state = .imagedOff)
          dramHold := decide (s.tc.state ≠ .unconfigured ∧ s.tc.state ≠ .imagedOff) }).setRu
        { s.ru with linkReady := s.drive.ru.linkReady } ∧
    (s.drive.ru.linkReady = true ↔
      (s.tc.state = .unconfigured ∧ s.lines.mainOk = true ∧ s.lines.memOk = true ∧ s.dram.cond = .up ∧
        ∀ r, s.tc.start = some r → r.phase ≠ .draining) ∨
      ((s.tc.state = .active ∨ s.tc.state = .restoring ∨ s.tc.state = .saving ∨ s.tc.state = .committing) ∧
        s.tc.railLoss = false) ∨
      (s.tc.state = .parking ∧ s.tc.railLoss = false ∧ (s.tc.parkPhase = .drain ∨ s.tc.parkPhase = .pattern)))

/-- The tests of the Transition Controller, made after every event in one order (notes/assumptions/24.md): START leaves
UNCONFIGURED for STARTING once the request table is empty (R63), and there, or once DRAM is UP, begins the steps of its
mode, or ends with the record START, COMPLETED, NONE where FRESH does not use the store (R138); RESTORING ends (R113);
SAVING goes on to COMMITTING (R102), or returns, its COMMIT-held entries released and then ENTRY_ABORTED reported
(R110, notes/assumptions/13.md), or fails, SLOT_EXHAUSTED reported at the lowest DIRTY granule before the return
(R103); COMMITTING waits, builds its index or goes back to SAVING (R104); a park's drain ends, unless a fill is chosen
first, and the pattern's first line is presented, which takes up an armed inject flag (R140, R168,
notes/assumptions/14.md); and a rail loss ends in IMAGED_OFF or UNCONFIGURED by the mark, from STARTING in
UNCONFIGURED, and from COMMITTING in IMAGED_OFF once its commit has ended (R150, R152, R155), each with all that R147
and R151 make of the part. What the tests leave goes on to the choices of the store arbiter and the zero fill, and then
to the lines out (O50). At the entry into IMAGED_OFF the request table stays as it is (the model's choice,
notes/assumptions/35.md), and so do the accesses that R123 does not withdraw (notes/assumptions/15.md). UNCONFIGURED
knows no DRAM size: 0 units (notes/assumptions/20.md). The conditions that the tests read: a copy in flight (R95),
fills in flight (R114), a mark clear queued or in flight (R97), and the passes of a record (R155). -/
def Obligations.SettlingMakesTheTransitionTests : Prop :=
  ∀ s : State,
    let noLoss := s.tc.railLoss = false
    let ended := fun (result : OutcomeResult) =>
      if s.tc.interrupted = .none then
        ({ op := .railLoss, result := result, reason := .railLoss, passes := 0 } : OutcomeRec)
      else
        { op := s.tc.interrupted, result := .failed, reason := .railLoss, passes := s.passesOf s.tc.interrupted }
    let goesOn := fun (t : State) => s.settle = t.storeChoice.zeroChoice.storeChoice.drive
    let imaged := (∃ t, goesOn t ∧ s.imagedFrom t ∧ t.engine.markClearQueued = s.engine.markClearQueued) ∧
      s.imagedFrom s.settle ∧ s.settle.faults = s.faults ∧
      s.settle.tc.interrupted = .none ∧ s.settle.tc.outcome = ended .completed
    let unconfigured := s.unconfiguredFrom s.settle ∧ s.settle.ru.table = s.ru.table ∧ s.settle.faults = s.faults ∧
      s.settle.dram =
        { s.dram with
          cond := if s.lines.mainOk = true ∧ s.lines.memOk = true ∧ s.dram.cond = .notUp then .bringingUp
            else s.dram.cond } ∧
      s.settle.tc.interrupted = .none ∧ s.settle.tc.outcome = ended .failed
    let running : TState := if s.anyAbsent then .restoring else .active
    let built := s.setEngine { s.engine with commitPhase := .index, builtIndex := indexBlock s.tracker.table }
    let becomes := fun (t : State) =>
      goesOn t ∧ s.settle.tc = t.tc ∧ s.settle.wake = t.wake ∧ s.settle.faults = t.faults ∧ s.settle.ru.table = t.ru.table ∧
        s.settle.region = t.region ∧ s.settle.sent = t.sent
    (s.copyInFlight = true ↔
      ∃ o g slot, s.store.op = some o ∧ o.purpose = .copy g slot ∧ o.disregarded = false) ∧
    (s.fillsRunning = true ↔ s.engine.fills ≠ [] ∨ s.engine.zeroFill ≠ none) ∧
    (s.markClearPending = true ↔
      s.engine.markClearQueued = true ∨
        ∃ o, s.store.op = some o ∧ o.purpose = .markClear ∧ o.disregarded = false) ∧
    (∀ op, s.passesOf op = if op = .hybrid ∨ op = .hibernate then s.engine.passes else 0) ∧
    (let starts := fun (t : State) (r : StartReq) =>
      let bare := r.fresh = true ∧ r.storeUse = false
      let first : BringUp :=
        { mode := if r.fresh then .fresh else .resume, step := .identify, slots := 0, header0 := none,
          header1 := none, oldEpoch := 0, indexCode := 0, formerRetired := [] }
      (s.dram.cond ≠ .up ∨ s.engine.bringUp ≠ none →
        becomes t ∧ s.settle.tc.state = .starting ∧ s.settle.engine.bringUp = s.engine.bringUp) ∧
      (s.dram.cond = .up → s.engine.bringUp = none →
        (bare →
          becomes (t.finishStart .none .active) ∧ s.settle.tc.state = .active ∧ s.settle.tc.start = none ∧
            s.settle.tc.outcome = { op := .start, result := .completed, reason := .none, passes := 0 }) ∧
        (¬ bare →
          becomes (t.setEngine { t.engine with bringUp := some first }) ∧ s.settle.tc.state = .starting ∧
            s.settle.engine.bringUp = some first))
    (∀ r, noLoss → s.tc.state = .unconfigured → s.tc.start = some r → r.phase = .draining →
      (s.ru.table ≠ [] → goesOn s ∧ s.settle.tc = s.tc) ∧
      (s.ru.table = [] →
        let entered := s.enterState .starting
        starts (entered.setTc { entered.tc with start := some { r with phase := .running } }) r) ∧
      (s.ru.table = [] → s.engine.bringUp = none →
        s.settle.tc.state = (if r.fresh = true ∧ r.storeUse = false ∧ s.dram.cond = .up then .active else .starting))) ∧
    (∀ r, noLoss → s.tc.state = .starting → s.tc.start = some r → starts s r)) ∧
    (noLoss → s.tc.state = .restoring →
      becomes (if s.anyAbsent then s else s.enterState .active) ∧
        s.settle.tc.state = (if s.anyAbsent then .restoring else .active)) ∧
    (noLoss → s.tc.state = .saving →
      (s.copyInFlight = true → goesOn s ∧ s.settle.tc = s.tc) ∧
      (s.tc.waitingAbort = none → s.tracker.dirtyTotal ≠ 0 → s.engine.freeSlots ≠ [] →
        goesOn s ∧ s.settle.tc = s.tc) ∧
      (∀ k, s.copyInFlight = false → s.tc.waitingAbort = some k →
        let back := s.entryReturned
        s.savingTest =
          (back.setFaults (back.faults.take .entryAborted 0 (.number 0) running)).setTc
            { back.tc with outcome := s.entryRecord k.result .none } ∧
        becomes s.savingTest ∧ s.settle.tc.state = running ∧ s.settle.tc.waitingAbort = none ∧
        s.settle.tc.outcome = s.entryRecord k.result .none) ∧
      (s.copyInFlight = false → s.tc.waitingAbort = none → s.tracker.dirtyTotal = 0 →
        let entered := s.enterState .committing
        let waiting := entered.setEngine { entered.engine with commitPhase := .waiting }
        goesOn
          (if s.fillsRunning || s.markClearPending then waiting
          else waiting.setEngine
            { waiting.engine with commitPhase := .index, builtIndex := indexBlock s.tracker.table }) ∧
        s.settle.tc.state = .committing ∧
        s.settle.engine.commitPhase = (if s.fillsRunning || s.markClearPending then .waiting else .index)) ∧
      (s.copyInFlight = false → s.tc.waitingAbort = none → s.tracker.dirtyTotal ≠ 0 → s.engine.freeSlots = [] →
        s.settle.tc.state = running ∧ s.settle.tc.outcome = s.entryRecord .failed .slots ∧ becomes s.savingTest ∧
        ∀ g, (s.recOf g).st = .dirty → g < s.granules → (∀ h, h < g → (s.recOf h).st ≠ .dirty) →
          GTable.wf s.tracker.table = true →
          let told := s.setFaults (s.faults.take .slotExhausted g (.number 0) .saving)
          let back := (told.setEngine
            { s.engine with
              commitPhase := .none, builtIndex := { bytes := [], length := 0 }, builtHeader := none }).entryReturned
          s.savingTest = back.setTc { back.tc with outcome := s.entryRecord .failed .slots })) ∧
    (noLoss → s.tc.state = .committing →
      (s.engine.commitPhase ≠ .waiting ∨ s.fillsRunning = true → goesOn s ∧ s.settle.tc = s.tc ∧
        s.settle.engine.commitPhase = s.engine.commitPhase) ∧
      (s.engine.commitPhase = .waiting → s.fillsRunning = false → s.tracker.dirtyTotal = 0 →
        s.settle.tc = s.tc ∧
        (s.markClearPending = true → goesOn s ∧ s.settle.engine.commitPhase = .waiting) ∧
        (s.markClearPending = false → goesOn built ∧
          s.settle.engine.commitPhase = .index ∧ s.settle.engine.builtIndex = indexBlock s.tracker.table)) ∧
      (s.engine.commitPhase = .waiting → s.fillsRunning = false → s.tracker.dirtyTotal ≠ 0 →
        let entered := s.enterState .saving
        s.commitWait = (entered.setEngine { entered.engine with commitPhase := .none }).releaseAll .commit ∧
        s.settle = s.commitWait.settle ∧
        (∃ t : State, s.commitWait = t.releaseAll .commit ∧ t.tc.state = .saving ∧ t.engine.commitPhase = .none ∧
          t.engine.passes = s.engine.passes ∧ t.tracker = s.tracker ∧ t.ru = s.ru ∧ t.faults = s.faults ∧
          t.dram = s.dram) ∧
        (s.tc.waitingAbort = none → s.engine.freeSlots ≠ [] → s.tracker.counted →
          GTable.wf s.tracker.table = true →
          s.settle.tc.state = .saving ∧ s.settle.engine.commitPhase = .none))) ∧
    (noLoss → s.tc.state = .parking → s.tc.parkPhase = .drain →
      let chosen := s.storeChoice.zeroChoice.storeChoice
      s.settle =
        (if chosen.ru.table = [] ∧ chosen.store.op = none ∧ chosen.engine.markClearQueued = false ∧
            chosen.engine.fills = [] ∧ chosen.engine.zeroFill = none then
          (chosen.setTc { chosen.tc with parkPhase := .pattern }).setDram
            { chosen.dram with
              parkCount := (s.dram.parkCount + 1) % 65536
              generator := BitVec.ofNat 23 ((s.dram.parkCount + 1) % 65536 + 1)
              checkPhase := .writing
              inject := false
              invertFirst := s.dram.inject
              queue := chosen.dram.queue ++ [{ src := .engine .pattern, line := 4096 * (s.granules - 1) }] }
        else chosen).drive) ∧
    (noLoss → s.tc.state = .parking → s.tc.parkPhase = .drain → s.ru.table = [] → s.store.op = none →
      s.engine.bringUp = none → s.engine.markClearQueued = false → s.engine.fills = [] → s.engine.zeroFill = none →
      (s.engine.fillList = [] →
        s.settle.tc = { s.tc with parkPhase := .pattern } ∧
        s.settle.dram =
          { s.dram with
            parkCount := (s.dram.parkCount + 1) % 65536
            generator := BitVec.ofNat 23 ((s.dram.parkCount + 1) % 65536 + 1)
            checkPhase := .writing
            inject := false
            invertFirst := s.dram.inject
            queue := s.dram.queue ++ [{ src := .engine .pattern, line := 4096 * (s.granules - 1) }] }) ∧
      ((∃ g ∈ s.engine.fillList, (s.recOf g).cls.preserved = true) → s.store.status = .attached →
        s.store.holdBack = none → s.settle.tc = s.tc ∧ s.settle.store.op.isSome = true) ∧
      ((∃ g ∈ s.engine.fillList, (s.recOf g).cls.preserved = false) →
        s.settle.tc = s.tc ∧ s.settle.engine.zeroFill.isSome = true)) ∧
    (s.tc.railLoss = true → s.tc.state = .starting → s.tc.start = none → unconfigured) ∧
    (s.tc.railLoss = true → s.tc.state = .committing →
      (s.engine.commitPhase = .index ∨ s.engine.commitPhase = .header →
        goesOn s ∧ s.settle.tc = s.tc ∧ s.settle.engine.commitPhase = s.engine.commitPhase) ∧
      (s.engine.commitPhase = .waiting → s.tracker.dirtyTotal = 0 → s.fillsRunning = false →
        goesOn (if s.markClearPending then s else built) ∧ s.settle.tc = s.tc ∧
        s.settle.engine.commitPhase = (if s.markClearPending then .waiting else .index)) ∧
      (s.engine.commitPhase = .waiting → s.tracker.dirtyTotal ≠ 0 → s.markClearPending = true →
        goesOn s ∧ s.settle.tc = s.tc) ∧
      (s.engine.commitPhase = .waiting → s.tracker.dirtyTotal ≠ 0 → s.markClearPending = false → imaged) ∧
      (s.engine.commitPhase = .none → imaged)) ∧
    (s.tc.railLoss = true → s.tc.state ≠ .unconfigured → s.tc.state ≠ .starting → s.tc.state ≠ .committing →
      (s.engine.mark = .set → imaged) ∧
      (s.engine.mark ≠ .set → s.markClearPending = true → goesOn s ∧ s.settle.tc = s.tc) ∧
      (s.engine.mark ≠ .set → s.markClearPending = false → unconfigured))

/-- The timers, the wake lines and the deferred request that follow a change of the transition state (R92, R117, R145,
R158, R163), and nothing else. -/
def Obligations.EnteringAStateMovesTimersAndLines : Prop :=
  ∀ (s : State) (st : TState),
    let old := s.tc.state
    let t := s.enterState st
    let runs := fun (x : TState) => x = .active ∨ x = .restoring
    let watched := fun (x : TState) =>
      x = .saving ∨ x = .committing ∨ x = .parking ∨ x = .sleeping ∨ x = .imagedOff
    let pace := s.side.params.fillPace
    t.tc.state = st ∧
    t.tc =
      { s.tc with
        state := st
        sleepTimer :=
          if st = .sleeping ∧ old ≠ .sleeping then
            if s.side.params.escalateAfter = 0 then Timer.stopped
            else { status := .running, count := 60000 * s.side.params.escalateAfter }
          else if old = .sleeping ∧ st ≠ .sleeping then Timer.stopped
          else s.tc.sleepTimer } ∧
    t.engine =
      { s.engine with
        paceTimer := t.engine.paceTimer
        fillTimer := t.engine.fillTimer
        grant := t.engine.grant } ∧
    (runs st → ¬ runs old → s.engine.presaveOn = true →
      t.engine.paceTimer =
        { status := if s.engine.presavePaused then .gated else .running, count := s.side.params.presavePace }) ∧
    (runs st → ¬ runs old → s.engine.presaveOn = false → t.engine.paceTimer = s.engine.paceTimer) ∧
    (runs old → ¬ runs st → t.engine.paceTimer = Timer.stopped) ∧
    ((runs old ↔ runs st) → t.engine.paceTimer = s.engine.paceTimer) ∧
    (st = .restoring → old ≠ .restoring →
      (pace = 0 → t.engine.fillTimer = Timer.stopped ∧ t.engine.grant = true) ∧
      (pace ≠ 0 → t.engine.fillTimer = { status := .running, count := pace } ∧ t.engine.grant = false)) ∧
    (old = .restoring → st ≠ .restoring → t.engine.fillTimer = Timer.stopped ∧ t.engine.grant = false) ∧
    ((old = .restoring ↔ st = .restoring) →
      t.engine.fillTimer = s.engine.fillTimer ∧ t.engine.grant = s.engine.grant) ∧
    (∀ i : Fin 5,
      let l := s.wake.lines[i]
      t.wake.lines[i] =
        (if l.mode = .disabled then l
        else if watched st ∧ ¬ watched old then { l with machine := if l.level then .blocked else .armed }
        else if watched old ∧ ¬ watched st then { l with machine := .idle, timer := Timer.stopped }
        else l)) ∧
    t.wake.causes = s.wake.causes ∧ t.wake.escalate = s.wake.escalate ∧
    (s.wake.deferred = true ∧ (runs st ∨ st = .sleeping ∨ st = .imagedOff ∨ st = .unconfigured) →
      t.wake.deferred = false ∧ t.wake.wakeReq = true) ∧
    (¬ (s.wake.deferred = true ∧ (runs st ∨ st = .sleeping ∨ st = .imagedOff ∨ st = .unconfigured)) →
      t.wake.deferred = s.wake.deferred ∧ t.wake.wakeReq = s.wake.wakeReq) ∧
    t.pending = s.pending ∧ t.ru = s.ru ∧ t.region = s.region ∧ t.tracker = s.tracker ∧ t.store = s.store ∧
    t.dram = s.dram ∧ t.faults = s.faults ∧ t.side = s.side ∧ t.lines = s.lines ∧ t.sent = s.sent

/-! ## Timers and the store link -/

/-- PACE_TIMER_EXPIRY (R92, R94), FILL_TIMER_EXPIRY (R117) and SLEEP_TIMER_EXPIRY (R145), which escalates to IMAGED_OFF
with the mark SET, by the steps of R147 (the request table and the accesses that R123 does not withdraw stay as they
are: notes/assumptions/35.md and 15.md), each while its timer is RUNNING; otherwise they change nothing
(notes/assumptions/3.md, 4.md). -/
def Obligations.PaceFillAndSleepTimersExpire : Prop :=
  ∀ s : State,
    (s.engine.paceTimer.status ≠ .running → exec .paceTimerExpiry s = .next s) ∧
    (s.engine.paceTimer.status = .running →
      exec .paceTimerExpiry s = .next
        (match s.tracker.dirtyScan s.engine.presaveCursor with
        | some g =>
          if s.store.status = .attached ∧ s.engine.freeSlots = [] ∧ s.engine.exhaustionNoted = false then
            ((s.setFaults (s.faults.take .slotExhausted g (.number 0) s.tc.state)).setEngine
              { s.engine with paceTimer := Timer.expired, exhaustionNoted := true }).settle
          else (s.setEngine { s.engine with paceTimer := Timer.expired }).settle
        | none => (s.setEngine { s.engine with paceTimer := Timer.expired }).settle)) ∧
    (s.engine.fillTimer.status ≠ .running → exec .fillTimerExpiry s = .next s) ∧
    (s.engine.fillTimer.status = .running →
      exec .fillTimerExpiry s =
        .next (s.setEngine { s.engine with fillTimer := Timer.expired, grant := true }).settle) ∧
    (¬ (s.tc.state = .sleeping ∧ s.tc.sleepTimer.status = .running ∧ s.tc.railLoss = false) →
      exec .sleepTimerExpiry s = .next s) ∧
    (s.tc.state = .sleeping → s.tc.sleepTimer.status = .running → s.tc.railLoss = false →
      (s.engine.mark ≠ .set →
        exec .sleepTimerExpiry s =
          .next ((s.setTc { s.tc with sleepTimer := Timer.expired }).setWake
            { s.wake with escalate := true, wakeReq := true }).settle) ∧
      (s.engine.mark = .set →
        ∃ t : State, exec .sleepTimerExpiry s = .next t.settle ∧ t.tc.state = .imagedOff ∧
          t.tc.origin = .escalate ∧ t.tc.sleepTimer = Timer.stopped ∧ t.dram.cond = .notUp ∧ s.sameBytes t ∧
          t.tc.outcome = { op := .escalate, result := .completed, reason := .none, passes := 0 } ∧
          t.wake.causes = s.wake.causes ∧ t.faults = s.faults ∧ s.imagedFrom t))

/-- STORE_RESPONSE and STORE_TIMER_EXPIRY; the expiry is taken at any count of a RUNNING timer and otherwise changes
nothing (notes/assumptions/3.md, 4.md). A response of another number is discarded (R69). One that matches ends a hold-
back (R191, matched by the number it carries: notes/assumptions/18.md) or the operation: a disregarded copy gives its
slot back to an ATTACHED store (R71); a fill's block begins its line writes (R119), and a fill answered MEDIA_ERROR or
BAD_BLOCK makes its granule POISON and retires its slot, or takes the store DOWN with WORN where the retired list is
full (R19, R81, R122); a mark clear and an index write move the commit on (R98, R105); a metadata write that fails
takes the store DOWN (R98, R107), and so does the expiry of a fill, a mark clear or a commit's write (R78). The steps
of START and ATTACH_STORE end as their rules give: IDENTIFY, the headers, adoption and capacity, and the empty epoch
(R85, R86, R88); the judgement of a resume's header and index (R126, R127), its completion (R128, R89) and its failure
(R129; DRAM's size is unknown then: notes/assumptions/20.md), the state entered with its timers, its wake lines and a
deferred request (R92, R117, R158, R163); a step answered otherwise or expired (R78, R85, R86, R125, R127). A response
too short for a field reads as zeros there (notes/assumptions/10.md). The header of a commit holds what R105 says. A
resume's queue build clears the exhaustion noted flag even where it is empty (notes/assumptions/40.md). -/
def Obligations.StoreOperationsEnd : Prop :=
  (∀ (s : State) (f : Frame),
    let number := byteAt f.bytes 1
    let done := fun (o : StoreOp) (timer : Timer) =>
      (s.setSent { s.sent with operations := s.sent.operations ++ [o] }).setStore
        { s.store with op := none, timer := timer }
    let givenBack := fun (o : StoreOp) (timer : Timer) =>
      (match o.purpose with
      | .copy _ slot =>
        if s.store.status = StoreStatus.attached then
          (done o timer).setEngine
            { s.engine with freeSlots := s.engine.freeSlots ++ [slot], exhaustionNoted := false }
        else done o timer
      | _ => done o timer)
    (∀ n, s.store.holdBack = some n →
      (number ≠ n → exec (.storeResponse f) s = .next s) ∧
      (number = n →
        exec (.storeResponse f) s =
          .next (s.setStore { s.store with holdBack := none, timer := Timer.stopped }).settle) ∧
      (s.store.timer.status = .running →
        exec .storeTimerExpiry s =
          .next (s.setStore { s.store with holdBack := none, timer := Timer.expired }).settle)) ∧
    (s.store.holdBack = none → s.store.op = none →
      exec (.storeResponse f) s = .next s ∧ exec .storeTimerExpiry s = .next s) ∧
    (s.store.timer.status ≠ .running → exec .storeTimerExpiry s = .next s) ∧
    (∀ o, s.store.holdBack = none → s.store.op = some o → number ≠ o.num → exec (.storeResponse f) s = .next s) ∧
    (∀ o, s.store.holdBack = none → s.store.op = some o → o.disregarded = true →
      (number = o.num → exec (.storeResponse f) s = .next (givenBack o Timer.stopped).settle) ∧
      (s.store.timer.status = .running →
        exec .storeTimerExpiry s = .next (givenBack o Timer.expired).settle)) ∧
    (∀ o, s.store.holdBack = none → s.store.op = some o → o.disregarded = false → number = o.num →
      let good := respStatus f = .good ∧ (o.kind = .readBlock → 262152 ≤ f.length)
      let t := done o Timer.stopped
      (∀ g, good → o.purpose = .fill g →
        exec (.storeResponse f) s =
          .next (((t.setEngine
            { s.engine with
              fills := s.engine.fills.map fun x =>
                if x.granule = g then { x with rest := some ((f.bytes.drop 8).take 262144) } else x }).setDram
            { s.dram with
              queue := s.dram.queue ++ [{ src := .engine (.fill g), line := 4096 * g }] }).settle)) ∧
      (∀ g, ¬ good → o.purpose = .fill g →
        let slot := (s.recOf g).committed.getD 0
        let left := t.setEngine { s.engine with fills := s.engine.fills.filter fun x => decide (x.granule ≠ g) }
        (256 ≤ s.engine.retired.length → exec (.storeResponse f) s = .next (left.storeDown .worn).settle) ∧
        (s.engine.retired.length < 256 →
          ∃ u : State,
            exec (.storeResponse f) s = .next ((u.report .fillFailed g (.number 0)).leftAbsent [g]).settle ∧
            u.engine = { left.engine with retired := s.engine.retired ++ [slot] } ∧
            u.recOf g =
              (if (s.recOf g).st = .filling ∧ (s.recOf g).cls.preserved = true then
                { s.recOf g with st := .poison, committed := none }
              else s.recOf g) ∧
            (∀ h, h ≠ g → u.recOf h = s.recOf h) ∧ u.store = t.store ∧ u.sent = t.sent ∧ u.dram = s.dram ∧
            u.ru = s.ru ∧ u.tc = s.tc ∧ u.faults = s.faults ∧ u.region = s.region ∧ u.side = s.side)) ∧
      (good → o.purpose = .markClear →
        exec (.storeResponse f) s =
          .next (t.setEngine
            { s.engine with
              mark := .clear
              headerRecord := s.engine.headerRecord.map fun h => { h with mark := false } }).settle) ∧
      (good → o.purpose = .commitIndex →
        exec (.storeResponse f) s =
          .next (t.setEngine
            { s.engine with
              commitPhase := .header
              builtHeader := some
                { epoch := s.engine.epoch + 1, mark := true, units := s.tracker.units, slots := s.store.slots,
                  indexCode := checkCode s.engine.builtIndex, file := s.region.file,
                  retiredLength := s.engine.retired.length, retired := s.engine.retired } }).settle) ∧
      (good → o.purpose = .commitHeader →
        exec (.storeResponse f) s = .next (t.commitDone.commitDecision).settle) ∧
      (¬ good → o.purpose = .markClear ∨ o.purpose = .commitIndex ∨ o.purpose = .commitHeader →
        exec (.storeResponse f) s = .next (t.storeDown .metadata).settle) ∧
      (∀ step b, o.purpose = .bringUp step → s.engine.bringUp = some b →
        (good → exec (.storeResponse f) s = .next (t.stepGood b f).settle) ∧
        (¬ good →
          exec (.storeResponse f) s =
            .next (t.stepFailed b (if b.step = .identify then .identify else .metadata)).settle))) ∧
    (∀ o, s.store.holdBack = none → s.store.op = some o → o.disregarded = false →
      s.store.timer.status = .running →
      ((∃ g, o.purpose = .fill g) ∨ o.purpose = .markClear ∨ o.purpose = .commitIndex ∨ o.purpose = .commitHeader →
        exec .storeTimerExpiry s = .next ((done o Timer.expired).storeDown .timeout).settle) ∧
      (∀ step b, o.purpose = .bringUp step → s.engine.bringUp = some b →
        exec .storeTimerExpiry s =
          .next ((done o Timer.expired).stepFailed b
            (if b.step = .identify then .identify else .timeout)).settle))) ∧
  (∀ (s : State) (b : BringUp) (reason : StoreReason),
    (b.mode ≠ .resume → s.stepFailed b reason = s.storeDown reason) ∧
    (b.mode = .resume → s.stepFailed b reason = s.resumeFail .store)) ∧
  (∀ (s : State) (b : BringUp) (f : Frame),
    let going := fun (x : BringUp) => s.setEngine { s.engine with bringUp := some x }
    let count := respCount f
    let slots := if count - 4 ≤ 131072 then count - 4 else 131072
    let read := Header.decode (respBlock f).bytes
    let chosen := highest b.header0 read
    (b.step = .identify →
      s.stepGood b f =
        (if 2052 ≤ count then going { b with slots := slots, step := .header0 } else s.stepFailed b .identify)) ∧
    (b.step = .header0 → s.stepGood b f = going { b with header0 := read, step := .header1 }) ∧
    (b.step = .header1 → b.mode ≠ .resume →
      let sound := fun (h : Header) =>
        h.slots = b.slots ∧ h.retiredLength ≤ 256 ∧ (∀ n ∈ h.retired, n < b.slots) ∧ h.retired.Nodup
      let fits := fun (retired : List Nat) =>
        2 * preservedCount s.region.file s.granules + retired.length ≤ b.slots
      ∀ retired : List Nat,
        (∀ h, chosen = some h → sound h → retired = h.retired) →
        ((∀ h, chosen = some h → ¬ sound h) → retired = []) →
        (fits retired →
          s.stepGood b f =
            s.setEngine
              { s.engine with
                retired := retired
                bringUp := some
                  { b with
                    header1 := read
                    oldEpoch := (chosen.map Header.epoch).getD 0
                    formerRetired := s.engine.retired
                    step := .emptyIndex } }) ∧
        (¬ fits retired → b.mode = .attach →
          s.stepGood b f =
            ((s.setEngine { s.engine with bringUp := none }).setSide
              { s.side with
                buffer := some { command := 3, code := .storeUnavailable, data := [] }, handling := false }).setTc
              { s.tc with outcome := { op := .attachStore, result := .failed, reason := .slots, passes := 0 } }) ∧
        (¬ fits retired → b.mode = .fresh →
          s.stepGood b f = (s.setEngine { s.engine with retired := [] }).finishStart .slots .active)) ∧
    (b.step = .header1 → b.mode = .resume →
      let sound := fun (h : Header) =>
        h.retiredLength ≤ 256 ∧ (∀ n ∈ h.retired, n < b.slots) ∧ h.retired.Nodup ∧
          descriptorsOk s.granules h.file.descs = true ∧
          tableAddrOk s.granules (h.file.tableAddr.getD 0) = true
      (chosen = none → s.stepGood b f = s.resumeFail .noImage) ∧
      (∀ h, chosen = some h →
        (h.mark = false → s.stepGood b f = s.resumeFail .imageStale) ∧
        (h.mark = true → h.units ≠ s.tracker.units ∨ h.slots ≠ b.slots →
          s.stepGood b f = s.resumeFail .imageMismatch) ∧
        (h.mark = true → h.units = s.tracker.units → h.slots = b.slots →
          (¬ sound h → s.stepGood b f = s.resumeFail .imageInvalid) ∧
          (sound h →
            s.stepGood b f =
              going
                { b with
                  step := .index, header0 := some h, header1 := none, oldEpoch := h.epoch,
                  indexCode := h.indexCode })))) ∧
    (b.step = .index →
      let code := checkCode { bytes := (respBlock f).bytes.take 262144, length := 262144 }
      (b.header0 = none ∨ code ≠ b.indexCode ∨ decodeIndex (respBlock f) = none →
        s.stepGood b f = s.resumeFail .imageInvalid) ∧
      (∀ h index, b.header0 = some h → code = b.indexCode → decodeIndex (respBlock f) = some index →
        (indexOk s.granules b.slots h index = false → s.stepGood b f = s.resumeFail .imageInvalid) ∧
        (indexOk s.granules b.slots h index = true →
          let built := (s.setRegion { s.region with file := h.file }).claimResume index
          s.stepGood b f =
            ((built.setEngine
              { s.engine with
                retired := h.retired
                freeSlots := (List.range b.slots).filter fun n =>
                  decide (IndexEntry.slot n ∉ index) && decide (n ∉ h.retired)
                exhaustionNoted := false
                epoch := h.epoch
                mark := .set
                headerRecord := some h }).setStore
              { s.store with status := .attached, slots := b.slots }).finishStart .none
                (if built.anyAbsent then .restoring else .active)))) ∧
    (b.step = .emptyIndex →
      s.stepGood b f =
        going
          { b with
            step := .emptyHeader
            header0 := some
              { epoch := b.oldEpoch + 1, mark := false, units := s.tracker.units, slots := b.slots,
                indexCode := checkCode { bytes := [], length := 262144 }, file := s.region.file,
                retiredLength := s.engine.retired.length, retired := s.engine.retired } }) ∧
    (b.step = .emptyHeader →
      let t := (s.setEngine
        { s.engine with
          epoch := b.oldEpoch + 1
          mark := .clear
          headerRecord := b.header0
          freeSlots := (List.range b.slots).filter fun n => decide (n ∉ s.engine.retired)
          exhaustionNoted := false }).setStore { s.store with status := .attached, slots := b.slots }
      (b.mode ≠ .attach → s.stepGood b f = t.finishStart .none .active) ∧
      (b.mode = .attach →
        s.stepGood b f =
          ((t.setEngine { t.engine with bringUp := none }).setSide
            { s.side with buffer := some { command := 3, code := .done, data := [] }, handling := false }).setTc
            { s.tc with
              outcome := { op := .attachStore, result := .completed, reason := .none, passes := 0 } }))) ∧
  ∀ (s : State) (reason : OutcomeReason) (st : TState),
    (let t := s.finishStart reason st
    let left := (s.setEngine { s.engine with bringUp := none }).setTc { s.tc with start := none }
    let entered := left.enterState st
    t = entered.setTc
      { entered.tc with outcome := { op := .start, result := .completed, reason := reason, passes := 0 } } ∧
    t.tc.state = st ∧ t.tc.start = none ∧ t.engine.bringUp = none ∧
      t.tc.outcome = { op := .start, result := .completed, reason := reason, passes := 0 } ∧
      t.engine.freeSlots = s.engine.freeSlots ∧ t.engine.retired = s.engine.retired ∧ t.tracker = s.tracker ∧
      t.store = s.store ∧ t.dram = s.dram ∧ t.ru = s.ru ∧ t.region = s.region ∧ t.faults = s.faults ∧
      t.side = s.side) ∧
    (let t := s.resumeFail reason
    let left := (((s.setEngine { s.engine with bringUp := none }).setTc { s.tc with start := none }).setTracker
      State.reset.tracker).setRegion { s.region with file := RegionFile.empty }
    let entered := left.enterState .unconfigured
    t = entered.setTc
      { entered.tc with outcome := { op := .start, result := .failed, reason := reason, passes := 0 } } ∧
    t.tc.state = .unconfigured ∧ t.tc.start = none ∧ t.engine.bringUp = none ∧
      t.tc.outcome = { op := .start, result := .failed, reason := reason, passes := 0 } ∧
      t.tracker = State.reset.tracker ∧ t.region = { s.region with file := RegionFile.empty } ∧
      t.engine.epoch = s.engine.epoch ∧ t.engine.mark = s.engine.mark ∧
      t.engine.freeSlots = s.engine.freeSlots ∧ t.engine.retired = s.engine.retired ∧ t.store = s.store ∧
      t.dram = s.dram ∧ t.ru = s.ru ∧ t.faults = s.faults ∧ t.side = s.side)

/-- How a copy ends: GOOD follows R13, once its reads are performed (notes/assumptions/6.md); MEDIA_ERROR or BAD_BLOCK
retires its slot and leaves its granule DIRTY (R14, R81), or takes the store DOWN with WORN where the retired list is
full; a timeout takes it DOWN (R95). A line read that waits at the DRAM Port is withdrawn (the model's choice,
notes/assumptions/37.md). A response too short for a field reads as zeros there (notes/assumptions/10.md). And what a
DOWN does (R79): the claims, the queues and the mark; then the releases on the granules made POISON (R22), the report
and the long operation, in this order (notes/assumptions/13.md); and what it tells that operation: a commit and an
entry fail, their COMMIT-held writes released in the state entered (R107, R111), START goes on without the store (R86),
ATTACH_STORE ends (R88), a park remembers it (R140, notes/assumptions/29.md), and nothing of this under a rail loss
(R79). -/
def Obligations.CopiesEndAndStoreGoesDown : Prop :=
  (∀ (s : State) (f : Frame) (o : StoreOp) (g slot : Nat),
    let left := s.setDram { s.dram with queue := s.dram.queue.filter fun a => decide (a.src ≠ .engine .copy) }
    let done := fun (timer : Timer) =>
      (left.setSent { s.sent with operations := s.sent.operations ++ [o] }).setStore
        { s.store with op := none, timer := timer }
    (s.store.holdBack = none → s.store.op = some o → o.purpose = .copy g slot → o.disregarded = false →
      (byteAt f.bytes 1 = o.num →
        (o.goodBy f = true → s.presented .copy = none ∨ s.dram.cond ≠ .up →
          exec (.storeResponse f) s = .next ((done Timer.stopped).claimCopyGood g).settle) ∧
        (∀ a, o.goodBy f = true → s.presented .copy = some a → s.dram.cond = .up →
          let read := s.runTransfer .copy a
          let ended := (read.setSent
            { read.sent with operations := read.sent.operations ++ read.store.op.toList }).setStore
              { read.store with op := none, timer := Timer.stopped }
          exec (.storeResponse f) s =
            .next ((ended.setDram
              { read.dram with
                queue := read.dram.queue.filter fun x => decide (x.src ≠ .engine .copy) }).claimCopyGood g).settle) ∧
        (o.goodBy f = false → s.engine.retired.length < 256 →
          exec (.storeResponse f) s =
            .next ((((done Timer.stopped).claimCopyLost g).setEngine
              { ((done Timer.stopped).claimCopyLost g).engine with
                retired := s.engine.retired ++ [slot] }).report .slotRetired slot (.number 0)).settle) ∧
        (o.goodBy f = false → 256 ≤ s.engine.retired.length →
          exec (.storeResponse f) s = .next ((done Timer.stopped).storeDown .worn).settle)) ∧
      (s.store.timer.status = .running →
        exec .storeTimerExpiry s = .next ((done Timer.expired).storeDown .timeout).settle)) ∧
    ((s.recOf g).st = .copying ∨ (s.recOf g).st = .recopy →
      (s.claimCopyLost g).recOf g = { s.recOf g with st := .dirty, pending := none }) ∧
    (∀ reason, ∃ t : State,
      s.storeDown reason =
        ((t.leftAbsent s.poisonedByDown).report .storeDown 0 (.reason reason)).tellStoreDown ∧
      t.store = { s.store with status := .down } ∧ t.tracker = s.claimAbandon.claimStoreDown.tracker ∧
      t.engine.freeSlots = [] ∧ t.engine.retired = [] ∧ t.engine.mark = .clear ∧
      t.engine.markClearQueued = false ∧ t.engine.fills = [] ∧
      (∀ x, x ∈ t.engine.fillList ↔ x ∈ s.engine.fillList ∧ x ∉ s.poisonedByDown) ∧
      (∀ a ∈ t.dram.queue, ∀ x, a.src ≠ .engine (.fill x)) ∧ t.tc = s.tc ∧ t.ru = s.ru ∧ t.faults = s.faults ∧
      t.region = s.region ∧ s.sameBytes t)) ∧
  ∀ s : State,
    let t := s.tellStoreDown
    let dropped := s.setEngine
      { s.engine with commitPhase := .none, builtIndex := { bytes := [], length := 0 }, builtHeader := none }
    s.poisonedByDown =
      (s.tracker.table.filter fun x =>
        decide ((x.2.st = .absent ∨ x.2.st = .filling) ∧ x.2.cls.preserved = true)).map Prod.fst ∧
    (∀ (o : StoreOp) (f : Frame),
      o.goodBy f = true ↔ respStatus f = .good ∧ (o.kind = .readBlock → 262152 ≤ f.length)) ∧
    (s.tc.state = .committing ∨ s.tc.state = .saving → s.tc.railLoss = false →
      t.tc.state = (if s.anyAbsent then .restoring else .active) ∧ t.tc.waitingAbort = none ∧
        t.engine.commitPhase = .none ∧ t.tc.outcome = s.entryRecord .failed .store ∧
        (let back := dropped.entryReturned
        t = back.setTc { back.tc with outcome := s.entryRecord .failed .store })) ∧
    (s.tc.state = .committing → s.tc.railLoss = true → t = dropped) ∧
    (s.tc.state = .saving ∨ s.tc.state = .starting → s.tc.railLoss = true → t = s) ∧
    (s.tc.state = .starting → s.tc.railLoss = false →
      t = s.finishStart .store .active ∧ t.tc.state = .active ∧ t.tc.start = none ∧ t.engine.bringUp = none ∧
        t.tc.outcome = { op := .start, result := .completed, reason := .store, passes := 0 } ∧
        t.tracker = s.tracker ∧ t.store = s.store ∧ t.ru = s.ru ∧ t.faults = s.faults) ∧
    (s.tc.state = .parking → t = s.setTc { s.tc with parkStoreDown := true }) ∧
    (s.tc.state ≠ .committing → s.tc.state ≠ .saving → s.tc.state ≠ .starting → s.tc.state ≠ .parking →
      (∀ b, s.engine.bringUp = some b → b.mode = .attach →
        t =
          ((s.setEngine { s.engine with bringUp := none }).setSide
            { s.side with
              buffer := some { command := 3, code := .storeUnavailable, data := [] }, handling := false }).setTc
            { s.tc with outcome := { op := .attachStore, result := .failed, reason := .store, passes := 0 } }) ∧
      ((∀ b, s.engine.bringUp = some b → b.mode ≠ .attach) → t = s))

/-- The store arbiter's choice (R83), ranks in order, while no step of START or ATTACH_STORE runs: nothing while the
store is not ATTACHED or a park has drained; the mark clear; the commit's writes; no more under a rail loss; demand
fills; the copies of SAVING; background fills; presave copies. What it chooses is started only while the Store Port is
IDLE and its hold-back flag is clear (R68, R191), and sent to its block: the mark clear to the committed header (R98),
the commit's writes to the index and the header of the next epoch (R105), the steps of START and ATTACH_STORE to the
blocks of R72 (R73, R85, R86, R125, R127). A frame that is sent takes the next number and loads the STORE timer (R68,
R70). The scans find the lowest-numbered granule at or after a number, and then from 0 (R27). -/
def Obligations.StoreArbiterChoosesByRank : Prop :=
  ∀ s : State,
    (∀ b, s.engine.bringUp = some b → s.chooseStore = some (.bringUp b.step)) ∧
    (s.engine.bringUp = none →
      (s.store.status ≠ .attached ∨ (s.tc.state = .parking ∧ s.tc.parkPhase ≠ .drain ∧ s.tc.parkPhase ≠ .none) →
        s.chooseStore = none) ∧
      (s.store.status = .attached → s.tc.state ≠ .parking ∨ s.tc.parkPhase = .drain ∨ s.tc.parkPhase = .none →
        (s.engine.markClearQueued = true → s.chooseStore = some .markClear) ∧
        (s.engine.markClearQueued = false →
          (s.tc.state = .committing →
            s.chooseStore =
              (if s.engine.commitPhase = .index then some .commitIndex
              else if s.engine.commitPhase = .header then some .commitHeader
              else none)) ∧
          (s.tc.state ≠ .committing → s.tc.railLoss = true → s.chooseStore = none) ∧
          (s.tc.state ≠ .committing → s.tc.railLoss = false →
            let demand := s.engine.fillList.find? fun g => (s.recOf g).cls.preserved
            let back := s.tracker.absentScan s.engine.fillCursor
            (∀ g, s.tc.state = .active ∨ s.tc.state = .restoring ∨ s.tc.state = .saving ∨ s.tc.state = .parking →
              demand = some g → s.chooseStore = some (.demandFill g)) ∧
            (s.tc.state ≠ .active → s.tc.state ≠ .restoring → s.tc.state ≠ .saving → s.tc.state ≠ .parking →
              s.chooseStore = none) ∧
            (demand = none →
              (s.tc.state = .saving →
                s.chooseStore =
                  (match s.tc.waitingAbort, s.tracker.dirtyScan 0, s.engine.freeSlots with
                  | none, some g, n :: _ => some (.saveCopy g n)
                  | _, _, _ => none)) ∧
              (∀ g, s.tc.state = .restoring → s.engine.grant = true → back = some g →
                (s.recOf g).cls.preserved = true → s.chooseStore = some (.backgroundFill g)) ∧
              (s.tc.state ≠ .active → s.tc.state ≠ .restoring → s.tc.state ≠ .saving → s.chooseStore = none) ∧
              (s.tc.state = .active ∨ (s.tc.state = .restoring ∧
                  ∀ g, s.engine.grant = true → back = some g → (s.recOf g).cls.preserved = false) →
                s.chooseStore =
                  (if s.engine.presaveOn = true ∧ s.engine.paceTimer.status = .expired ∧ s.region.load = none then
                    (match s.engine.freeSlots, s.tracker.dirtyScan s.engine.presaveCursor with
                    | n :: _, some g => some (.presaveCopy g n)
                    | _ :: _, none => some .presaveNone
                    | [], _ => none)
                  else none))))))) ∧
    (s.store.op ≠ none ∨ s.store.holdBack ≠ none ∨ s.chooseStore = none → s.storeChoice = s) ∧
    (∀ work, s.store.op = none → s.store.holdBack = none → s.chooseStore = some work →
      s.storeChoice = s.startWork work) ∧
    (let parity := fun (epoch : BitVec 32) => epoch.toNat % 2
    let header := fun (epoch : BitVec 32) => parity epoch
    let index := fun (epoch : BitVec 32) => 2 + parity epoch
    let nothing : Frame := { bytes := [], length := 0 }
    (∀ h, s.engine.headerRecord = some h →
      s.startWork .markClear =
        (s.setEngine { s.engine with markClearQueued := false }).sendOp .writeBlock (header s.engine.epoch)
          ({ h with mark := false } : Header).block .markClear) ∧
    s.startWork .commitIndex =
      s.sendOp .writeBlock (index (s.engine.epoch + 1)) s.engine.builtIndex .commitIndex ∧
    (∀ h, s.engine.builtHeader = some h →
      s.startWork .commitHeader = s.sendOp .writeBlock (header (s.engine.epoch + 1)) h.block .commitHeader) ∧
    (∀ b step, s.engine.bringUp = some b →
      (b.step = .identify →
        s.startWork (.bringUp step) = s.sendOp .identify 0 nothing (.bringUp .identify)) ∧
      (b.step = .header0 → s.startWork (.bringUp step) = s.sendOp .readBlock 0 nothing (.bringUp .header0)) ∧
      (b.step = .header1 → s.startWork (.bringUp step) = s.sendOp .readBlock 1 nothing (.bringUp .header1)) ∧
      (b.step = .index →
        s.startWork (.bringUp step) = s.sendOp .readBlock (index b.oldEpoch) nothing (.bringUp .index)) ∧
      (b.step = .emptyIndex →
        s.startWork (.bringUp step) =
          s.sendOp .writeBlock (index (b.oldEpoch + 1)) { bytes := [], length := 262144 } (.bringUp .emptyIndex)) ∧
      (∀ h, b.step = .emptyHeader → b.header0 = some h →
        s.startWork (.bringUp step) =
          s.sendOp .writeBlock (header (b.oldEpoch + 1)) h.block (.bringUp .emptyHeader))) ∧
    (∀ g slot,
      s.startWork (.demandFill g) = s.startFill g ∧ s.startWork (.saveCopy g slot) = s.startCopy g slot ∧
        s.startWork (.backgroundFill g) = (s.startFill g).consumeGrant g ∧
        s.startWork (.presaveCopy g slot) = s.startPresave g slot) ∧
    s.startWork .presaveNone =
      s.setEngine
        { s.engine with paceTimer := { status := .running, count := s.side.params.presavePace } }) ∧
    (∀ kind block payload purpose,
      s.sendOp kind block payload purpose =
        s.setStore
          { s.store with
            opNum := s.store.opNum + 1
            timer := { status := .running, count := s.side.params.storeTimeout }
            op := some
              { num := s.store.opNum + 1, kind := kind, block := block, payload := payload, purpose := purpose,
                disregarded := false } }) ∧
    (GTable.wf s.tracker.table = true → ∀ start : Nat,
      let inState := fun (st : GState) (g : Nat) => g < s.granules ∧ (s.recOf g).st = st
      let next := fun (st : GState) (g : Nat) =>
        inState st g ∧
          ((start ≤ g ∧ ∀ h, start ≤ h → h < g → ¬ inState st h) ∨
            (g < start ∧ ∀ h, start ≤ h ∨ h < g → ¬ inState st h))
      (∀ g, s.tracker.dirtyScan start = some g ↔ next .dirty g) ∧
      (s.tracker.dirtyScan start = none ↔ ∀ g, ¬ inState .dirty g) ∧
      (∀ g, s.tracker.absentScan start = some g ↔ next .absent g) ∧
      (s.tracker.absentScan start = none ↔ ∀ g, ¬ inState .absent g))

/-- The end of a commit (R106): the epoch, the claim of R16, the mark and the phase. Then what R109 decides: a waiting
abort returns, the COMMIT-held writes released in the state entered and then ENTRY_ABORTED reported (R110,
notes/assumptions/13.md); IMAGED_OFF for HIBERNATE (R147; the request table and the accesses that R123 does not
withdraw stay as they are: notes/assumptions/35.md, the model's choice, and 15.md) or the park for HYBRID where no
write is held; another pass while there are fewer than four; and after the fourth ENTRY_UNSETTLED is reported with the
line address of the oldest held write and the entry fails with UNSETTLED, its held writes released in the state
entered; and nothing under a rail loss (R152). -/
def Obligations.CommitEndsAndDecides : Prop :=
  ∀ s : State,
    s.commitDone.engine.epoch = s.engine.epoch + 1 ∧ s.commitDone.engine.mark = .set ∧
    s.commitDone.engine.headerRecord = s.engine.builtHeader ∧ s.commitDone.engine.commitPhase = .none ∧
    s.commitDone.tracker = s.claimCommit.tracker ∧ s.commitDone.engine.freeSlots = s.claimCommit.engine.freeSlots ∧
    s.commitDone.tc = s.tc ∧ s.commitDone.ru = s.ru ∧ s.commitDone.dram = s.dram ∧
    s.commitDone.faults = s.faults ∧
    (let running : TState := if s.anyAbsent then .restoring else .active
    let parking := s.enterState .parking
    let held := s.ru.table.find? fun e => decide (e.st = .held .commit)
    (s.tc.railLoss = true → s.commitDecision = s) ∧
    (s.tc.railLoss = false →
      (∀ k, s.tc.waitingAbort = some k →
        let back := s.entryReturned
        s.commitDecision =
          (back.setFaults (back.faults.take .entryAborted 0 (.number 0) running)).setTc
            { back.tc with outcome := s.entryRecord k.result .none } ∧
        s.commitDecision.tc.state = running ∧ s.commitDecision.tc.waitingAbort = none ∧
        s.commitDecision.tc.outcome = s.entryRecord k.result .none) ∧
      (s.tc.waitingAbort = none →
        (held = none → s.tc.origin = .hibernate →
          s.imagedFrom s.commitDecision ∧ s.commitDecision.faults = s.faults ∧
          s.commitDecision.tc.outcome =
            { op := .hibernate, result := .completed, reason := .none, passes := s.engine.passes }) ∧
        (held = none → s.tc.origin ≠ .hibernate →
          s.commitDecision =
            parking.setTc { parking.tc with parkPhase := .drain, parkStoreDown := false } ∧
          s.commitDecision.tc.state = .parking ∧ s.commitDecision.tc.parkPhase = .drain) ∧
        (∀ e, held = some e →
          (s.engine.passes < 4 →
            ∃ t : State, s.commitDecision = (t.enterState .saving).releaseAll .commit ∧
              t.engine = { s.engine with lateNoted := true, passes := s.engine.passes + 1 } ∧
              t.faults =
                (if s.engine.lateNoted then s.faults
                else s.faults.take .lateWrite (64 * e.line) (.number 0) s.tc.state) ∧
              t.tc = s.tc ∧ t.ru = s.ru ∧ t.tracker = s.tracker) ∧
          (4 ≤ s.engine.passes →
            let told := s.setFaults (s.faults.take .entryUnsettled (64 * e.line) (.number 0) s.tc.state)
            let back := (told.setEngine
              { s.engine with
                commitPhase := .none, builtIndex := { bytes := [], length := 0 }, builtHeader := none }).entryReturned
            s.commitDecision = back.setTc { back.tc with outcome := s.entryRecord .failed .unsettled } ∧
            s.commitDecision.tc.state = running ∧ s.commitDecision.tc.waitingAbort = none ∧
            s.commitDecision.tc.outcome = s.entryRecord .failed .unsettled)))))

/-! ## Transfers, bring-up and self-refresh -/

/-- How engine transfers begin, run and end. A copy, a fill from a slot and a zero fill make their claim, send their
request or take their place, and a copy and a zero fill present their first line (R12, R18, R95, R119, R120); what a
background start and a presave start consume (R93, R117, R118); and the zero-fill choice, demand before background,
while none is in flight, with no rail loss and no park past its drain (R84, R116, R118). The six rows that end a
transfer are taken while DRAM is UP and the transfer has presented its line; the arbiter then serves accesses, this
transfer's and others, in its own order until it has served the last line, and the end follows at once; otherwise
nothing changes (R64; notes/assumptions/4.md and 6.md). Where nothing else waits, the lines left of a fill and of a
zero fill are written with the block's bytes and with zeros, those of the pattern with the generator's bytes, bit 0 of
the first inverted where the inject flag was armed as the first line was presented (R167, R168,
notes/assumptions/14.md); a copy's and a fetch's are read, and a compare's are compared. No byte beyond the DRAM found
is written, in any state (notes/assumptions/25.md). The pattern is the sequence of R167 from its seed, s(k) as bit k
mod 8 of byte k / 8, and a mismatch is a bit that differs (R170). -/
def Obligations.TransfersPerformTheirLinesAndEnd : Prop :=
  (∀ (n : Nat) (seed : BitVec 23),
    let bit := fun (k : Nat) => ((patternBytes n seed).getD (k / 8) 0).getLsbD (k % 8)
    (patternBytes n seed).length = n ∧ (∀ k, k < 23 → k < 8 * n → bit k = seed.getLsbD k) ∧
      (∀ k, 23 ≤ k → k < 8 * n → bit k = (bit (k - 5) ^^ bit (k - 23))) ∧
      ∀ m, patternBytes (n + m) seed = patternBytes n seed ++ patternBytes m (patternAfter n seed)) ∧
  (∀ as bs : List Byte, as.length = bs.length →
    mismatchesOf as bs =
      (List.range (8 * as.length)).countP fun k =>
        (as.getD (k / 8) 0).getLsbD (k % 8) ^^ (bs.getD (k / 8) 0).getLsbD (k % 8)) ∧
  (∀ (s : State) (g slot : Nat),
    let sent := fun (kind : FrameKind) (block : Nat) (payload : Frame) (purpose : Purpose) =>
      { s.store with
        opNum := s.store.opNum + 1
        timer := { status := .running, count := s.side.params.storeTimeout }
        op := some
          { num := s.store.opNum + 1, kind := kind, block := block, payload := payload, purpose := purpose,
            disregarded := false } }
    let first := fun (o : Owner) =>
      { s.dram with queue := s.dram.queue ++ [{ src := .engine o, line := 4096 * g }] }
    let copied := s.claimCopyStart g slot
    let filled := s.claimFillStart g
    (s.startCopy g slot =
      (copied.setStore (sent .writeBlock (slot + 4) { bytes := [], length := 262144 } (.copy g slot))).setDram
        (first .copy)) ∧
    (s.startFill g =
      (filled.setEngine { filled.engine with fills := s.engine.fills ++ [{ granule := g, rest := none }] }).setStore
        (sent .readBlock ((s.recOf g).committed.getD 0 + 4) { bytes := [], length := 0 } (.fill g))) ∧
    (s.startZeroFill g =
      (filled.setEngine { filled.engine with zeroFill := some g }).setDram (first .zeroFill)) ∧
    (filled.recOf g = (if (s.recOf g).st = .absent then { s.recOf g with st := .filling } else s.recOf g)) ∧
    (∀ h, h ≠ g → filled.recOf h = s.recOf h) ∧
    filled.engine = { s.engine with fillList := s.engine.fillList.filter fun x => decide (x ≠ g) } ∧
    (let after := if g + 1 = s.granules then 0 else g + 1
    let pace := s.side.params.fillPace
    s.consumeGrant g =
      s.setEngine
        { s.engine with
          fillCursor := after
          fillTimer :=
            if pace = 0 then { status := .stopped, count := 0 } else { status := .running, count := pace }
          grant := decide (pace = 0) } ∧
    s.startPresave g slot =
      (s.startCopy g slot).setEngine
        { (s.startCopy g slot).engine with
          presaveCursor := after, paceTimer := { status := .running, count := s.side.params.presavePace } })) ∧
  (∀ s : State,
    let parked := s.tc.state = .parking ∧ s.tc.parkPhase ≠ .drain ∧ s.tc.parkPhase ≠ .none
    let demand :=
      if s.tc.state = .active ∨ s.tc.state = .restoring ∨ s.tc.state = .saving ∨ s.tc.state = .parking then
        s.engine.fillList.find? fun g => decide ((s.recOf g).cls.preserved = false)
      else none
    let back :=
      if s.tc.state = .restoring ∧ s.engine.grant = true then s.tracker.absentScan s.engine.fillCursor else none
    (s.engine.zeroFill ≠ none ∨ s.tc.railLoss = true ∨ parked → s.zeroChoice = s) ∧
    (s.engine.zeroFill = none → s.tc.railLoss = false → ¬ parked →
      (∀ g, demand = some g → s.zeroChoice = s.startZeroFill g) ∧
      (demand = none →
        (back = none → s.zeroChoice = s) ∧
        (∀ g, back = some g →
          s.zeroChoice =
            (if (s.recOf g).cls = .zero then (s.startZeroFill g).consumeGrant g else s))))) ∧
  ∀ s : State,
    let ends := fun (c : Instr) (o : Owner) =>
      (∀ a, s.presented o = some a → s.dram.cond = .up → (o = .pattern → s.tc.waitingAbort = none) →
        exec c s = .next (s.runTransfer o a).settle) ∧
      (s.presented o = none ∨ s.dram.cond ≠ .up → exec c s = .next s)
    (∀ g, ends (.fillEnd g) (.fill g)) ∧ ends .zeroFillEnd .zeroFill ∧ ends .patternWriteEnd .pattern ∧
    ends .compareEnd .compare ∧
    (s.region.load.isSome = true → ends .regionFetchEnd .fetch ∧ exec .startTableFetchEnd s = .next s) ∧
    (s.region.load = none → ends .startTableFetchEnd .fetch ∧ exec .regionFetchEnd s = .next s) ∧
    (∀ (stop : Access → Bool) (fuel : Nat) (a : Access), s.dram.cond = .up →
      pickAccess s.dram.queue s.dram.runCount = some a →
      State.serveUntil stop (fuel + 1) s =
        (if stop a = true then s.serve a else State.serveUntil stop fuel (s.serve a))) ∧
    (∀ (o : Owner) (line : Nat), s.dram.cond = .up → s.dram.queue = [{ src := .engine o, line := line }] →
      (o = .pattern → s.tc.waitingAbort = none) → (∀ n, o ≠ .writeBack n) → Memory.wf s.dram.mem = true →
      let k := if o = .fetch then 8 - line % 8 else 4096 - line % 4096
      let here := fun x => 64 * line ≤ x ∧ x < 64 * (line + k) ∧ x < s.dram.installed
      ∃ t : State,
        s.runTransfer o { src := .engine o, line := line } = (if o = .copy then t else (t.transferEnd o).settle) ∧
        t.dram.queue = [] ∧ t.tracker = s.tracker ∧ t.ru = s.ru ∧ t.faults = s.faults ∧ t.side = s.side ∧
        t.sent = s.sent ∧ t.wake = s.wake ∧ t.lines = s.lines ∧ t.dram.inject = s.dram.inject ∧
        (o ≠ .fetch → t.tc = s.tc ∧ t.region = s.region) ∧
        (∀ g bs, o = .fill g → s.engine.fills = [{ granule := g, rest := some bs }] → ∀ x,
          t.dram.byte x = if here x then bs.getD (x - 64 * line) 0 else s.dram.byte x) ∧
        (o = .zeroFill → ∀ x, t.dram.byte x = if here x then 0 else s.dram.byte x) ∧
        (o = .pattern → ∀ x,
          t.dram.byte x =
            (if here x then
              (patternBytes 262144 s.dram.generator).getD (x - 64 * line) 0 ^^^
                (if s.dram.invertFirst = true ∧ line % 4096 = 0 ∧ x = 64 * line then 1 else 0)
            else s.dram.byte x)) ∧
        (o = .copy ∨ o = .compare ∨ o = .fetch → s.sameBytes t) ∧
        (o = .compare →
          t.dram.mismatches =
            s.dram.mismatches +
              mismatchesOf (s.dram.readLines line k) (patternBytes 262144 s.dram.generator)) ∧
        (∀ op, o = .copy → s.store.op = some op →
          t.store.op = some
            { op with payload := { op.payload with bytes := op.payload.bytes ++ s.dram.readLines line k } }) ∧
        (∀ l, o = .fetch → s.region.load = some l →
          t.tc = s.tc ∧ t.region =
            { s.region with load := some { l with fetched := l.fetched ++ s.dram.readLines line k } }) ∧
        (∀ r, o = .fetch → s.region.load = none → s.tc.fetching = some r →
          t.region = s.region ∧ t.tc =
            { s.tc with fetching := some { r with fetched := r.fetched ++ s.dram.readLines line k } }))

/-- What the end of a transfer does: a fill's and a zero fill's granule becomes CLEAN or VOID, and what waited for it
is released (R19, R122); the pattern's end begins self-refresh entry, or returns a park with an abort waiting (R141,
R142); the compare's end records the count and passes or fails the check, a failure by the marking of R21 with the
lists, the mark and E kept (R123, R170 to R172), and ACTIVE or RESTORING is entered with its timers and lines (R146,
R172); a fetched table is checked, its open epoch abandoned, its file put in
force with every owed flag clear and the table reloaded, or it is refused, and then the requests held for it are
released and its reply is given (R37, R38, R45); or START FRESH is ACCEPTED with it or refused (R40), with WRONG_STATE
where the part has left UNCONFIGURED meanwhile (the model's choice, notes/assumptions/8.md). -/
def Obligations.EndsOfTransfersActOnTheirOwners : Prop :=
  ∀ s : State,
    let filled := fun (t : State) (g : Nat) =>
      (t.recOf g =
        if (s.recOf g).st = .filling then
          { s.recOf g with st := if (s.recOf g).cls.preserved then .clean else .void }
        else s.recOf g) ∧
      (∀ h, h ≠ g → t.recOf h = s.recOf h) ∧ t.dram = s.dram ∧ t.ru = s.ru ∧ t.tc = s.tc
    (∀ g, ∃ t : State, s.transferEnd (.fill g) = t.leftAbsent [g] ∧ filled t g ∧
      t.engine = { s.engine with fills := s.engine.fills.filter fun x => decide (x.granule ≠ g) }) ∧
    (∀ g, s.engine.zeroFill = some g →
      ∃ t : State, s.transferEnd .zeroFill = t.leftAbsent [g] ∧ filled t g ∧
        t.engine = { s.engine with zeroFill := none }) ∧
    (s.tc.waitingAbort = none →
      s.transferEnd .pattern =
        (s.setTc { s.tc with parkPhase := .srEntry }).setDram
          { s.dram with cond := .enteringSr, checkPhase := .idle }) ∧
    (∀ k, s.tc.waitingAbort = some k →
      s.transferEnd .pattern = (s.setDram { s.dram with checkPhase := .idle }).parkReturn k) ∧
    (let count := if s.dram.mismatches < 65535 then s.dram.mismatches else 65535
    let noted := s.setDram { s.dram with lastErrors := count, checkPhase := .idle }
    let ended := fun (t : State) (st : TState) (reason : OutcomeReason) =>
      let entered := t.enterState st
      entered.setTc
        { entered.tc with outcome := { op := .exitSleep, result := .completed, reason := reason, passes := 0 } }
    (count ≤ s.side.params.checkThreshold →
      s.transferEnd .compare = ended noted (if s.anyAbsent then .restoring else .active) .none ∧
      (s.transferEnd .compare).tc.state = (if s.anyAbsent then .restoring else .active) ∧
      (s.transferEnd .compare).dram = noted.dram ∧ (s.transferEnd .compare).tracker = s.tracker ∧
      (s.transferEnd .compare).faults = s.faults ∧
      (s.transferEnd .compare).tc.outcome =
        { op := .exitSleep, result := .completed, reason := .none, passes := 0 }) ∧
    (s.side.params.checkThreshold < count →
      let lost := noted.markDramLoss
      s.transferEnd .compare =
        ended
          (lost.setFaults (s.faults.take .retentionLost 0
            (.number (lost.tracker.poisonTotal - s.tracker.poisonTotal)) s.tc.state))
          (if lost.anyAbsent then .restoring else .active) .retention ∧
      lost.engine = { s.claimDramLoss.engine with fills := [], zeroFill := none } ∧
      lost.dram =
        { noted.dram with
          queue := s.dram.queue.filter fun a =>
            match a.src with
            | .engine .copy | .engine (.fill _) | .engine .zeroFill => false
            | _ => true } ∧
      lost.store =
        { s.store with
          op := s.store.op.map fun o =>
            match o.purpose with
            | .copy _ _ | .fill _ => { o with disregarded := true }
            | _ => o } ∧
      lost.tc = s.tc ∧ lost.wake = s.wake ∧ lost.ru = s.ru ∧ lost.region = s.region ∧ lost.side = s.side ∧
      (s.transferEnd .compare).tc.state = (if lost.anyAbsent then .restoring else .active) ∧
      (s.transferEnd .compare).dram.lastErrors = count ∧ (s.transferEnd .compare).tracker = lost.tracker ∧
      lost.tracker = s.claimDramLoss.tracker ∧
      (s.transferEnd .compare).engine.freeSlots = s.claimDramLoss.engine.freeSlots ∧
      (s.transferEnd .compare).engine.retired = s.engine.retired ∧
      (s.transferEnd .compare).engine.fillList = s.engine.fillList ∧
      (s.transferEnd .compare).engine.fillCursor = s.engine.fillCursor ∧
      (s.transferEnd .compare).engine.mark = s.engine.mark ∧ (s.transferEnd .compare).engine.epoch = s.engine.epoch ∧
      (s.transferEnd .compare).engine.fills = [] ∧ (s.transferEnd .compare).engine.zeroFill = none ∧
      (s.transferEnd .compare).faults =
        s.faults.take .retentionLost 0 (.number (lost.tracker.poisonTotal - s.tracker.poisonTotal)) s.tc.state ∧
      (s.transferEnd .compare).tc.outcome =
        { op := .exitSleep, result := .completed, reason := .retention, passes := 0 })) ∧
    (∀ l, s.region.load = some l →
      let file := State.fileOf l.addr l.fetched
      let ended := fun (t : State) (code : ReplyCode) =>
        let released := (t.setRegion { t.region with load := none }).releaseAll .regionLoad
        released.setSide
          { released.side with buffer := some { command := 2, code := code, data := [] }, handling := false }
      (s.tablePasses file = true →
        s.transferEnd .fetch =
          ended ((s.claimAbandon.setRegion { s.region with file := file }).claimReload) .done) ∧
      (s.tablePasses file = false → s.transferEnd .fetch = ended s .badArgument)) ∧
    (∀ (addr : Nat) (bs : List Byte),
      let file := State.fileOf addr bs
      file.tableAddr = some addr ∧ file.owed = 0 ∧
        ∀ n : Fin 32, file.descs[n] =
          { written := (byteAt bs (16 * n.val)).getLsbD 0
            valid := (byteAt bs (16 * n.val + 1)).getLsbD 0
            cls := byteAt bs (16 * n.val + 2)
            unit := byteAt bs (16 * n.val + 3)
            base := numberAt bs (16 * n.val + 4) 2
            extent := numberAt bs (16 * n.val + 6) 2 }) ∧
    (∀ r, s.region.load = none → s.tc.fetching = some r →
      let file := State.fileOf r.tableAddr r.fetched
      let refused := fun (code : ReplyCode) =>
        (s.setTc { s.tc with fetching := none }).setSide
          { s.side with buffer := some { command := 1, code := code, data := [] }, handling := false }
      (s.tc.state ≠ .unconfigured → s.transferEnd .fetch = refused .wrongState) ∧
      (s.tc.state = .unconfigured → descriptorsOk (1024 * r.units) file.descs = true →
        ∃ t : State, s.transferEnd .fetch = (t.setRegion { s.region with file := file }).claimReload ∧
          t.tc = { s.tc with origin := .start, fetching := none, start := some { r with phase := .draining } } ∧
          t.tracker = { State.reset.tracker with units := r.units } ∧
          t.engine = { s.engine with presaveCursor := 0, fillCursor := 0 } ∧
          t.side =
            { s.side with buffer := some { command := 1, code := .accepted, data := [] }, handling := false } ∧
          t.dram = s.dram ∧ t.ru = s.ru) ∧
      (s.tc.state = .unconfigured → descriptorsOk (1024 * r.units) file.descs = false →
        s.transferEnd .fetch = refused .badArgument))

/-- DRAM bring-up, self-refresh entry and self-refresh exit end, each in its own condition (R135, R130, R141, R142,
R146), and SLEEPING is entered with its timer, its wake lines and a deferred request (R145, R158, R163); elsewhere the
rows change nothing (notes/assumptions/4.md). The DRAM that a bring-up finds and the bits lost in self-refresh, of any
number of addresses, are what the rows name (notes/assumptions/11.md). A bring-up leaves nothing written and is counted
(notes/assumptions/1.md); a park in which the store went DOWN records STORE (R140, by a flag of the model:
notes/assumptions/29.md). -/
def Obligations.BringUpAndSelfRefreshEnd : Prop :=
  ∀ (s : State) (installed : Nat) (decay : List Host.Cell),
    let up := s.setDram
      { s.dram with
        cond := .up, runCount := 0, mem := [], bringUps := s.dram.bringUps + 1, installed := installed }
    let running : TState := if s.anyAbsent then .restoring else .active
    (s.dram.cond ≠ .bringingUp → exec (.dramBringupEnd installed) s = .next s) ∧
    (s.dram.cond = .bringingUp → s.tc.state ≠ .reviving →
      exec (.dramBringupEnd installed) s = .next up.settle) ∧
    (s.dram.cond = .bringingUp → s.tc.state = .reviving →
      exec (.dramBringupEnd installed) s =
        .next ((up.enterState running).setTc
          { (up.enterState running).tc with
            outcome := { op := .exitImaged, result := .completed, reason := .none, passes := 0 } }).settle) ∧
    (s.dram.cond ≠ .enteringSr → exec .selfRefreshEntryEnd s = .next s) ∧
    (s.dram.cond = .enteringSr → s.tc.parkPhase = .undo →
      exec .selfRefreshEntryEnd s = .next (s.setDram { s.dram with cond := .exitingSr }).settle) ∧
    (s.dram.cond = .enteringSr → s.tc.parkPhase ≠ .undo →
      let parked := (s.setDram { s.dram with cond := .selfRefresh }).setTc
        { s.tc with parkPhase := .none, parkStoreDown := false }
      let entered := parked.enterState .sleeping
      ∃ t : State, exec .selfRefreshEntryEnd s = .next t.settle ∧
        t = entered.setTc
          { entered.tc with
            outcome :=
              { op := s.tc.origin, result := .completed, reason := if s.tc.parkStoreDown then .store else .none,
                passes := s.passesOf s.tc.origin } } ∧ t.tc.state = .sleeping ∧
        t.tc.parkPhase = .none ∧ t.dram = { s.dram with cond := .selfRefresh } ∧ t.tracker = s.tracker ∧
        t.faults = s.faults ∧ t.tc.origin = s.tc.origin ∧
        t.tc.outcome =
          { op := s.tc.origin, result := .completed, reason := if s.tc.parkStoreDown then .store else .none,
            passes := s.passesOf s.tc.origin }) ∧
    (s.dram.cond ≠ .exitingSr → exec (.selfRefreshExitEnd decay) s = .next s) ∧
    (∀ k, s.dram.cond = .exitingSr → s.tc.state = .parking → s.tc.waitingAbort = some k →
      exec (.selfRefreshExitEnd decay) s =
        .next ((s.setDram { s.dram.decay decay with cond := .up }).parkReturn k).settle) ∧
    (s.dram.cond = .exitingSr → s.tc.state ≠ .parking →
      exec (.selfRefreshExitEnd decay) s =
        .next (s.setDram
          { s.dram.decay decay with
            cond := .up
            checkPhase := .comparing
            generator := BitVec.ofNat 23 (s.dram.parkCount + 1)
            mismatches := 0
            queue := s.dram.queue ++
              [{ src := .engine .compare, line := 4096 * (s.granules - 1) }] }).settle) ∧
    (∀ a m, Memory.wf s.dram.mem = true → ∀ x,
      (s.dram.decay [(a, m)]).byte x =
        if x = a ∧ a < s.dram.installed then s.dram.byte x ^^^ m else s.dram.byte x) ∧
    (Memory.wf s.dram.mem = true →
      Memory.wf (s.dram.decay decay).mem = true ∧
      s.dram.decay decay = { s.dram with mem := (s.dram.decay decay).mem } ∧
      ∀ x, (s.dram.decay decay).byte x =
        if x < s.dram.installed then
          (decay.filter fun c => decide (c.1 = x)).foldl (fun b c => b ^^^ c.2) (s.dram.byte x)
        else s.dram.byte x)
end

