-- ==== Sys2Proof/Laws/Memory.lean ====
section
/-! SUPPORT. DRAM as a list of cells: every operation keeps the canonical form, and what a read of one byte gives
after each of them. -/

namespace Sys2Proof.Machine

/-! ## Lists keyed by number -/

theorem lookup_filter_key {β : Type} (p : Nat → Bool) (m : List (Nat × β)) (a : Nat) :
    (m.filter fun c => p c.1).lookup a = if p a then m.lookup a else none := by
  induction m with
  | nil => simp
  | cons c m ih =>
    obtain ⟨k, v⟩ := c
    by_cases hk : a = k
    · subst hk
      by_cases hp : p a <;> simp [hp, ih]
    · have hb : (a == k) = false := beq_false_of_ne hk
      by_cases hp : p k <;> simp [hp, ih, List.lookup_cons, hb]

theorem lookup_append_or {β : Type} (l m : List (Nat × β)) (a : Nat) :
    (l ++ m).lookup a = (l.lookup a).or (m.lookup a) := by
  induction l with
  | nil => simp
  | cons c l ih =>
    obtain ⟨k, v⟩ := c
    by_cases hk : a = k
    · subst hk; simp
    · have hb : (a == k) = false := beq_false_of_ne hk
      simp [List.lookup_cons, hb, ih]

/-! ## The canonical form -/

theorem Memory.wf_iff (m : Memory) : Memory.wf m = true ↔ m.Pairwise fun x y => x.1 < y.1 := by
  simp [Memory.wf]

theorem Memory.wf_nil : Memory.wf [] = true := by simp [Memory.wf]

/-- The cells of a run with its index made explicit. -/
def Memory.runFrom (m : Memory) (a k : Nat) (bs : List (Option Byte)) : Memory :=
  (bs.zipIdx k).filterMap fun (b, i) =>
    match b with
    | some v => some (a + i, v)
    | none => (Memory.get m (a + i)).map fun v => (a + i, v)

theorem Memory.runCells_eq (m : Memory) (a : Nat) (bs : List (Option Byte)) :
    Memory.runCells m a bs = Memory.runFrom m a 0 bs := rfl

theorem Memory.runFrom_keys (m : Memory) (a : Nat) (bs : List (Option Byte)) :
    ∀ k, ∀ c ∈ Memory.runFrom m a k bs, a + k ≤ c.1 ∧ c.1 < a + k + bs.length := by
  induction bs with
  | nil => intro k c hc; simp [Memory.runFrom] at hc
  | cons b bs ih =>
    intro k c hc
    have hrest : c ∈ Memory.runFrom m a (k + 1) bs → a + k ≤ c.1 ∧ c.1 < a + k + (b :: bs).length := by
      intro h
      have := ih (k + 1) c h
      simp only [List.length_cons]; omega
    cases b with
    | some v =>
      simp only [Memory.runFrom, List.zipIdx_cons, List.filterMap_cons, List.mem_cons] at hc
      rcases hc with rfl | hc
      · simp
      · exact hrest hc
    | none =>
      simp only [Memory.runFrom, List.zipIdx_cons, List.filterMap_cons] at hc
      cases hg : Memory.get m (a + k) with
      | none => rw [hg] at hc; exact hrest hc
      | some v =>
        rw [hg] at hc
        simp only [Option.map_some, List.mem_cons] at hc
        rcases hc with rfl | hc
        · simp
        · exact hrest hc

theorem Memory.runFrom_pairwise (m : Memory) (a : Nat) (bs : List (Option Byte)) :
    ∀ k, (Memory.runFrom m a k bs).Pairwise fun x y => x.1 < y.1 := by
  induction bs with
  | nil => intro k; simp [Memory.runFrom]
  | cons b bs ih =>
    intro k
    have hrest := ih (k + 1)
    have hk := Memory.runFrom_keys m a bs (k + 1)
    have hcons : ∀ v, ((a + k, v) :: Memory.runFrom m a (k + 1) bs).Pairwise fun x y : Host.Cell => x.1 < y.1 := by
      intro v
      refine List.pairwise_cons.mpr ⟨fun c hc => ?_, hrest⟩
      have := hk c hc
      simp only; omega
    cases b with
    | some v => simpa [Memory.runFrom, List.zipIdx_cons] using hcons v
    | none =>
      cases hg : Memory.get m (a + k) with
      | none => simpa [Memory.runFrom, List.zipIdx_cons, hg] using hrest
      | some v => simpa [Memory.runFrom, List.zipIdx_cons, hg] using hcons v

theorem Memory.get_runFrom (m : Memory) (a : Nat) (bs : List (Option Byte)) (x : Nat) :
    ∀ k, Memory.get (Memory.runFrom m a k bs) x =
      if a + k ≤ x ∧ x < a + k + bs.length then
        (match bs.getD (x - (a + k)) none with
        | some v => some v
        | none => Memory.get m x)
      else none := by
  induction bs with
  | nil => intro k; have : ¬(a + k ≤ x ∧ x < a + k) := by omega
           simp [Memory.runFrom, Memory.get, this]
  | cons b bs ih =>
    intro k
    have ihk := ih (k + 1)
    by_cases hx : x = a + k
    · subst hx
      cases b with
      | some v => simp [Memory.runFrom, List.zipIdx_cons, Memory.get]
      | none =>
        have hout : ¬(a + (k + 1) ≤ a + k ∧ a + k < a + (k + 1) + bs.length) := by omega
        rw [if_neg hout] at ihk
        cases hg : Memory.get m (a + k) with
        | none =>
          have : Memory.runFrom m a k (none :: bs) = Memory.runFrom m a (k + 1) bs := by
            simp [Memory.runFrom, List.zipIdx_cons, hg]
          rw [this, ihk]; simp
        | some v =>
          have : Memory.runFrom m a k (none :: bs) = (a + k, v) :: Memory.runFrom m a (k + 1) bs := by
            simp [Memory.runFrom, List.zipIdx_cons, hg]
          rw [this]; simp [Memory.get]
    · have hskip : ∀ v, Memory.get ((a + k, v) :: Memory.runFrom m a (k + 1) bs) x =
          Memory.get (Memory.runFrom m a (k + 1) bs) x := by
        intro v
        have hb : (x == a + k) = false := beq_false_of_ne hx
        simp [Memory.get, List.lookup_cons, hb]
      have hcases : Memory.get (Memory.runFrom m a k (b :: bs)) x =
          Memory.get (Memory.runFrom m a (k + 1) bs) x := by
        cases b with
        | some v => simpa [Memory.runFrom, List.zipIdx_cons] using hskip v
        | none =>
          cases hg : Memory.get m (a + k) with
          | none => simp [Memory.runFrom, List.zipIdx_cons, hg]
          | some v => simpa [Memory.runFrom, List.zipIdx_cons, hg] using hskip v
      rw [hcases, ihk]
      by_cases hin : a + (k + 1) ≤ x ∧ x < a + (k + 1) + bs.length
      · have hin' : a + k ≤ x ∧ x < a + k + (b :: bs).length := by simp only [List.length_cons]; omega
        have hsub : x - (a + k) = x - (a + (k + 1)) + 1 := by omega
        rw [if_pos hin, if_pos hin', hsub, List.getD_cons_succ]
      · have hin' : ¬(a + k ≤ x ∧ x < a + k + (b :: bs).length) := by simp only [List.length_cons]; omega
        rw [if_neg hin, if_neg hin']

/-- A write keeps the canonical form. -/
theorem Memory.wf_write (m : Memory) (a : Nat) (bs : List (Option Byte)) (h : Memory.wf m = true) :
    Memory.wf (Memory.write m a bs) = true := by
  rw [Memory.wf_iff] at h ⊢
  have hk := Memory.runFrom_keys (m.filter fun c => decide (a ≤ c.1) && decide (c.1 < a + bs.length)) a bs 0
  rw [Memory.write, Memory.runCells_eq]
  refine List.pairwise_append.mpr ⟨List.pairwise_append.mpr ⟨h.filter _, Memory.runFrom_pairwise _ _ _ _, ?_⟩,
    h.filter _, ?_⟩
  · intro x hx y hy
    have hx' := of_decide_eq_true (List.mem_filter.mp hx).2
    have := hk y hy
    omega
  · intro x hx y hy
    have hy' := of_decide_eq_true (List.mem_filter.mp hy).2
    rcases List.mem_append.mp hx with hx | hx
    · have hx' := of_decide_eq_true (List.mem_filter.mp hx).2
      omega
    · have := hk x hx
      omega

/-- What a byte reads as after a write: an enabled byte of the run as written, and every other byte as before. -/
theorem Memory.get_write (m : Memory) (a : Nat) (bs : List (Option Byte)) (x : Nat) :
    Memory.get (Memory.write m a bs) x =
      if a ≤ x ∧ x < a + bs.length then
        (match bs.getD (x - a) none with
        | some v => some v
        | none => Memory.get m x)
      else Memory.get m x := by
  have hlow : Memory.get (m.filter fun c => decide (c.1 < a)) x = if x < a then Memory.get m x else none := by
    have := lookup_filter_key (fun k => decide (k < a)) m x
    simpa [Memory.get] using this
  have hhigh : Memory.get (m.filter fun c => decide (a + bs.length ≤ c.1)) x =
      if a + bs.length ≤ x then Memory.get m x else none := by
    have := lookup_filter_key (fun k => decide (a + bs.length ≤ k)) m x
    simpa [Memory.get] using this
  have hmid : Memory.get (m.filter fun c => decide (a ≤ c.1) && decide (c.1 < a + bs.length)) x =
      if a ≤ x ∧ x < a + bs.length then Memory.get m x else none := by
    have := lookup_filter_key (fun k => decide (a ≤ k) && decide (k < a + bs.length)) m x
    simpa [Memory.get] using this
  have hrun := Memory.get_runFrom (m.filter fun c => decide (a ≤ c.1) && decide (c.1 < a + bs.length)) a bs x 0
  have happ : Memory.get (Memory.write m a bs) x =
      ((Memory.get (m.filter fun c => decide (c.1 < a)) x).or
        (Memory.get (Memory.runFrom (m.filter fun c => decide (a ≤ c.1) && decide (c.1 < a + bs.length)) a 0 bs) x)).or
        (Memory.get (m.filter fun c => decide (a + bs.length ≤ c.1)) x) := by
    simp only [Memory.get, Memory.write, Memory.runCells_eq, lookup_append_or]
  rw [happ, hlow, hhigh, hrun, hmid]
  simp only [Nat.add_zero]
  by_cases h1 : x < a
  · have : ¬(a ≤ x ∧ x < a + bs.length) := by omega
    have h3 : ¬(a + bs.length ≤ x) := by omega
    simp [h1, this, h3]
  · by_cases h2 : x < a + bs.length
    · have hin : a ≤ x ∧ x < a + bs.length := by omega
      have h3 : ¬(a + bs.length ≤ x) := by omega
      rw [if_neg h1, if_pos hin, if_pos hin, if_pos hin, if_neg h3]
      cases bs.getD (x - a) none <;> simp
    · have hin : ¬(a ≤ x ∧ x < a + bs.length) := by omega
      have h3 : a + bs.length ≤ x := by omega
      simp [h1, hin, h3]

/-! ## DRAM -/

/-- A write of a run keeps the canonical form. -/
theorem DramPort.wf_writeRun (d : DramPort) (line : Nat) (bs : List (Option Byte)) (h : Memory.wf d.mem = true) :
    Memory.wf (d.writeRun line bs).mem = true := Memory.wf_write _ _ _ h

/-- A loss of bits keeps the canonical form. -/
theorem DramPort.wf_decay (flips : List Host.Cell) :
    ∀ d : DramPort, Memory.wf d.mem = true → Memory.wf (d.decay flips).mem = true := by
  induction flips with
  | nil => intro d h; exact h
  | cons c flips ih =>
    intro d h
    rw [DramPort.decay, List.foldl_cons, ← DramPort.decay]
    apply ih
    split
    · exact h
    · exact Memory.wf_write _ _ _ h

/-- One loss of bits changes the byte that it names, where there is DRAM, and no other. -/
theorem DramPort.byte_decay_one (d : DramPort) (c : Host.Cell) (x : Nat) :
    (d.decay [c]).byte x = if x = c.1 ∧ c.1 < d.installed then d.byte x ^^^ c.2 else d.byte x := by
  unfold DramPort.decay
  simp only [List.foldl_cons, List.foldl_nil]
  by_cases hc : d.installed ≤ c.1
  · rw [if_pos hc, if_neg (by omega)]
  · rw [if_neg hc]
    have hg : ∀ v, Memory.get (Memory.write d.mem c.1 [some v]) x = if x = c.1 then some v else Memory.get d.mem x := by
      intro v
      rw [Memory.get_write]
      by_cases hx : x = c.1
      · subst hx; simp
      · rw [if_neg (by rw [List.length_singleton]; omega), if_neg hx]
    show (if d.installed ≤ x then 0
      else (Memory.get (Memory.write d.mem c.1 [some (d.byte c.1 ^^^ c.2)]) x).getD _) = _
    rw [hg]
    by_cases hx : x = c.1
    · subst hx
      simp [DramPort.byte, hc]
    · simp [hx, DramPort.byte]

/-- A write of a run changes nothing outside the run. -/
theorem DramPort.byte_writeRun_outside (d : DramPort) (line : Nat) (bs : List (Option Byte)) (x : Nat)
    (h : x < Config.lineBytes * line ∨ Config.lineBytes * line + bs.length ≤ x) :
    (d.writeRun line bs).byte x = d.byte x := by
  have hlen : (bs.take (d.installed - Config.lineBytes * line)).length ≤ bs.length := List.length_take_le' _ _
  have hout : ¬(Config.lineBytes * line ≤ x ∧
      x < Config.lineBytes * line + (bs.take (d.installed - Config.lineBytes * line)).length) := by omega
  have hget : Memory.get (d.writeRun line bs).mem x = Memory.get d.mem x := by
    rw [DramPort.writeRun, Memory.get_write, if_neg hout]
  unfold DramPort.byte
  rw [hget]
  rfl

/-- What an enabled byte of a run reads as after its write, where there is DRAM. -/
theorem DramPort.byte_writeRun_inside (d : DramPort) (line i : Nat) (bs : List (Option Byte)) (v : Byte)
    (hi : i < bs.length) (hv : bs[i] = some v) (hd : Config.lineBytes * line + i < d.installed) :
    (d.writeRun line bs).byte (Config.lineBytes * line + i) = v := by
  have hin : Config.lineBytes * line ≤ Config.lineBytes * line + i ∧
      Config.lineBytes * line + i <
        Config.lineBytes * line + (bs.take (d.installed - Config.lineBytes * line)).length := by
    rw [List.length_take]; omega
  have hnot : ¬(d.installed ≤ Config.lineBytes * line + i) := by omega
  have hread : (bs.take (d.installed - Config.lineBytes * line)).getD i none = some v := by
    rw [List.getD_eq_getElem?_getD, List.getElem?_take, if_pos (by omega), List.getElem?_eq_getElem hi, hv]
    rfl
  have hget : Memory.get (d.writeRun line bs).mem (Config.lineBytes * line + i) = some v := by
    rw [DramPort.writeRun, Memory.get_write, if_pos hin, Nat.add_sub_cancel_left, hread]
  have hinst : (d.writeRun line bs).installed = d.installed := rfl
  unfold DramPort.byte
  rw [hget, hinst, if_neg hnot]
  rfl

/-! ## Reads of runs -/

theorem Memory.readRun_eq (n : Nat) : ∀ (a : Nat) (m : Memory),
    (m.Pairwise fun x y => x.1 < y.1) → (∀ c ∈ m, a ≤ c.1) →
      Memory.readRun n a m = (List.range n).map fun i => Memory.get m (a + i) := by
  induction n with
  | zero => intro a m _ _; simp [Memory.readRun]
  | succ n ih =>
    intro a m hp hge
    rw [List.range_succ_eq_map, List.map_cons, List.map_map]
    cases m with
    | nil =>
      have := ih (a + 1) [] (by simp) (by simp)
      simp [Memory.readRun, Memory.get, this, Function.comp_def]
    | cons c m =>
      obtain ⟨k, b⟩ := c
      have hp' := List.pairwise_cons.mp hp
      have hk : a ≤ k := hge (k, b) (by simp)
      have hmap : ∀ l : Memory, (List.range n).map ((fun i => Memory.get l (a + i)) ∘ Nat.succ) =
          (List.range n).map fun i => Memory.get l (a + 1 + i) := by
        intro l
        apply List.map_congr_left
        intro i _
        simp only [Function.comp_apply, Nat.succ_eq_add_one]
        congr 1; omega
      rw [hmap]
      by_cases hka : k = a
      · subst hka
        have hge' : ∀ c ∈ m, k + 1 ≤ c.1 := fun c hc => hp'.1 c hc
        rw [Memory.readRun, if_pos rfl, ih (k + 1) m hp'.2 hge']
        have hhead : Memory.get ((k, b) :: m) (k + 0) = some b := by simp [Memory.get]
        have htail : ∀ i ∈ List.range n, Memory.get m (k + 1 + i) = Memory.get ((k, b) :: m) (k + 1 + i) := by
          intro i _
          have hb : (k + 1 + i == k) = false := beq_false_of_ne (by omega)
          simp [Memory.get, List.lookup_cons, hb]
        rw [hhead, List.map_congr_left htail]
      · have hge' : ∀ c ∈ ((k, b) :: m : Memory), a + 1 ≤ c.1 := by
          intro c hc
          rcases List.mem_cons.mp hc with rfl | hc
          · simp only; omega
          · have := hp'.1 c hc; simp only at this; omega
        rw [Memory.readRun, if_neg hka, ih (a + 1) _ hp hge']
        have hhead : Memory.get ((k, b) :: m) (a + 0) = none := by
          rw [Memory.get, List.lookup_eq_none_iff]
          intro c hc
          have := hge' c hc
          simp only [Nat.add_zero, bne_iff_ne, ne_eq]; omega
        rw [hhead]

theorem Memory.readFrom_eq (m : Memory) (a n : Nat) (h : Memory.wf m = true) :
    Memory.readFrom m a n = (List.range n).map fun i => Memory.get m (a + i) := by
  rw [Memory.wf_iff] at h
  have hdrop : ∀ l : Memory, (l.Pairwise fun x y => x.1 < y.1) →
      (∀ c ∈ l.dropWhile fun c => decide (c.1 < a), a ≤ c.1) ∧
      ∀ x, a ≤ x → Memory.get (l.dropWhile fun c => decide (c.1 < a)) x = Memory.get l x := by
    intro l hl
    induction l with
    | nil => simp
    | cons c l ih =>
      obtain ⟨k, b⟩ := c
      have hl' := List.pairwise_cons.mp hl
      by_cases hk : k < a
      · rw [List.dropWhile_cons_of_pos (by simpa using hk)]
        refine ⟨(ih hl'.2).1, fun x hx => ?_⟩
        have hb : (x == k) = false := beq_false_of_ne (by omega)
        rw [(ih hl'.2).2 x hx]
        simp [Memory.get, List.lookup_cons, hb]
      · rw [List.dropWhile_cons_of_neg (by simpa using hk)]
        refine ⟨fun c hc => ?_, fun x _ => rfl⟩
        rcases List.mem_cons.mp hc with rfl | hc
        · simp only; omega
        · have := hl'.1 c hc; simp only at this; omega
  have hd := hdrop m h
  rw [Memory.readFrom, Memory.readRun_eq n a _ (h.sublist (List.dropWhile_sublist _)) hd.1]
  exact List.map_congr_left fun i _ => hd.2 (a + i) (by omega)

/-- Reads of lines return the bytes that the DIMMs answer. -/
theorem DramPort.readLines_eq (d : DramPort) (line n : Nat) (h : Memory.wf d.mem = true) :
    d.readLines line n =
      (List.range (Config.lineBytes * n)).map fun i => d.byte (Config.lineBytes * line + i) := by
  have hz : ∀ (f : Nat → Option Byte) (g : Option Byte → Nat → Byte) (k n : Nat),
      (((List.range' k n).map f).zipIdx k).map (fun x => g x.1 x.2) = (List.range' k n).map fun i => g (f i) i := by
    intro f g k n
    induction n generalizing k with
    | zero => simp
    | succ n ih => simp [List.range'_succ, List.zipIdx_cons, ih]
  simp only [DramPort.readLines, Memory.readFrom_eq d.mem _ _ h, List.range_eq_range']
  exact hz (fun i => Memory.get d.mem (Config.lineBytes * line + i))
    (fun b i => if d.installed ≤ Config.lineBytes * line + i then 0
      else b.getD (Config.dramFree d.bringUps (Config.lineBytes * line + i))) 0 _

end Sys2Proof.Machine
end

