-- ==== Sys2Proof/Laws/Tables.lean ====
section
/-! SUPPORT. The granule table and the tracker: the canonical form after each operation, what a record reads as after
each of them, and the directory (R26). -/

namespace Sys2Proof.Machine

/-! ## The canonical form -/

theorem GTable.wf_iff (t : GTable) :
    GTable.wf t = true ↔ (t.Pairwise fun x y => x.1 < y.1) ∧ ∀ x ∈ t, x.2 ≠ GRec.blank := by
  simp [GTable.wf]

theorem GTable.wf_nil : GTable.wf [] = true := by simp [GTable.wf]

theorem GTable.mem_cell {g : Nat} {r : GRec} {x : Nat × GRec} (h : x ∈ GTable.cell g r) :
    x = (g, r) ∧ r ≠ GRec.blank := by
  unfold GTable.cell at h
  split at h
  · simp at h
  · rename_i hr
    exact ⟨by simpa using h, hr⟩

theorem GTable.cell_pairwise (g : Nat) (r : GRec) : (GTable.cell g r).Pairwise fun x y => x.1 < y.1 := by
  unfold GTable.cell
  split <;> simp

/-- Setting one record keeps the canonical form. -/
theorem GTable.wf_put (t : GTable) (g : Nat) (r : GRec) (h : GTable.wf t = true) :
    GTable.wf (GTable.put t g r) = true := by
  rw [GTable.wf_iff] at h ⊢
  refine ⟨?_, ?_⟩
  · refine List.pairwise_append.mpr ⟨List.pairwise_append.mpr ⟨h.1.filter _, GTable.cell_pairwise g r, ?_⟩,
      h.1.filter _, ?_⟩
    · intro x hx y hy
      have := of_decide_eq_true (List.mem_filter.mp hx).2
      rw [(GTable.mem_cell hy).1]
      exact this
    · intro x hx y hy
      have hy' := of_decide_eq_true (List.mem_filter.mp hy).2
      rcases List.mem_append.mp hx with hx | hx
      · have := of_decide_eq_true (List.mem_filter.mp hx).2; omega
      · rw [(GTable.mem_cell hx).1]; exact hy'
  · intro x hx
    rcases List.mem_append.mp hx with hx | hx
    · rcases List.mem_append.mp hx with hx | hx
      · exact h.2 x (List.mem_filter.mp hx).1
      · obtain ⟨rfl, hr⟩ := GTable.mem_cell hx; exact hr
    · exact h.2 x (List.mem_filter.mp hx).1

/-- A listing of cells under rising numbers is canonical. -/
theorem GTable.wf_flatMap_cell {α : Type} (key : α → Nat) (val : α → GRec) (l : List α)
    (h : l.Pairwise fun x y => key x < key y) :
    GTable.wf (l.flatMap fun x => GTable.cell (key x) (val x)) = true := by
  rw [GTable.wf_iff]
  refine ⟨?_, ?_⟩
  · rw [List.pairwise_flatMap]
    refine ⟨fun a _ => GTable.cell_pairwise _ _, h.imp fun {a b} hab x hx y hy => ?_⟩
    rw [(GTable.mem_cell hx).1, (GTable.mem_cell hy).1]
    exact hab
  · intro x hx
    obtain ⟨a, _, ha⟩ := List.mem_flatMap.mp hx
    obtain ⟨rfl, hr⟩ := GTable.mem_cell ha
    exact hr

/-- A claim on every record keeps the canonical form. -/
theorem GTable.wf_mapRecs (t : GTable) (f : Nat → GRec → GRec) (h : GTable.wf t = true) :
    GTable.wf (GTable.mapRecs t f) = true :=
  GTable.wf_flatMap_cell Prod.fst (fun x => f x.1 x.2) t ((GTable.wf_iff t).mp h).1

/-- A table that is built is canonical. -/
theorem GTable.wf_build (n : Nat) (f : Nat → GRec) : GTable.wf (GTable.build n f) = true :=
  GTable.wf_flatMap_cell id f (List.range n) List.pairwise_lt_range

/-! ## Records -/

theorem GTable.lookup_cell (g : Nat) (r : GRec) (x : Nat) :
    ((GTable.cell g r).lookup x).getD GRec.blank = if x = g then r else GRec.blank := by
  unfold GTable.cell
  by_cases hr : r = GRec.blank
  · simp [hr]
  · by_cases hx : x = g
    · simp [hr, hx]
    · have hb : (x == g) = false := beq_false_of_ne hx
      simp [hr, hx, List.lookup_cons, hb]

/-- After one record is set, it reads as set, and every other one as before. -/
theorem GTable.get_put (t : GTable) (g : Nat) (r : GRec) (x : Nat) :
    GTable.get (GTable.put t g r) x = if x = g then r else GTable.get t x := by
  have hlow := lookup_filter_key (fun k => decide (k < g)) t x
  have hhigh := lookup_filter_key (fun k => decide (g < k)) t x
  simp only [decide_eq_true_eq] at hlow hhigh
  have hcell := GTable.lookup_cell g r x
  simp only [GTable.get, GTable.put, lookup_append_or, hlow, hhigh]
  by_cases h1 : x = g
  · subst h1
    simpa using hcell
  · by_cases h2 : x < g
    · have h3 : ¬ g < x := by omega
      have hnone : (GTable.cell g r).lookup x = none := by
        rw [List.lookup_eq_none_iff]
        intro y hy
        rw [(GTable.mem_cell hy).1]
        simpa using h1
      simp [h1, h2, h3, hnone]
    · have h3 : g < x := by omega
      have hnone : (GTable.cell g r).lookup x = none := by
        rw [List.lookup_eq_none_iff]
        intro y hy
        rw [(GTable.mem_cell hy).1]
        simpa using h1
      simp [h1, h2, h3, hnone]

theorem GTable.lookup_flatMap_cell {α : Type} (key : α → Nat) (val : α → GRec) (l : List α) (x : Nat)
    (h : l.Pairwise fun a b => key a < key b) :
    ((l.flatMap fun a => GTable.cell (key a) (val a)).lookup x).getD GRec.blank =
      ((l.find? fun a => decide (key a = x)).map val).getD GRec.blank := by
  induction l with
  | nil => simp
  | cons a l ih =>
    have h' := List.pairwise_cons.mp h
    have hcell := GTable.lookup_cell (key a) (val a) x
    rw [List.flatMap_cons, lookup_append_or]
    by_cases hx : x = key a
    · subst hx
      have hnone : (l.flatMap fun a => GTable.cell (key a) (val a)).lookup (key a) = none := by
        rw [List.lookup_eq_none_iff]
        intro y hy
        obtain ⟨b, hb, hyb⟩ := List.mem_flatMap.mp hy
        rw [(GTable.mem_cell hyb).1]
        have := h'.1 b hb
        simp only [bne_iff_ne, ne_eq]; omega
      rw [hnone]
      simpa using hcell
    · have hnone : (GTable.cell (key a) (val a)).lookup x = none := by
        rw [List.lookup_eq_none_iff]
        intro y hy
        rw [(GTable.mem_cell hy).1]
        simpa using hx
      have hd : decide (key a = x) = false := by simpa using Ne.symm hx
      rw [hnone, Option.none_or, ih h'.2, List.find?_cons, hd]

theorem GTable.find_key (t : GTable) (x : Nat) :
    (t.find? fun a => decide (a.1 = x)).map Prod.snd = t.lookup x := by
  induction t with
  | nil => simp
  | cons a t ih =>
    obtain ⟨k, r⟩ := a
    by_cases hx : x = k
    · subst hx; simp
    · have hb : (x == k) = false := beq_false_of_ne hx
      have hd : decide (k = x) = false := by simpa using Ne.symm hx
      simp [List.lookup_cons, hb, hd, ih]

/-- After a claim on every record, each reads as the claim makes it, where the claim leaves a blank record blank. -/
theorem GTable.get_mapRecs (t : GTable) (f : Nat → GRec → GRec) (x : Nat) (h : GTable.wf t = true)
    (hf : f x GRec.blank = GRec.blank) : GTable.get (GTable.mapRecs t f) x = f x (GTable.get t x) := by
  have hl := GTable.lookup_flatMap_cell Prod.fst (fun a => f a.1 a.2) t x ((GTable.wf_iff t).mp h).1
  have hk := GTable.find_key t x
  simp only [GTable.get, GTable.mapRecs]
  rw [hl, ← hk]
  cases hfind : t.find? fun a => decide (a.1 = x) with
  | none => simpa using hf.symm
  | some a =>
    have := List.find?_some hfind
    simp only [decide_eq_true_eq] at this
    simp [this]

/-- A table that is built reads as given below its size, and blank from there on. -/
theorem GTable.get_build (n : Nat) (f : Nat → GRec) (x : Nat) :
    GTable.get (GTable.build n f) x = if x < n then f x else GRec.blank := by
  have hl := GTable.lookup_flatMap_cell id f (List.range n) x List.pairwise_lt_range
  simp only [id_eq] at hl
  simp only [GTable.get, GTable.build]
  rw [hl]
  by_cases hx : x < n
  · have hfind : (List.range n).find? (fun a => decide (a = x)) = some x := by
      cases hc : (List.range n).find? (fun a => decide (a = x)) with
      | none =>
        have := List.find?_eq_none.mp hc x (List.mem_range.mpr hx)
        simp at this
      | some y =>
        have := List.find?_some hc
        simp only [decide_eq_true_eq] at this
        rw [this]
    rw [hfind, if_pos hx]; rfl
  · have hfind : (List.range n).find? (fun a => decide (a = x)) = none := by
      rw [List.find?_eq_none]
      intro y hy
      have := List.mem_range.mp hy
      simp only [decide_eq_true_eq]; omega
    rw [hfind, if_neg hx]; rfl

theorem GTable.mem_put {t : GTable} {g : Nat} {r : GRec} {x : Nat × GRec} (h : x ∈ GTable.put t g r) :
    x ∈ t ∨ x = (g, r) := by
  rcases List.mem_append.mp h with h | h
  · rcases List.mem_append.mp h with h | h
    · exact .inl (List.mem_filter.mp h).1
    · exact .inr (GTable.mem_cell h).1
  · exact .inl (List.mem_filter.mp h).1

theorem GTable.mem_mapRecs {t : GTable} {f : Nat → GRec → GRec} {x : Nat × GRec} (h : x ∈ GTable.mapRecs t f) :
    ∃ y ∈ t, x = (y.1, f y.1 y.2) := by
  obtain ⟨y, hy, hx⟩ := List.mem_flatMap.mp h
  exact ⟨y, hy, (GTable.mem_cell hx).1⟩

theorem GTable.mem_build {n : Nat} {f : Nat → GRec} {x : Nat × GRec} (h : x ∈ GTable.build n f) :
    x.1 < n ∧ x.2 = f x.1 := by
  obtain ⟨y, hy, hx⟩ := List.mem_flatMap.mp h
  obtain ⟨rfl, _⟩ := GTable.mem_cell hx
  exact ⟨List.mem_range.mp hy, rfl⟩

/-! ## The directory and the pending total -/

theorem Tracker.counted_withTable (tr : Tracker) (t : GTable) : (tr.withTable t).counted := ⟨rfl, rfl⟩

theorem Tracker.counted_reset : Tracker.reset.counted := by
  refine ⟨?_, rfl⟩
  show Vector.replicate 64 DirEntry.zero = directoryOf []
  decide

theorem Tracker.recAt_putRec (tr : Tracker) (g : Nat) (r : GRec) (x : Nat) :
    (tr.putRec g r).recAt x = if x = g then r else tr.recAt x := GTable.get_put tr.table g r x

theorem Tracker.recAt_mapRecs (tr : Tracker) (f : Nat → GRec → GRec) (x : Nat) (h : GTable.wf tr.table = true)
    (hf : f x GRec.blank = GRec.blank) : (tr.mapRecs f).recAt x = f x (tr.recAt x) :=
  GTable.get_mapRecs tr.table f x h hf

end Sys2Proof.Machine
end

