-- ==== Sys2Proof/Laws/Claims.lean ====
section
/-! SUPPORT. What each claim makes of a sound record is sound (R7), and leaves a blank record blank (R2). -/

namespace Sys2Proof.Machine

namespace GRec

theorem sound_blank : GRec.blank.sound := by simp [GRec.sound, GRec.blank, GClass.preserved]

theorem sound_write {r : GRec} (h : r.sound) : r.write.sound := by
  obtain ⟨st, c, p, cls⟩ := r
  cases st <;> simp_all [GRec.sound, GRec.write]

theorem sound_copyStart {r : GRec} (slot : Nat) (h : r.sound) : (r.copyStart slot).sound := by
  obtain ⟨st, c, p, cls⟩ := r
  cases st <;> simp_all [GRec.sound, GRec.copyStart]

theorem sound_copyGood {r : GRec} (h : r.sound) : r.copyGood.sound := by
  obtain ⟨st, c, p, cls⟩ := r
  cases st <;> simp_all [GRec.sound, GRec.copyGood]

theorem sound_copyLost {r : GRec} (h : r.sound) : r.copyLost.sound := by
  obtain ⟨st, c, p, cls⟩ := r
  cases st <;> simp_all [GRec.sound, GRec.copyLost]

theorem sound_commit {r : GRec} (h : r.sound) : r.commit.sound := by
  obtain ⟨st, c, p, cls⟩ := r
  cases st <;> simp_all [GRec.sound, GRec.commit]

theorem sound_abandon {r : GRec} (h : r.sound) : r.abandon.sound := by
  obtain ⟨st, c, p, cls⟩ := r
  cases st <;> simp_all [GRec.sound, GRec.abandon]

theorem sound_fillStart {r : GRec} (h : r.sound) : r.fillStart.sound := by
  obtain ⟨st, c, p, cls⟩ := r
  cases st <;> simp_all [GRec.sound, GRec.fillStart]

theorem sound_fillGood {r : GRec} (h : r.sound) : r.fillGood.sound := by
  obtain ⟨st, c, p, cls⟩ := r
  cases st <;> cases cls <;> simp_all [GRec.sound, GRec.fillGood, GClass.preserved]

theorem sound_fillBad {r : GRec} (h : r.sound) : r.fillBad.sound := by
  obtain ⟨st, c, p, cls⟩ := r
  cases st <;> cases cls <;> simp_all [GRec.sound, GRec.fillBad, GClass.preserved]

theorem sound_releasePoison {r : GRec} (h : r.sound) : r.releasePoison.sound := by
  obtain ⟨st, c, p, cls⟩ := r
  cases st <;> simp_all [GRec.sound, GRec.releasePoison]

theorem sound_dramLoss {r : GRec} (h : r.sound) : r.dramLoss.sound := by
  obtain ⟨st, c, p, cls⟩ := r
  cases st <;> cases cls <;> simp_all [GRec.sound, GRec.dramLoss, GClass.preserved]

theorem sound_storeDown {r : GRec} (h : r.sound) : r.storeDown.sound := by
  obtain ⟨st, c, p, cls⟩ := r
  cases st <;> cases cls <;> simp_all [GRec.sound, GRec.storeDown, GClass.preserved]

theorem sound_reload {r : GRec} (cls : GClass) (h : r.sound) : (r.reload cls).sound := by
  obtain ⟨st, c, p, old⟩ := r
  cases st <;> cases old <;> cases cls <;> simp_all [GRec.sound, GRec.reload, GClass.preserved]

theorem sound_resume (e : IndexEntry) (cls : GClass) : (GRec.resume e cls).sound := by
  cases e <;> cases cls <;> simp [GRec.sound, GRec.resume, GClass.preserved]

/-! ## Blank records -/

theorem write_blank : GRec.blank.write = GRec.blank := rfl
theorem commit_blank : GRec.blank.commit = GRec.blank := rfl
theorem abandon_blank : GRec.blank.abandon = GRec.blank := rfl
theorem releasePoison_blank : GRec.blank.releasePoison = GRec.blank := rfl
theorem dramLoss_blank : GRec.blank.dramLoss = GRec.blank := rfl
theorem storeDown_blank : GRec.blank.storeDown = GRec.blank := rfl

end GRec

/-! ## Sound tables -/

theorem Tracker.sound_reset : Tracker.reset.sound := ⟨GTable.wf_nil, by simp [Tracker.reset]⟩

theorem Tracker.sound_recAt {tr : Tracker} (h : tr.sound) (g : Nat) : (tr.recAt g).sound := by
  unfold Tracker.recAt GTable.get
  cases hl : tr.table.lookup g with
  | none => exact GRec.sound_blank
  | some r =>
    obtain ⟨l₁, l₂, hx, _⟩ := List.lookup_eq_some_iff.mp hl
    exact h.2 (g, r) (by rw [hx]; simp)

/-- A claim on one granule keeps the table sound. -/
theorem Tracker.sound_putRec {tr : Tracker} (g : Nat) (r : GRec) (h : tr.sound) (hr : r.sound) :
    (tr.putRec g r).sound := by
  refine ⟨GTable.wf_put _ _ _ h.1, fun x hx => ?_⟩
  rcases GTable.mem_put hx with hx | rfl
  · exact h.2 x hx
  · exact hr

/-- A claim on every granule keeps the table sound. -/
theorem Tracker.sound_mapRecs {tr : Tracker} (f : Nat → GRec → GRec) (h : tr.sound)
    (hf : ∀ g r, r.sound → (f g r).sound) : (tr.mapRecs f).sound := by
  refine ⟨GTable.wf_mapRecs _ _ h.1, fun x hx => ?_⟩
  obtain ⟨y, hy, rfl⟩ := GTable.mem_mapRecs hx
  exact hf y.1 y.2 (h.2 y hy)

/-- A table built of sound records is sound. -/
theorem Tracker.sound_build (tr : Tracker) (n : Nat) (f : Nat → GRec) (hf : ∀ g, (f g).sound) :
    (tr.withTable (GTable.build n f)).sound := by
  refine ⟨GTable.wf_build _ _, fun x hx => ?_⟩
  rw [(GTable.mem_build hx).2]
  exact hf x.1

end Sys2Proof.Machine
end

