-- ==== Sys2Proof/Laws/State.lean ====
section
/-! SUPPORT. What each update of a block leaves in each field of the state, so that no proof unfolds an update. -/

namespace Sys2Proof.Machine.State

/-! ### setPending -/
section setPending

variable (s : State) (x : List Instr)

@[simp] theorem setPending_pending : (s.setPending x).pending = x := rfl
@[simp] theorem setPending_ru : (s.setPending x).ru = s.ru := rfl
@[simp] theorem setPending_region : (s.setPending x).region = s.region := rfl
@[simp] theorem setPending_tracker : (s.setPending x).tracker = s.tracker := rfl
@[simp] theorem setPending_engine : (s.setPending x).engine = s.engine := rfl
@[simp] theorem setPending_store : (s.setPending x).store = s.store := rfl
@[simp] theorem setPending_dram : (s.setPending x).dram = s.dram := rfl
@[simp] theorem setPending_tc : (s.setPending x).tc = s.tc := rfl
@[simp] theorem setPending_wake : (s.setPending x).wake = s.wake := rfl
@[simp] theorem setPending_faults : (s.setPending x).faults = s.faults := rfl
@[simp] theorem setPending_side : (s.setPending x).side = s.side := rfl
@[simp] theorem setPending_lines : (s.setPending x).lines = s.lines := rfl
@[simp] theorem setPending_sent : (s.setPending x).sent = s.sent := rfl

end setPending

/-! ### setRu -/
section setRu

variable (s : State) (x : RequestUnit)

@[simp] theorem setRu_pending : (s.setRu x).pending = s.pending := rfl
@[simp] theorem setRu_ru : (s.setRu x).ru = x := rfl
@[simp] theorem setRu_region : (s.setRu x).region = s.region := rfl
@[simp] theorem setRu_tracker : (s.setRu x).tracker = s.tracker := rfl
@[simp] theorem setRu_engine : (s.setRu x).engine = s.engine := rfl
@[simp] theorem setRu_store : (s.setRu x).store = s.store := rfl
@[simp] theorem setRu_dram : (s.setRu x).dram = s.dram := rfl
@[simp] theorem setRu_tc : (s.setRu x).tc = s.tc := rfl
@[simp] theorem setRu_wake : (s.setRu x).wake = s.wake := rfl
@[simp] theorem setRu_faults : (s.setRu x).faults = s.faults := rfl
@[simp] theorem setRu_side : (s.setRu x).side = s.side := rfl
@[simp] theorem setRu_lines : (s.setRu x).lines = s.lines := rfl
@[simp] theorem setRu_sent : (s.setRu x).sent = s.sent := rfl

end setRu

/-! ### setRegion -/
section setRegion

variable (s : State) (x : RegionUnit)

@[simp] theorem setRegion_pending : (s.setRegion x).pending = s.pending := rfl
@[simp] theorem setRegion_ru : (s.setRegion x).ru = s.ru := rfl
@[simp] theorem setRegion_region : (s.setRegion x).region = x := rfl
@[simp] theorem setRegion_tracker : (s.setRegion x).tracker = s.tracker := rfl
@[simp] theorem setRegion_engine : (s.setRegion x).engine = s.engine := rfl
@[simp] theorem setRegion_store : (s.setRegion x).store = s.store := rfl
@[simp] theorem setRegion_dram : (s.setRegion x).dram = s.dram := rfl
@[simp] theorem setRegion_tc : (s.setRegion x).tc = s.tc := rfl
@[simp] theorem setRegion_wake : (s.setRegion x).wake = s.wake := rfl
@[simp] theorem setRegion_faults : (s.setRegion x).faults = s.faults := rfl
@[simp] theorem setRegion_side : (s.setRegion x).side = s.side := rfl
@[simp] theorem setRegion_lines : (s.setRegion x).lines = s.lines := rfl
@[simp] theorem setRegion_sent : (s.setRegion x).sent = s.sent := rfl

end setRegion

/-! ### setTracker -/
section setTracker

variable (s : State) (x : Tracker)

@[simp] theorem setTracker_pending : (s.setTracker x).pending = s.pending := rfl
@[simp] theorem setTracker_ru : (s.setTracker x).ru = s.ru := rfl
@[simp] theorem setTracker_region : (s.setTracker x).region = s.region := rfl
@[simp] theorem setTracker_tracker : (s.setTracker x).tracker = x := rfl
@[simp] theorem setTracker_engine : (s.setTracker x).engine = s.engine := rfl
@[simp] theorem setTracker_store : (s.setTracker x).store = s.store := rfl
@[simp] theorem setTracker_dram : (s.setTracker x).dram = s.dram := rfl
@[simp] theorem setTracker_tc : (s.setTracker x).tc = s.tc := rfl
@[simp] theorem setTracker_wake : (s.setTracker x).wake = s.wake := rfl
@[simp] theorem setTracker_faults : (s.setTracker x).faults = s.faults := rfl
@[simp] theorem setTracker_side : (s.setTracker x).side = s.side := rfl
@[simp] theorem setTracker_lines : (s.setTracker x).lines = s.lines := rfl
@[simp] theorem setTracker_sent : (s.setTracker x).sent = s.sent := rfl

end setTracker

/-! ### setEngine -/
section setEngine

variable (s : State) (x : ImageEngine)

@[simp] theorem setEngine_pending : (s.setEngine x).pending = s.pending := rfl
@[simp] theorem setEngine_ru : (s.setEngine x).ru = s.ru := rfl
@[simp] theorem setEngine_region : (s.setEngine x).region = s.region := rfl
@[simp] theorem setEngine_tracker : (s.setEngine x).tracker = s.tracker := rfl
@[simp] theorem setEngine_engine : (s.setEngine x).engine = x := rfl
@[simp] theorem setEngine_store : (s.setEngine x).store = s.store := rfl
@[simp] theorem setEngine_dram : (s.setEngine x).dram = s.dram := rfl
@[simp] theorem setEngine_tc : (s.setEngine x).tc = s.tc := rfl
@[simp] theorem setEngine_wake : (s.setEngine x).wake = s.wake := rfl
@[simp] theorem setEngine_faults : (s.setEngine x).faults = s.faults := rfl
@[simp] theorem setEngine_side : (s.setEngine x).side = s.side := rfl
@[simp] theorem setEngine_lines : (s.setEngine x).lines = s.lines := rfl
@[simp] theorem setEngine_sent : (s.setEngine x).sent = s.sent := rfl

end setEngine

/-! ### setStore -/
section setStore

variable (s : State) (x : StorePort)

@[simp] theorem setStore_pending : (s.setStore x).pending = s.pending := rfl
@[simp] theorem setStore_ru : (s.setStore x).ru = s.ru := rfl
@[simp] theorem setStore_region : (s.setStore x).region = s.region := rfl
@[simp] theorem setStore_tracker : (s.setStore x).tracker = s.tracker := rfl
@[simp] theorem setStore_engine : (s.setStore x).engine = s.engine := rfl
@[simp] theorem setStore_store : (s.setStore x).store = x := rfl
@[simp] theorem setStore_dram : (s.setStore x).dram = s.dram := rfl
@[simp] theorem setStore_tc : (s.setStore x).tc = s.tc := rfl
@[simp] theorem setStore_wake : (s.setStore x).wake = s.wake := rfl
@[simp] theorem setStore_faults : (s.setStore x).faults = s.faults := rfl
@[simp] theorem setStore_side : (s.setStore x).side = s.side := rfl
@[simp] theorem setStore_lines : (s.setStore x).lines = s.lines := rfl
@[simp] theorem setStore_sent : (s.setStore x).sent = s.sent := rfl

end setStore

/-! ### setDram -/
section setDram

variable (s : State) (x : DramPort)

@[simp] theorem setDram_pending : (s.setDram x).pending = s.pending := rfl
@[simp] theorem setDram_ru : (s.setDram x).ru = s.ru := rfl
@[simp] theorem setDram_region : (s.setDram x).region = s.region := rfl
@[simp] theorem setDram_tracker : (s.setDram x).tracker = s.tracker := rfl
@[simp] theorem setDram_engine : (s.setDram x).engine = s.engine := rfl
@[simp] theorem setDram_store : (s.setDram x).store = s.store := rfl
@[simp] theorem setDram_dram : (s.setDram x).dram = x := rfl
@[simp] theorem setDram_tc : (s.setDram x).tc = s.tc := rfl
@[simp] theorem setDram_wake : (s.setDram x).wake = s.wake := rfl
@[simp] theorem setDram_faults : (s.setDram x).faults = s.faults := rfl
@[simp] theorem setDram_side : (s.setDram x).side = s.side := rfl
@[simp] theorem setDram_lines : (s.setDram x).lines = s.lines := rfl
@[simp] theorem setDram_sent : (s.setDram x).sent = s.sent := rfl

end setDram

/-! ### setTc -/
section setTc

variable (s : State) (x : TransitionController)

@[simp] theorem setTc_pending : (s.setTc x).pending = s.pending := rfl
@[simp] theorem setTc_ru : (s.setTc x).ru = s.ru := rfl
@[simp] theorem setTc_region : (s.setTc x).region = s.region := rfl
@[simp] theorem setTc_tracker : (s.setTc x).tracker = s.tracker := rfl
@[simp] theorem setTc_engine : (s.setTc x).engine = s.engine := rfl
@[simp] theorem setTc_store : (s.setTc x).store = s.store := rfl
@[simp] theorem setTc_dram : (s.setTc x).dram = s.dram := rfl
@[simp] theorem setTc_tc : (s.setTc x).tc = x := rfl
@[simp] theorem setTc_wake : (s.setTc x).wake = s.wake := rfl
@[simp] theorem setTc_faults : (s.setTc x).faults = s.faults := rfl
@[simp] theorem setTc_side : (s.setTc x).side = s.side := rfl
@[simp] theorem setTc_lines : (s.setTc x).lines = s.lines := rfl
@[simp] theorem setTc_sent : (s.setTc x).sent = s.sent := rfl

end setTc

/-! ### setWake -/
section setWake

variable (s : State) (x : WakeUnit)

@[simp] theorem setWake_pending : (s.setWake x).pending = s.pending := rfl
@[simp] theorem setWake_ru : (s.setWake x).ru = s.ru := rfl
@[simp] theorem setWake_region : (s.setWake x).region = s.region := rfl
@[simp] theorem setWake_tracker : (s.setWake x).tracker = s.tracker := rfl
@[simp] theorem setWake_engine : (s.setWake x).engine = s.engine := rfl
@[simp] theorem setWake_store : (s.setWake x).store = s.store := rfl
@[simp] theorem setWake_dram : (s.setWake x).dram = s.dram := rfl
@[simp] theorem setWake_tc : (s.setWake x).tc = s.tc := rfl
@[simp] theorem setWake_wake : (s.setWake x).wake = x := rfl
@[simp] theorem setWake_faults : (s.setWake x).faults = s.faults := rfl
@[simp] theorem setWake_side : (s.setWake x).side = s.side := rfl
@[simp] theorem setWake_lines : (s.setWake x).lines = s.lines := rfl
@[simp] theorem setWake_sent : (s.setWake x).sent = s.sent := rfl

end setWake

/-! ### setFaults -/
section setFaults

variable (s : State) (x : FaultUnit)

@[simp] theorem setFaults_pending : (s.setFaults x).pending = s.pending := rfl
@[simp] theorem setFaults_ru : (s.setFaults x).ru = s.ru := rfl
@[simp] theorem setFaults_region : (s.setFaults x).region = s.region := rfl
@[simp] theorem setFaults_tracker : (s.setFaults x).tracker = s.tracker := rfl
@[simp] theorem setFaults_engine : (s.setFaults x).engine = s.engine := rfl
@[simp] theorem setFaults_store : (s.setFaults x).store = s.store := rfl
@[simp] theorem setFaults_dram : (s.setFaults x).dram = s.dram := rfl
@[simp] theorem setFaults_tc : (s.setFaults x).tc = s.tc := rfl
@[simp] theorem setFaults_wake : (s.setFaults x).wake = s.wake := rfl
@[simp] theorem setFaults_faults : (s.setFaults x).faults = x := rfl
@[simp] theorem setFaults_side : (s.setFaults x).side = s.side := rfl
@[simp] theorem setFaults_lines : (s.setFaults x).lines = s.lines := rfl
@[simp] theorem setFaults_sent : (s.setFaults x).sent = s.sent := rfl

end setFaults

/-! ### setSide -/
section setSide

variable (s : State) (x : SidebandPort)

@[simp] theorem setSide_pending : (s.setSide x).pending = s.pending := rfl
@[simp] theorem setSide_ru : (s.setSide x).ru = s.ru := rfl
@[simp] theorem setSide_region : (s.setSide x).region = s.region := rfl
@[simp] theorem setSide_tracker : (s.setSide x).tracker = s.tracker := rfl
@[simp] theorem setSide_engine : (s.setSide x).engine = s.engine := rfl
@[simp] theorem setSide_store : (s.setSide x).store = s.store := rfl
@[simp] theorem setSide_dram : (s.setSide x).dram = s.dram := rfl
@[simp] theorem setSide_tc : (s.setSide x).tc = s.tc := rfl
@[simp] theorem setSide_wake : (s.setSide x).wake = s.wake := rfl
@[simp] theorem setSide_faults : (s.setSide x).faults = s.faults := rfl
@[simp] theorem setSide_side : (s.setSide x).side = x := rfl
@[simp] theorem setSide_lines : (s.setSide x).lines = s.lines := rfl
@[simp] theorem setSide_sent : (s.setSide x).sent = s.sent := rfl

end setSide

/-! ### setLines -/
section setLines

variable (s : State) (x : Lines)

@[simp] theorem setLines_pending : (s.setLines x).pending = s.pending := rfl
@[simp] theorem setLines_ru : (s.setLines x).ru = s.ru := rfl
@[simp] theorem setLines_region : (s.setLines x).region = s.region := rfl
@[simp] theorem setLines_tracker : (s.setLines x).tracker = s.tracker := rfl
@[simp] theorem setLines_engine : (s.setLines x).engine = s.engine := rfl
@[simp] theorem setLines_store : (s.setLines x).store = s.store := rfl
@[simp] theorem setLines_dram : (s.setLines x).dram = s.dram := rfl
@[simp] theorem setLines_tc : (s.setLines x).tc = s.tc := rfl
@[simp] theorem setLines_wake : (s.setLines x).wake = s.wake := rfl
@[simp] theorem setLines_faults : (s.setLines x).faults = s.faults := rfl
@[simp] theorem setLines_side : (s.setLines x).side = s.side := rfl
@[simp] theorem setLines_lines : (s.setLines x).lines = x := rfl
@[simp] theorem setLines_sent : (s.setLines x).sent = s.sent := rfl

end setLines

/-! ### setSent -/
section setSent

variable (s : State) (x : Sent)

@[simp] theorem setSent_pending : (s.setSent x).pending = s.pending := rfl
@[simp] theorem setSent_ru : (s.setSent x).ru = s.ru := rfl
@[simp] theorem setSent_region : (s.setSent x).region = s.region := rfl
@[simp] theorem setSent_tracker : (s.setSent x).tracker = s.tracker := rfl
@[simp] theorem setSent_engine : (s.setSent x).engine = s.engine := rfl
@[simp] theorem setSent_store : (s.setSent x).store = s.store := rfl
@[simp] theorem setSent_dram : (s.setSent x).dram = s.dram := rfl
@[simp] theorem setSent_tc : (s.setSent x).tc = s.tc := rfl
@[simp] theorem setSent_wake : (s.setSent x).wake = s.wake := rfl
@[simp] theorem setSent_faults : (s.setSent x).faults = s.faults := rfl
@[simp] theorem setSent_side : (s.setSent x).side = s.side := rfl
@[simp] theorem setSent_lines : (s.setSent x).lines = s.lines := rfl
@[simp] theorem setSent_sent : (s.setSent x).sent = x := rfl

end setSent

end Sys2Proof.Machine.State
end

