-- ==== Sys2Proof/Laws/Evolves.lean ====
section
/-! SUPPORT. What any part of a step can do to a state (`Evolves`), and what the parts that only wait, choose and
settle can do (`Calm`): each update of a block, and each operation up to `settle`. -/

namespace Sys2Proof.Machine

set_option Elab.async false

/-- `t` comes from `s` by operations of the part: the queue is the same, and every invariant of the part that `s`
has, `t` has. -/
structure Evolves (s t : State) : Prop where
  pending : t.pending = s.pending
  wf : Memory.wf s.dram.mem = true → Memory.wf t.dram.mem = true
  dram : s.dram.inRange → t.dram.inRange
  counted : s.tracker.counted → t.tracker.counted
  sound : s.tracker.sound → t.tracker.sound
  agrees : s.faults.agrees → t.faults.agrees
  tags : s.ru.tagsDistinct → t.ru.tagsDistinct
  causes : causesOk s.wake.causes → causesOk t.wake.causes
  engine : s.engine.inRange → t.engine.inRange
  params : s.side.params.inRange → t.side.params.inRange

/-- `t` comes from `s` by operations that neither move data nor answer the sideband: what they leave as it was. -/
structure Calm (s t : State) : Prop extends Evolves s t where
  side : t.side = s.side
  mem : t.dram.mem = s.dram.mem
  bringUps : t.dram.bringUps = s.dram.bringUps
  installed : t.dram.installed = s.dram.installed
  lastErrors : t.dram.lastErrors = s.dram.lastErrors
  replies : t.sent.replies = s.sent.replies
  operations : t.sent.operations = s.sent.operations
  mainOk : t.lines.mainOk = s.lines.mainOk
  memOk : t.lines.memOk = s.lines.memOk
  causesEq : t.wake.causes = s.wake.causes
  escalate : t.wake.escalate = s.wake.escalate
  load : t.region.load = s.region.load
  enables : t.faults.enables = s.faults.enables
  alertDisable : t.faults.alertDisable = s.faults.alertDisable
  presaveOn : t.engine.presaveOn = s.engine.presaveOn
  presavePaused : t.engine.presavePaused = s.engine.presavePaused
  epoch : t.engine.epoch = s.engine.epoch

theorem Evolves.refl (s : State) : Evolves s s := ⟨rfl, id, id, id, id, id, id, id, id, id⟩

theorem Evolves.trans {s t u : State} (a : Evolves s t) (b : Evolves t u) : Evolves s u :=
  ⟨b.pending.trans a.pending, b.wf ∘ a.wf, b.dram ∘ a.dram, b.counted ∘ a.counted, b.sound ∘ a.sound,
    b.agrees ∘ a.agrees, b.tags ∘ a.tags, b.causes ∘ a.causes, b.engine ∘ a.engine, b.params ∘ a.params⟩

theorem Calm.refl (s : State) : Calm s s :=
  ⟨.refl s, rfl, rfl, rfl, rfl, rfl, rfl, rfl, rfl, rfl, rfl, rfl, rfl, rfl, rfl, rfl, rfl, rfl⟩

theorem Calm.trans {s t u : State} (a : Calm s t) (b : Calm t u) : Calm s u :=
  ⟨a.toEvolves.trans b.toEvolves, b.side.trans a.side, b.mem.trans a.mem, b.bringUps.trans a.bringUps,
    b.installed.trans a.installed, b.lastErrors.trans a.lastErrors,
    b.replies.trans a.replies, b.operations.trans a.operations, b.mainOk.trans a.mainOk, b.memOk.trans a.memOk,
    b.causesEq.trans a.causesEq, b.escalate.trans a.escalate, b.load.trans a.load, b.enables.trans a.enables,
    b.alertDisable.trans a.alertDisable, b.presaveOn.trans a.presaveOn, b.presavePaused.trans a.presavePaused,
    b.epoch.trans a.epoch⟩

/-- Operations of any kind, and then calm ones. -/
theorem Evolves.calm {s t u : State} (a : Evolves s t) (b : Calm t u) : Evolves s u := a.trans b.toEvolves

theorem FaultUnit.agrees_take (f : FaultUnit) (c : FaultClass) (addr : Nat)
    (d : FaultDetail) (st : TState) (h : f.agrees) : (f.take c addr d st).agrees := by
  unfold FaultUnit.take
  split
  · refine ⟨?_, rfl, ?_⟩
    · simp only [FaultUnit.driveAlert, true_iff]; omega
    · simp only [FaultUnit.driveAlert]; omega
  · exact h

theorem FaultUnit.take_kept (f : FaultUnit) (c : FaultClass) (addr : Nat) (d : FaultDetail)
    (st : TState) : (f.take c addr d st).enables = f.enables ∧ (f.take c addr d st).alertDisable = f.alertDisable := by
  unfold FaultUnit.take
  split <;> exact ⟨rfl, rfl⟩

namespace State

/-! ## The updates of the blocks -/

theorem evolves_setRu (s : State) (x : RequestUnit) (h : s.ru.tagsDistinct → x.tagsDistinct := by exact id) :
    Evolves s (s.setRu x) := ⟨rfl, id, id, id, id, id, h, id, id, id⟩

theorem evolves_setRegion (s : State) (x : RegionUnit) : Evolves s (s.setRegion x) :=
  ⟨rfl, id, id, id, id, id, id, id, id, id⟩

theorem evolves_setTracker (s : State) (x : Tracker) (hc : s.tracker.counted → x.counted := by exact id)
    (hs : s.tracker.sound → x.sound := by exact id) : Evolves s (s.setTracker x) :=
  ⟨rfl, id, id, hc, hs, id, id, id, id, id⟩

theorem evolves_setEngine (s : State) (x : ImageEngine) (h : s.engine.inRange → x.inRange := by exact id) :
    Evolves s (s.setEngine x) := ⟨rfl, id, id, id, id, id, id, id, h, id⟩

theorem evolves_setStore (s : State) (x : StorePort) : Evolves s (s.setStore x) :=
  ⟨rfl, id, id, id, id, id, id, id, id, id⟩

theorem evolves_setDram (s : State) (x : DramPort)
    (hw : Memory.wf s.dram.mem = true → Memory.wf x.mem = true := by exact id)
    (hr : s.dram.inRange → x.inRange := by exact id) : Evolves s (s.setDram x) :=
  ⟨rfl, hw, hr, id, id, id, id, id, id, id⟩

theorem evolves_setTc (s : State) (x : TransitionController) : Evolves s (s.setTc x) :=
  ⟨rfl, id, id, id, id, id, id, id, id, id⟩

theorem evolves_setWake (s : State) (x : WakeUnit) (h : causesOk s.wake.causes → causesOk x.causes := by exact id) :
    Evolves s (s.setWake x) := ⟨rfl, id, id, id, id, id, id, h, id, id⟩

theorem evolves_setFaults (s : State) (x : FaultUnit) (h : s.faults.agrees → x.agrees) :
    Evolves s (s.setFaults x) := ⟨rfl, id, id, id, id, h, id, id, id, id⟩

theorem evolves_setSide (s : State) (x : SidebandPort)
    (h : s.side.params.inRange → x.params.inRange := by exact id) : Evolves s (s.setSide x) :=
  ⟨rfl, id, id, id, id, id, id, id, id, h⟩

theorem evolves_setLines (s : State) (x : Lines) : Evolves s (s.setLines x) :=
  ⟨rfl, id, id, id, id, id, id, id, id, id⟩

theorem evolves_setSent (s : State) (x : Sent) : Evolves s (s.setSent x) :=
  ⟨rfl, id, id, id, id, id, id, id, id, id⟩

theorem calm_setRu (s : State) (x : RequestUnit) (h : s.ru.tagsDistinct → x.tagsDistinct := by exact id) :
    Calm s (s.setRu x) :=
  ⟨s.evolves_setRu x h, rfl, rfl, rfl, rfl, rfl, rfl, rfl, rfl, rfl, rfl, rfl, rfl, rfl, rfl, rfl, rfl, rfl⟩

theorem calm_setRegion (s : State) (x : RegionUnit) (h : x.load = s.region.load := by exact rfl) :
    Calm s (s.setRegion x) :=
  ⟨s.evolves_setRegion x, rfl, rfl, rfl, rfl, rfl, rfl, rfl, rfl, rfl, rfl, rfl, h, rfl, rfl, rfl, rfl, rfl⟩

theorem calm_setTracker (s : State) (x : Tracker) (hc : s.tracker.counted → x.counted := by exact id)
    (hs : s.tracker.sound → x.sound := by exact id) : Calm s (s.setTracker x) :=
  ⟨s.evolves_setTracker x hc hs, rfl, rfl, rfl, rfl, rfl, rfl, rfl, rfl, rfl, rfl, rfl, rfl, rfl, rfl, rfl, rfl, rfl⟩

theorem calm_setEngine (s : State) (x : ImageEngine) (h : s.engine.inRange → x.inRange := by exact id)
    (ho : x.presaveOn = s.engine.presaveOn := by exact rfl)
    (hp : x.presavePaused = s.engine.presavePaused := by exact rfl)
    (he : x.epoch = s.engine.epoch := by exact rfl) : Calm s (s.setEngine x) :=
  ⟨s.evolves_setEngine x h, rfl, rfl, rfl, rfl, rfl, rfl, rfl, rfl, rfl, rfl, rfl, rfl, rfl, rfl, ho, hp, he⟩

theorem calm_setStore (s : State) (x : StorePort) : Calm s (s.setStore x) :=
  ⟨s.evolves_setStore x, rfl, rfl, rfl, rfl, rfl, rfl, rfl, rfl, rfl, rfl, rfl, rfl, rfl, rfl, rfl, rfl, rfl⟩

theorem calm_setDram (s : State) (x : DramPort) (hm : x.mem = s.dram.mem := by exact rfl)
    (hb : x.bringUps = s.dram.bringUps := by exact rfl) (hi : x.installed = s.dram.installed := by exact rfl)
    (hl : x.lastErrors = s.dram.lastErrors := by exact rfl)
    (hr : s.dram.inRange → x.inRange := by exact id) : Calm s (s.setDram x) :=
  ⟨s.evolves_setDram x (fun h => by rw [hm]; exact h) hr, rfl, hm, hb, hi, hl, rfl, rfl, rfl, rfl, rfl, rfl, rfl,
    rfl, rfl, rfl, rfl, rfl⟩

theorem calm_setTc (s : State) (x : TransitionController) : Calm s (s.setTc x) :=
  ⟨s.evolves_setTc x, rfl, rfl, rfl, rfl, rfl, rfl, rfl, rfl, rfl, rfl, rfl, rfl, rfl, rfl, rfl, rfl, rfl⟩

theorem calm_setWake (s : State) (x : WakeUnit) (hc : x.causes = s.wake.causes := by exact rfl)
    (he : x.escalate = s.wake.escalate := by exact rfl) : Calm s (s.setWake x) :=
  ⟨s.evolves_setWake x (fun h => by rw [hc]; exact h), rfl, rfl, rfl, rfl, rfl, rfl, rfl, rfl, rfl, hc, he, rfl,
    rfl, rfl, rfl, rfl, rfl⟩

/-! ## Reports, sends and queues -/

theorem calm_report (s : State) (c : FaultClass) (addr : Nat) (d : FaultDetail) : Calm s (s.report c addr d) :=
  ⟨s.evolves_setFaults _ (FaultUnit.agrees_take _ _ _ _ _), rfl, rfl, rfl, rfl, rfl, rfl, rfl, rfl, rfl, rfl,
    rfl, rfl, (FaultUnit.take_kept _ _ _ _ _).1, (FaultUnit.take_kept _ _ _ _ _).2, rfl, rfl, rfl⟩

theorem calm_sendCompletion (s : State) (c : Completion) : Calm s (s.sendCompletion c) :=
  ⟨s.evolves_setSent _, rfl, rfl, rfl, rfl, rfl, rfl, rfl, rfl, rfl, rfl, rfl, rfl, rfl, rfl, rfl, rfl, rfl⟩

end State

end Sys2Proof.Machine
end

