-- ==== Sys2Proof/Laws/Settle.lean ====
section
/-! SUPPORT. The operations of `settle` and all that they call are calm: claims, judgement and release of requests,
the Transition Controller's operations, and the store arbiter's choices. -/

namespace Sys2Proof.Machine

set_option Elab.async false

/-! ## Lists -/

theorem Calm.foldl {α : Type} (f : State → α → State) (h : ∀ s x, Calm s (f s x)) :
    ∀ (l : List α) (s : State), Calm s (l.foldl f s)
  | [], s => Calm.refl s
  | x :: l, s => (h s x).trans (Calm.foldl f h l (f s x))

namespace State

/-! ## Claims -/

theorem calm_noticeDirty (s : State) : Calm s s.noticeDirty := by
  unfold noticeDirty
  split
  · exact s.calm_setEngine _
  · exact .refl s

theorem calm_appendSlots (s : State) (slots : List Nat) : Calm s (s.appendSlots slots) := by
  unfold appendSlots
  split
  · exact .refl s
  · exact s.calm_setEngine _

theorem calm_claim (s : State) (g : Nat) (f : GRec → GRec) (frees : GRec → List Nat)
    (hf : ∀ r : GRec, r.sound → (f r).sound) : Calm s (s.claim g f frees) := by
  have h := (s.calm_setTracker (s.tracker.putRec g (f (s.recOf g))) (fun _ => Tracker.counted_withTable _ _)
    (fun h => Tracker.sound_putRec _ _ h (hf _ (Tracker.sound_recAt h g)))).trans
    (calm_appendSlots _ (frees (s.recOf g)))
  unfold claim
  dsimp only
  split
  · exact h.trans (calm_noticeDirty _)
  · exact h

theorem calm_claimKeep (s : State) (g : Nat) (f : GRec → GRec) (hf : ∀ r : GRec, r.sound → (f r).sound) :
    Calm s (s.claimKeep g f) := s.calm_claim g f _ hf

theorem calm_claimAll (s : State) (f : Nat → GRec → GRec) (frees : GRec → List Nat)
    (hf : ∀ (g : Nat) (r : GRec), r.sound → (f g r).sound) : Calm s (s.claimAll f frees) := by
  have h := (s.calm_setTracker (s.tracker.mapRecs f) (fun _ => Tracker.counted_withTable _ _)
    (fun h => Tracker.sound_mapRecs f h hf)).trans (calm_appendSlots _ (s.tracker.table.flatMap fun x => frees x.2))
  unfold claimAll
  dsimp only
  split
  · exact h.trans (calm_noticeDirty _)
  · exact h

theorem calm_claimWrite (s : State) (g : Nat) : Calm s (s.claimWrite g) :=
  s.calm_claim g _ _ fun _ => GRec.sound_write

theorem calm_claimCopyStart (s : State) (g slot : Nat) : Calm s (s.claimCopyStart g slot) :=
  (s.calm_setEngine _).trans (calm_claimKeep _ g _ fun _ => GRec.sound_copyStart slot)

theorem calm_claimCopyGood (s : State) (g : Nat) : Calm s (s.claimCopyGood g) :=
  s.calm_claim g _ _ fun _ => GRec.sound_copyGood

theorem calm_claimCopyLost (s : State) (g : Nat) : Calm s (s.claimCopyLost g) :=
  s.calm_claimKeep g _ fun _ => GRec.sound_copyLost

theorem calm_claimCommit (s : State) : Calm s s.claimCommit := s.calm_claimAll _ _ fun _ _ => GRec.sound_commit

theorem calm_claimAbandon (s : State) : Calm s s.claimAbandon := s.calm_claimAll _ _ fun _ _ => GRec.sound_abandon

theorem calm_claimFillStart (s : State) (g : Nat) : Calm s (s.claimFillStart g) :=
  (s.calm_setEngine { s.engine with fillList := s.engine.fillList.filter fun x => decide (x ≠ g) }
    fun h => ⟨h.1.filter _, h.2⟩).trans (calm_claimKeep _ g _ fun _ => GRec.sound_fillStart)

theorem calm_claimFillGood (s : State) (g : Nat) : Calm s (s.claimFillGood g) :=
  s.calm_claimKeep g _ fun _ => GRec.sound_fillGood

theorem calm_claimFillBad (s : State) (g : Nat) : Calm s (s.claimFillBad g) :=
  s.calm_claimKeep g _ fun _ => GRec.sound_fillBad

theorem calm_claimRelease (s : State) (first count : Nat) : Calm s (s.claimRelease first count) :=
  s.calm_claimAll _ _ fun g r h => by
    split
    · exact GRec.sound_releasePoison h
    · exact h

theorem calm_claimDramLoss (s : State) : Calm s s.claimDramLoss := s.calm_claimAll _ _ fun _ _ => GRec.sound_dramLoss

theorem calm_claimStoreDown (s : State) : Calm s s.claimStoreDown :=
  s.calm_setTracker _ (fun _ => Tracker.counted_withTable _ _)
    fun h => Tracker.sound_mapRecs _ h fun _ _ => GRec.sound_storeDown

theorem calm_claimClear (s : State) : Calm s s.claimClear :=
  s.calm_setTracker _ (fun _ => Tracker.counted_reset) fun _ => Tracker.sound_reset

theorem calm_claimReload (s : State) : Calm s s.claimReload := by
  have h := s.calm_setTracker (s.tracker.withTable (GTable.build s.granules fun g =>
    (GTable.get s.tracker.table g).reload (s.region.file.classOf s.granules g)))
    (fun _ => Tracker.counted_withTable _ _)
    fun h => ⟨GTable.wf_build _ _, fun x hx => by
      rw [(GTable.mem_build hx).2]
      exact GRec.sound_reload _ (Tracker.sound_recAt h x.1)⟩
  unfold claimReload
  dsimp only
  split
  · exact h.trans (calm_noticeDirty _)
  · exact h

theorem calm_claimResume (s : State) (index : List IndexEntry) : Calm s (s.claimResume index) :=
  s.calm_setTracker _ (fun _ => Tracker.counted_withTable _ _)
    fun _ => Tracker.sound_build _ _ _ fun _ => GRec.sound_resume _ _

/-! ## The request table -/

theorem calm_updateEntry (s : State) (tag : BitVec 5) (f : Entry → Entry)
    (hf : ∀ e : Entry, e.tag = tag → (f e).tag = e.tag) : Calm s (s.updateEntry tag f) :=
  s.calm_setRu _ fun h => by
    have hmap : (s.ru.update tag f).table.map Entry.tag = s.ru.table.map Entry.tag := by
      simp only [RequestUnit.update, List.map_map]
      apply List.map_congr_left
      intro e _
      simp only [Function.comp_apply]
      split
      · exact hf e (by assumption)
      · rfl
    unfold RequestUnit.tagsDistinct at h ⊢
    rw [hmap]
    exact h

theorem calm_dropEntry (s : State) (tag : BitVec 5) : Calm s (s.setRu (s.ru.drop tag)) :=
  s.calm_setRu _ fun h => by
    unfold RequestUnit.tagsDistinct at h ⊢
    exact h.sublist (List.filter_sublist.map _)

theorem calm_enqueue (s : State) (a : Access) : Calm s (s.enqueue a) := s.calm_setDram _

theorem calm_present (s : State) (o : Owner) (line : Nat) : Calm s (s.present o line) := s.calm_enqueue _

theorem calm_withdraw (s : State) (gone : Owner → Bool) : Calm s (s.withdraw gone) := s.calm_setDram _

/-! ## Written flags -/

theorem calm_issueWriteBack (s : State) (a : Nat) (n : Fin 32) : Calm s (s.issueWriteBack a n) :=
  (s.calm_present _ _).trans (calm_claimWrite _ _)

theorem calm_writeBack (s : State) (n : Fin 32) : Calm s (s.writeBack n) := by
  unfold writeBack
  split
  · exact .refl s
  · dsimp only
    split
    · exact .refl s
    · split
      · exact s.calm_setRegion _
      · exact s.calm_issueWriteBack _ _

theorem calm_markWritten (s : State) (g : Nat) : Calm s (s.markWritten g) := by
  unfold markWritten
  split
  · exact .refl s
  · dsimp only
    split
    · exact .refl s
    · exact (s.calm_setRegion _).trans (calm_writeBack _ _)

theorem calm_payOwed (s : State) (a : Nat) (n : Fin 32) : Calm s (s.payOwed a n) := by
  unfold payOwed
  split
  · split
    · exact s.calm_setRegion _
    · exact (s.calm_setRegion _).trans (calm_issueWriteBack _ _ _)
  · exact .refl s

theorem calm_payOwedIn (s : State) (left : List Nat) : Calm s (s.payOwedIn left) := by
  unfold payOwedIn
  split
  · exact .refl s
  · split
    · exact Calm.foldl _ (fun s n => s.calm_payOwed _ n) _ s
    · exact .refl s

/-! ## The fill list -/

theorem evict_sublist (held : Nat → Bool) : ∀ l : List Nat, (evict held l).Sublist l
  | [] => List.Sublist.slnil
  | g :: gs => by
    unfold evict
    split
    · exact (evict_sublist held gs).cons_cons g
    · exact (List.Sublist.refl gs).cons g

theorem calm_joinFillList (s : State) (g : Nat) : Calm s (s.joinFillList g) := by
  unfold joinFillList
  dsimp only
  split
  · exact .refl s
  · rename_i hnot
    have hg : g ∉ s.engine.fillList := by simpa using hnot
    refine s.calm_setEngine _ fun h => ⟨?_, h.2⟩
    have hsub : (if s.engine.fillList.length < Config.fillListSize then s.engine.fillList
        else evict s.ru.fillHeld s.engine.fillList).Sublist s.engine.fillList := by
      split
      · exact List.Sublist.refl _
      · exact evict_sublist _ _
    refine List.nodup_append.mpr ⟨h.1.sublist hsub, by simp, fun a ha b hb => ?_⟩
    rw [List.mem_singleton.mp hb]
    rintro rfl
    exact hg (hsub.subset ha)

/-! ## Judgement -/

theorem calm_answer (s : State) (e : Entry) (c : FaultClass) (st : CompletionStatus) : Calm s (s.answer e c st) := by
  have h := s.calm_dropEntry e.tag
  unfold answer
  dsimp only
  split
  · exact (h.trans (calm_report _ _ _ _)).trans (calm_sendCompletion _ _)
  · exact h.trans (calm_sendCompletion _ _)

theorem calm_issue (s : State) (e : Entry) : Calm s (s.issue e) := by
  have h := s.calm_updateEntry e.tag (fun x => { x with st := .issued none }) fun _ _ => rfl
  unfold issue
  dsimp only
  split
  · exact h.trans (calm_enqueue _ _)
  · exact h.trans (calm_enqueue _ _)

theorem calm_hold (s : State) (e : Entry) (reason : Hold) : Calm s (s.hold e reason) :=
  s.calm_updateEntry _ _ fun _ _ => rfl

theorem calm_holdFill (s : State) (e : Entry) : Calm s (s.holdFill e) := by
  unfold holdFill
  dsimp only
  split
  · exact (s.calm_hold e _).trans (calm_joinFillList _ _)
  · exact s.calm_hold e _

theorem calm_proceed (s : State) (e : Entry) : Calm s (s.proceed e) := by
  unfold proceed
  split
  · exact s.calm_issue e
  · exact ((s.calm_issue e).trans (calm_claimWrite _ _)).trans (calm_markWritten _ _)

theorem calm_settleEntry (s : State) (e : Entry) : Calm s (s.settleEntry e) := by
  unfold settleEntry
  split
  · exact s.calm_issue e
  · exact s.calm_answer e _ _
  · exact s.calm_answer e _ _
  · exact s.calm_hold e _
  · exact s.calm_holdFill e
  · exact s.calm_answer e _ _
  · exact s.calm_proceed e

theorem calm_judgeLine : ∀ (fuel line : Nat) (s : State), Calm s (judgeLine fuel line s)
  | 0, _, s => .refl s
  | fuel + 1, line, s => by
    unfold judgeLine
    split
    · exact .refl s
    · split
      · dsimp only
        split
        · exact (s.calm_settleEntry _).trans (calm_judgeLine fuel line _)
        · exact s.calm_settleEntry _
      · exact .refl s

theorem calm_judge (s : State) (e : Entry) : Calm s (s.judge e) := by
  unfold judge
  dsimp only
  split
  · exact (s.calm_settleEntry e).trans (calm_judgeLine _ _ _)
  · exact s.calm_settleEntry e

theorem calm_takeUp (s : State) (e : Entry) : Calm s (s.takeUp e) := by
  unfold takeUp
  split
  · exact s.calm_updateEntry _ _ fun _ _ => rfl
  · exact s.calm_judge e

theorem find_tag {r : RequestUnit} {tag : BitVec 5} {e : Entry} (h : r.find tag = some e) : e.tag = tag := by
  have := List.find?_some h
  simpa using this

theorem calm_release (reason : Hold) (s : State) (tag : BitVec 5) : Calm s (release reason s tag) := by
  unfold release
  split
  · exact .refl s
  · rename_i e he
    have htag : e.tag = tag := find_tag he
    split
    · split
      · dsimp only
        exact (s.calm_updateEntry tag (fun _ => s.classify e) fun x hx => htag.trans hx.symm).trans (calm_takeUp _ _)
      · dsimp only
        exact (s.calm_updateEntry tag (fun _ => s.classify e) fun x hx => htag.trans hx.symm).trans (calm_takeUp _ _)
      · exact s.calm_judge e
      · exact s.calm_judge e
    · exact .refl s

theorem calm_releaseAll (s : State) (reason : Hold) : Calm s (s.releaseAll reason) :=
  Calm.foldl _ (calm_release reason) _ s

theorem calm_leftAbsent (s : State) (left : List Nat) : Calm s (s.leftAbsent left) :=
  (Calm.foldl _ (calm_release .fill) _ s).trans (calm_payOwedIn _ _)

theorem calm_complete (s : State) (e : Entry) (data : List Byte) : Calm s (s.complete e data) :=
  ((s.calm_dropEntry _).trans (calm_sendCompletion _ _)).trans (calm_judgeLine _ _ _)

theorem calm_discardTable (s : State) : Calm s s.discardTable :=
  (s.calm_setRu _ fun _ => by simp [RequestUnit.tagsDistinct]).trans (calm_setDram _ _)

/-! ## The Transition Controller -/

theorem calm_enterState (s : State) (st : TState) : Calm s (s.enterState st) := by
  unfold enterState
  dsimp only
  refine ((calm_setEngine _ _).trans (calm_setTc _ _)).trans (calm_setWake _ _ ?_ ?_)
  · unfold WakeUnit.serveDeferred
    split <;> rfl
  · unfold WakeUnit.serveDeferred
    split <;> rfl

theorem calm_enterRunning (s : State) : Calm s s.enterRunning := s.calm_enterState _

theorem calm_writeOutcome (s : State) (op : LongOp) (result : OutcomeResult) (reason : OutcomeReason) :
    Calm s (s.writeOutcome op result reason) := s.calm_setTc _

theorem calm_setOrigin (s : State) (op : LongOp) : Calm s (s.setOrigin op) := s.calm_setTc _

theorem calm_endCommit (s : State) : Calm s s.endCommit := s.calm_setEngine _

theorem calm_returnEntry (s : State) (kind : AbortKind) : Calm s (s.returnEntry kind) :=
  ((((s.calm_enterRunning).trans (calm_setTc _ _)).trans (calm_releaseAll _ _)).trans (calm_report _ _ _ _)).trans
    (calm_writeOutcome _ _ _ _)

theorem calm_failEntry (s : State) (reason : OutcomeReason) : Calm s (s.failEntry reason) :=
  ((((s.calm_endCommit).trans (calm_enterRunning _)).trans (calm_setTc _ _)).trans (calm_releaseAll _ _)).trans
    (calm_writeOutcome _ _ _ _)

theorem calm_savingTest (s : State) : Calm s s.savingTest := by
  unfold savingTest
  split
  · split
    · exact s.calm_returnEntry _
    · split
      · exact (s.calm_enterState _).trans (calm_setEngine _ _)
      · split
        · exact (s.calm_report _ _ _).trans (calm_failEntry _ _)
        · exact .refl s
  · exact .refl s

theorem calm_buildIndex (s : State) : Calm s s.buildIndex := s.calm_setEngine _

theorem calm_commitWait (s : State) : Calm s s.commitWait := by
  unfold commitWait
  split
  · split
    · split
      · exact .refl s
      · exact s.calm_buildIndex
    · split
      · exact .refl s
      · exact ((s.calm_enterState _).trans (calm_setEngine _ _)).trans (calm_releaseAll _ _)
  · exact .refl s

theorem calm_restoringTest (s : State) : Calm s s.restoringTest := by
  unfold restoringTest
  split
  · exact s.calm_enterState _
  · exact .refl s

theorem calm_enterParking (s : State) : Calm s s.enterParking := (s.calm_enterState _).trans (calm_setTc _ _)

theorem calm_parkReturn (s : State) (kind : AbortKind) : Calm s (s.parkReturn kind) :=
  ((((s.calm_enterRunning).trans (calm_setTc _ _)).trans (calm_releaseAll _ _)).trans (calm_report _ _ _ _)).trans
    (calm_writeOutcome _ _ _ _)

theorem calm_parkAbort (s : State) (kind : AbortKind) : Calm s (s.parkAbort kind) := by
  unfold parkAbort
  split
  · exact .refl s
  · split
    · exact s.calm_parkReturn _
    · exact s.calm_setTc _
    · exact s.calm_setTc _
    · exact .refl s
    · exact .refl s

theorem calm_beginPattern (s : State) : Calm s s.beginPattern := by
  unfold beginPattern
  dsimp only
  refine ((calm_setTc _ _).trans (calm_setDram _ _ ?_ ?_ ?_ ?_ ?_)).trans (calm_present _ _ _)
  any_goals rfl
  exact fun h => ⟨Nat.mod_lt _ (by decide), h.2⟩

theorem calm_parkTest (s : State) : Calm s s.parkTest := by
  unfold parkTest
  split
  · exact s.calm_beginPattern
  · exact .refl s

theorem calm_beginSelfRefresh (s : State) : Calm s s.beginSelfRefresh := (s.calm_setTc _).trans (calm_setDram _ _)

theorem calm_enterSleeping (s : State) : Calm s s.enterSleeping :=
  ((s.calm_setTc _).trans (calm_enterState _ _)).trans (calm_writeOutcome _ _ _ _)

theorem calm_disregardOp (s : State) : Calm s s.disregardOp := s.calm_setStore _

theorem calm_disregardData (s : State) : Calm s s.disregardData := by
  unfold disregardData
  split
  · exact .refl s
  · split
    · exact s.calm_disregardOp
    · exact s.calm_disregardOp
    · exact .refl s

theorem calm_disregardTransfers (s : State) : Calm s s.disregardTransfers :=
  ((s.calm_disregardData).trans (calm_withdraw _ _)).trans (calm_setEngine _ _)

theorem calm_markDramLoss (s : State) : Calm s s.markDramLoss :=
  (s.calm_disregardTransfers).trans (calm_claimDramLoss _)

theorem calm_enterImagedOff (s : State) : Calm s s.enterImagedOff :=
  ((((s.calm_markDramLoss).trans (calm_setDram _ _)).trans (calm_setTc _ _)).trans (calm_setEngine _ _)).trans
    (calm_enterState _ _)

theorem calm_beginBringUp (s : State) : Calm s s.beginBringUp := s.calm_setDram _

theorem calm_bringUpIfReady (s : State) : Calm s s.bringUpIfReady := by
  unfold bringUpIfReady
  split
  · exact s.calm_beginBringUp
  · exact .refl s

theorem calm_clearEngine (s : State) : Calm s s.clearEngine :=
  s.calm_setEngine _ fun h => ⟨List.nodup_nil, h.2⟩

theorem calm_toUnconfigured (s : State) : Calm s s.toUnconfigured :=
  (((((((s.calm_claimAbandon).trans (calm_claimClear _)).trans (calm_clearEngine _)).trans (calm_setRegion _ _)).trans
    (calm_disregardOp _)).trans (calm_setStore _ _)).trans (calm_setTc _ _)).trans (calm_enterState _ _)

theorem calm_railLossOutcome (s : State) (result : OutcomeResult) : Calm s (s.railLossOutcome result) := by
  unfold railLossOutcome
  dsimp only
  split
  · exact (s.calm_writeOutcome _ _ _).trans (calm_setTc _ _)
  · exact (s.calm_writeOutcome _ _ _).trans (calm_setTc _ _)

theorem calm_railLossToImagedOff (s : State) : Calm s s.railLossToImagedOff :=
  (s.calm_enterImagedOff).trans (calm_railLossOutcome _ _)

theorem calm_railLossToUnconfigured (s : State) : Calm s s.railLossToUnconfigured :=
  ((s.calm_toUnconfigured).trans (calm_railLossOutcome _ _)).trans (calm_bringUpIfReady _)

theorem calm_railCourse (s : State) : Calm s s.railCourse := by
  unfold railCourse
  split
  · split
    · exact s.calm_railLossToUnconfigured
    · split
      · exact s.calm_railLossToImagedOff
      · split
        · exact (s.calm_endCommit).trans (calm_railLossToImagedOff _)
        · exact .refl s
    · split
      · exact s.calm_railLossToImagedOff
      · split
        · exact .refl s
        · exact s.calm_railLossToUnconfigured
  · exact .refl s

/-! ## The store link and the choices -/

theorem calm_sendOp (s : State) (kind : FrameKind) (block : Nat) (payload : Frame) (purpose : Purpose) :
    Calm s (s.sendOp kind block payload purpose) := s.calm_setStore _

theorem calm_finishStart (s : State) (reason : OutcomeReason) (st : TState) : Calm s (s.finishStart reason st) :=
  (((s.calm_setEngine _).trans (calm_setTc _ _)).trans (calm_enterState _ _)).trans (calm_writeOutcome _ _ _ _)

theorem calm_resumeFail (s : State) (reason : OutcomeReason) : Calm s (s.resumeFail reason) :=
  (((((s.calm_setEngine _).trans (calm_setTc _ _)).trans (calm_claimClear _)).trans (calm_setRegion _ _)).trans
    (calm_enterState _ _)).trans (calm_writeOutcome _ _ _ _)

theorem calm_retireSlot (s : State) (slot : Nat) : Calm s (s.retireSlot slot) := s.calm_setEngine _

theorem calm_startCopy (s : State) (g slot : Nat) : Calm s (s.startCopy g slot) :=
  ((s.calm_claimCopyStart g slot).trans (calm_sendOp _ _ _ _ _)).trans (calm_present _ _ _)

theorem calm_startFill (s : State) (g : Nat) : Calm s (s.startFill g) :=
  ((s.calm_claimFillStart g).trans (calm_setEngine _ _)).trans (calm_sendOp _ _ _ _ _)

theorem calm_startZeroFill (s : State) (g : Nat) : Calm s (s.startZeroFill g) :=
  ((s.calm_claimFillStart g).trans (calm_setEngine _ _)).trans (calm_present _ _ _)

theorem calm_consumeGrant (s : State) (g : Nat) : Calm s (s.consumeGrant g) := s.calm_setEngine _

theorem calm_reloadPace (s : State) : Calm s s.reloadPace := s.calm_setEngine _

theorem calm_startPresave (s : State) (g slot : Nat) : Calm s (s.startPresave g slot) :=
  ((s.calm_startCopy g slot).trans (calm_setEngine _ _)).trans (calm_reloadPace _)

theorem calm_sendStep (s : State) (b : BringUp) : Calm s (s.sendStep b) := by
  unfold sendStep
  split <;> exact s.calm_sendOp _ _ _ _

theorem calm_startWork (s : State) (w : StoreWork) : Calm s (s.startWork w) := by
  unfold startWork
  split
  · split
    · exact s.calm_sendStep _
    · exact .refl s
  · exact (s.calm_setEngine _).trans (calm_sendOp _ _ _ _ _)
  · exact s.calm_sendOp _ _ _ _
  · exact s.calm_sendOp _ _ _ _
  · exact s.calm_startFill _
  · exact s.calm_startCopy _ _
  · exact (s.calm_startFill _).trans (calm_consumeGrant _ _)
  · exact s.calm_startPresave _ _
  · exact s.calm_reloadPace

theorem calm_storeChoice (s : State) : Calm s s.storeChoice := by
  unfold storeChoice
  split
  · split
    · exact s.calm_startWork _
    · exact .refl s
  · exact .refl s

theorem calm_zeroChoice (s : State) : Calm s s.zeroChoice := by
  unfold zeroChoice
  split
  · split
    · exact s.calm_startZeroFill _
    · split
      · split
        · exact (s.calm_startZeroFill _).trans (calm_consumeGrant _ _)
        · exact .refl s
      · exact .refl s
  · exact .refl s

theorem calm_startTest (s : State) : Calm s s.startTest := by
  unfold startTest
  split
  · exact .refl s
  · rename_i r _
    by_cases hd : r.phase = .draining ∧ s.tc.state = .unconfigured ∧ s.ru.table = []
    · have h := (s.calm_enterState .starting).trans
        (calm_setTc _ { (s.enterState .starting).tc with start := some { r with phase := .running } })
      simp only [if_pos hd]
      split
      · split
        · exact h.trans (calm_finishStart _ _ _)
        · exact h.trans (calm_setEngine _ _)
      · exact h
    · simp only [if_neg hd]
      split
      · split
        · exact s.calm_finishStart _ _
        · exact s.calm_setEngine _
      · exact .refl s

theorem calm_tcTests (s : State) : Calm s s.tcTests :=
  ((((s.calm_restoringTest).trans (calm_commitWait _)).trans (calm_savingTest _)).trans (calm_commitWait _)).trans
    (calm_railCourse _)

theorem calm_drive (s : State) : Calm s s.drive :=
  ⟨⟨rfl, id, id, id, id, id, id, id, id, id⟩, rfl, rfl, rfl, rfl, rfl, rfl, rfl, rfl, rfl, rfl, rfl, rfl, rfl, rfl,
    rfl, rfl, rfl⟩

/-- What follows an event within its step is calm. -/
theorem calm_settle (s : State) : Calm s s.settle :=
  ((((((s.calm_startTest).trans (calm_tcTests _)).trans (calm_storeChoice _)).trans (calm_zeroChoice _)).trans
    (calm_storeChoice _)).trans (calm_parkTest _)).trans (calm_drive _)

/-! ## Lines out -/

/-- The lines out and link ready are driven last, from the state as it is then (R134, R49). -/
theorem linesDriven_drive (s : State) : s.drive.linesDriven := ⟨rfl, rfl, rfl⟩

theorem linesDriven_settle (s : State) : s.settle.linesDriven := linesDriven_drive _

end State

end Sys2Proof.Machine
end

