-- ==== Sys2Proof/Laws/Events.lean ====
section
/-! SUPPORT. Every operation that a command's meaning is made of keeps the invariants of the part (`Evolves`), block
by block up to the commands themselves. -/

namespace Sys2Proof.Machine

set_option Elab.async false

theorem Evolves.foldl {α : Type} (f : State → α → State) (h : ∀ s x, Evolves s (f s x)) :
    ∀ (l : List α) (s : State), Evolves s (l.foldl f s)
  | [], s => Evolves.refl s
  | x :: l, s => (h s x).trans (Evolves.foldl f h l (f s x))

/-! ## The cause record (R161) -/

theorem causesOk_nil : causesOk [] := ⟨List.nodup_nil, by simp⟩

theorem causesOk_addCause {cs : List Cause} (line : Fin 5) (h : causesOk cs) : causesOk (addCause cs line) := by
  unfold addCause
  split
  · have hmap : (cs.map fun c => if c.line = line then { c with count := min (c.count + 1) 15 } else c).map Cause.line =
        cs.map Cause.line := by
      rw [List.map_map]
      apply List.map_congr_left
      intro c _
      simp only [Function.comp_apply]
      split <;> rfl
    refine ⟨by rw [hmap]; exact h.1, fun c hc => ?_⟩
    obtain ⟨d, hd, rfl⟩ := List.mem_map.mp hc
    have := h.2 d hd
    split
    · simp only; omega
    · exact this
  · rename_i hnot
    have hline : ∀ c ∈ cs, c.line ≠ line := by
      intro c hc heq
      exact hnot (List.any_eq_true.mpr ⟨c, hc, by simpa using heq⟩)
    refine ⟨?_, fun c hc => ?_⟩
    · rw [List.map_append]
      refine List.nodup_append.mpr ⟨h.1, by simp, fun a ha b hb => ?_⟩
      obtain ⟨c, hc, rfl⟩ := List.mem_map.mp ha
      rw [List.map_singleton, List.mem_singleton] at hb
      rw [hb]
      exact hline c hc
    · rcases List.mem_append.mp hc with hc | hc
      · exact h.2 c hc
      · rw [List.mem_singleton.mp hc]
        exact ⟨Nat.le_refl 1, (by decide : (1 : Nat) ≤ 15)⟩

/-! ## Standby power-on -/

theorem DramPort.inRange_reset : DramPort.reset.inRange := by simp [DramPort.inRange, DramPort.reset]

theorem FaultUnit.agrees_reset : FaultUnit.reset.agrees := by simp [FaultUnit.agrees, FaultUnit.reset]

theorem ImageEngine.inRange_reset : ImageEngine.reset.inRange := by simp [ImageEngine.inRange, ImageEngine.reset]

theorem Params.inRange_default : Params.default.inRange := by simp [Params.inRange, Params.default]

namespace State

/-! ## Replies -/

theorem evolves_putReply (s : State) (command : Nat) (code : ReplyCode) (data : List Byte) :
    Evolves s (s.putReply command code data) := s.evolves_setSide _

theorem evolves_putDeferred (s : State) (command : Nat) (code : ReplyCode) :
    Evolves s (s.putDeferred command code) := s.evolves_setSide _

/-! ## Accesses performed -/

theorem evolves_writeDram (s : State) (line : Nat) (bs : List (Option Byte)) : Evolves s (s.writeDram line bs) :=
  s.evolves_setDram _ (DramPort.wf_writeRun _ _ _) id

theorem evolves_performLine (s : State) (o : Owner) (line : Nat) : Evolves s (s.performLine o line) := by
  unfold performLine
  dsimp only
  split
  · exact s.evolves_setStore _
  · exact (s.evolves_writeDram _ _).trans (evolves_setEngine _ _)
  · exact s.evolves_writeDram _ _
  · exact s.evolves_writeDram _ _
  · split
    · exact s.evolves_setRegion _
    · exact s.evolves_setTc _
  · exact (s.evolves_writeDram _ _).trans (evolves_setDram _ _)
  · exact s.evolves_setDram _

theorem evolves_performed (s : State) (tag : BitVec 5) (live : Bool) (data : List Byte) :
    Evolves s (s.performed tag live data) := by
  unfold performed
  split
  · exact (s.calm_updateEntry tag (fun e => { e with st := .issued (some data) }) fun _ _ => rfl).toEvolves
  · exact .refl s

theorem evolves_perform (s : State) (a : Access) : Evolves s (s.perform a) := by
  unfold perform
  dsimp only
  split
  · exact (s.evolves_setDram _).trans (evolves_performed _ _ _ _)
  · exact ((s.evolves_setDram _).trans (evolves_writeDram _ _ _)).trans (evolves_performed _ _ _ _)
  · exact (s.evolves_setDram _).trans (evolves_performLine _ _ _)

/-! ## Store DOWN -/

theorem evolves_finishAttach (s : State) (reply : ReplyCode) (result : OutcomeResult) (reason : OutcomeReason) :
    Evolves s (s.finishAttach reply result reason) :=
  ((s.evolves_setEngine _).trans (evolves_putDeferred _ _ _)).trans (evolves_setTc _ _)

theorem evolves_tellStoreDown (s : State) : Evolves s s.tellStoreDown := by
  unfold tellStoreDown
  split
  · split
    · exact s.calm_endCommit.toEvolves
    · exact (s.calm_failEntry _).toEvolves
  · split
    · exact .refl s
    · exact (s.calm_failEntry _).toEvolves
  · split
    · exact .refl s
    · exact (s.calm_finishStart _ _).toEvolves
  · exact s.evolves_setTc _
  · split
    · exact s.evolves_finishAttach _ _ _
    · exact .refl s

theorem evolves_storeDown (s : State) (reason : StoreReason) : Evolves s (s.storeDown reason) := by
  unfold storeDown
  dsimp only
  refine Evolves.trans ?_ (evolves_tellStoreDown _)
  refine Evolves.calm ?_ (calm_report _ _ _ _)
  refine Evolves.calm ?_ (calm_leftAbsent _ _)
  refine Evolves.trans ?_ (evolves_setEngine _ _ fun h => ⟨h.1.filter _, h.2⟩)
  exact (((s.evolves_setStore _).calm (calm_claimAbandon _)).calm (calm_claimStoreDown _)).calm (calm_withdraw _ _)

/-! ## Copies, fills, mark clears and commits -/

theorem evolves_copyGood (s : State) (g : Nat) : Evolves s (s.copyGood g) :=
  ((s.calm_withdraw _).trans (calm_claimCopyGood _ _)).toEvolves

theorem evolves_copyBad (s : State) (g slot : Nat) : Evolves s (s.copyBad g slot) := by
  unfold copyBad
  dsimp only
  split
  · exact (s.calm_withdraw _).toEvolves.trans (evolves_storeDown _ _)
  · exact ((((s.calm_withdraw _).trans (calm_claimCopyLost _ _)).trans (calm_retireSlot _ _)).trans
      (calm_report _ _ _ _)).toEvolves

theorem calm_dropFill (s : State) (g : Nat) : Calm s (s.dropFill g) := s.calm_setEngine _

theorem evolves_fillArrives (s : State) (g : Nat) (block : Frame) : Evolves s (s.fillArrives g block) :=
  ((s.calm_setEngine _).trans (calm_present _ _ _)).toEvolves

theorem evolves_fillGood (s : State) (g : Nat) : Evolves s (s.fillGood g) :=
  (((s.calm_dropFill g).trans (calm_claimFillGood _ _)).trans (calm_leftAbsent _ _)).toEvolves

theorem evolves_zeroFillGood (s : State) (g : Nat) : Evolves s (s.zeroFillGood g) :=
  (((s.calm_setEngine _).trans (calm_claimFillGood _ _)).trans (calm_leftAbsent _ _)).toEvolves

theorem evolves_fillBad (s : State) (g : Nat) : Evolves s (s.fillBad g) := by
  unfold fillBad
  dsimp only
  split
  · exact (s.calm_dropFill g).toEvolves.trans (evolves_storeDown _ _)
  · exact (((((s.calm_dropFill g).trans (calm_claimFillBad _ _)).trans (calm_retireSlot _ _)).trans
      (calm_report _ _ _ _)).trans (calm_leftAbsent _ _)).toEvolves

theorem evolves_markCleared (s : State) : Evolves s s.markCleared := s.evolves_setEngine _

theorem evolves_indexWritten (s : State) : Evolves s s.indexWritten := s.evolves_setEngine _

theorem evolves_commitDone (s : State) : Evolves s s.commitDone :=
  (((s.evolves_setEngine _).calm (calm_claimCommit _)).calm (calm_setEngine _ _)).calm (calm_endCommit _)

theorem evolves_nextPass (s : State) (addr : Nat) (hp : s.engine.passes < Config.maxPasses) :
    Evolves s (s.nextPass addr) := by
  unfold nextPass
  dsimp only
  refine Evolves.calm ?_ (calm_releaseAll _ _)
  refine Evolves.calm ?_ (calm_enterState _ _)
  split
  · exact s.evolves_setEngine _ fun h => ⟨h.1, hp⟩
  · exact (s.calm_report _ _ _).toEvolves.trans (evolves_setEngine _ _ fun h => ⟨h.1, hp⟩)

theorem evolves_hibernated (s : State) : Evolves s s.hibernated :=
  ((s.calm_enterImagedOff).trans (calm_writeOutcome _ _ _ _)).toEvolves

theorem evolves_commitDecision (s : State) : Evolves s s.commitDecision := by
  unfold commitDecision
  split
  · exact .refl s
  · split
    · exact (s.calm_returnEntry _).toEvolves
    · split
      · split
        · exact s.evolves_hibernated
        · exact s.calm_enterParking.toEvolves
      · split
        · exact s.evolves_nextPass _ (by assumption)
        · exact ((s.calm_report _ _ _).trans (calm_failEntry _ _)).toEvolves

/-! ## The steps of START and ATTACH_STORE -/

theorem evolves_nextStep (s : State) (b : BringUp) : Evolves s (s.nextStep b) := s.evolves_setEngine _

theorem evolves_stepFailed (s : State) (b : BringUp) (reason : StoreReason) : Evolves s (s.stepFailed b reason) := by
  unfold stepFailed
  split
  · exact (s.calm_resumeFail _).toEvolves
  · exact s.evolves_storeDown _

theorem evolves_capacityFails (s : State) (b : BringUp) : Evolves s (s.capacityFails b) := by
  unfold capacityFails
  split
  · exact (s.evolves_setEngine _).trans (evolves_finishAttach _ _ _ _)
  · exact (s.evolves_setEngine _).calm (calm_finishStart _ _ _)

theorem evolves_adopt (s : State) (b : BringUp) : Evolves s (s.adopt b) := by
  unfold adopt
  dsimp only
  split
  · exact (s.evolves_setEngine _).trans (evolves_nextStep _ _)
  · exact (s.evolves_setEngine _).trans (evolves_capacityFails _ _)

theorem evolves_judgeHeader (s : State) (b : BringUp) : Evolves s (s.judgeHeader b) := by
  unfold judgeHeader
  split
  · exact (s.calm_resumeFail _).toEvolves
  · split
    · exact (s.calm_resumeFail _).toEvolves
    · exact s.evolves_nextStep _

theorem evolves_resumeDone (s : State) (b : BringUp) (h : Header) (index : List IndexEntry) :
    Evolves s (s.resumeDone b h index) :=
  (((s.calm_setRegion _).trans (calm_claimResume _ _)).toEvolves.trans (evolves_setEngine _ _)).trans
    ((evolves_setStore _ _).calm (calm_finishStart _ _ _))

theorem evolves_judgeIndex (s : State) (b : BringUp) (block : Frame) : Evolves s (s.judgeIndex b block) := by
  unfold judgeIndex
  split
  · exact (s.calm_resumeFail _).toEvolves
  · split
    · exact (s.calm_resumeFail _).toEvolves
    · split
      · exact (s.calm_resumeFail _).toEvolves
      · split
        · exact s.evolves_resumeDone _ _ _
        · exact (s.calm_resumeFail _).toEvolves

theorem evolves_attached (s : State) (b : BringUp) : Evolves s (s.attached b) := by
  unfold attached
  dsimp only
  split
  · exact ((s.evolves_setEngine _).trans (evolves_setStore _ _)).trans (evolves_finishAttach _ _ _ _)
  · exact ((s.evolves_setEngine _).trans (evolves_setStore _ _)).calm (calm_finishStart _ _ _)

theorem evolves_stepGood (s : State) (b : BringUp) (f : Frame) : Evolves s (s.stepGood b f) := by
  unfold stepGood
  split
  · split
    · exact s.evolves_nextStep _
    · exact s.evolves_stepFailed _ _
  · exact s.evolves_nextStep _
  · dsimp only
    split
    · exact s.evolves_judgeHeader _
    · exact s.evolves_adopt _
  · exact s.evolves_judgeIndex _ _
  · exact s.evolves_nextStep _
  · exact s.evolves_attached _

theorem evolves_stepBad (s : State) (b : BringUp) : Evolves s (s.stepBad b) := by
  unfold stepBad
  split <;> exact s.evolves_stepFailed _ _

theorem evolves_stepExpired (s : State) (b : BringUp) : Evolves s (s.stepExpired b) := by
  unfold stepExpired
  split <;> exact s.evolves_stepFailed _ _

/-! ## Loads -/

theorem evolves_endLoad (s : State) (reply : ReplyCode) : Evolves s (s.endLoad reply) :=
  ((s.evolves_setRegion _).calm (calm_releaseAll _ _)).trans (evolves_putDeferred _ _ _)

theorem evolves_applyLoad (s : State) (file : RegionFile) : Evolves s (s.applyLoad file) :=
  (((s.calm_claimAbandon).trans (calm_setRegion _ _)).trans (calm_claimReload _)).toEvolves

theorem evolves_loadFetched (s : State) (l : Load) : Evolves s (s.loadFetched l) := by
  unfold loadFetched
  dsimp only
  split
  · exact (s.evolves_applyLoad _).trans (evolves_endLoad _ _)
  · exact s.evolves_endLoad _

theorem evolves_acceptStart (s : State) (r : StartReq) : Evolves s (s.acceptStart r) :=
  ((((s.calm_setOrigin _).trans (calm_setTc _ _)).trans (calm_setRegion _ { file := RegionFile.empty, load := _ })).trans
    (calm_setTracker _ { Tracker.reset with units := r.units } (fun _ => Tracker.counted_reset)
      fun _ => Tracker.sound_reset)).toEvolves.trans ((evolves_setEngine _ _).trans (evolves_putDeferred _ _ _))

theorem evolves_refuseStart (s : State) (reply : ReplyCode) : Evolves s (s.refuseStart reply) :=
  (s.evolves_setTc _).trans (evolves_putDeferred _ _ _)

theorem evolves_startFetched (s : State) (r : StartReq) : Evolves s (s.startFetched r) := by
  unfold startFetched
  dsimp only
  split
  · exact s.evolves_refuseStart _
  · split
    · exact (s.evolves_acceptStart r).calm ((calm_setRegion _ _).trans (calm_claimReload _))
    · exact s.evolves_refuseStart _

/-! ## The DRAM Port -/

theorem evolves_checkFails (s : State) : Evolves s s.checkFails :=
  (((s.calm_markDramLoss).trans (calm_report _ _ _ _)).trans ((calm_enterRunning _).trans
    (calm_writeOutcome _ _ _ _))).toEvolves

theorem evolves_checkPasses (s : State) : Evolves s s.checkPasses :=
  ((s.calm_enterRunning).trans (calm_writeOutcome _ _ _ _)).toEvolves

theorem evolves_compareDone (s : State) : Evolves s s.compareDone := by
  have h : Evolves s (s.setDram
      { s.dram with lastErrors := min s.dram.mismatches 65535, checkPhase := .idle }) :=
    s.evolves_setDram _ id fun h => ⟨h.1, Nat.min_le_right _ _, h.2.2⟩
  unfold compareDone
  dsimp only
  split
  · exact h.trans (evolves_checkPasses _)
  · exact h.trans (evolves_checkFails _)

theorem evolves_beginCompare (s : State) : Evolves s s.beginCompare :=
  (s.evolves_setDram _).calm (calm_present _ _ _)

theorem evolves_patternDone (s : State) : Evolves s s.patternDone := by
  unfold patternDone
  split
  · exact ((s.calm_setDram _).trans (calm_parkReturn _ _)).toEvolves
  · exact s.calm_beginSelfRefresh.toEvolves

theorem evolves_fetchDone (s : State) : Evolves s s.fetchDone := by
  unfold fetchDone
  split
  · exact s.evolves_loadFetched _
  · exact s.evolves_startFetched _
  · exact .refl s

theorem evolves_transferEnd (s : State) (o : Owner) : Evolves s (s.transferEnd o) := by
  unfold transferEnd
  split
  · exact .refl s
  · exact .refl s
  · exact s.evolves_fillGood _
  · split
    · exact s.evolves_zeroFillGood _
    · exact .refl s
  · exact s.evolves_fetchDone
  · exact s.evolves_patternDone
  · exact s.evolves_compareDone

theorem evolves_transferOver (s : State) (o : Owner) : Evolves s (s.transferOver o) := by
  unfold transferOver
  split
  · exact .refl s
  · exact .refl s
  · exact (s.evolves_transferEnd _).calm (calm_settle _)

theorem evolves_afterLine (s : State) (o : Owner) (line : Nat) : Evolves s (s.afterLine o line) := by
  unfold afterLine
  split
  · exact s.evolves_transferOver _
  · exact (s.calm_present _ _).toEvolves

theorem runAfter_le (queue : List Access) (run : Nat) (a : Access) : runAfter queue run a ≤ Config.maxRun := by
  unfold runAfter
  split
  · exact Nat.min_le_right _ _
  · exact Nat.zero_le _

theorem evolves_serve (s : State) (a : Access) : Evolves s (s.serve a) := by
  have h : Evolves s ((s.perform a).setDram
      { (s.perform a).dram with runCount := runAfter s.dram.queue s.dram.runCount a }) :=
    (s.evolves_perform a).trans (evolves_setDram _ _ id fun h => ⟨h.1, h.2.1, runAfter_le _ _ _⟩)
  unfold serve
  dsimp only
  split
  · exact h.trans (evolves_afterLine _ _ _)
  · exact h

theorem evolves_serveUntil (stop : Access → Bool) : ∀ (fuel : Nat) (s : State), Evolves s (serveUntil stop fuel s)
  | 0, s => .refl s
  | fuel + 1, s => by
    unfold serveUntil
    split
    · exact .refl s
    · split
      · exact s.evolves_serve _
      · exact (s.evolves_serve _).trans (evolves_serveUntil stop fuel _)

theorem evolves_runTransfer (s : State) (o : Owner) (a : Access) : Evolves s (s.runTransfer o a) :=
  evolves_serveUntil _ _ s

theorem evolves_lastLine (s : State) (o : Owner) : Evolves s (s.lastLine o) := by
  unfold lastLine
  split
  · split
    · exact (s.evolves_runTransfer _ _).calm (calm_settle _)
    · exact .refl s
  · exact .refl s

theorem evolves_sendPerformed (s : State) (tag : BitVec 5) : Evolves s (s.sendPerformed tag) := by
  unfold sendPerformed
  split
  · exact (s.calm_complete _ _).toEvolves
  · exact .refl s

theorem evolves_upstreamAccessDone (s : State) (tag : BitVec 5) : Evolves s (s.upstreamAccessDone tag) := by
  unfold upstreamAccessDone
  split
  · exact (s.evolves_sendPerformed _).calm (calm_settle _)
  · split
    · exact ((evolves_serveUntil _ _ s).trans (evolves_sendPerformed _ _)).calm (calm_settle _)
    · exact .refl s

theorem evolves_engineAccessDone (s : State) : Evolves s s.engineAccessDone := by
  unfold engineAccessDone
  split
  · exact (evolves_serveUntil _ _ s).calm (calm_settle _)
  · exact .refl s

theorem evolves_regionFetchEnd (s : State) : Evolves s s.regionFetchEnd := by
  unfold regionFetchEnd
  split
  · exact s.evolves_lastLine _
  · exact .refl s

theorem evolves_startTableFetchEnd (s : State) : Evolves s s.startTableFetchEnd := by
  unfold startTableFetchEnd
  split
  · exact .refl s
  · exact s.evolves_lastLine _

theorem evolves_dramBringupEnd (s : State) (installed : Nat) : Evolves s (s.dramBringupEnd installed) := by
  unfold dramBringupEnd
  split
  · have h : Evolves s (s.setDram
        { s.dram with
          cond := .up, runCount := 0, mem := [], bringUps := s.dram.bringUps + 1, installed := installed }) :=
      s.evolves_setDram _ (fun _ => Memory.wf_nil) fun h => ⟨h.1, h.2.1, Nat.zero_le _⟩
    dsimp only
    split
    · exact ((h.calm (calm_enterRunning _)).calm (calm_writeOutcome _ _ _ _)).calm (calm_settle _)
    · exact h.calm (calm_settle _)
  · exact .refl s

theorem evolves_selfRefreshEntryEnd (s : State) : Evolves s s.selfRefreshEntryEnd := by
  unfold selfRefreshEntryEnd
  split
  · split
    · exact ((s.calm_setDram _).trans (calm_settle _)).toEvolves
    · exact (((s.calm_setDram _).trans (calm_enterSleeping _)).trans (calm_settle _)).toEvolves
  · exact .refl s

theorem decay_inRange (flips : List Host.Cell) :
    ∀ d : DramPort, d.inRange → (d.decay flips).inRange := by
  induction flips with
  | nil => intro d h; exact h
  | cons c flips ih =>
    intro d h
    rw [DramPort.decay, List.foldl_cons, ← DramPort.decay]
    apply ih
    split
    · exact h
    · exact h

theorem evolves_selfRefreshExitEnd (s : State) (decay : List Host.Cell) :
    Evolves s (s.selfRefreshExitEnd decay) := by
  unfold selfRefreshExitEnd
  split
  · have h : Evolves s (s.setDram { s.dram.decay decay with cond := .up }) :=
      s.evolves_setDram _ (DramPort.wf_decay _ _) (decay_inRange _ _)
    dsimp only
    split
    · exact (h.calm (calm_parkReturn _ _)).calm (calm_settle _)
    · exact (h.trans (evolves_beginCompare _)).calm (calm_settle _)
  · exact .refl s

/-! ## The ends of store operations -/

theorem evolves_disregardedEnd (s : State) (o : StoreOp) : Evolves s (s.disregardedEnd o) := by
  unfold disregardedEnd
  split
  · split
    · exact (s.calm_appendSlots _).toEvolves
    · exact .refl s
  · exact .refl s

theorem evolves_opGood (s : State) (o : StoreOp) (f : Frame) : Evolves s (s.opGood o f) := by
  unfold opGood
  split
  · exact s.evolves_copyGood _
  · exact s.evolves_fillArrives _ _
  · exact s.evolves_markCleared
  · exact s.evolves_indexWritten
  · exact s.evolves_commitDone.trans (evolves_commitDecision _)
  · split
    · exact s.evolves_stepGood _ _
    · exact .refl s

theorem evolves_opBad (s : State) (o : StoreOp) : Evolves s (s.opBad o) := by
  unfold opBad
  split
  · exact s.evolves_copyBad _ _
  · exact s.evolves_fillBad _
  · exact s.evolves_storeDown _
  · exact s.evolves_storeDown _
  · exact s.evolves_storeDown _
  · split
    · exact s.evolves_stepBad _
    · exact .refl s

theorem evolves_opExpired (s : State) (o : StoreOp) : Evolves s (s.opExpired o) := by
  unfold opExpired
  split
  · exact (s.calm_withdraw _).toEvolves.trans (evolves_storeDown _ _)
  · exact s.evolves_storeDown _
  · exact s.evolves_storeDown _
  · exact s.evolves_storeDown _
  · exact s.evolves_storeDown _
  · split
    · exact s.evolves_stepExpired _
    · exact .refl s

theorem evolves_endOp (s : State) (timer : Timer) : Evolves s (s.endOp timer) :=
  (s.evolves_setSent _).trans (evolves_setStore _ _)

theorem evolves_endHoldBack (s : State) (timer : Timer) : Evolves s (s.endHoldBack timer) := s.evolves_setStore _

theorem evolves_copyRead (s : State) : Evolves s s.copyRead := by
  unfold copyRead
  split
  · split
    · exact s.evolves_runTransfer _ _
    · exact .refl s
  · exact .refl s

theorem evolves_readOut (s : State) (o : StoreOp) (f : Frame) : Evolves s (s.readOut o f) := by
  unfold readOut
  split
  · split
    · exact evolves_copyRead s
    · exact .refl s
  · exact .refl s

theorem evolves_answered (s : State) (o : StoreOp) (f : Frame) : Evolves s (s.answered o f) := by
  have h := (s.evolves_readOut o f).trans (evolves_endOp _ Timer.stopped)
  unfold answered
  dsimp only
  split
  · exact h.trans (evolves_disregardedEnd _ _)
  · split
    · exact h.trans (evolves_opGood _ _ _)
    · exact h.trans (evolves_opBad _ _)

theorem evolves_storeResponse (s : State) (f : Frame) : Evolves s (s.storeResponse f) := by
  unfold storeResponse
  split
  · split
    · exact (s.evolves_endHoldBack _).calm (calm_settle _)
    · exact .refl s
  · split
    · split
      · exact (s.evolves_answered _ _).calm (calm_settle _)
      · exact .refl s
    · exact .refl s

theorem evolves_expired (s : State) (o : StoreOp) : Evolves s (s.expired o) := by
  unfold expired
  dsimp only
  split
  · exact (s.evolves_endOp _).trans (evolves_disregardedEnd _ _)
  · exact (s.evolves_endOp _).trans (evolves_opExpired _ _)

theorem evolves_storeTimerExpiry (s : State) : Evolves s s.storeTimerExpiry := by
  unfold storeTimerExpiry
  split
  · split
    · exact (s.evolves_endHoldBack _).calm (calm_settle _)
    · split
      · exact (s.evolves_expired _).calm (calm_settle _)
      · exact .refl s
  · exact .refl s

/-! ## Traffic -/

theorem evolves_joinTable (s : State) (e : Entry) (h : s.ru.find e.tag = none) : Evolves s (s.joinTable e) :=
  s.evolves_setRu _ fun hd => by
    unfold RequestUnit.tagsDistinct at hd ⊢
    rw [List.map_append]
    refine List.nodup_append.mpr ⟨hd, by simp, fun a ha b hb => ?_⟩
    obtain ⟨x, hx, rfl⟩ := List.mem_map.mp ha
    rw [List.map_singleton, List.mem_singleton] at hb
    rw [hb]
    have := List.find?_eq_none.mp h x hx
    simpa using this

theorem evolves_acceptRequest (s : State) (packet : List Byte) (kind : ReqKind)
    (h : s.ru.find (packetTag packet) = none) : Evolves s (s.acceptRequest packet kind) := by
  unfold acceptRequest
  dsimp only
  split
  · exact (s.evolves_joinTable _ h).calm (calm_takeUp _ _)
  · split
    · exact s.evolves_joinTable _ h
    · split
      · exact (s.evolves_joinTable _ h).calm (calm_parkAbort _ _)
      · exact (s.evolves_joinTable _ h).calm (calm_takeUp _ _)

theorem evolves_upstreamRequest (s : State) (packet : List Byte) : Evolves s (s.upstreamRequest packet) := by
  unfold upstreamRequest
  split
  · rename_i kind hk
    unfold accepts at hk
    split at hk
    · rename_i hc
      exact (s.evolves_acceptRequest _ _ hc.2).calm (calm_settle _)
    · simp at hk
  · exact (s.calm_report _ _ _).toEvolves

theorem evolves_linkReset (s : State) : Evolves s s.linkReset := ((s.calm_discardTable).trans (calm_settle _)).toEvolves

/-! ## Rails and the standby rail -/

theorem evolves_setRail (s : State) (r : Rail) (level : Bool) : Evolves s (s.setRail r level) := by
  unfold setRail
  split <;> exact s.evolves_setLines _

theorem calm_dropDram (s : State) : Calm s s.dropDram := s.calm_setDram _

theorem evolves_endFetchByRail (s : State) : Evolves s s.endFetchByRail := by
  unfold endFetchByRail
  split
  · exact s.evolves_refuseStart _
  · exact .refl s

theorem evolves_endStartByRail (s : State) : Evolves s s.endStartByRail := by
  unfold endStartByRail
  split
  · exact (s.evolves_endFetchByRail.calm (calm_toUnconfigured _)).calm (calm_writeOutcome _ _ _ _)
  · exact s.evolves_endFetchByRail

theorem evolves_unconfiguredFall (s : State) : Evolves s s.unconfiguredFall :=
  ((s.calm_discardTable).trans (calm_dropDram _)).toEvolves.trans (evolves_endStartByRail _)

theorem calm_dropCopy (s : State) : Calm s s.dropCopy := by
  unfold dropCopy
  split
  · exact .refl s
  · split
    · split
      · exact .refl s
      · exact s.calm_claimCopyLost _
    · exact .refl s

theorem evolves_endByRailLoss (s : State) : Evolves s s.endByRailLoss := by
  have h1 : Evolves s (if s.loading then (s.setRegion { s.region with load := none }).putDeferred 2 .wrongState
      else s) := by
    split
    · exact (s.evolves_setRegion _).trans (evolves_putDeferred _ _ _)
    · exact .refl s
  have h2 : ∀ t : State, Evolves t (if t.attaching then t.putDeferred 3 .storeUnavailable else t) := by
    intro t
    split
    · exact t.evolves_putDeferred _ _
    · exact .refl t
  have h3 : ∀ t : State, Evolves t (if t.engine.bringUp.isSome then t.disregardOp else t) := by
    intro t
    split
    · exact t.calm_disregardOp.toEvolves
    · exact .refl t
  exact ((((h1.trans (evolves_endFetchByRail _)).trans (h2 _)).trans (h3 _)).trans (evolves_setEngine _ _)).trans (evolves_setTc _ _)

theorem evolves_takeRailLoss (s : State) : Evolves s s.takeRailLoss := by
  unfold takeRailLoss
  dsimp only
  refine Evolves.trans ?_ (evolves_endByRailLoss _)
  refine Evolves.calm ?_ (calm_report _ _ _ _)
  refine Evolves.calm ?_ (calm_setEngine _ _)
  refine Evolves.calm ?_ (calm_disregardTransfers _)
  refine Evolves.calm ?_ (calm_dropCopy _)
  refine Evolves.calm ?_ (calm_dropDram _)
  exact ((s.calm_setTc _).trans (calm_discardTable _)).toEvolves

theorem evolves_railFall (s : State) (r : Rail) : Evolves s (s.railFall r) := by
  unfold railFall
  dsimp only
  split
  · have h := s.evolves_setRail r false
    split
    · exact h.calm (calm_drive _)
    · split
      · exact (h.trans (evolves_unconfiguredFall _)).calm (calm_settle _)
      · split
        · exact (h.trans (evolves_takeRailLoss _)).calm (calm_settle _)
        · exact h
  · exact .refl s

theorem evolves_railRise (s : State) (r : Rail) : Evolves s (s.railRise r) := by
  have h := s.evolves_setRail r true
  unfold railRise
  dsimp only
  split
  · exact (h.calm (calm_bringUpIfReady _)).calm (calm_settle _)
  · exact h

theorem evolves_powerOn (s : State) : Evolves s s.powerOn :=
  ⟨rfl, fun _ => Memory.wf_nil, fun _ => DramPort.inRange_reset, fun _ => Tracker.counted_reset,
    fun _ => Tracker.sound_reset, fun _ => FaultUnit.agrees_reset, fun _ => List.nodup_nil, fun _ => causesOk_nil,
    fun _ => ImageEngine.inRange_reset, fun _ => Params.inRange_default⟩

theorem evolves_standbyPowerOn (s : State) : Evolves s s.standbyPowerOn :=
  s.evolves_powerOn.calm (calm_bringUpIfReady _)

theorem evolves_resetPart (s : State) : Evolves s s.resetPart :=
  ((s.evolves_powerOn.trans (evolves_setStore _ _)).trans (evolves_putReply _ _ _ _)).calm (calm_bringUpIfReady _)

/-! ## Wake lines and timers -/

theorem evolves_actOnWake (s : State) : Evolves s s.actOnWake := by
  have hin : ∀ abort : State → State, (∀ t, Evolves t (abort t)) → Evolves s (s.wakeInEntry abort) := by
    intro abort ha
    unfold wakeInEntry
    split
    · exact s.evolves_setWake _
    · split
      · exact .refl s
      · split
        · exact ha s
        · exact s.evolves_setWake _
  unfold actOnWake
  split
  · exact hin _ fun t => t.evolves_setTc _
  · exact hin _ fun t => t.evolves_setTc _
  · exact hin _ fun t => (t.calm_parkAbort _).toEvolves
  · exact s.evolves_setWake _
  · exact s.evolves_setWake _
  all_goals exact .refl s

theorem evolves_qualify (s : State) (line : Fin 5) : Evolves s (s.qualify line) :=
  (s.evolves_setWake { s.wake with causes := addCause s.wake.causes line } (causesOk_addCause line)).trans
    (evolves_actOnWake _)

theorem evolves_lineMoved (s : State) (line : Fin 5) (l : WakeLine × Bool) : Evolves s (s.lineMoved line l) := by
  unfold lineMoved
  dsimp only
  split
  · exact ((s.evolves_setWake _).trans (evolves_qualify _ _)).calm (calm_settle _)
  · exact s.evolves_setWake _

theorem evolves_wkAssert (s : State) (line : Fin 5) : Evolves s (s.wkAssert line) := by
  unfold wkAssert
  split
  · exact .refl s
  · exact s.evolves_lineMoved _ _

theorem evolves_wkDeassert (s : State) (line : Fin 5) : Evolves s (s.wkDeassert line) := by
  unfold wkDeassert
  split
  · exact s.evolves_setWake _
  · exact .refl s

theorem evolves_holdTimerExpiry (s : State) (line : Fin 5) : Evolves s (s.holdTimerExpiry line) := by
  unfold holdTimerExpiry
  split
  · exact s.evolves_lineMoved _ _
  · exact .refl s

theorem evolves_paceExpires (s : State) : Evolves s s.paceExpires := by
  unfold paceExpires noteExhaustion
  split
  · split
    · exact ((s.calm_setEngine _).trans ((calm_report _ _ _ _).trans (calm_setEngine _ _))).toEvolves
    · exact s.evolves_setEngine _
  · exact s.evolves_setEngine _

theorem evolves_paceTimerExpiry (s : State) : Evolves s s.paceTimerExpiry := by
  unfold paceTimerExpiry
  split
  · exact s.evolves_paceExpires.calm (calm_settle _)
  · exact .refl s

theorem evolves_fillTimerExpiry (s : State) : Evolves s s.fillTimerExpiry := by
  unfold fillTimerExpiry
  split
  · exact ((s.calm_setEngine _).trans (calm_settle _)).toEvolves
  · exact .refl s

theorem evolves_escalate (s : State) : Evolves s s.escalate := by
  unfold escalate
  split
  · exact (((s.calm_setOrigin _).trans (calm_enterImagedOff _)).trans (calm_writeOutcome _ _ _ _)).toEvolves
  · exact (s.evolves_setTc _).trans (evolves_setWake _ _)

theorem evolves_sleepTimerExpiry (s : State) : Evolves s s.sleepTimerExpiry := by
  unfold sleepTimerExpiry
  split
  · exact s.evolves_escalate.calm (calm_settle _)
  · exact .refl s

/-- One ms without a command keeps every invariant. -/
theorem evolves_idle (s : State) : Evolves s s.idle :=
  (((s.evolves_setEngine _).trans (evolves_setStore _ _)).trans (evolves_setTc _ _)).trans (evolves_setWake _ _)

end State

end Sys2Proof.Machine
end

