-- ==== Sys2Proof/Laws/Choices.lean ====
section
/-! SUPPORT. What the choices at the end of a step can do (`Chooses`), and what `settle` is in the states in which no
test of the Transition Controller has anything to do. -/

namespace Sys2Proof.Machine

set_option Elab.async false

/-- `t` comes from `s` by choices of the store arbiter and the zero fill: the blocks that they leave as they were, and
the DRAM Port's queue, which they only add to. -/
structure Chooses (s t : State) : Prop where
  pending : t.pending = s.pending
  ru : t.ru = s.ru
  region : t.region = s.region
  tc : t.tc = s.tc
  wake : t.wake = s.wake
  faults : t.faults = s.faults
  side : t.side = s.side
  lines : t.lines = s.lines
  sent : t.sent = s.sent
  dram : t.dram = { s.dram with queue := t.dram.queue }
  queue : s.dram.queue <+: t.dram.queue
  units : t.tracker.units = s.tracker.units
  status : t.store.status = s.store.status
  holdBack : t.store.holdBack = s.store.holdBack
  retired : t.engine.retired = s.engine.retired
  epoch : t.engine.epoch = s.engine.epoch
  passes : t.engine.passes = s.engine.passes
  presaveOn : t.engine.presaveOn = s.engine.presaveOn
  presavePaused : t.engine.presavePaused = s.engine.presavePaused
  commitPhase : t.engine.commitPhase = s.engine.commitPhase
  builtIndex : t.engine.builtIndex = s.engine.builtIndex
  headerRecord : t.engine.headerRecord = s.engine.headerRecord
  bringUp : t.engine.bringUp = s.engine.bringUp

theorem Chooses.refl (s : State) : Chooses s s :=
  ⟨rfl, rfl, rfl, rfl, rfl, rfl, rfl, rfl, rfl, rfl, List.prefix_refl _, rfl, rfl, rfl, rfl, rfl, rfl, rfl, rfl, rfl,
    rfl, rfl, rfl⟩

theorem Chooses.trans {s t u : State} (a : Chooses s t) (b : Chooses t u) : Chooses s u :=
  ⟨b.pending.trans a.pending, b.ru.trans a.ru, b.region.trans a.region, b.tc.trans a.tc, b.wake.trans a.wake,
    b.faults.trans a.faults, b.side.trans a.side, b.lines.trans a.lines, b.sent.trans a.sent,
    by rw [b.dram, a.dram], a.queue.trans b.queue, b.units.trans a.units, b.status.trans a.status,
    b.holdBack.trans a.holdBack, b.retired.trans a.retired, b.epoch.trans a.epoch, b.passes.trans a.passes,
    b.presaveOn.trans a.presaveOn, b.presavePaused.trans a.presavePaused, b.commitPhase.trans a.commitPhase,
    b.builtIndex.trans a.builtIndex, b.headerRecord.trans a.headerRecord, b.bringUp.trans a.bringUp⟩

namespace State

/-! ## The updates that choices make -/

theorem chooses_setEngine (s : State) (x : ImageEngine)
    (h : x.retired = s.engine.retired ∧ x.epoch = s.engine.epoch ∧ x.passes = s.engine.passes ∧
      x.presaveOn = s.engine.presaveOn ∧ x.presavePaused = s.engine.presavePaused ∧
      x.commitPhase = s.engine.commitPhase ∧ x.builtIndex = s.engine.builtIndex ∧
      x.headerRecord = s.engine.headerRecord ∧ x.bringUp = s.engine.bringUp := by
      exact ⟨rfl, rfl, rfl, rfl, rfl, rfl, rfl, rfl, rfl⟩) : Chooses s (s.setEngine x) :=
  ⟨rfl, rfl, rfl, rfl, rfl, rfl, rfl, rfl, rfl, rfl, List.prefix_refl _, rfl, rfl, rfl, h.1, h.2.1, h.2.2.1,
    h.2.2.2.1, h.2.2.2.2.1, h.2.2.2.2.2.1, h.2.2.2.2.2.2.1, h.2.2.2.2.2.2.2.1, h.2.2.2.2.2.2.2.2⟩

theorem chooses_setTracker (s : State) (x : Tracker) (h : x.units = s.tracker.units) : Chooses s (s.setTracker x) :=
  ⟨rfl, rfl, rfl, rfl, rfl, rfl, rfl, rfl, rfl, rfl, List.prefix_refl _, h, rfl, rfl, rfl, rfl, rfl, rfl, rfl, rfl,
    rfl, rfl, rfl⟩

theorem chooses_sendOp (s : State) (kind : FrameKind) (block : Nat) (payload : Frame) (purpose : Purpose) :
    Chooses s (s.sendOp kind block payload purpose) :=
  ⟨rfl, rfl, rfl, rfl, rfl, rfl, rfl, rfl, rfl, rfl, List.prefix_refl _, rfl, rfl, rfl, rfl, rfl, rfl, rfl, rfl, rfl,
    rfl, rfl, rfl⟩

theorem chooses_present (s : State) (o : Owner) (line : Nat) : Chooses s (s.present o line) :=
  ⟨rfl, rfl, rfl, rfl, rfl, rfl, rfl, rfl, rfl, rfl, List.prefix_append _ _, rfl, rfl, rfl, rfl, rfl, rfl, rfl, rfl,
    rfl, rfl, rfl, rfl⟩

theorem chooses_claimKeep (s : State) (g : Nat) (f : GRec → GRec) : Chooses s (s.claimKeep g f) := by
  have h1 := s.chooses_setTracker (s.tracker.putRec g (f (s.recOf g))) rfl
  have h2 : Chooses s ((s.setTracker (s.tracker.putRec g (f (s.recOf g)))).appendSlots []) := h1
  unfold claimKeep claim
  dsimp only
  split
  · unfold noticeDirty
    split
    · exact h2.trans (chooses_setEngine _ _)
    · exact h2
  · exact h2

theorem chooses_startCopy (s : State) (g slot : Nat) : Chooses s (s.startCopy g slot) :=
  (((s.chooses_setEngine _).trans (chooses_claimKeep _ g _)).trans
    (chooses_sendOp _ _ _ _ _)).trans (chooses_present _ _ _)

theorem chooses_claimFillStart (s : State) (g : Nat) : Chooses s (s.claimFillStart g) :=
  (s.chooses_setEngine _).trans (chooses_claimKeep _ g _)

theorem chooses_startFill (s : State) (g : Nat) : Chooses s (s.startFill g) :=
  ((s.chooses_claimFillStart g).trans (chooses_setEngine _ _)).trans
    (chooses_sendOp _ _ _ _ _)

theorem chooses_startZeroFill (s : State) (g : Nat) : Chooses s (s.startZeroFill g) :=
  ((s.chooses_claimFillStart g).trans (chooses_setEngine _ _)).trans
    (chooses_present _ _ _)

theorem chooses_consumeGrant (s : State) (g : Nat) : Chooses s (s.consumeGrant g) :=
  s.chooses_setEngine _

theorem chooses_reloadPace (s : State) : Chooses s s.reloadPace :=
  s.chooses_setEngine _

theorem chooses_startPresave (s : State) (g slot : Nat) : Chooses s (s.startPresave g slot) :=
  ((s.chooses_startCopy g slot).trans (chooses_setEngine _ _)).trans (chooses_reloadPace _)

/-! ## The choices -/

theorem chooses_startWork (s : State) (w : StoreWork) : Chooses s (s.startWork w) := by
  unfold startWork
  split
  · split
    · unfold sendStep
      split <;> exact s.chooses_sendOp _ _ _ _
    · exact .refl s
  · exact (s.chooses_setEngine _).trans (chooses_sendOp _ _ _ _ _)
  · exact s.chooses_sendOp _ _ _ _
  · exact s.chooses_sendOp _ _ _ _
  · exact s.chooses_startFill _
  · exact s.chooses_startCopy _ _
  · exact (s.chooses_startFill _).trans (chooses_consumeGrant _ _)
  · exact s.chooses_startPresave _ _
  · exact s.chooses_reloadPace

theorem chooses_storeChoice (s : State) : Chooses s s.storeChoice := by
  unfold storeChoice
  split
  · split
    · exact s.chooses_startWork _
    · exact .refl s
  · exact .refl s

theorem chooses_zeroChoice (s : State) : Chooses s s.zeroChoice := by
  unfold zeroChoice
  split
  · split
    · exact s.chooses_startZeroFill _
    · split
      · split
        · exact (s.chooses_startZeroFill _).trans (chooses_consumeGrant _ _)
        · exact .refl s
      · exact .refl s
  · exact .refl s

/-- The choices at the end of a step, before the test of a park's drain. -/
theorem chooses_choices (s : State) : Chooses s s.storeChoice.zeroChoice.storeChoice :=
  ((s.chooses_storeChoice).trans (chooses_zeroChoice _)).trans (chooses_storeChoice _)

/-! ## Settling in a state without tests -/

/-- START's course has nothing to do outside UNCONFIGURED and STARTING. -/
theorem startTest_eq (s : State) (hu : s.tc.state ≠ .unconfigured) (hs : s.tc.state ≠ .starting) :
    s.startTest = s := by
  unfold startTest
  split
  · rfl
  · simp [hu, hs]

/-- The Transition Controller's tests have nothing to do in these states, while no rail loss is in progress. -/
theorem tcTests_eq (s : State) (hr : s.tc.railLoss = false) (h1 : s.tc.state ≠ .restoring)
    (h2 : s.tc.state ≠ .saving) (h3 : s.tc.state ≠ .committing) : s.tcTests = s := by
  have hrest : s.restoringTest = s := by simp [restoringTest, h1]
  have hcommit : s.commitWait = s := by simp [commitWait, h3]
  have hsave : s.savingTest = s := by simp [savingTest, h2]
  have hrail : s.railCourse = s := by simp [railCourse, hr]
  unfold tcTests
  rw [hrest, hcommit, hsave, hcommit, hrail]

/-- In PARKING's drain the test of R140 changes these things alone; elsewhere nothing. -/
theorem parkTest_eq (s : State) (h : s.tc.state ≠ .parking) : s.parkTest = s := by simp [parkTest, h]

/-- The test of R140 has something to do in PARKING's drain alone, with no rail loss. -/
theorem parkTest_of_still (s : State)
    (h : ¬(s.tc.state = .parking ∧ s.tc.parkPhase = .drain ∧ s.tc.railLoss = false)) : s.parkTest = s := by
  unfold parkTest
  rw [if_neg fun ⟨a, b, c, _⟩ => h ⟨a, b, c⟩]

/-- `settle` by what the tests leave, where that is no park's drain: the choices, and the lines out. -/
theorem settle_of_tests {s t : State} (h : s.startTest.tcTests = t)
    (hp : ¬(t.tc.state = .parking ∧ t.tc.parkPhase = .drain ∧ t.tc.railLoss = false)) :
    s.settle = t.storeChoice.zeroChoice.storeChoice.drive := by
  unfold settle
  rw [h, parkTest_of_still _ (by rw [t.chooses_choices.tc]; exact hp)]

/-- `settle` where no test has anything to do: the choices, the test of a park's drain, and the lines out. -/
theorem settle_of_still (s : State) (h1 : s.startTest = s) (h2 : s.tcTests = s) :
    s.settle = s.storeChoice.zeroChoice.storeChoice.parkTest.drive := by
  unfold settle
  rw [h1, h2]

/-- `settle` where there is no test to make: the choices, and the lines out. -/
theorem settle_eq (s : State) (hr : s.tc.railLoss = false) (hu : s.tc.state ≠ .unconfigured)
    (hs : s.tc.state ≠ .starting) (h1 : s.tc.state ≠ .restoring) (h2 : s.tc.state ≠ .saving)
    (h3 : s.tc.state ≠ .committing) (h4 : s.tc.state ≠ .parking) :
    s.settle = s.storeChoice.zeroChoice.storeChoice.drive := by
  have hp : s.storeChoice.zeroChoice.storeChoice.tc.state ≠ .parking := by
    rw [s.chooses_choices.tc]; exact h4
  unfold settle
  rw [s.startTest_eq hu hs, s.tcTests_eq hr h1 h2 h3, parkTest_eq _ hp]

end State

end Sys2Proof.Machine
end

