-- ==== Sys2Proof/Laws/Judges.lean ====
section
/-! SUPPORT. What judging, completing, holding and releasing requests can do (`Judges`): the blocks that they leave as
they were, and the parts of the Image Engine and the DRAM Port that they can change. -/

namespace Sys2Proof.Machine

set_option Elab.async false

/-- `t` comes from `s` by judgements and releases of requests, with the claims, write-backs and reports they make. -/
structure Judges (s t : State) : Prop where
  tc : t.tc = s.tc
  wake : t.wake = s.wake
  store : t.store = s.store
  lines : t.lines = s.lines
  side : t.side = s.side
  units : t.tracker.units = s.tracker.units
  load : t.region.load = s.region.load
  dram : t.dram = { s.dram with queue := t.dram.queue }
  engine : t.engine =
    { s.engine with
      freeSlots := t.engine.freeSlots
      mark := t.engine.mark
      markClearQueued := t.engine.markClearQueued
      exhaustionNoted := t.engine.exhaustionNoted
      fillList := t.engine.fillList }

theorem Judges.refl (s : State) : Judges s s := ⟨rfl, rfl, rfl, rfl, rfl, rfl, rfl, rfl, rfl⟩

theorem Judges.trans {s t u : State} (a : Judges s t) (b : Judges t u) : Judges s u :=
  ⟨b.tc.trans a.tc, b.wake.trans a.wake, b.store.trans a.store, b.lines.trans a.lines, b.side.trans a.side,
    b.units.trans a.units, b.load.trans a.load, by rw [b.dram, a.dram], by rw [b.engine, a.engine]⟩

/-- The pass count does not change. -/
theorem Judges.passes {s t : State} (h : Judges s t) : t.engine.passes = s.engine.passes := by rw [h.engine]

theorem Judges.passesOf {s t : State} (h : Judges s t) (op : LongOp) : t.passesOf op = s.passesOf op := by
  unfold State.passesOf
  rw [h.passes]

theorem Judges.foldl {α : Type} (f : State → α → State) (h : ∀ s x, Judges s (f s x)) :
    ∀ (l : List α) (s : State), Judges s (l.foldl f s)
  | [], s => .refl s
  | x :: l, s => (h s x).trans (Judges.foldl f h l (f s x))

namespace State

theorem judges_setRu (s : State) (x : RequestUnit) : Judges s (s.setRu x) :=
  ⟨rfl, rfl, rfl, rfl, rfl, rfl, rfl, rfl, rfl⟩

theorem judges_setSent (s : State) (x : Sent) : Judges s (s.setSent x) :=
  ⟨rfl, rfl, rfl, rfl, rfl, rfl, rfl, rfl, rfl⟩

theorem judges_setFaults (s : State) (x : FaultUnit) : Judges s (s.setFaults x) :=
  ⟨rfl, rfl, rfl, rfl, rfl, rfl, rfl, rfl, rfl⟩

theorem judges_setFile (s : State) (x : RegionFile) : Judges s (s.setRegion { s.region with file := x }) :=
  ⟨rfl, rfl, rfl, rfl, rfl, rfl, rfl, rfl, rfl⟩

theorem judges_enqueue (s : State) (a : Access) : Judges s (s.enqueue a) :=
  ⟨rfl, rfl, rfl, rfl, rfl, rfl, rfl, rfl, rfl⟩

theorem judges_claim (s : State) (g : Nat) (f : GRec → GRec) (frees : GRec → List Nat) :
    Judges s (s.claim g f frees) := by
  unfold claim
  dsimp only
  unfold appendSlots noticeDirty
  repeat' split
  all_goals exact ⟨rfl, rfl, rfl, rfl, rfl, rfl, rfl, rfl, rfl⟩

theorem judges_claimWrite (s : State) (g : Nat) : Judges s (s.claimWrite g) := s.judges_claim g _ _

theorem judges_issueWriteBack (s : State) (a : Nat) (n : Fin 32) : Judges s (s.issueWriteBack a n) :=
  (s.judges_enqueue _).trans (judges_claimWrite _ _)

theorem judges_writeBack (s : State) (n : Fin 32) : Judges s (s.writeBack n) := by
  unfold writeBack
  split
  · exact .refl s
  · dsimp only
    split
    · exact .refl s
    · split
      · exact s.judges_setFile _
      · exact s.judges_issueWriteBack _ _

theorem judges_markWritten (s : State) (g : Nat) : Judges s (s.markWritten g) := by
  unfold markWritten
  split
  · exact .refl s
  · dsimp only
    split
    · exact .refl s
    · exact (s.judges_setFile _).trans (judges_writeBack _ _)

theorem judges_payOwedIn (s : State) (left : List Nat) : Judges s (s.payOwedIn left) := by
  unfold payOwedIn
  split
  · exact .refl s
  · split
    · refine Judges.foldl _ (fun s n => ?_) _ s
      unfold payOwed
      split
      · split
        · exact s.judges_setFile _
        · exact (s.judges_setFile _).trans (judges_issueWriteBack _ _ _)
      · exact .refl s
    · exact .refl s

theorem judges_answer (s : State) (e : Entry) (c : FaultClass) (st : CompletionStatus) :
    Judges s (s.answer e c st) := by
  unfold answer
  dsimp only
  split
  · exact ((s.judges_setRu _).trans (judges_setFaults _ _)).trans (judges_setSent _ _)
  · exact (s.judges_setRu _).trans (judges_setSent _ _)

theorem judges_issue (s : State) (e : Entry) : Judges s (s.issue e) := by
  unfold issue
  dsimp only
  split
  · exact (s.judges_setRu _).trans (judges_enqueue _ _)
  · exact (s.judges_setRu _).trans (judges_enqueue _ _)

theorem judges_joinFillList (s : State) (g : Nat) : Judges s (s.joinFillList g) := by
  unfold joinFillList
  dsimp only
  split
  · exact .refl s
  · exact ⟨rfl, rfl, rfl, rfl, rfl, rfl, rfl, rfl, rfl⟩

theorem judges_holdFill (s : State) (e : Entry) : Judges s (s.holdFill e) := by
  unfold holdFill
  dsimp only
  split
  · exact (s.judges_setRu _).trans (judges_joinFillList _ _)
  · exact s.judges_setRu _

theorem judges_settleEntry (s : State) (e : Entry) : Judges s (s.settleEntry e) := by
  unfold settleEntry
  split
  · exact s.judges_issue e
  · exact s.judges_answer e _ _
  · exact s.judges_answer e _ _
  · exact s.judges_setRu _
  · exact s.judges_holdFill e
  · exact s.judges_answer e _ _
  · unfold proceed
    split
    · exact s.judges_issue e
    · exact ((s.judges_issue e).trans (judges_claimWrite _ _)).trans (judges_markWritten _ _)

theorem judges_judgeLine : ∀ (fuel line : Nat) (s : State), Judges s (judgeLine fuel line s)
  | 0, _, s => .refl s
  | fuel + 1, line, s => by
    unfold judgeLine
    split
    · exact .refl s
    · split
      · dsimp only
        split
        · exact (s.judges_settleEntry _).trans (judges_judgeLine fuel line _)
        · exact s.judges_settleEntry _
      · exact .refl s

theorem judges_takeUp (s : State) (e : Entry) : Judges s (s.takeUp e) := by
  unfold takeUp
  split
  · exact s.judges_setRu _
  · unfold judge
    dsimp only
    split
    · exact (s.judges_settleEntry e).trans (judges_judgeLine _ _ _)
    · exact s.judges_settleEntry e

theorem judges_judge (s : State) (e : Entry) : Judges s (s.judge e) := by
  unfold judge
  dsimp only
  split
  · exact (s.judges_settleEntry e).trans (judges_judgeLine _ _ _)
  · exact s.judges_settleEntry e

theorem judges_release (reason : Hold) (s : State) (tag : BitVec 5) : Judges s (release reason s tag) := by
  unfold release
  split
  · exact .refl s
  · split
    · split
      · exact (s.judges_setRu _).trans (judges_takeUp _ _)
      · exact (s.judges_setRu _).trans (judges_takeUp _ _)
      · exact s.judges_judge _
      · exact s.judges_judge _
    · exact .refl s

theorem judges_releaseAll (s : State) (reason : Hold) : Judges s (s.releaseAll reason) :=
  Judges.foldl _ (judges_release reason) _ s

theorem judges_leftAbsent (s : State) (left : List Nat) : Judges s (s.leftAbsent left) :=
  (Judges.foldl _ (judges_release .fill) _ s).trans (judges_payOwedIn _ _)

theorem judges_complete (s : State) (e : Entry) (data : List Byte) : Judges s (s.complete e data) :=
  ((s.judges_setRu _).trans (judges_setSent _ _)).trans (judges_judgeLine _ _ _)

end State

end Sys2Proof.Machine
end

