-- ==== Sys2Proof/Laws/Runs.lean ====
section
/-! SUPPORT. Runs: the states that commands taken one after another reach, what the arbiter's serving of a last line
does, and the two places of a START FRESH where every granule is asked for its class. -/

namespace Sys2Proof.Machine

/-! ## Runs -/

/-- Commands taken one after another. -/
def taken (s : State) (cs : List Instr) : State :=
  cs.foldl (fun s c => match exec c s with | .next t => t | _ => s) s

/-- Every command of a run can be sent, and finds no other waiting. -/
def sendable : List Instr → State → Bool
  | [], _ => true
  | c :: cs, s => s.pending.isEmpty && c.wellFormed && sendable cs (taken s [c])

theorem reachable_exec {s t : State} {c : Instr} (h : Reachable s) (hp : s.pending = []) (hc : c.wellFormed = true)
    (he : exec c s = .next t) : Reachable t := by
  refine .step (s.setPending (s.pending ++ [c])) t (.send s c h hc) ?_
  have : (s.setPending [c]).setPending [] = s := by cases s; cases hp; rfl
  rw [hp, step]
  simpa [this] using he

theorem reachable_taken {cs : List Instr} {s : State} (h : Reachable s) (hs : sendable cs s = true) :
    Reachable (taken s cs) := by
  induction cs generalizing s with
  | nil => exact h
  | cons c cs ih =>
    simp only [sendable, Bool.and_eq_true, List.isEmpty_iff] at hs
    refine ih (s := taken s [c]) ?_ hs.2
    simp only [taken, List.foldl_cons, List.foldl_nil]
    split
    · exact reachable_exec h hs.1.1 hs.1.2 ‹_›
    · exact h

/-! ## The last line of a transfer -/

/-- An access performed, and the run count after it. -/
def performedBy (s : State) (a : Access) : State :=
  (s.perform a).setDram { (s.perform a).dram with runCount := runAfter s.dram.queue s.dram.runCount a }

theorem serve_engine {s : State} {a : Access} {o : Owner} (h : a.src = .engine o) :
    s.serve a = (performedBy s a).afterLine o a.line := by
  obtain ⟨src, line⟩ := a
  cases h
  rfl

theorem afterLine_last {s : State} {o : Owner} {line : Nat} (h : linesLeft o line = 1) :
    s.afterLine o line = s.transferOver o := if_pos (Or.inl h)

/-! ## START FRESH without regions -/

/-- A file without a valid descriptor makes every granule DISCARD. -/
theorem classOf_of_no_valid {f : RegionFile} (h : ∀ n : Fin 32, f.descs[n].valid = false) (granules g : Nat) :
    f.classOf granules g = .discard := by
  have : f.governing granules g = none := by
    unfold RegionFile.governing
    split
    · rfl
    · exact List.find?_eq_none.2 fun n _ => by rw [Descriptor.covers, h n]; simp
  simp [RegionFile.classOf, this]

theorem preservedCount_of_no_valid {f : RegionFile} (h : ∀ n : Fin 32, f.descs[n].valid = false)
    (granules : Nat) : preservedCount f granules = 0 := by
  simp [preservedCount, classOf_of_no_valid h, GClass.preserved]

theorem claimReload_of_no_valid {s : State} (h : ∀ n : Fin 32, s.region.file.descs[n].valid = false)
    (ht : s.tracker.table = []) : s.claimReload = s.setTracker (s.tracker.withTable []) := by
  have : (GTable.build s.granules fun g =>
      (GTable.get [] g).reload (s.region.file.classOf s.granules g)) = [] := by
    simp only [GTable.build, classOf_of_no_valid h]
    exact List.flatMap_eq_nil_iff.2 fun g _ => by rfl
  rw [State.claimReload, ht]
  simp only [this]
  rfl

/-- A START FRESH whose fetched table passes and has no valid descriptor. -/
theorem fetchDone_of_no_valid {s : State} {r : StartReq} {f : RegionFile} (h1 : s.region.load = none)
    (h2 : s.tc.fetching = some r) (h3 : s.tc.state = .unconfigured) (hf : State.fileOf r.tableAddr r.fetched = f)
    (hok : descriptorsOk (Config.unitGranules * r.units) f.descs = true)
    (hv : ∀ n : Fin 32, f.descs[n].valid = false) :
    s.transferOver .fetch =
      (((s.acceptStart r).setRegion { (s.acceptStart r).region with file := f }).setTracker
        (Tracker.withTable { Tracker.reset with units := r.units } [])).settle := by
  generalize hx : (s.acceptStart r).setRegion { (s.acceptStart r).region with file := f } = x
  have hend : s.transferEnd .fetch = x.claimReload := by
    simp only [State.transferEnd, State.fetchDone, h1, h2, State.startFetched, h3, hf, hok, hx]
    simp
  have hfile : x.region.file = f := by rw [← hx]; rfl
  have htrack : x.tracker = { Tracker.reset with units := r.units } := by rw [← hx]; rfl
  have hclaim : x.claimReload = x.setTracker (x.tracker.withTable []) :=
    claimReload_of_no_valid (by rw [hfile]; exact hv) (by rw [htrack]; rfl)
  show (s.transferEnd .fetch).settle = _
  rw [hend, hclaim, htrack]

/-- The last line of such a table. -/
theorem startTableFetchEnd_last {s t : State} {a : Access} (h1 : s.presented .fetch = some a)
    (h2 : s.arbiterChoice = some a) (h3 : s.dram.cond = .up) (h4 : s.loading = false)
    (hl : linesLeft .fetch a.line = 1) (hs : a.src = .engine .fetch)
    (ht : (performedBy s a).transferOver .fetch = t) : s.startTableFetchEnd = t.settle := by
  have hserve : s.serve a = t := by rw [serve_engine hs, afterLine_last hl, ht]
  have hrun : s.runTransfer .fetch a = t := by
    rw [State.runTransfer, State.lineTurns, hl, Nat.one_mul, State.serveUntil, h2]
    simp only [Access.lastOf, hs, hl, hserve]
    simp
  rw [State.startTableFetchEnd, h4, State.lastLine, h1]
  simp only [h3, hrun]
  simp [State.patternStopped]

/-- A header block that is not valid ends the reading of headers; with no granule preserved the store holds enough. -/
theorem header1_read {s : State} {f : Frame} {o : StoreOp} {b : BringUp} (h1 : s.store.holdBack = none)
    (h2 : s.store.op = some o) (h3 : respNum f = o.num) (h4 : o.disregarded = false) (h5 : o.goodBy f = true)
    (h6 : o.purpose = .bringUp .header1) (h7 : s.engine.bringUp = some b) (h8 : b.step = .header1)
    (h9 : b.mode = .fresh) (h10 : b.header0 = none) (h11 : Header.decode (respBlock f).bytes = none)
    (hv : ∀ n : Fin 32, s.region.file.descs[n].valid = false) :
    s.storeResponse f =
      (((s.endOp Timer.stopped).setEngine { (s.endOp Timer.stopped).engine with retired := [] }).nextStep
        { b with header1 := none, oldEpoch := 0, formerRetired := s.engine.retired, step := .emptyIndex }).settle := by
  have hread : s.readOut o f = s := by simp [State.readOut, h6]
  have hadopt : (s.endOp Timer.stopped).adopt { b with header1 := none } =
      ((s.endOp Timer.stopped).setEngine { (s.endOp Timer.stopped).engine with retired := [] }).nextStep
        { b with header1 := none, oldEpoch := 0, formerRetired := s.engine.retired, step := .emptyIndex } := by
    have hp : preservedCount (s.endOp Timer.stopped).region.file (s.endOp Timer.stopped).granules = 0 :=
      preservedCount_of_no_valid (by simpa [State.endOp] using hv) _
    simp only [State.adopt, h10, highest, adoptedRetired, adoptedEpoch]
    rw [if_pos]
    · rfl
    · simp only [capacityOk, State.setEngine_region]
      simp [State.granules] at hp ⊢
      simp [hp]
  have hans : s.answered o f = (s.endOp Timer.stopped).adopt { b with header1 := none } := by
    have hb : (s.endOp Timer.stopped).engine.bringUp = some b := by simpa [State.endOp] using h7
    rw [State.answered, hread, h4, h5]
    simp only [Bool.false_eq_true, ite_false, ite_true, State.opGood, h6, hb, State.stepGood, h8, h9, h11]
    simp
  rw [State.storeResponse, h1]
  simp only [h2]
  rw [if_pos h3, hans, hadopt]

end Sys2Proof.Machine
end

