-- ==== Sys2Proof/Laws/Scans.lean ====
section
/-! SUPPORT. What the scans of the granule table answer (R27). -/

namespace Sys2Proof.Machine

/-- In a canonical table a number reads as a state other than a blank record's just where the table lists it so. -/
theorem GTable.get_st_iff (t : GTable) (h : GTable.wf t = true) (st : GState) (hst : st ≠ GRec.blank.st) (g : Nat) :
    (GTable.get t g).st = st ↔ ∃ r, (g, r) ∈ t ∧ r.st = st := by
  have hn : (t.map Prod.fst).Nodup :=
    (List.pairwise_map.mpr ((GTable.wf_iff t).mp h).1).imp fun {a b} hab => Nat.ne_of_lt hab
  unfold GTable.get
  cases hl : t.lookup g with
  | none =>
    refine ⟨fun e => absurd e.symm hst, fun ⟨r, hr, _⟩ => ?_⟩
    have := List.lookup_eq_none_iff.mp hl (g, r) hr
    simp at this
  | some r =>
    obtain ⟨l₁, l₂, rfl, _⟩ := List.lookup_eq_some_iff.mp hl
    refine ⟨fun e => ⟨r, by simp, e⟩, fun ⟨r', hr', e⟩ => ?_⟩
    have : r' = r := by
      have hp := List.inj_on_of_nodup_map hn hr' (show (g, r) ∈ l₁ ++ (g, r) :: l₂ by simp) rfl
      exact (Prod.ext_iff.mp hp).2
    rw [← this]; exact e

/-- In a list of strictly rising numbers, the first that passes is the least that passes. -/
theorem find?_rising {l : List Nat} (h : l.Pairwise (· < ·)) (p : Nat → Bool) (g : Nat) :
    l.find? p = some g ↔ g ∈ l ∧ p g = true ∧ ∀ x ∈ l, x < g → p x = false := by
  induction l with
  | nil => simp
  | cons a l ih =>
    have ha : ∀ x ∈ l, a < x := (List.pairwise_cons.mp h).1
    have ih := ih (List.pairwise_cons.mp h).2
    rw [List.find?_cons]
    cases hp : p a with
    | true =>
      simp only [Option.some.injEq, List.mem_cons, forall_eq_or_imp]
      constructor
      · rintro rfl
        exact ⟨.inl rfl, hp, fun h => absurd h (Nat.lt_irrefl _), fun x hx hlt => absurd hlt (Nat.lt_asymm (ha x hx))⟩
      · rintro ⟨rfl | hg, _, h1, _⟩
        · rfl
        · have := h1 (ha g hg)
          rw [hp] at this
          exact absurd this (by simp)
    | false =>
      simp only [ih, List.mem_cons, forall_eq_or_imp]
      constructor
      · rintro ⟨hg, hpg, hx⟩
        exact ⟨.inr hg, hpg, fun _ => hp, hx⟩
      · rintro ⟨rfl | hg, hpg, _, hx⟩
        · rw [hp] at hpg; exact absurd hpg (by simp)
        · exact ⟨hg, hpg, hx⟩

/-- A scan finds the lowest-numbered granule in a state at or after a number, and then from 0 (R27). -/
theorem Tracker.scan_eq_some (tr : Tracker) (h : GTable.wf tr.table = true) (st : GState) (hst : st ≠ GRec.blank.st)
    (start g : Nat) :
    let inState := fun x : Nat => x < tr.granules ∧ (tr.recAt x).st = st
    (tr.scan st start = some g ↔
      inState g ∧
        ((start ≤ g ∧ ∀ x, start ≤ x → x < g → ¬ inState x) ∨
          (g < start ∧ ∀ x, start ≤ x ∨ x < g → ¬ inState x))) := by
  intro inState
  generalize hf : (tr.table.filter fun x => decide (x.2.st = st) && decide (x.1 < tr.granules)).map Prod.fst = found
  have hmem : ∀ x, x ∈ found ↔ inState x := by
    intro x
    rw [← hf]
    simp only [List.mem_map, List.mem_filter, Bool.and_eq_true, decide_eq_true_eq, inState, Tracker.recAt]
    rw [GTable.get_st_iff tr.table h st hst x]
    constructor
    · rintro ⟨⟨y, r⟩, ⟨hm, hs, hlt⟩, rfl⟩
      exact ⟨hlt, r, hm, hs⟩
    · rintro ⟨hlt, r, hm, hs⟩
      exact ⟨(x, r), ⟨hm, hs, hlt⟩, rfl⟩
  have hsort : found.Pairwise (· < ·) := by
    rw [← hf, List.pairwise_map]
    exact (((GTable.wf_iff tr.table).mp h).1).filter _
  have hhead : found.head? = found.find? fun _ => true := by cases found <;> simp
  have e : tr.scan st start = (found.find? fun x => decide (start ≤ x)).or found.head? := by
    unfold Tracker.scan; rw [hf]
  rw [e, hhead]
  cases h1 : found.find? fun x => decide (start ≤ x) with
  | some y =>
    rw [Option.some_or]
    obtain ⟨hy, hs, hmin⟩ := (find?_rising hsort _ _).mp h1
    simp only [decide_eq_true_eq, decide_eq_false_iff_not] at hs hmin
    constructor
    · rintro ⟨⟩
      exact ⟨(hmem _).mp hy, .inl ⟨hs, fun x hx hlt hi => hmin x ((hmem x).mpr hi) hlt hx⟩⟩
    · rintro ⟨hg, ⟨hle, hall⟩ | ⟨hlt, hall⟩⟩
      · congr 1
        rcases Nat.lt_trichotomy y g with hc | hc | hc
        · exact absurd ((hmem y).mp hy) (hall y hs hc)
        · exact hc
        · exact absurd hle (hmin g ((hmem g).mpr hg) hc)
      · exact absurd ((hmem y).mp hy) (hall y (.inl hs))
  | none =>
    rw [Option.none_or, find?_rising hsort]
    have hno : ∀ x ∈ found, ¬ start ≤ x := by
      intro x hx
      have := List.find?_eq_none.mp h1 x hx
      simpa using this
    constructor
    · rintro ⟨hg, _, hmin⟩
      refine ⟨(hmem g).mp hg, .inr ⟨Nat.lt_of_not_le (hno g hg), fun x hx hi => ?_⟩⟩
      rcases hx with hx | hx
      · exact hno x ((hmem x).mpr hi) hx
      · exact absurd (hmin x ((hmem x).mpr hi) hx) (by simp)
    · rintro ⟨hg, ⟨hle, _⟩ | ⟨hlt, hall⟩⟩
      · exact absurd hle (hno g ((hmem g).mpr hg))
      · exact ⟨(hmem g).mpr hg, rfl, fun x hx hxg => absurd ((hmem x).mp hx) (hall x (.inr hxg))⟩

/-- A scan answers none where no granule is in the state (R27). -/
theorem Tracker.scan_eq_none (tr : Tracker) (h : GTable.wf tr.table = true) (st : GState) (hst : st ≠ GRec.blank.st)
    (start : Nat) :
    tr.scan st start = none ↔ ∀ x, ¬ (x < tr.granules ∧ (tr.recAt x).st = st) := by
  constructor
  · intro hn
    by_contra hc
    simp only [not_forall, not_not] at hc
    have hex := hc
    classical
    by_cases ha : ∃ x, start ≤ x ∧ x < tr.granules ∧ (tr.recAt x).st = st
    · have := (tr.scan_eq_some h st hst start (Nat.find ha)).mpr
        ⟨(Nat.find_spec ha).2, .inl ⟨(Nat.find_spec ha).1, fun x hx hlt hi => Nat.find_min ha hlt ⟨hx, hi⟩⟩⟩
      rw [hn] at this
      exact absurd this (by simp)
    · have hlt : Nat.find hex < start := by
        by_contra hle
        exact ha ⟨Nat.find hex, Nat.le_of_not_lt hle, Nat.find_spec hex⟩
      have := (tr.scan_eq_some h st hst start (Nat.find hex)).mpr
        ⟨Nat.find_spec hex, .inr ⟨hlt, fun x hx hi => hx.elim (fun hs => ha ⟨x, hs, hi⟩) fun hl => Nat.find_min hex hl hi⟩⟩
      rw [hn] at this
      exact absurd this (by simp)
  · intro hall
    cases hs : tr.scan st start with
    | none => rfl
    | some g => exact absurd ((tr.scan_eq_some h st hst start g).mp hs).1 (hall g)

end Sys2Proof.Machine
end

