-- ==== Sys2Proof/Laws/Transitions.lean ====
section
/-! SUPPORT. What the ends of entries, of parks and of rail losses come to: the returns and failures as equations
(R103, R110, R142), what a claim makes of the Image Engine (R6, R94), the DRAM-loss marking and the entry into
IMAGED_OFF (R21, R123, R147), the UNCONFIGURED path (R151), and what is left of each once the choices of its step are
made. -/

namespace Sys2Proof.Machine

set_option Elab.async false

theorem AbortKind.abortResult_eq (k : AbortKind) : State.abortResult k = k.result := by cases k <;> rfl

/-- A DRAM-loss marking makes no record DIRTY (R21), so it hands on no entered-DIRTY notice. -/
theorem GRec.entersDirty_dramLoss (r : GRec) : r.entersDirty r.dramLoss = false := by
  obtain ⟨st, c, p, cls⟩ := r
  cases st <;> cases cls <;> rfl

namespace State

theorem passesOf_eq (s : State) (op : LongOp) :
    s.passesOf op = if op = .hybrid ∨ op = .hibernate then s.engine.passes else 0 := rfl

/-! ## Entries that end -/

/-- A return from SAVING or COMMITTING (R110). -/
theorem returnEntry_eq (s : State) (k : AbortKind) :
    let running : TState := if s.anyAbsent then .restoring else .active
    let back := s.entryReturned
    s.returnEntry k =
      (back.setFaults (back.faults.take .entryAborted 0 (.number 0) running)).setTc
        { back.tc with outcome := s.entryRecord k.result .none } := by
  intro running back
  have h := judges_releaseAll (s.enterRunning.setTc { s.enterRunning.tc with waitingAbort := none }) .commit
  have e : back = (s.enterRunning.setTc { s.enterRunning.tc with waitingAbort := none }).releaseAll .commit := rfl
  have hp : back.engine.passes = s.engine.passes := h.passes
  have ht : back.tc = { s.enterRunning.tc with waitingAbort := none } := h.tc
  unfold returnEntry
  simp only [← e]
  unfold report writeOutcome entryRecord passesOf
  simp only [setFaults_tc, setFaults_engine, ht, hp, AbortKind.abortResult_eq]
  rfl

/-- A failure of an entry (R103, R107, R109, R111). -/
theorem failEntry_eq (s : State) (reason : OutcomeReason) :
    let back := s.endCommit.entryReturned
    s.failEntry reason = back.setTc { back.tc with outcome := s.entryRecord .failed reason } := by
  intro back
  have h := judges_releaseAll
    (s.endCommit.enterRunning.setTc { s.endCommit.enterRunning.tc with waitingAbort := none }) .commit
  have e : back =
    (s.endCommit.enterRunning.setTc { s.endCommit.enterRunning.tc with waitingAbort := none }).releaseAll .commit := rfl
  have hp : back.engine.passes = s.engine.passes := h.passes
  have ht : back.tc = { s.endCommit.enterRunning.tc with waitingAbort := none } := h.tc
  unfold failEntry
  simp only [← e]
  unfold writeOutcome entryRecord passesOf
  simp only [ht, hp]
  rfl

/-- The state, the abort and the record of a return (R110). -/
theorem returnEntry_tc (s : State) (k : AbortKind) :
    (s.returnEntry k).tc =
      { (s.enterState s.returnTarget).tc with waitingAbort := none, outcome := s.entryRecord k.result .none } := by
  rw [returnEntry_eq]
  simp only [setTc_tc]
  rw [show s.entryReturned.tc = { (s.enterState s.returnTarget).tc with waitingAbort := none } from
    (judges_releaseAll _ _).tc]

theorem failEntry_tc (s : State) (reason : OutcomeReason) :
    (s.failEntry reason).tc =
      { (s.enterState s.returnTarget).tc with waitingAbort := none, outcome := s.entryRecord .failed reason } := by
  rw [failEntry_eq]
  simp only [setTc_tc]
  rw [show s.endCommit.entryReturned.tc = { (s.endCommit.enterState s.returnTarget).tc with waitingAbort := none } from
    (judges_releaseAll _ _).tc]
  rfl

/-- The return of a park (R142). -/
theorem parkReturn_eq (s : State) (kind : AbortKind) :
    let running : TState := if s.anyAbsent then .restoring else .active
    let entered := s.enterState running
    let ended := { entered.tc with parkPhase := .none, waitingAbort := none, parkStoreDown := false }
    let released := (entered.setTc ended).releaseAll .parking
    s.parkReturn kind =
      (released.setFaults (released.faults.take .entryAborted 0 (.number 0) running)).setTc
        { ended with outcome := s.entryRecord kind.result .none } := by
  intro running entered ended released
  have h := judges_releaseAll (entered.setTc ended) .parking
  have hp : released.engine.passes = s.engine.passes := h.passes
  have ht : released.tc = ended := h.tc
  unfold parkReturn
  simp only [show (s.enterRunning.setTc
    { s.enterRunning.tc with parkPhase := .none, waitingAbort := none, parkStoreDown := false }).releaseAll .parking =
      released from rfl]
  unfold report writeOutcome entryRecord passesOf
  simp only [setFaults_tc, setFaults_engine, ht, hp, AbortKind.abortResult_eq]
  rfl

/-! ## What a claim makes of the Image Engine -/

/-- The notice of a granule that enters DIRTY moves the mark and its queue alone (R6). -/
theorem engine_noticeDirty (s : State) :
    s.noticeDirty.engine =
      { s.engine with
        mark := s.noticeDirty.engine.mark, markClearQueued := s.noticeDirty.engine.markClearQueued } := by
  unfold noticeDirty
  split <;> rfl

/-- Slots join the free slot queue, and where there is one the exhaustion noted flag is cleared (R82, R94). -/
theorem engine_appendSlots (s : State) (slots : List Nat) :
    (s.appendSlots slots).engine =
      { s.engine with
        freeSlots := s.engine.freeSlots ++ slots
        exhaustionNoted := s.engine.exhaustionNoted && decide (slots = []) } := by
  unfold appendSlots
  cases slots <;> simp

/-- A claim on a granule: the mark and its queue aside, it moves the slots that it releases and their flag (R94). -/
theorem engine_claim (s : State) (g : Nat) (f : GRec → GRec) (frees : GRec → List Nat) :
    (s.claim g f frees).engine =
      { s.engine with
        mark := (s.claim g f frees).engine.mark
        markClearQueued := (s.claim g f frees).engine.markClearQueued
        freeSlots := s.engine.freeSlots ++ frees (s.recOf g)
        exhaustionNoted := s.engine.exhaustionNoted && decide (frees (s.recOf g) = []) } := by
  unfold claim
  dsimp only
  split
  · rw [engine_noticeDirty, engine_appendSlots]; rfl
  · rw [engine_appendSlots]; rfl

/-- A claim on every granule, likewise, the slots in ascending granule number (R94). -/
theorem engine_claimAll (s : State) (f : Nat → GRec → GRec) (frees : GRec → List Nat) :
    (s.claimAll f frees).engine =
      { s.engine with
        mark := (s.claimAll f frees).engine.mark
        markClearQueued := (s.claimAll f frees).engine.markClearQueued
        freeSlots := s.engine.freeSlots ++ s.tracker.table.flatMap fun x => frees x.2
        exhaustionNoted :=
          s.engine.exhaustionNoted && decide ((s.tracker.table.flatMap fun x => frees x.2) = []) } := by
  unfold claimAll
  dsimp only
  split
  · rw [engine_noticeDirty, engine_appendSlots]; rfl
  · rw [engine_appendSlots]; rfl

/-! ## IMAGED_OFF -/

/-- A DRAM-loss marking: the records, and the slots that it releases (R21). -/
theorem claimDramLoss_eq (s : State) :
    s.claimDramLoss =
      (s.setTracker (s.tracker.mapRecs fun _ => GRec.dramLoss)).appendSlots
        (s.tracker.table.flatMap fun x => x.2.dramLossFrees) := by
  have h : (s.tracker.table.any fun x => x.2.entersDirty x.2.dramLoss) = false := by
    rw [List.any_eq_false]
    intro x _
    rw [GRec.entersDirty_dramLoss]
    exact Bool.false_ne_true
  unfold claimDramLoss claimAll
  dsimp only
  rw [h]
  rfl

theorem tracker_claimDramLoss (s : State) :
    s.claimDramLoss.tracker = s.tracker.mapRecs fun _ => GRec.dramLoss := by
  rw [claimDramLoss_eq]
  unfold appendSlots
  split <;> rfl

theorem freeSlots_claimDramLoss (s : State) :
    s.claimDramLoss.engine.freeSlots =
      s.engine.freeSlots ++ s.tracker.table.flatMap fun x => x.2.dramLossFrees := by
  rw [claimDramLoss_eq]
  unfold appendSlots
  split
  · rename_i h
    rw [List.isEmpty_iff.mp h, List.append_nil]
    rfl
  · rfl

/-- A DRAM-loss marking changes the records, the free slot queue and the exhaustion noted flag alone (R21, R94). -/
theorem only_claimDramLoss (s : State) :
    s.claimDramLoss =
      (s.setTracker s.claimDramLoss.tracker).setEngine
        { s.engine with
          freeSlots := s.claimDramLoss.engine.freeSlots
          exhaustionNoted := s.claimDramLoss.engine.exhaustionNoted } := by
  rw [claimDramLoss_eq]
  unfold appendSlots
  split <;> rfl

/-- The accesses of copies, fills and zero fills are withdrawn from the DRAM Port's queue (R123). -/
theorem withdraw_moves (s : State) :
    s.withdraw Owner.moves =
      s.setDram
        { s.dram with
          queue := s.dram.queue.filter fun a =>
            match a.src with
            | .engine .copy | .engine (.fill _) | .engine .zeroFill => false
            | _ => true } := by
  refine congrArg (fun q => s.setDram { s.dram with queue := q }) (List.filter_congr fun a _ => ?_)
  obtain ⟨src, line⟩ := a
  cases src with
  | engine o => cases o <;> rfl
  | _ => rfl

/-- A copy or a fill on the link is disregarded (R71, R123). -/
theorem disregardData_eq (s : State) :
    s.disregardData =
      s.setStore
        { s.store with
          op := s.store.op.map fun o =>
            match o.purpose with
            | .copy _ _ | .fill _ => { o with disregarded := true }
            | _ => o } := by
  obtain ⟨_, _, _, _, _, ⟨_, op, _, _, _, _⟩, _, _, _, _, _, _, _⟩ := s
  cases op with
  | none => rfl
  | some o =>
    obtain ⟨_, _, _, _, purpose, _⟩ := o
    cases purpose <;> rfl

/-- Every copy, fill and zero fill in flight is disregarded and presents nothing more (R71, R123). -/
theorem disregardTransfers_eq (s : State) :
    s.disregardTransfers =
      (s.disregardData.withdraw Owner.moves).setEngine { s.engine with fills := [], zeroFill := none } := by
  unfold disregardTransfers
  rw [withdraw_moves, disregardData_eq]
  rfl

/-- IMAGED_OFF is entered with the timers STOPPED: the state and the wake lines alone move (R147, R158). -/
theorem enterState_imagedOff (s : State) (hp : s.engine.paceTimer = Timer.stopped)
    (hf : s.engine.fillTimer = Timer.stopped) (hg : s.engine.grant = false)
    (hs : s.tc.sleepTimer = Timer.stopped) :
    s.enterState .imagedOff =
      (s.setTc { s.tc with state := .imagedOff }).setWake
        ((s.wake.follow s.tc.state .imagedOff).serveDeferred .imagedOff) := by
  have h1 : ∀ x p, s.engine.paceAt p x .imagedOff = s.engine.paceTimer := by
    intro x p
    cases x <;> simp [ImageEngine.paceAt, TState.running, hp]
  have h2 : ∀ x p, s.engine.fillAt p x .imagedOff = (s.engine.fillTimer, s.engine.grant) := by
    intro x p
    cases x <;> simp [ImageEngine.fillAt, hf, hg]
  have h3 : ∀ x m, s.tc.sleepAt m x .imagedOff = s.tc.sleepTimer := by
    intro x m
    cases x <;> simp [TransitionController.sleepAt, hs]
  unfold enterState
  simp only [h1, h2, setEngine_tc, setEngine_side, setEngine_wake, setTc_wake, h3]
  rfl

theorem engine_disregardTransfers (s : State) :
    s.disregardTransfers.engine = { s.engine with fills := [], zeroFill := none } := by
  rw [disregardTransfers_eq]; rfl

theorem tc_disregardTransfers (s : State) : s.disregardTransfers.tc = s.tc := by
  rw [disregardTransfers_eq, disregardData_eq]; rfl

theorem wake_disregardTransfers (s : State) : s.disregardTransfers.wake = s.wake := by
  rw [disregardTransfers_eq, disregardData_eq]; rfl

theorem tracker_disregardTransfers (s : State) : s.disregardTransfers.tracker = s.tracker := by
  rw [disregardTransfers_eq, disregardData_eq]; rfl

/-- The entry into IMAGED_OFF, by its blocks (R147). -/
theorem enterImagedOff_eq (s : State) :
    s.enterImagedOff =
      ((((s.disregardTransfers.setTracker s.claimDramLoss.tracker).setEngine
          { s.engine with
            freeSlots := s.claimDramLoss.engine.freeSlots
            exhaustionNoted := s.disregardTransfers.claimDramLoss.engine.exhaustionNoted
            fills := []
            zeroFill := none
            paceTimer := Timer.stopped
            fillTimer := Timer.stopped
            grant := false }).setDram { s.disregardTransfers.dram with cond := .notUp }).setTc
          { s.tc with state := .imagedOff, railLoss := false, parkPhase := .none, sleepTimer := Timer.stopped }).setWake
        (s.enterState .imagedOff).wake := by
  have ht : s.disregardTransfers.claimDramLoss.tracker = s.claimDramLoss.tracker := by
    rw [tracker_claimDramLoss, tracker_claimDramLoss, tracker_disregardTransfers]
  have hf : s.disregardTransfers.claimDramLoss.engine.freeSlots = s.claimDramLoss.engine.freeSlots := by
    rw [freeSlots_claimDramLoss, freeSlots_claimDramLoss, tracker_disregardTransfers, engine_disregardTransfers]
  have he := s.engine_disregardTransfers
  have hc := s.tc_disregardTransfers
  have hw : (s.enterState .imagedOff).wake =
      (s.disregardTransfers.wake.follow s.disregardTransfers.tc.state .imagedOff).serveDeferred .imagedOff := by
    rw [hc, wake_disregardTransfers]; rfl
  unfold enterImagedOff markDramLoss
  rw [only_claimDramLoss, ht, hf, hw, ← hc]
  generalize s.disregardTransfers.claimDramLoss.engine.exhaustionNoted = noted
  generalize s.claimDramLoss.tracker = tr
  generalize s.claimDramLoss.engine.freeSlots = free
  generalize s.disregardTransfers = u at *
  dsimp only
  rw [enterState_imagedOff _ rfl rfl rfl rfl, he]
  rfl

/-- The entry into IMAGED_OFF does all that R147 says, and reports nothing. -/
theorem imagedFrom_enterImagedOff (s : State) : s.imagedFrom s.enterImagedOff := by
  have hd : s.disregardTransfers.dram = { s.dram with
      queue := s.dram.queue.filter fun a =>
        match a.src with
        | .engine .copy | .engine (.fill _) | .engine .zeroFill => false
        | _ => true } := by
    rw [disregardTransfers_eq, withdraw_moves, disregardData_eq]; rfl
  have hs : s.disregardTransfers.store = { s.store with
      op := s.store.op.map fun o =>
        match o.purpose with
        | .copy _ _ | .fill _ => { o with disregarded := true }
        | _ => o } := by
    rw [disregardTransfers_eq, disregardData_eq]; rfl
  have hu : s.disregardTransfers.ru = s.ru ∧ s.disregardTransfers.region = s.region := by
    rw [disregardTransfers_eq, disregardData_eq]; exact ⟨rfl, rfl⟩
  unfold imagedFrom
  rw [enterImagedOff_eq]
  generalize s.disregardTransfers.claimDramLoss.engine.exhaustionNoted = noted
  generalize s.claimDramLoss.tracker = tr
  generalize s.claimDramLoss.engine.freeSlots = free
  generalize s.disregardTransfers = u at *
  generalize (s.enterState .imagedOff).wake = w
  exact ⟨rfl, rfl, rfl, rfl, rfl, rfl, rfl, rfl, rfl, rfl, rfl, rfl, rfl, rfl,
    congrArg (fun d : DramPort => { d with cond := .notUp }) hd,
    fun o ho => (congrArg StorePort.op hs).trans (by rw [ho]; rfl), (congrArg StorePort.status hs :), rfl,
    rfl, rfl, rfl, rfl, congrArg RequestUnit.table hu.1, hu.2⟩

theorem faults_enterImagedOff (s : State) : s.enterImagedOff.faults = s.faults := by
  have h : s.disregardTransfers.faults = s.faults := by
    rw [disregardTransfers_eq, disregardData_eq]; rfl
  rw [enterImagedOff_eq, ← h]
  rfl

theorem tc_enterImagedOff (s : State) :
    s.enterImagedOff.tc = { s.tc with
      state := .imagedOff, railLoss := false, parkPhase := .none, sleepTimer := Timer.stopped } := by
  rw [enterImagedOff_eq]; rfl

/-! ## UNCONFIGURED -/

/-- The abandonment changes nothing of the Image Engine that the UNCONFIGURED path keeps. -/
theorem epoch_claimAbandon (s : State) : s.claimAbandon.engine.epoch = s.engine.epoch := by
  unfold claimAbandon claimAll
  dsimp only
  unfold noticeDirty appendSlots
  repeat' split
  all_goals rfl

theorem only_claimAbandon (s : State) :
    s.claimAbandon = (s.setTracker s.claimAbandon.tracker).setEngine s.claimAbandon.engine := by
  unfold claimAbandon claimAll
  dsimp only
  unfold noticeDirty appendSlots
  repeat' split
  all_goals rfl

theorem wake_enterState (s : State) (st : TState) :
    (s.enterState st).wake = (s.wake.follow s.tc.state st).serveDeferred st := rfl

theorem wake_toUnconfigured (s : State) : s.toUnconfigured.wake = (s.enterState .unconfigured).wake := by
  have h1 : s.claimAbandon.wake = s.wake := by rw [only_claimAbandon]; rfl
  have h2 : s.claimAbandon.tc = s.tc := by rw [only_claimAbandon]; rfl
  unfold toUnconfigured clearEngine endCommit claimClear disregardOp
  simp only [wake_enterState, setTc_wake, setTc_tc, setStore_wake, setStore_tc, setRegion_wake, setRegion_tc,
    setEngine_wake, setEngine_tc, setTracker_wake, setTracker_tc, h1, h2]

theorem paceTimer_claimAbandon (s : State) : s.claimAbandon.engine.paceTimer = s.engine.paceTimer := by
  unfold claimAbandon claimAll
  dsimp only
  unfold noticeDirty appendSlots
  repeat' split
  all_goals rfl

/-- The PACE timer where UNCONFIGURED is entered (R92). -/
theorem paceAt_unconfigured (e : ImageEngine) (pace : Nat) (before : TState) :
    e.paceAt pace before .unconfigured = if before.running then Timer.stopped else e.paceTimer := by
  cases before <;> simp [ImageEngine.paceAt, TState.running]

/-- The FILL timer and the grant stay away where UNCONFIGURED is entered (R117). -/
theorem fillAt_unconfigured (e : ImageEngine) (pace : Nat) (before : TState) (ht : e.fillTimer = Timer.stopped)
    (hg : e.grant = false) : e.fillAt pace before .unconfigured = (Timer.stopped, false) := by
  cases before <;> simp [ImageEngine.fillAt, ht, hg]

/-- The timers of the UNCONFIGURED path are those of the entry into UNCONFIGURED (R92, R117, R145). -/
theorem timers_toUnconfigured (s : State) :
    s.toUnconfigured.engine.paceTimer = (s.enterState .unconfigured).engine.paceTimer ∧
      s.toUnconfigured.engine.fillTimer = Timer.stopped ∧ s.toUnconfigured.engine.grant = false ∧
      s.toUnconfigured.tc.sleepTimer = (s.enterState .unconfigured).tc.sleepTimer := by
  have h1 : s.claimAbandon.tc = s.tc := by rw [only_claimAbandon]; rfl
  have h2 : s.claimAbandon.side = s.side := by rw [only_claimAbandon]; rfl
  have h3 := s.paceTimer_claimAbandon
  unfold toUnconfigured enterState clearEngine endCommit claimClear disregardOp
  generalize s.claimAbandon = u at *
  simp only [setWake_tc, setWake_engine, setTc_tc, setTc_engine, setTc_side, setStore_tc, setStore_engine,
    setStore_side, setRegion_tc, setRegion_engine, setRegion_side, setEngine_tc, setEngine_engine, setEngine_side,
    setTracker_tc, setTracker_engine, setTracker_side, paceAt_unconfigured, fillAt_unconfigured, h1, h2, h3, true_and]
  rfl

/-- The UNCONFIGURED path does all that R151 says. -/
theorem unconfiguredFrom_toUnconfigured (s : State) : s.unconfiguredFrom s.toUnconfigured := by
  have h := s.epoch_claimAbandon
  have hw := s.wake_toUnconfigured
  have ht := s.timers_toUnconfigured
  unfold unconfiguredFrom
  unfold toUnconfigured at hw ht ⊢
  rw [only_claimAbandon] at hw ht ⊢
  generalize s.claimAbandon.tracker = tr at *
  generalize s.claimAbandon.engine = e at *
  exact ⟨rfl, rfl, rfl, rfl, rfl, rfl, rfl, rfl, rfl, rfl, h, rfl, rfl, rfl, ht.1, ht.2.1, ht.2.2.1, ht.2.2.2, rfl,
    rfl, rfl, rfl, rfl, rfl, hw⟩

/-! ## The choices where the part is stopped -/

/-- In IMAGED_OFF the store arbiter chooses a step of a bring-up or a mark clear, or nothing (R83). -/
theorem chooseStore_imagedOff (s : State) (h : s.tc.state = .imagedOff) :
    s.chooseStore = none ∨ s.chooseStore = some .markClear ∨ ∃ k, s.chooseStore = some (.bringUp k) := by
  unfold chooseStore
  split
  · exact .inr (.inr ⟨_, rfl⟩)
  · split
    · exact .inl rfl
    · split
      · exact .inr (.inl rfl)
      · refine .inl ?_
        simp [rankCommit, rankDemand, rankSave, rankBackground, rankPresave, background, demandState, TState.running, h]

/-- `t` comes from `s` by a choice in IMAGED_OFF: at most an operation sent on an idle link. -/
structure Sends (s t : State) : Prop where
  tracker : t.tracker = s.tracker
  engine : t.engine = { s.engine with markClearQueued := t.engine.markClearQueued }
  dram : t.dram = s.dram
  status : t.store.status = s.store.status
  op : ∀ o, s.store.op = some o → t.store.op = some o
  tc : t.tc = s.tc
  wake : t.wake = s.wake
  faults : t.faults = s.faults
  ru : t.ru.table = s.ru.table
  region : t.region = s.region

theorem Sends.refl (s : State) : Sends s s := ⟨rfl, rfl, rfl, rfl, fun _ h => h, rfl, rfl, rfl, rfl, rfl⟩

theorem Sends.trans {s t u : State} (a : Sends s t) (b : Sends t u) : Sends s u :=
  ⟨b.tracker.trans a.tracker, by rw [b.engine, a.engine], b.dram.trans a.dram, b.status.trans a.status,
    fun o h => b.op o (a.op o h), b.tc.trans a.tc, b.wake.trans a.wake, b.faults.trans a.faults, b.ru.trans a.ru,
    b.region.trans a.region⟩

theorem sends_sendOp (s : State) (kind : FrameKind) (block : Nat) (payload : Frame) (purpose : Purpose)
    (h : s.store.op = none) : Sends s (s.sendOp kind block payload purpose) :=
  ⟨rfl, rfl, rfl, rfl, fun o ho => by simp [h] at ho, rfl, rfl, rfl, rfl, rfl⟩

theorem sends_storeChoice (s : State) (h : s.tc.state = .imagedOff) : Sends s s.storeChoice := by
  unfold storeChoice
  split
  · rename_i hf
    have hn : s.store.op = none := by
      simp only [storeFree, Bool.and_eq_true, Option.isNone_iff_eq_none] at hf
      exact hf.1
    rcases s.chooseStore_imagedOff h with hc | hc | ⟨k, hc⟩
    · rw [hc]; exact .refl s
    · rw [hc]
      exact ⟨rfl, rfl, rfl, rfl, fun o ho => by simp [hn] at ho, rfl, rfl, rfl, rfl, rfl⟩
    · rw [hc]
      show Sends s (match s.engine.bringUp with | some b => s.sendStep b | none => s)
      split
      · unfold sendStep
        split <;> exact s.sends_sendOp _ _ _ _ hn
      · exact .refl s
  · exact .refl s

/-- The zero fill has nothing to choose outside the states that fill (R84, R113, R116). -/
theorem zeroChoice_eq (s : State) (hd : s.demandState = false) (hr : s.tc.state ≠ .restoring) : s.zeroChoice = s := by
  unfold zeroChoice
  split
  · simp [hd, background, hr]
  · rfl

theorem sends_choices (s : State) (h : s.tc.state = .imagedOff) : Sends s s.storeChoice.zeroChoice.storeChoice := by
  have h1 := s.sends_storeChoice h
  have h2 : s.storeChoice.tc.state = .imagedOff := by rw [h1.tc]; exact h
  rw [zeroChoice_eq _ (by simp [demandState, TState.running, h2]) (by simp [h2])]
  exact h1.trans (sends_storeChoice _ h2)

theorem imagedFrom_sends {s t u : State} (h : s.imagedFrom t) (hu : Sends t u) : s.imagedFrom u := by
  obtain ⟨a1, a2, a3, a4, a5, a6, a7, a8, a9, b1, b2, b3, b4, b5, b6, b7, b8, b9, c1, c2, c3, c4, c5, c6⟩ := h
  have he := hu.engine
  refine ⟨hu.tracker.trans a1, ?_, ?_, ?_, ?_, ?_, ?_, ?_, ?_, ?_, ?_, ?_, ?_, ?_, hu.dram.trans b6,
    fun o ho => hu.op _ (b7 o ho), hu.status.trans b8, ?_, ?_, ?_, ?_, hu.wake.trans c4, hu.ru.trans c5,
    hu.region.trans c6⟩
  all_goals first | rw [hu.tc]; assumption | rw [he]; assumption

theorem imagedFrom_setTc {s t : State} (h : s.imagedFrom t) (x : TransitionController)
    (hx : x.state = t.tc.state ∧ x.railLoss = t.tc.railLoss ∧ x.parkPhase = t.tc.parkPhase ∧
      x.sleepTimer = t.tc.sleepTimer) : s.imagedFrom (t.setTc x) := by
  obtain ⟨a1, a2, a3, a4, a5, a6, a7, a8, a9, b1, b2, b3, b4, b5, b6, b7, b8, b9, c1, c2, c3, c4, c5, c6⟩ := h
  exact ⟨a1, a2, a3, a4, a5, a6, a7, a8, a9, b1, b2, b3, b4, b5, b6, b7, b8, hx.1.trans b9, hx.2.1.trans c1,
    hx.2.2.1.trans c2, hx.2.2.2.trans c3, c4, c5, c6⟩

theorem imagedFrom_endCommit {s t : State} (h : s.endCommit.imagedFrom t) : s.imagedFrom t := by
  obtain ⟨a1, a2, a3, a4, a5, a6, a7, a8, a9, b1, b2, b3, b4, b5, b6, b7, b8, b9, c1, c2, c3, c4, c5, c6⟩ := h
  refine ⟨?_, ?_, a3, a4, a5, a6, a7, a8, a9, b1, b2, b3, b4, b5, b6, b7, b8, b9, c1, c2, c3, c4, c5, c6⟩
  · rw [a1, tracker_claimDramLoss, tracker_claimDramLoss]; rfl
  · rw [a2, freeSlots_claimDramLoss, freeSlots_claimDramLoss]; rfl

/-- What the end of a rail loss in IMAGED_OFF comes to once the choices are made (R147, R150, R155). -/
theorem settled_railLossToImagedOff (s : State) :
    let t := s.railLossToImagedOff.storeChoice.zeroChoice.storeChoice.parkTest.drive
    s.imagedFrom t ∧ t.faults = s.faults ∧ t.tc.interrupted = .none ∧
      t.tc.outcome =
        (if s.tc.interrupted = .none then
          { op := .railLoss, result := .completed, reason := .railLoss, passes := 0 }
        else { op := s.tc.interrupted, result := .failed, reason := .railLoss, passes := s.passesOf s.tc.interrupted }) := by
  intro t
  have hp : s.enterImagedOff.engine.passes = s.engine.passes := s.imagedFrom_enterImagedOff.2.2.2.2.2.2.2.2.1
  have h1 : s.imagedFrom s.railLossToImagedOff := by
    have h := s.imagedFrom_enterImagedOff
    unfold railLossToImagedOff railLossOutcome
    dsimp only
    split
    · exact imagedFrom_setTc (imagedFrom_setTc h _ ⟨rfl, rfl, rfl, rfl⟩) _ ⟨rfl, rfl, rfl, rfl⟩
    · exact imagedFrom_setTc (imagedFrom_setTc h _ ⟨rfl, rfl, rfl, rfl⟩) _ ⟨rfl, rfl, rfl, rfl⟩
  have hst : s.railLossToImagedOff.tc.state = .imagedOff := h1.2.2.2.2.2.2.2.2.2.2.2.2.2.2.2.2.2.1
  have hs := sends_choices _ hst
  have h2 := imagedFrom_sends h1 hs
  have e : t = s.railLossToImagedOff.storeChoice.zeroChoice.storeChoice.drive := by
    simp only [t]
    rw [parkTest_eq _ (by rw [hs.tc, hst]; simp)]
  have ht : t.tc = s.railLossToImagedOff.tc := by rw [e]; exact hs.tc
  refine ⟨by rw [e]; exact h2, ?_, ?_, ?_⟩
  · rw [e]
    refine hs.faults.trans ?_
    unfold railLossToImagedOff railLossOutcome
    dsimp only
    split <;> exact s.faults_enterImagedOff
  · rw [ht]; rfl
  · rw [ht]
    unfold railLossToImagedOff railLossOutcome
    simp only [tc_enterImagedOff]
    split
    · rfl
    · unfold writeOutcome passesOf; rw [hp]; rfl

theorem settle_of_railLoss (s : State) (hr : s.tc.railLoss = true) (h1 : s.startTest = s) (h2 : s.commitWait = s) :
    s.settle = s.railCourse.storeChoice.zeroChoice.storeChoice.parkTest.drive := by
  have a : s.restoringTest = s := by simp [restoringTest, hr]
  have b : s.savingTest = s := by simp [savingTest, hr]
  unfold settle tcTests
  rw [h1, a, h2, b, h2]

/-- What the UNCONFIGURED path leaves as it was. -/
theorem others_toUnconfigured (s : State) :
    s.toUnconfigured.dram = s.dram ∧ s.toUnconfigured.lines = s.lines ∧ s.toUnconfigured.ru = s.ru ∧
      s.toUnconfigured.faults = s.faults ∧ s.toUnconfigured.tc.interrupted = s.tc.interrupted ∧
      s.toUnconfigured.engine.passes = s.engine.passes := by
  have h : s.claimAbandon.engine.passes = s.engine.passes := by
    unfold claimAbandon claimAll
    dsimp only
    unfold noticeDirty appendSlots
    repeat' split
    all_goals rfl
  have h1 : s.claimAbandon.dram = s.dram := by rw [only_claimAbandon]; rfl
  have h2 : s.claimAbandon.lines = s.lines := by rw [only_claimAbandon]; rfl
  have h3 : s.claimAbandon.ru = s.ru := by rw [only_claimAbandon]; rfl
  have h4 : s.claimAbandon.faults = s.faults := by rw [only_claimAbandon]; rfl
  have h5 : s.claimAbandon.tc = s.tc := by rw [only_claimAbandon]; rfl
  unfold toUnconfigured enterState clearEngine endCommit claimClear disregardOp
  generalize s.claimAbandon = u at *
  simp only [setWake_dram, setWake_lines, setWake_ru, setWake_faults, setWake_tc, setWake_engine, setTc_dram,
    setTc_lines, setTc_ru, setTc_faults, setTc_tc, setTc_engine, setStore_dram, setStore_lines, setStore_ru,
    setStore_faults, setStore_tc, setStore_engine, setRegion_dram, setRegion_lines, setRegion_ru, setRegion_faults,
    setRegion_tc, setRegion_engine, setEngine_dram, setEngine_lines, setEngine_ru, setEngine_faults, setEngine_tc,
    setEngine_engine, setTracker_dram, setTracker_lines, setTracker_ru, setTracker_faults, setTracker_tc,
    setTracker_engine, h, h1, h2, h3, h4, h5, and_self]

theorem unconfiguredFrom_setTc {s t : State} (h : s.unconfiguredFrom t) (x : TransitionController)
    (hx : x.state = t.tc.state ∧ x.railLoss = t.tc.railLoss ∧ x.start = t.tc.start ∧
      x.parkPhase = t.tc.parkPhase ∧ x.sleepTimer = t.tc.sleepTimer) : s.unconfiguredFrom (t.setTc x) := by
  obtain ⟨a1, a2, a3, a4, a5, a6, a7, a8, a9, b1, b2, b3, b4, b5, d1, d2, d3, d4, b6, b7, b8, b9, c1, c2, c3⟩ := h
  exact ⟨a1, a2, a3, a4, a5, a6, a7, a8, a9, b1, b2, b3, b4, b5, d1, d2, d3, hx.2.2.2.2.trans d4, b6, b7,
    hx.1.trans b8, hx.2.1.trans b9, hx.2.2.1.trans c1, hx.2.2.2.1.trans c2, c3⟩

/-- In UNCONFIGURED, with the store DETACHED and no bring-up, there is nothing to choose (R83, R84). -/
theorem choices_unconfigured (s : State) (h : s.tc.state = .unconfigured) (hb : s.engine.bringUp = none)
    (hs : s.store.status = .detached) : s.storeChoice.zeroChoice.storeChoice.parkTest = s := by
  have hc : s.storeChoice = s := by
    unfold storeChoice
    split
    · simp [chooseStore, hb, hs]
    · rfl
  rw [hc, zeroChoice_eq s (by simp [demandState, TState.running, h]) (by simp [h]), hc, parkTest_eq s (by simp [h])]

theorem bringUpIfReady_eq (s : State) :
    s.bringUpIfReady =
      s.setDram
        { s.dram with
          cond := if s.lines.mainOk = true ∧ s.lines.memOk = true ∧ s.dram.cond = .notUp then .bringingUp
            else s.dram.cond } := by
  unfold bringUpIfReady railsOk
  simp only [Bool.and_eq_true, and_assoc]
  split <;> rfl

/-- What the end of a rail loss in UNCONFIGURED comes to once the choices are made (R151, R135, R155). -/
theorem settled_railLossToUnconfigured (s : State) :
    let t := s.railLossToUnconfigured.storeChoice.zeroChoice.storeChoice.parkTest.drive
    s.unconfiguredFrom t ∧ t.ru.table = s.ru.table ∧ t.faults = s.faults ∧
      t.dram =
        { s.dram with
          cond := if s.lines.mainOk = true ∧ s.lines.memOk = true ∧ s.dram.cond = .notUp then .bringingUp
            else s.dram.cond } ∧
      t.tc.interrupted = .none ∧
      t.tc.outcome =
        (if s.tc.interrupted = .none then
          { op := .railLoss, result := .failed, reason := .railLoss, passes := 0 }
        else { op := s.tc.interrupted, result := .failed, reason := .railLoss, passes := s.passesOf s.tc.interrupted }) := by
  intro t
  obtain ⟨hd, hl, hr, hf, hi, hp⟩ := s.others_toUnconfigured
  have h0 : s.unconfiguredFrom (s.toUnconfigured.railLossOutcome .failed) := by
    unfold railLossOutcome
    dsimp only
    split
    · exact unconfiguredFrom_setTc (unconfiguredFrom_setTc s.unconfiguredFrom_toUnconfigured _ ⟨rfl, rfl, rfl, rfl, rfl⟩) _
        ⟨rfl, rfl, rfl, rfl, rfl⟩
    · exact unconfiguredFrom_setTc (unconfiguredFrom_setTc s.unconfiguredFrom_toUnconfigured _ ⟨rfl, rfl, rfl, rfl, rfl⟩) _
        ⟨rfl, rfl, rfl, rfl, rfl⟩
  have hout : (s.toUnconfigured.railLossOutcome .failed).dram = s.dram ∧
      (s.toUnconfigured.railLossOutcome .failed).lines = s.lines ∧
      (s.toUnconfigured.railLossOutcome .failed).ru = s.ru ∧
      (s.toUnconfigured.railLossOutcome .failed).faults = s.faults ∧
      (s.toUnconfigured.railLossOutcome .failed).tc.interrupted = .none ∧
      (s.toUnconfigured.railLossOutcome .failed).tc.outcome =
        (if s.tc.interrupted = .none then
          { op := .railLoss, result := .failed, reason := .railLoss, passes := 0 }
        else { op := s.tc.interrupted, result := .failed, reason := .railLoss, passes := s.passesOf s.tc.interrupted }) := by
    unfold railLossOutcome writeOutcome passesOf
    simp only [hi, hp]
    split <;> exact ⟨hd, hl, hr, hf, rfl, rfl⟩
  obtain ⟨od, ol, or, of, oi, oo⟩ := hout
  have e0 : t = (s.toUnconfigured.railLossOutcome .failed).bringUpIfReady.storeChoice.zeroChoice.storeChoice.parkTest.drive := rfl
  clear_value t
  generalize s.toUnconfigured.railLossOutcome .failed = u at *
  have hb : u.bringUpIfReady = _ := u.bringUpIfReady_eq
  have hc : u.bringUpIfReady.storeChoice.zeroChoice.storeChoice.parkTest = u.bringUpIfReady := by
    obtain ⟨a1, a2, a3, a4, a5, a6, a7, a8, a9, b1, b2, b3, b4, b5, d1, d2, d3, d4, b6, b7, b8, b9, c1, c2, c3⟩ := h0
    rw [hb]
    exact choices_unconfigured _ b8 b5 (by rw [setDram_store, b7])
  have e : t = u.bringUpIfReady.drive := by rw [e0, hc]
  rw [e, hb, od, ol]
  exact ⟨h0, by rw [← or]; rfl, of, rfl, oi, oo⟩

end State

end Sys2Proof.Machine
end

