-- ==== Sys2Proof/Tests/Slice0.lean ====
section
/-! SUPPORT. Tests: which commands can be sent, what some commands do on small states, and for each statement of the
obligations that has premises, states and operands that meet them, clause by clause. -/

namespace Sys2Proof.Tests

open Sys2Proof Sys2Proof.Machine

/-! ## Which commands can be sent -/

theorem test_params_of_16_bytes : (Instr.status (List.replicate 16 0)).wellFormed = true := by decide
theorem test_params_too_long : (Instr.status (List.replicate 17 0)).wellFormed = false := by decide
theorem test_unknown_code_26 : (Instr.unknownCommandFrame 26 []).wellFormed = true := by decide
theorem test_unknown_code_0 : (Instr.unknownCommandFrame 0 []).wellFormed = true := by decide
theorem test_unknown_code_is_known : (Instr.unknownCommandFrame 25 []).wellFormed = false := by decide
theorem test_unknown_params_too_long : (Instr.unknownCommandFrame 26 (List.replicate 17 0)).wellFormed = false := by
  decide
theorem test_frame_fits : (Instr.storeResponse { bytes := [0, 1], length := 262152 }).wellFormed = true := by decide
theorem test_frame_too_long : (Instr.storeResponse { bytes := [], length := 262153 }).wellFormed = false := by decide
theorem test_frame_lists_too_much : (Instr.storeResponse { bytes := [0, 1], length := 1 }).wellFormed = false := by
  decide
theorem test_fill_of_last_granule : (Instr.fillEnd 65535).wellFormed = true := by decide
theorem test_fill_beyond_granules : (Instr.fillEnd 65536).wellFormed = false := by decide
theorem test_bringup_of_all_dram : (Instr.dramBringupEnd 17179869184).wellFormed = true := by decide
theorem test_bringup_of_too_much : (Instr.dramBringupEnd 17179869248).wellFormed = false := by decide
theorem test_bringup_of_part_line : (Instr.dramBringupEnd 100).wellFormed = false := by decide
theorem test_decay_in_dram : (Instr.selfRefreshExitEnd [(17179869183, 1)]).wellFormed = true := by decide
theorem test_decay_beyond_dram : (Instr.selfRefreshExitEnd [(17179869184, 1)]).wellFormed = false := by decide

/-! ## Small states -/

/-- One granule of each state that a preserved granule has, and a VOID one of ZERO class. -/
def recs : GTable :=
  [(0, { st := .dirty, committed := none, pending := none, cls := .preserve }),
    (1, { st := .copying, committed := none, pending := some 1, cls := .preserve }),
    (2, { st := .recopy, committed := none, pending := some 2, cls := .preserve }),
    (3, { st := .saved, committed := none, pending := some 3, cls := .preserve }),
    (4, { st := .absent, committed := some 4, pending := none, cls := .preserve }),
    (5, { st := .poison, committed := none, pending := none, cls := .preserve }),
    (6, { st := .clean, committed := some 6, pending := none, cls := .preserve }),
    (7, { st := .filling, committed := some 7, pending := none, cls := .preserve }),
    (8, { st := .void, committed := none, pending := none, cls := .zero })]

/-- The tracker with a table, of 4 units. -/
def tracking (t : GTable) : Tracker := Tracker.withTable { Tracker.reset with units := 4 } t

/-- A part in a transition state, its rails asserted, DRAM UP and link ready, with a granule table. -/
def part (st : TState) (t : GTable) : State :=
  { State.reset with
    ru := { table := [], linkReady := true }
    tc := { TransitionController.reset with state := st }
    tracker := tracking t
    dram := { DramPort.reset with cond := .up, installed := 1073741824 }
    lines := { mainOk := true, memOk := true, stable := true, dramHold := true } }

/-- The part with the granules of `recs`. -/
def w (st : TState) : State := part st recs

/-- The part with no granule listed. -/
def bare (st : TState) : State := part st []

/-- With the store ATTACHED and two slots free. -/
def stored (s : State) : State :=
  (s.setStore { s.store with status := .attached, slots := 9 }).setEngine { s.engine with freeSlots := [8, 9] }

/-- With an operation on the store link, its timer RUNNING. -/
def linked (s : State) (o : StoreOp) : State :=
  s.setStore { s.store with op := some o, opNum := o.num, timer := Timer.load 500 }

/-- An operation number 1 with a purpose. -/
def op (kind : FrameKind) (purpose : Purpose) : StoreOp :=
  { num := 1, kind := kind, block := 5, payload := { bytes := [], length := 0 }, purpose := purpose,
    disregarded := false }

/-- A READ entry, and a WRITE entry. -/
def rd (line : Nat) (st : EntryState) : Entry :=
  { tag := 1, kind := .read, line := line, data := [], enables := 0, cls := some .preserve, st := st }

def wr (line : Nat) (cls : GClass) (st : EntryState) : Entry :=
  { tag := 2, kind := .write, line := line, data := List.replicate 64 7, enables := 1, cls := some cls, st := st }

/-- With a wake line as given. -/
def lineAs (s : State) (i : Fin 5) (l : WakeLine) : State := s.setWake (s.wake.setLine i l)

/-- The response to operation 1 with a status. -/
def reply (status : Byte) (length : Nat) : Frame := { bytes := [status, 1], length := length }

/-- START's parameters. -/
def startParams (mode units use : Byte) (address : List Byte) : List Byte := [mode, units, use, 0] ++ padTo 8 address

/-! ## Meanings on small states -/

theorem test_unconfigured_start_needs_rails :
    exec (.start (startParams 1 4 1 [])) State.reset = .next (State.reset.putReply 1 .wrongState []) := by rfl
theorem test_rails_begin_bring_up :
    (((State.reset.railRise .main).railRise .mem).dram.cond = .bringingUp) := by decide
theorem test_bring_up_makes_link_ready :
    ((((State.reset.railRise .main).railRise .mem).dramBringupEnd 64).ru.linkReady = true) := by decide
theorem test_resume_sends_identify :
    (((bare .unconfigured).start (startParams 1 4 1 [])).store.op.map StoreOp.kind = some .identify) := by decide
theorem test_resume_enters_starting :
    ((bare .unconfigured).start (startParams 1 4 1 [])).tc.state = .starting := by decide
theorem test_sleep_with_nothing_to_drain_writes_the_pattern :
    ((bare .active).sleep [1]).tc.parkPhase = .pattern := by decide
theorem test_sleep_takes_its_flag : ((bare .active).sleep [1]).tc.abortable = true := by decide
theorem test_hybrid_with_a_dirty_granule_copies_it :
    (((stored (part .active (recs.take 1))).imagedEntry 5 .hybrid [0]).store.op.map StoreOp.purpose =
      some (.copy 0 8)) := by decide
theorem test_hybrid_with_nothing_dirty_writes_the_index :
    (((stored (bare .active)).imagedEntry 5 .hybrid [0]).engine.commitPhase = .index) := by decide
theorem test_exit_sleep_leaves_self_refresh : ((bare .sleeping).exitSleep).dram.cond = .exitingSr := by decide
theorem test_exit_imaged_brings_up : ((bare .imagedOff).exitImaged).dram.cond = .bringingUp := by decide
theorem test_release_poison_counts :
    ((w .active).releasePoison (leBytes 4 5 ++ leBytes 4 1)).side.buffer =
      some { command := 11, code := .done, data := [1, 0, 0, 0] } := by decide
theorem test_release_poison_makes_dirty :
    (((w .active).releasePoison (leBytes 4 5 ++ leBytes 4 1)).recOf 5).st = .dirty := by decide
theorem test_read_of_poison_is_answered :
    ((w .active).upstreamRequest ([65, 0, 0, 0] ++ leBytes 4 20480)).sent.completions =
      [{ tag := 1, status := .poisoned, data := [] }] := by decide
theorem test_read_of_absent_is_held :
    (((w .active).upstreamRequest ([65, 0, 0, 0] ++ leBytes 4 16384)).ru.table.map Entry.st) =
      [.held .fill] := by decide
theorem test_bad_tag_is_a_violation :
    ((bare .unconfigured).upstreamRequest [1]).faults.code = some .linkViolation := by decide
theorem test_link_reset_empties_the_table :
    (((w .active).joinTable (rd 0 (.issued none))).linkReset).ru.table = [] := by decide
theorem test_rail_fall_with_the_mark_set_images :
    (((w .active).setEngine { (w .active).engine with mark := .set }).railFall .main).tc.state = .imagedOff := by
  decide
theorem test_rail_fall_without_the_mark_unconfigures :
    ((w .active).railFall .mem).tc.state = .unconfigured := by decide
theorem test_edge_line_wakes_a_sleeper :
    ((lineAs (bare .sleeping) 1 { WakeLine.reset with mode := .edge, machine := .armed }).wkAssert 1).wake.wakeReq =
      true := by decide
theorem test_hold_line_times :
    ((lineAs (bare .sleeping) 1
      { WakeLine.reset with mode := .hold, hold := 10, machine := .armed }).wkAssert 1).wake.causes = [] := by decide
theorem test_unmatched_response_is_discarded :
    exec (.storeResponse (reply 0 8)) State.reset = .next State.reset := by rfl
theorem test_pattern_begins_with_the_seed : patternBytes 2 (State.seedOf 0) = [1, 0] := by decide
theorem test_pattern_takes_up_the_inject_flag :
    ((((bare .active).injectCheckError).sleep [1]).dram.inject = false) ∧
      (((bare .active).injectCheckError).sleep [1]).dram.invertFirst = true := by decide
theorem test_frame_of_sleep : commandOfFrame [4, 1, 1] = .sleep [1] := by decide
theorem test_frame_of_unknown_code : commandOfFrame [26, 0] = .unknownCommandFrame 26 [] := by decide
theorem test_status_has_52_bytes : State.reset.statusBytes.length = 52 := by decide
theorem test_read_fault_has_16_bytes : State.reset.faults.bytes.length = 16 := by decide

/-! ## Premises of the statements: the queue and the invariants -/

theorem test_premise_StepTakesFrontCommand : (State.reset.setPending [.readReply]).pending = [.readReply] := by rfl
theorem test_premise_EmptyQueuePassesOneMs : (w .active).pending = [] := by rfl

/-- A state that takes a step, for the invariants. -/
theorem test_premise_step : step ((w .active).setPending [.readReply]) = .next (w .active).readReply := by rfl
theorem test_premise_StepKeepsMemoryForm : Memory.wf (w .active).dram.mem = true := by decide
theorem test_premise_StepKeepsDirectoryCounts : (w .active).tracker.counted := ⟨rfl, rfl⟩
theorem test_premise_StepKeepsRecordsSound : (w .active).tracker.sound :=
  ⟨by decide, by simp [w, part, tracking, Tracker.withTable, recs, GRec.sound, GClass.preserved]⟩
theorem test_premise_StepKeepsFaultUnitAgreeing : (w .active).faults.agrees := by decide
theorem test_premise_StepKeepsLinesDriven : (w .active).linesDriven := by decide
theorem test_premise_StepKeepsTagsDistinct :
    ((w .active).joinTable (rd 0 .waiting)).ru.tagsDistinct := by decide
theorem test_premise_StepKeepsRanges :
    (w .active).dram.inRange ∧ (w .active).engine.inRange ∧ (w .active).side.params.inRange ∧
      causesOk (w .active).wake.causes := by decide

/-- With a full fill list, and with a full retired list while ATTACH_STORE runs. -/
def listing : State := (w .restoring).setEngine { (w .restoring).engine with fillList := List.range 32 }
def retiring : State :=
  (w .active).setEngine
    { (w .active).engine with retired := List.range 256, bringUp := some (State.newBringUp .attach) }

theorem test_premise_StepKeepsRanges_lists :
    (listing.ru.tagsDistinct ∧ listing.engine.fillList.Nodup ∧ listing.engine.fillList.length ≤ 32) ∧
      retiring.engine.retiredInRange := by
  refine ⟨by decide, by simp [retiring, State.setEngine], fun b hb => ?_⟩
  cases hb
  exact ⟨by decide, fun _ h => (Option.some_ne_none _ h.symm).elim, fun _ h => (Option.some_ne_none _ h.symm).elim⟩
theorem test_premise_StepKeepsRanges_check_granule :
    (bare .active).tracker.sound ∧ (bare .active).checkBlank := ⟨⟨rfl, fun _ h => nomatch h⟩, fun _ _ => rfl⟩

/-! ## Premises: claims -/

theorem test_premise_CopyClaimsFollowTheirTables :
    ((w .active).recOf 0).st = .dirty ∧ ((w .active).recOf 1).st = .copying ∧ ((w .active).recOf 2).st = .recopy ∧
      (((w .active).recOf 3).st ≠ .copying ∧ ((w .active).recOf 3).st ≠ .recopy) ∧ (4 : Nat) ≠ 3 := by decide
theorem test_premise_table_in_form : GTable.wf (w .active).tracker.table = true := by decide
theorem test_premise_ReloadClaimFollowsItsTable :
    4095 < (w .active).granules ∧ (w .active).granules ≤ 4096 ∧ 4095 + 1 = (w .active).granules ∧
      0 < (w .active).granules := by decide
/-- Descriptors 0 and 1 both cover granules 0 to 4. -/
def twoRegions : RegionFile :=
  { RegionFile.empty with
    descs := (RegionFile.empty.descs.set 0 { Descriptor.empty with valid := true, extent := 4 }).set 1
      { Descriptor.empty with valid := true, cls := 2, extent := 4 } }

/-- With a region file that has granules 0 to 4 preserved, and the mark SET. -/
def reloading (t : GTable) : State :=
  let s := (part .active t).setRegion { (part .active t).region with file := twoRegions }
  s.setEngine { s.engine with mark := .set }

/-- A granule that becomes preserved, and none that does. -/
theorem test_premise_ReloadClaimFollowsItsTable_enters :
    ((reloading []).recOf 0).cls.preserved = false ∧ ((reloading []).recOf 0).st ≠ .dirty ∧
      0 < (reloading []).granules ∧
      ((reloading []).region.file.classOf (reloading []).granules 0).preserved = true ∧
      ((w .active).region.file.classOf (w .active).granules 0).preserved = false ∧
      (w .active).region.file = RegionFile.empty := by decide

/-- A copy of a granule written since that ends GOOD clears the exhaustion noted flag with its slot (R94). -/
theorem test_released_slot_clears_the_exhaustion_flag :
    let s := (w .active).setEngine { (w .active).engine with exhaustionNoted := true }
    (s.claimCopyGood 2).engine.exhaustionNoted = false ∧ (s.claimCopyGood 1).engine.exhaustionNoted = true := by decide
theorem test_premise_ResumeClaimFollowsItsTable :
    0 < (w .starting).granules ∧ 4095 < (w .starting).granules := by decide
theorem test_premise_ResumeClaimFollowsItsTable_index :
    ([IndexEntry.none, .lost, .slot 5][1]? = some .lost ∧ [IndexEntry.none, .lost, .slot 5][2]? = some (.slot 5) ∧
        IndexEntry.lost ≠ .none) ∧
      ([IndexEntry.slot 5, .slot 5][0]? = some (.slot 5) ∧ [IndexEntry.slot 5, .slot 5][1]? = some (.slot 5)) := by decide
theorem test_premise_CommitClaimFollowsItsTable_abandon :
    (∃ x ∈ (w .active).tracker.table, x.2.st = .saved) ∧ (∀ x ∈ (bare .active).tracker.table, x.2.st ≠ .saved) ∧
      GTable.wf (bare .active).tracker.table = true := by decide
theorem test_premise_SummaryFlagsFollowTheTable :
    (w .active).tracker.counted ∧ ∀ x ∈ (w .active).tracker.table, x.1 < 65536 := ⟨⟨rfl, rfl⟩, by decide⟩

/-! ## Premises: regions, requests and the arbiter -/

theorem test_premise_ClassIsThatOfTheGoverningDescriptor :
    4096 ≤ 4095 + 1 ∧ (∀ n : Fin 32, RegionFile.empty.descs[n].covers 4094 = false) ∧ 4094 + 1 < 4096 ∧
      twoRegions.descs[(0 : Fin 32)].covers 4 = true ∧
      (∀ m : Fin 32, m < 0 → twoRegions.descs[m].covers 4 = false) ∧
      twoRegions.descs[(0 : Fin 32)].covers 5 = false := by decide
/-- A valid descriptor of GRANULE units, and one of COARSE units. -/
def fine : Descriptor := { Descriptor.empty with valid := true, base := 4090, extent := 4 }
def coarse : Descriptor := { Descriptor.empty with valid := true, unit := 1, base := 1023, extent := 2 }

theorem test_premise_ClassIsThatOfTheGoverningDescriptor_units :
    (fine.valid = true ∧ fine.unit ≠ 1 ∧ fine.covers 4090 = true ∧ fine.covers 4094 = true ∧
        fine.covers 4089 = false ∧ fine.covers 4095 = false) ∧
      (coarse.unit = 1 ∧ coarse.covers 1023 = true ∧ coarse.covers 4094 = true ∧ coarse.covers 1022 = false ∧
        coarse.covers 4095 = false) ∧
      (tableAddrOk 4096 1073479168 = true ∧ tableAddrOk 4096 1073479680 = false ∧ tableAddrOk 4096 513 = false) ∧
      (descriptorsOk 4096 (RegionFile.empty.descs.set 31 fine) = true ∧
        descriptorsOk 4095 (RegionFile.empty.descs.set 31 fine) = false ∧
        descriptorsOk 4096 (RegionFile.empty.descs.set 0 coarse) = true ∧
        descriptorsOk 4096 (RegionFile.empty.descs.set 0 { coarse with unit := 2 }) = false) := by decide
theorem test_premise_ClassIsThatOfTheGoverningDescriptor_capacity :
    GTable.wf (stored (w .active)).tracker.table = true ∧ (stored (w .active)).store.status = .attached ∧
      (w .active).store.status ≠ .attached := by decide
theorem test_premise_RequestIsSettledInTheFirstWayThatApplies :
    (w .unconfigured).tc.state = .unconfigured ∧
      ((w .active).tc.state ≠ .unconfigured ∧ 262144 * (w .active).granules ≤ (rd 16777216 .waiting).addr) ∧
      ((w .active).tc.state ≠ .unconfigured ∧ (rd 16777215 .waiting).addr < 262144 * (w .active).granules) ∧
      ((wr 0 .fixed .waiting).kind = .write ∧ (wr 0 .fixed .waiting).cls = some .fixed) ∧
      ((wr 0 .preserve .waiting).kind = .write ∧ (wr 0 .preserve .waiting).cls ≠ some .fixed) ∧
      (w .committing).tc.state = .committing ∧
      (((w .active).recOf (wr 16384 .preserve .waiting).granule).st = .absent ∧
        ((w .active).recOf (rd 28672 .waiting).granule).st = .filling) ∧
      (((w .active).recOf (wr 0 .preserve .waiting).granule).st ≠ .absent ∧
        ((w .active).recOf (wr 0 .preserve .waiting).granule).st ≠ .filling) ∧
      ((w .active).recOf (rd 20480 .waiting).granule).st = .poison ∧
      (((w .active).recOf (rd 24576 .waiting).granule).st ≠ .absent ∧
        ((w .active).recOf (rd 24576 .waiting).granule).st ≠ .filling ∧
        ((w .active).recOf (rd 24576 .waiting).granule).st ≠ .poison) := by decide
theorem test_premise_RequestIsSettledInTheFirstWayThatApplies_held :
    ((w .active).recOf (rd 16384 .waiting).granule).st = .absent ∧
      ((w .active).recOf (rd 28672 .waiting).granule).st ≠ .absent ∧
      (rd 0 .waiting).kind = .read ∧ (wr 0 .preserve .waiting).kind = .write := by decide
theorem test_premise_OutOfRangeRequestIsAnsweredByItsFaultClass :
    (w .active).tc.state ≠ .unconfigured ∧ 262144 * (w .active).granules ≤ (rd 16777216 .waiting).addr ∧
      ((wr 16777215 .fixed .waiting).addr < 262144 * (w .active).granules ∧
        (wr 16777215 .fixed .waiting).kind = .write ∧ (wr 16777215 .fixed .waiting).cls = some .fixed) ∧
      ((rd 20480 .waiting).addr < 262144 * (w .active).granules ∧ (rd 20480 .waiting).kind = .read ∧
        ((w .active).recOf (rd 20480 .waiting).granule).st = .poison) := by decide

/-- An upstream access and an engine access. -/
def upAcc : Access := { src := .upRead 1 true, line := 3 }
def engAcc : Access := { src := .engine .fetch, line := 7 }

theorem test_premise_ArbiterServesUpstreamFirstUpToEight :
    (pickAccess [engAcc, upAcc] 7 = some upAcc ∧ [engAcc, upAcc].find? Access.upstream = some upAcc) ∧
      (pickAccess [upAcc] 8 = some upAcc ∧ [upAcc].all Access.upstream = true) ∧
      (pickAccess [engAcc, upAcc] 8 = some engAcc ∧
        [engAcc, upAcc].find? (fun x => !x.upstream) = some engAcc) ∧
      (pickAccess [engAcc] 0 = some engAcc ∧ [engAcc].any Access.upstream = false) ∧
      pickAccess [] 0 = none := by decide

/-! ## Premises: headers and faults -/

/-- A header with a full retired list. -/
def header : Header :=
  { epoch := 4294967295, mark := true, units := 4, slots := 2048, indexCode := 7,
    file := { RegionFile.empty with tableAddr := some 8192 }, retiredLength := 256,
    retired := List.range 256 }

theorem test_premise_HeaderDecodesAsWritten :
    header.file.tableAddr = some 8192 ∧ 8192 < 2 ^ 64 ∧ header.units < 256 ∧ header.slots < 2 ^ 32 ∧
      header.retiredLength = header.retired.length ∧ header.retired.length ≤ 256 ∧
      (∀ n ∈ header.retired, n < 2 ^ 32) ∧
      (∀ n : Fin 32, header.file.descs[n].base < 65536 ∧ header.file.descs[n].extent < 65536) := by
  refine ⟨rfl, by decide, by decide, by decide, by simp [header], by simp [header], ?_, by decide⟩
  intro n h
  have : n < 256 := by simpa [header] using h
  omega

theorem test_premise_HeaderDecodesAsWritten_frames :
    ((Instr.status (List.replicate 16 7)).sidebandForm = some (20, 0, List.replicate 16 7) ∧
        (List.replicate 16 (7 : Byte)).length ≤ 16) ∧
      (Instr.resetPart []).sidebandForm = some (25, 0, []) ∧ 25 < (26 : Byte).toNat := by decide
theorem test_premise_HeaderDecodesAsWritten_index :
    (∀ n, .slot n ∈ [IndexEntry.slot 16777215, .lost, .none] → n < 2 ^ 24) ∧
      [IndexEntry.slot 16777215, .lost, .none].length < 65536 ∧ 2 < (3 : Byte).toNat := by
  refine ⟨fun n h => ?_, by decide, by decide⟩
  simp only [List.mem_cons, IndexEntry.slot.injEq, List.not_mem_nil, or_false, reduceCtorEq] at h
  omega

/-- With the poisoned-read class masked. -/
def masked : State := (w .active).setFaults { FaultUnit.reset with enables := 0 }

theorem test_premise_ReportIsLatchedAndCounted :
    (FaultClass.storeDown = .storeDown ∧ (w .active).faults.enables.getLsbD (FaultClass.entryUnsettled.code - 4) = true) ∧
      (FaultClass.poisonRead ≠ .storeDown ∧ FaultClass.poisonRead ≠ .linkViolation ∧
        FaultClass.poisonRead ≠ .railLoss ∧
        masked.faults.enables.getLsbD (FaultClass.poisonRead.code - 4) = false) := by decide

/-! ## Premises: the sideband -/

/-- While the port is HANDLING, and while a rail loss is in progress. -/
def handling : State := (w .active).setSide { SidebandPort.reset with handling := true }
def losing : State := (w .active).setTc { (w .active).tc with railLoss := true }

theorem test_premise_CommandFramesAreJudgedAndRepliesRead :
    ((Instr.status [0]).sidebandForm = some (20, 0, [0]) ∧ ([0] : List Byte).length ≠ 0) ∧
      ((Instr.setParam [1, 0, 2, 0]).sidebandForm = some (12, 4, [1, 0, 2, 0]) ∧
        ([1, 0, 2, 0] : List Byte).length = 4 ∧ (12 : Nat) ≠ 25 ∧ handling.side.handling = true) ∧
      ((Instr.abortEntry []).sidebandForm = some (7, 0, []) ∧ (Instr.abortEntry []).refusedInRailLoss = true ∧
        losing.side.handling = false ∧ losing.tc.railLoss = true) := by decide
theorem test_premise_SetParamSetsOneParameter :
    (w .active).takes [1, 0, 50, 0] 4 ∧ numberAt [1, 0, 50, 0] 0 1 = 1 ∧ numberAt [1, 0, 50, 0] 2 2 = 50 ∧
      numberAt [2, 0, 232, 3] 0 1 = 2 ∧ numberAt [2, 0, 232, 3] 2 2 = 1000 ∧ numberAt [3, 0, 0, 0] 0 1 = 3 ∧
      numberAt [4, 0, 160, 5] 0 1 = 4 ∧ numberAt [4, 0, 160, 5] 2 2 = 1440 ∧ numberAt [5, 0, 16, 0] 0 1 = 5 ∧
      numberAt [0, 0, 0, 0] 0 1 = 0 ∧ 5 < numberAt [6, 0, 0, 0] 0 1 := by decide
theorem test_premise_SetWakeStartsTheLineAfresh :
    ((w .active).takes [4, 2, 16, 39] 4 ∧ numberAt [4, 2, 16, 39] 0 1 = (4 : Fin 5).val ∧
        wakeModeOfCode (numberAt [4, 2, 16, 39] 1 1) = some .hold ∧ numberAt [4, 2, 16, 39] 2 2 ≤ 10000 ∧
        numberAt [4, 2, 16, 39] 2 2 % 10 = 0) ∧
      4 < numberAt [5, 0, 0, 0] 0 1 ∧ 2 < numberAt [0, 3, 0, 0] 1 1 ∧ 10000 < numberAt [0, 1, 17, 39] 2 2 ∧
      numberAt [0, 1, 5, 0] 2 2 % 10 ≠ 0 := by decide
theorem test_premise_port_ready : (w .active).side.handling = false := by decide
theorem test_premise_ReportEnablesAndAlertDisableAreSet :
    ((w .active).takes [13, 0] 2 ∧ 4 ≤ numberAt [4, 1] 0 1 ∧ numberAt [13, 0] 0 1 ≤ 13 ∧
        numberAt [13, 0] 1 1 = (if false then 1 else 0) ∧ numberAt [4, 1] 1 1 = (if true then 1 else 0)) ∧
      numberAt [3, 1] 0 1 < 4 ∧ 13 < numberAt [14, 1] 0 1 ∧ 1 < numberAt [4, 2] 1 1 ∧
      ((w .active).takes [1] 1 ∧ numberAt [1] 0 1 = (if true then 1 else 0) ∧ 1 < numberAt [2] 0 1) := by decide
/-- With presave paused, its timer GATED at a count. -/
def gated (count : Nat) : State :=
  (w .active).setEngine
    { (w .active).engine with presaveOn := true, presavePaused := true, paceTimer := { status := .gated, count := count } }

theorem test_premise_PresaveSetsTheEnableAndThePause :
    (w .active).takes [1] 1 ∧ numberAt [1] 0 1 = 1 ∧ numberAt [0] 0 1 = 0 ∧ numberAt [2] 0 1 = 2 ∧
      numberAt [3] 0 1 = 3 ∧ 3 < numberAt [4] 0 1 ∧
      (gated 20).engine.paceTimer.status = .gated ∧ (gated 20).engine.paceTimer.count ≠ 0 ∧
      (gated 0).engine.paceTimer.status = .gated ∧ (gated 0).engine.paceTimer.count = 0 ∧
      (w .active).engine.paceTimer.status ≠ .gated := by decide
theorem test_premise_SnapshotLatchesAndReadSnapshotUnlatches :
    (w .active).takes [255, 1] 2 ∧ (w .active).takes [8] 1 ∧ numberAt [8] 0 1 = (8 : Fin 9).val ∧
      8 < numberAt [9] 0 1 := by decide

/-- START's parameters: RESUME with the store, RESUME without, FRESH with a table at 8,192, FRESH with one at 8,193,
and FRESH for 65 units. -/
def resumeParams : List Byte := startParams 1 4 1 []
def freshParams : List Byte := startParams 0 64 1 [0, 32]

theorem test_premise_StartIsJudgedInOrder :
    (w .unconfigured).takesLong resumeParams 12 ∧
      (w .unconfigured).tc.state = .unconfigured ∧ (w .unconfigured).lines.mainOk = true ∧
      (w .unconfigured).lines.memOk = true ∧
      (w .active).takesLong resumeParams 12 ∧ (w .active).tc.state ≠ .unconfigured ∧
      ¬ numberAt (startParams 0 65 1 []) 1 1 ≤ 64 ∧ ¬ numberAt (startParams 2 4 1 []) 0 1 ≤ 1 ∧
      ¬ numberAt (startParams 0 4 2 []) 2 1 ≤ 1 ∧ ¬ 4 ≤ numberAt (startParams 0 3 0 []) 1 1 ∧
      (numberAt resumeParams 0 1 = 1 ∧ numberAt resumeParams 1 1 = 4 ∧ numberAt resumeParams 2 1 = 1) ∧
      numberAt (startParams 1 4 0 []) 2 1 = 0 ∧
      (numberAt freshParams 0 1 = 0 ∧ numberAt freshParams 4 8 = 8192 ∧ numberAt freshParams 4 8 % 512 = 0 ∧
        numberAt freshParams 4 8 < 262144 * (1024 * numberAt freshParams 1 1 - 1)) ∧
      numberAt (startParams 0 4 1 [1, 32]) 4 8 % 512 ≠ 0 ∧
      ¬ numberAt (startParams 0 4 1 [0, 0, 252, 63]) 4 8 < 262144 * (1024 * 4 - 1) := by decide
theorem test_premise_LoadRegionsAndAttachStoreAreJudgedInOrder :
    ((w .active).side.handling = false ∧ (w .active).tc.railLoss = false ∧ (w .active).tc.state = .active ∧
        (padTo 8 [0, 32] : List Byte).length = 8 ∧ numberAt (padTo 8 [0, 32]) 0 8 % 512 = 0 ∧
        numberAt (padTo 8 [0, 32]) 0 8 < 262144 * ((w .active).granules - 1)) ∧
      (w .restoring).tc.state ≠ .active ∧ numberAt (padTo 8 [1, 32]) 0 8 % 512 ≠ 0 ∧
      (∃ x ∈ (w .active).tracker.table, x.2.st = .copying ∨ x.2.st = .recopy) ∧
      (¬ ∃ x ∈ (bare .active).tracker.table, x.2.st = .copying ∨ x.2.st = .recopy) ∧
      (stored (w .active)).store.status = .attached ∧ (w .active).store.status ≠ .attached := by decide
theorem test_premise_EntriesAreJudgedInOrder :
    (w .active).takesLong [1] 1 ∧ (w .active).tc.state = .active ∧ (w .restoring).tc.state = .restoring ∧
      ((w .parking).tc.state ≠ .active ∧ (w .parking).tc.state ≠ .restoring) ∧ 1 < numberAt [2] 0 1 ∧
      numberAt [1] 0 1 = (if true then 1 else 0) ∧ numberAt [0] 0 1 = (if false then 1 else 0) ∧
      (w .active).store.status ≠ .attached ∧ (stored (w .active)).store.status = .attached := by decide

/-- PARKING in a phase, with a waiting abort or none. -/
def parkedIn (phase : ParkPhase) (abort : Option AbortKind) : State :=
  (bare .parking).setTc { (bare .parking).tc with parkPhase := phase, waitingAbort := abort }

theorem test_premise_AbortEntryActsByState :
    (w .saving).takesLong [] 0 ∧ (w .saving).tc.state = .saving ∧ (w .committing).tc.state = .committing ∧
      ((parkedIn .drain none).takesLong [] 0 ∧ (parkedIn .drain none).tc.state = .parking ∧
        (parkedIn .drain none).tc.waitingAbort = none ∧ (parkedIn .drain none).tc.parkPhase = .drain) ∧
      ((parkedIn .pattern none).tc.parkPhase = .pattern ∧ (parkedIn .srEntry none).tc.parkPhase = .srEntry) ∧
      (parkedIn .undo (some .wake)).tc.waitingAbort ≠ none ∧
      ((w .active).tc.state ≠ .saving ∧ (w .active).tc.state ≠ .committing ∧ (w .active).tc.state ≠ .parking) := by
  decide

/-- A park in DRAIN that holds a read. -/
def parkedHeld : State := (parkedIn .drain none).joinTable (rd 4096 (.held .parking))

theorem test_premise_AbortEntryActsByState_park :
    (parkedHeld.tc.waitingAbort = none ∧ parkedHeld.tc.parkPhase = .drain ∧ parkedHeld.anyAbsent = false ∧
        (w .parking).anyAbsent = true) ∧
      (parkedIn .srEntry none).tc.waitingAbort = none ∧ (parkedIn .pattern (some .wake)).tc.waitingAbort ≠ none := by
  decide

/-- The return of a park issues the read that it held and reports ENTRY_ABORTED with address 0 (R61, R142). -/
theorem test_park_return_releases_and_reports :
    (parkedHeld.parkReturn .traffic).ru.table.map Entry.st = [.issued none] ∧
      (parkedHeld.parkReturn .traffic).faults.code = some .entryAborted ∧
      (parkedHeld.parkReturn .traffic).faults.addr = 0 ∧
      (parkedHeld.parkReturn .traffic).faults.stateAt = some .active ∧
      (parkedHeld.parkReturn .traffic).tc.outcome.result = .abortedTraffic := by decide
theorem test_premise_ExitsBeginOrAreRefused :
    (w .sleeping).takesLong [] 0 ∧ (w .sleeping).tc.state = .sleeping ∧ (w .imagedOff).tc.state = .imagedOff ∧
      (w .sleeping).lines.mainOk = true ∧ (w .sleeping).lines.memOk = true ∧
      ¬ ((State.reset.tc.state = .sleeping) ∧ State.reset.lines.mainOk = true) := by decide
theorem test_premise_ReleasePoisonMakesPoisonDirty :
    ((w .active).takesLong (leBytes 4 5 ++ leBytes 4 1) 8 ∧ 0 < numberAt (leBytes 4 5 ++ leBytes 4 1) 4 4 ∧
        numberAt (leBytes 4 5 ++ leBytes 4 1) 0 4 + numberAt (leBytes 4 5 ++ leBytes 4 1) 4 4 ≤ (w .active).granules ∧
        GTable.wf (w .active).tracker.table = true) ∧
      (w .active).tc.state = .active ∧ (w .saving).tc.state ≠ .active ∧ (w .saving).tc.state ≠ .restoring ∧
      numberAt (leBytes 4 5 ++ leBytes 4 0) 4 4 = 0 ∧
      (w .active).granules < numberAt (leBytes 4 4095 ++ leBytes 4 2) 0 4 +
        numberAt (leBytes 4 4095 ++ leBytes 4 2) 4 4 := by decide

/-! ## Premises: the upstream link, rails and wake lines -/

/-- A READ packet of tag 1 for line 0. -/
def readPacket : List Byte := [65, 0, 0, 0, 0, 0, 0, 0]

/-- With a load in progress. -/
def loadingIn (s : State) : State := s.setRegion { s.region with load := some { addr := 8192, fetched := [] } }

theorem test_premise_UpstreamRequestsAndLinkResetMakeTheTable :
    packetReqKind [1] = none ∧ packetReqKind readPacket = some .read ∧ packetTag readPacket = 1 ∧
      ((w .active).ru.linkReady = true ∧ ∀ x ∈ (w .active).ru.table, x.tag ≠ packetTag readPacket) ∧
      State.reset.ru.linkReady ≠ true ∧
      ((loadingIn (w .active)).tc.state ≠ .unconfigured ∧ (loadingIn (w .active)).region.load.isSome = true) ∧
      ((w .parking).tc.state = .parking ∧ (w .parking).region.load = none) ∧
      (w .unconfigured).tc.state = .unconfigured ∧
      ((w .active).region.load = none ∧ (w .active).tc.state ≠ .parking) ∧
      (∃ x ∈ ((w .active).joinTable (wr 0 .preserve .waiting)).ru.table, x.line = packetLine readPacket) ∧
      (∀ x ∈ (w .active).ru.table, x.line ≠ packetLine readPacket) := by decide

/-- A READ of tag 1 held with a reason, alone, and behind a WRITE to its line. -/
def heldRead (reason : Hold) : State := (w .active).joinTable (rd 16384 (.held reason))
def heldBehind : State :=
  ((w .active).joinTable (wr 16384 .preserve (.held .regionLoad))).joinTable (rd 16384 (.held .regionLoad))

theorem test_premise_UpstreamRequestsAndLinkResetMakeTheTable_releases :
    (∀ e ∈ (w .active).ru.table, e.tag = 1 → e.st ≠ .held .fill) ∧
      ((heldRead .fill).ru.table.find? (fun x => decide (x.tag = 1)) = some (rd 16384 (.held .fill)) ∧
        (heldRead .parking).ru.table.find? (fun x => decide (x.tag = 1)) = some (rd 16384 (.held .parking)) ∧
        (heldRead .parking).ru.table.find? (fun x => decide (x.line = 16384)) = some (rd 16384 (.held .parking))) ∧
      (heldBehind.ru.table.find? (fun x => decide (x.tag = 1)) = some (rd 16384 (.held .regionLoad)) ∧
        heldBehind.ru.table.find? (fun x => decide (x.line = 16384)) =
          some (wr 16384 .preserve (.held .regionLoad)) ∧
        (wr 16384 .preserve (.held .regionLoad)).tag ≠ 1) := by decide
theorem test_premise_UpstreamRequestsAndLinkResetMakeTheTable_fill_list :
    4 ∈ listing.engine.fillList ∧ 32 ∉ listing.engine.fillList ∧ 32 ≤ listing.engine.fillList.length ∧
      listing.engine.fillList = [] ++ 0 :: (List.range 32).tail ∧
      (¬ ∃ e ∈ listing.ru.table, e.st = .held .fill ∧ e.granule = 0) ∧
      (w .active).engine.fillList.length < 32 ∧ 4 ∉ (w .active).engine.fillList := by decide

/-- With an access issued for the request of tag 1, and with it performed. -/
def issuedRead : State := ((w .active).joinTable (rd 3 (.issued none))).enqueue upAcc
def performedRead : State := (w .active).joinTable (rd 3 (.issued (some [1])))

theorem test_premise_AccessesAreServedAndCompleted :
    performedRead.ru.table.find? (fun x => decide (x.tag = 1)) = some (rd 3 (.issued (some [1]))) ∧
      (issuedRead.performedData 1 = none ∧ issuedRead.dram.cond = .up ∧
        ∃ a ∈ issuedRead.dram.queue, a.tag = some 1) ∧
      ((w .active).performedData 1 = none ∧ ¬ ∃ a ∈ (w .active).dram.queue, a.tag = some 1) ∧
      (∃ a ∈ ((w .active).enqueue engAcc).dram.queue, a.upstream = false) ∧
      (¬ ∃ a ∈ issuedRead.dram.queue, a.upstream = false) ∧
      pickAccess issuedRead.dram.queue issuedRead.dram.runCount = some upAcc := by decide
/-- A READ that waits for its line alone, and behind one that is issued. -/
def freedLine : State := (w .active).joinTable (rd 20480 .waiting)
def busyLine : State := ((w .active).joinTable (wr 20480 .preserve (.issued none))).joinTable (rd 20480 .waiting)

theorem test_premise_AccessesAreServedAndCompleted_judged :
    (freedLine.ru.table.find? (fun x => decide (x.line = 20480)) = some (rd 20480 .waiting) ∧
        freedLine.judgement (rd 20480 .waiting) = .poisonRead ∧ freedLine.ru.tagsDistinct ∧
        freedLine.ru.table.length ≤ 1) ∧
      (busyLine.ru.table.find? (fun x => decide (x.line = 20480)) = some (wr 20480 .preserve (.issued none)) ∧
        (wr 20480 .preserve (.issued none)).st ≠ .waiting ∧ busyLine.ru.tagsDistinct ∧
        busyLine.ru.table.length ≤ 2) ∧
      ((State.judgeLine 2 20480 busyLine).ru.table.find? fun x => decide (x.line = 20480)) =
        some (wr 20480 .preserve (.issued none)) := by decide
theorem test_premise_ServedAccessReadsOrWritesItsLine :
    Memory.wf (w .active).dram.mem = true ∧ (List.replicate 64 (7 : Byte)).length = 64 ∧ 31 < 32 ∧
      64 * 16777215 + 63 < (w .active).dram.installed ∧ ¬ 64 * 16777216 < (w .active).dram.installed := by decide

/-- With a region file whose table stands in a granule, some write-backs owed. -/
def tableIn (granule : Nat) (owed : BitVec 32) : State :=
  (w .active).setRegion
    { (w .active).region with
      file := { twoRegions with tableAddr := some (262144 * granule), owed := owed } }

/-- The same, its granule 6 of FIXED class. -/
def tableInFixed : State :=
  (tableIn 6 1).setTracker
    (tracking [(6, { st := .clean, committed := some 6, pending := none, cls := .fixed })])

theorem test_premise_ServedAccessReadsOrWritesItsLine_written_flags :
    (twoRegions.governing 4096 5 = none ∧ twoRegions.governing 4096 4 = some 0) ∧
      (twoRegions.descs[(0 : Fin 32)].written = false ∧
        (twoRegions.descs.set 0 { twoRegions.descs[(0 : Fin 32)] with written := true })[(0 : Fin 32)].written = true) ∧
      (w .active).region.file.tableAddr = none ∧ (tableIn 6 0).region.file.tableAddr = some (262144 * 6) ∧
      (tableInFixed.recOf (262144 * 6 / 262144)).cls = .fixed ∧
      (((tableIn 4 0).recOf (262144 * 4 / 262144)).cls ≠ .fixed ∧
        ((tableIn 4 0).recOf (262144 * 4 / 262144)).st = .absent) ∧
      (((tableIn 6 0).recOf (262144 * 6 / 262144)).st ≠ .absent ∧
        ((tableIn 6 0).recOf (262144 * 6 / 262144)).st ≠ .filling) ∧
      (262144 * 6 / 262144 ∈ [6] ∧ 262144 * 6 / 262144 ∉ [5]) ∧
      ((tableIn 6 0).region.file.owed = 0 ∧ (tableIn 6 5).region.file.owed ≠ 0) := by decide

theorem test_premise_ServedAccessReadsOrWritesItsLine_owed :
    (tableInFixed.region.file.tableAddr = some (262144 * 6) ∧ tableInFixed.region.file.owed ≠ 0 ∧
        (tableInFixed.recOf (262144 * 6 / 262144)).cls = .fixed) ∧
      ((tableIn 6 5).region.file.owed ≠ 0 ∧ ((tableIn 6 5).recOf (262144 * 6 / 262144)).cls ≠ .fixed) := by decide

/-- A copy of granule 1 into slot 1 on the link. -/
def copying : State := linked (stored (w .saving)) (op .writeBlock (.copy 1 1))

/-- A START FRESH of 4 units, its table at 8,192. -/
def freshStart (phase : StartPhase) : StartReq :=
  { fresh := true, units := 4, tableAddr := 8192, storeUse := false, phase := phase, fetched := [] }

/-- UNCONFIGURED with a START that drains, and with one whose table is being fetched. -/
def draining : State :=
  (bare .unconfigured).setTc { (bare .unconfigured).tc with start := some (freshStart .draining) }
def fetchingStart : State :=
  (bare .unconfigured).setTc { (bare .unconfigured).tc with fetching := some (freshStart .fetching) }

theorem test_premise_RailEventsActByState :
    State.reset.rail .main = false ∧ ((w .active).rail .main = true ∧ (w .active).tc.railLoss = false) ∧
      (losing.rail .mem = true ∧ losing.tc.railLoss = true) ∧ (w .imagedOff).tc.state = .imagedOff ∧
      ((w .sleeping).tc.state = .sleeping ∧ Rail.mem ≠ Rail.main) ∧
      ((w .unconfigured).tc.state = .unconfigured ∧ (w .unconfigured).tc.start = none ∧
        (w .unconfigured).tc.fetching = none) ∧
      (draining.tc.start ≠ none ∧ fetchingStart.tc.fetching ≠ none ∧ fetchingStart.rail .main = true) ∧
      ((w .active).tc.state ≠ .unconfigured ∧ (w .active).tc.state ≠ .imagedOff ∧ (w .active).tc.state ≠ .sleeping) ∧
      (copying.store.op = some (op .writeBlock (.copy 1 1)) ∧ (copying.recOf 1).st = .copying ∧
        (copying.recOf 2).st = .recopy) := by decide

theorem test_premise_RailEventsActByState_not_copying : (w .active).copyInFlight = false := by decide
/-- SLEEPING with line 0 set as given. -/
def line0 (level : Bool) (mode : WakeMode) (machine : WakeMachine) : State :=
  lineAs (bare .sleeping) 0 { level := level, mode := mode, hold := 0, machine := machine, timer := Timer.load 10 }

theorem test_premise_WakeLinesFollowTheirTables :
    (line0 true .edge .qualified).wake.lines[(0 : Fin 5)].level = true ∧
      (line0 false .hold .timing).wake.lines[(0 : Fin 5)].level = false ∧
      (line0 true .hold .timing).wake.lines[(0 : Fin 5)].timer.status = .running ∧
      (line0 true .hold .timing).wake.lines[(0 : Fin 5)].mode = .hold ∧
      (line0 true .hold .timing).wake.lines[(0 : Fin 5)].machine = .timing ∧
      (line0 false .hold .releasing).wake.lines[(0 : Fin 5)].machine = .releasing ∧
      State.reset.wake.lines[(4 : Fin 5)].timer.status ≠ .running := by decide
theorem test_premise_QualificationIsRecordedAndActedOn :
    (w .sleeping).tc.state = .sleeping ∧ (w .imagedOff).tc.state = .imagedOff ∧
      ((w .saving).tc.state = .saving ∧ (w .saving).tc.railLoss = false ∧ (w .saving).tc.waitingAbort = none ∧
        (w .saving).tc.abortable = false) ∧
      (((w .saving).setTc { (w .saving).tc with railLoss := true }).tc.railLoss = true) ∧
      ((parkedIn .pattern (some .request)).tc.state = .parking ∧
        (parkedIn .pattern (some .request)).tc.waitingAbort ≠ none) ∧
      (((w .saving).setTc { (w .saving).tc with abortable := true }).tc.abortable = true) ∧
      ((w .active).tc.state ≠ .saving ∧ (w .active).tc.state ≠ .committing ∧ (w .active).tc.state ≠ .parking ∧
        (w .active).tc.state ≠ .sleeping ∧ (w .active).tc.state ≠ .imagedOff) := by decide

/-! ## Premises: what settles, timers and the store link -/

theorem test_premise_SettlingMovesNoData :
    (w .active).tc.railLoss = false ∧ (w .active).tc.state = .active ∧
      ¬ ((w .active).tc.state = .parking ∧ (w .active).tc.parkPhase = .drain) := by decide

/-- UNCONFIGURED without a START, and a park past its drain. -/
theorem test_premise_SettlingMovesNoData_choices :
    ((bare .unconfigured).tc.railLoss = false ∧ (bare .unconfigured).tc.start = none) ∧
      (fetchingStart.tc.state = .unconfigured ∧ ∀ r, fetchingStart.tc.start = some r → r.phase ≠ .draining) ∧
      ((parkedIn .pattern none).tc.state = .parking ∧ (parkedIn .pattern none).tc.parkPhase ≠ .drain ∧
        (parkedIn .pattern none).tc.railLoss = false) := by decide

/-- COMMITTING in a phase, with granules dirty and slots free, with or without a rail loss. -/
def committingAt (phase : CommitPhase) (railLoss : Bool) : State :=
  let s := stored (part .committing (recs.take 1))
  (s.setEngine { s.engine with commitPhase := phase }).setTc { s.tc with railLoss := railLoss }

/-- A park in DRAIN with a granule listed. -/
def parkListing (g : Nat) : State :=
  let s := stored (w .parking)
  (s.setEngine { s.engine with fillList := [g] }).setTc { s.tc with parkPhase := .drain }

theorem test_premise_SettlingMakesTheTransitionTests_counted : (committingAt .waiting false).tracker.counted :=
  ⟨rfl, rfl⟩
theorem test_premise_SettlingMakesTheTransitionTests :
    (draining.tc.railLoss = false ∧ draining.tc.state = .unconfigured ∧ draining.tc.start.isSome = true ∧
        draining.ru.table = [] ∧ draining.engine.bringUp = none ∧
        (draining.joinTable (rd 0 .waiting)).ru.table ≠ []) ∧
      ((w .restoring).tc.state = .restoring ∧ (w .restoring).anyAbsent = true ∧
        (bare .restoring).anyAbsent = false) ∧
      (copying.tc.state = .saving ∧ copying.copyInFlight = true) ∧
      ((w .saving).copyInFlight = false ∧ (w .saving).tracker.dirtyTotal ≠ 0 ∧ (w .saving).engine.freeSlots = [] ∧
        (w .saving).tc.waitingAbort = none) ∧
      ((bare .saving).copyInFlight = false ∧ (bare .saving).tracker.dirtyTotal = 0) ∧
      (((w .saving).setTc { (w .saving).tc with waitingAbort := some .wake }).tc.waitingAbort = some .wake) ∧
      ((parkedIn .drain none).tc.railLoss = false ∧ (parkedIn .drain none).tc.state = .parking ∧
        (parkedIn .drain none).tc.parkPhase = .drain ∧ (parkedIn .drain none).ru.table = [] ∧
        (parkedIn .drain none).store.op = none ∧ (parkedIn .drain none).engine.bringUp = none ∧
        (parkedIn .drain none).engine.markClearQueued = false ∧ (parkedIn .drain none).engine.fillList = [] ∧
        (parkedIn .drain none).engine.fills = [] ∧ (parkedIn .drain none).engine.zeroFill = none) ∧
      (losing.tc.railLoss = true ∧ losing.tc.state ≠ .unconfigured ∧ losing.tc.state ≠ .starting ∧
        losing.tc.state ≠ .committing ∧ losing.engine.mark ≠ .set ∧ losing.markClearPending = false) ∧
      (committingAt .waiting false).fillsRunning = false ∧ (committingAt .index false).engine.commitPhase ≠ .waiting ∧
      ((committingAt .waiting false).tracker.dirtyTotal ≠ 0 ∧ (committingAt .waiting false).tc.waitingAbort = none ∧
        (committingAt .waiting false).engine.freeSlots ≠ [] ∧
        GTable.wf (committingAt .waiting false).tracker.table = true) ∧
      ((stored (bare .committing)).tracker.dirtyTotal = 0 ∧
        (stored (bare .committing)).markClearPending = false) ∧
      ((committingAt .waiting true).tc.railLoss = true ∧ (committingAt .waiting true).markClearPending = false ∧
        (committingAt .header true).engine.commitPhase = .header ∧
        (committingAt .none true).engine.commitPhase = .none) ∧
      (((bare .starting).setTc { (bare .starting).tc with railLoss := true }).tc.start = none) ∧
      ((∃ g ∈ (parkListing 4).engine.fillList, ((parkListing 4).recOf g).cls.preserved = true) ∧
        (parkListing 4).store.status = .attached ∧ (parkListing 4).store.holdBack = none) ∧
      (∃ g ∈ (parkListing 8).engine.fillList, ((parkListing 8).recOf g).cls.preserved = false) ∧
      ((losing.setEngine { losing.engine with mark := .set }).engine.mark = .set ∧
        (losing.setEngine { losing.engine with markClearQueued := true }).markClearPending = true) := by decide

/-- STARTING, in a mode, with DRAM in a condition. -/
def startingWith (fresh storeUse : Bool) (cond : DramCond) : State :=
  let s := (bare .starting).setTc
    { (bare .starting).tc with start := some { freshStart .running with fresh := fresh, storeUse := storeUse } }
  s.setDram { s.dram with cond := cond }

theorem test_premise_SettlingMakesTheTransitionTests_start :
    ((startingWith false true .up).tc.railLoss = false ∧ (startingWith false true .up).tc.state = .starting ∧
        (startingWith false true .up).tc.start.isSome = true ∧ (startingWith false true .up).dram.cond = .up ∧
        (startingWith false true .up).engine.bringUp = none) ∧
      (startingWith true true .bringingUp).dram.cond ≠ .up ∧
      ((stored (part .saving (recs.take 1))).tc.waitingAbort = none ∧
        (stored (part .saving (recs.take 1))).tracker.dirtyTotal ≠ 0 ∧
        (stored (part .saving (recs.take 1))).engine.freeSlots ≠ []) := by decide

/-- A START that STARTING held until DRAM is UP begins its steps, or ends where FRESH does not use the store (R138). -/
theorem test_start_goes_on_once_dram_is_up :
    (startingWith false true .up).settle.engine.bringUp = some (State.newBringUp .resume) ∧
      (startingWith true true .up).settle.engine.bringUp = some (State.newBringUp .fresh) ∧
      (startingWith true false .up).settle.tc.state = .active ∧
      (startingWith true true .bringingUp).settle.engine.bringUp = none := by decide

/-- In SAVING what the tests leave goes on to the arbiter's choice, a copy of the lowest DIRTY granule (R83). -/
theorem test_saving_settles_into_a_copy :
    (stored (part .saving (recs.take 1))).settle.copyInFlight = true := by decide

/-- SAVING with one granule DIRTY and no slot free. -/
def slotless : State := part .saving [(3, { GRec.blank with st := .dirty, cls := .preserve })]

theorem test_premise_SettlingMakesTheTransitionTests_slots :
    (slotless.copyInFlight = false ∧ slotless.tc.waitingAbort = none ∧ slotless.tracker.dirtyTotal ≠ 0 ∧
        slotless.engine.freeSlots = []) ∧
      ((slotless.recOf 3).st = .dirty ∧ 3 < slotless.granules ∧ (∀ h, h < 3 → (slotless.recOf h).st ≠ .dirty) ∧
        GTable.wf slotless.tracker.table = true) := by decide

/-- The entry that fails for want of slots reports its lowest DIRTY granule (R103). -/
theorem test_slots_failure_reports_the_granule :
    slotless.savingTest.faults.code = some .slotExhausted ∧ slotless.savingTest.faults.addr = 3 ∧
      slotless.savingTest.tc.outcome.reason = .slots := by decide
theorem test_premise_EnteringAStateMovesTimersAndLines :
    (w .active).tc.state = .active ∧ (w .active).engine.presaveOn = false ∧
      ((w .active).setEngine { (w .active).engine with presaveOn := true }).engine.presaveOn = true ∧
      (w .restoring).tc.state = .restoring ∧ (w .active).side.params.fillPace = 0 ∧
      ((w .active).setWake { (w .active).wake with deferred := true }).wake.deferred = true := by decide

/-- Timers RUNNING: PACE and FILL in RESTORING, SLEEP in SLEEPING. -/
def paced : State :=
  (w .restoring).setEngine
    { (w .restoring).engine with presaveOn := true, paceTimer := Timer.load 20, fillTimer := Timer.load 1 }
def sleeper (mark : Mark) : State :=
  ((bare .sleeping).setTc { (bare .sleeping).tc with sleepTimer := Timer.load 60000 }).setEngine
    { (bare .sleeping).engine with mark := mark }

theorem test_premise_PaceFillAndSleepTimersExpire :
    State.reset.engine.paceTimer.status ≠ .running ∧ paced.engine.paceTimer.status = .running ∧
      State.reset.engine.fillTimer.status ≠ .running ∧ paced.engine.fillTimer.status = .running ∧
      ¬ (State.reset.tc.state = .sleeping) ∧
      ((sleeper .set).tc.state = .sleeping ∧ (sleeper .set).tc.sleepTimer.status = .running ∧
        (sleeper .set).tc.railLoss = false ∧ (sleeper .set).engine.mark = .set) ∧
      (sleeper .clear).engine.mark ≠ .set := by decide

/-- A fill, a mark clear, an index write and a header write on the link; a disregarded copy; a hold-back. -/
def filling : State := linked (stored (w .restoring)) (op .readBlock (.fill 7))
def clearing : State := linked (stored (w .active)) (op .writeBlock .markClear)
def indexing : State := linked (stored (w .committing)) (op .writeBlock .commitIndex)
def heading : State := linked (stored (w .committing)) (op .writeBlock .commitHeader)
def dropped : State := linked (stored (w .active)) { op .writeBlock (.copy 1 1) with disregarded := true }
def heldBack : State := State.reset.setStore { StorePort.reset with holdBack := some 1, timer := Timer.load 500 }

/-- A step of START or ATTACH_STORE, and one on the link. -/
def bringing (mode : BringUpMode) (step : StoreStep) : BringUp := { State.newBringUp mode with step := step }
def stepping (step : StoreStep) : State :=
  linked ((w .active).setEngine { (w .active).engine with bringUp := some (bringing .attach step) })
    (op .readBlock (.bringUp step))

theorem test_premise_StoreOperationsEnd :
    (heldBack.store.holdBack = some 1 ∧ byteAt (reply 0 8).bytes 1 = 1 ∧ byteAt ([0, 2] : List Byte) 1 ≠ 1 ∧
        heldBack.store.timer.status = .running) ∧
      (State.reset.store.holdBack = none ∧ State.reset.store.op = none ∧
        State.reset.store.timer.status ≠ .running) ∧
      (dropped.store.holdBack = none ∧ dropped.store.timer.status = .running ∧
        (dropped.store.op.map StoreOp.disregarded) = some true) ∧
      (filling.store.op = some (op .readBlock (.fill 7)) ∧ respStatus (reply 0 262152) = .good ∧
        262152 ≤ (reply 0 262152).length ∧ ¬ 262152 ≤ (reply 0 8).length) ∧
      (clearing.store.op = some (op .writeBlock .markClear) ∧ indexing.store.op = some (op .writeBlock .commitIndex) ∧
        heading.store.op = some (op .writeBlock .commitHeader) ∧ heading.store.holdBack = none) ∧
      (op .writeBlock .markClear).num = byteAt (reply 1 8).bytes 1 ∧ respStatus (reply 1 8) ≠ .good ∧
      filling.engine.retired.length < 256 ∧ (filling.recOf 7).st = .filling ∧
      (stepping .identify).store.op = some (op .readBlock (.bringUp .identify)) ∧
      (stepping .identify).engine.bringUp = some (bringing .attach .identify) := by decide
theorem test_premise_StoreOperationsEnd_retired_full : 256 ≤ retiring.engine.retired.length := by
  simp [retiring, State.setEngine]

/-- The header of `header`, which names its own 256 retired slots, and one that names a slot twice. -/
def twice : Header := { header with retiredLength := 2, retired := [3, 3] }

theorem test_premise_StoreOperationsEnd_steps :
    ((bringing .attach .identify).mode ≠ .resume ∧ (bringing .resume .header1).mode = .resume ∧
        (bringing .fresh .header1).mode = .fresh ∧ (bringing .attach .header1).mode = .attach) ∧
      (respCount { bytes := [0, 1, 0, 0, 4, 8], length := 8 } = 2052 ∧
        ¬ 2052 ≤ respCount { bytes := [0, 1, 0, 0, 3, 8], length := 8 }) ∧
      (highest (some header) none = some header ∧ highest none none = none) ∧
      (header.mark = true ∧ ({ header with mark := false } : Header).mark = false ∧
        header.units = (w .starting).tracker.units ∧ header.slots = 2048 ∧
        ({ header with units := 5 } : Header).units ≠ (w .starting).tracker.units) ∧
      ¬ twice.retired.Nodup ∧ (twice.retired.length = twice.retiredLength) ∧
      (header.retiredLength ≤ 256 ∧ descriptorsOk 4096 header.file.descs = true ∧
        tableAddrOk 4096 (header.file.tableAddr.getD 0) = true) ∧
      decodeIndex { bytes := [5, 0, 0, 1], length := 262144 } = some [.slot 5] ∧
      decodeIndex { bytes := [5, 0, 0, 3], length := 262144 } = none ∧
      indexOk 4096 2048 header [] = true ∧ indexOk 4096 2048 header [.slot 5] = false := by decide +kernel
theorem test_premise_StoreOperationsEnd_sound_list :
    header.retired.Nodup ∧ ∀ n ∈ header.retired, n < 2048 := by
  have e : header.retired = List.range 256 := by simp only [header]
  rw [e]
  exact ⟨List.nodup_range, fun n h => Nat.lt_trans (List.mem_range.1 h) (by decide)⟩
theorem test_premise_StoreOperationsEnd_capacity (granules : Nat) :
    preservedCount RegionFile.empty granules = 0 ∧ 2 * 0 + ([] : List Nat).length ≤ 2048 ∧
      ¬ 2 * 0 + (List.range 256).length ≤ 255 := by
  refine ⟨preservedCount_of_no_valid (by decide) granules, by decide, by simp⟩
theorem test_premise_CopiesEndAndStoreGoesDown :
    (copying.store.holdBack = none ∧ copying.store.op = some (op .writeBlock (.copy 1 1)) ∧
        (op .writeBlock (.copy 1 1)).disregarded = false ∧
        byteAt (reply 0 8).bytes 1 = (op .writeBlock (.copy 1 1)).num ∧ copying.store.timer.status = .running) ∧
      (op .writeBlock (.copy 1 1)).goodBy (reply 0 8) = true ∧ copying.presented .copy = none ∧
      (op .writeBlock (.copy 1 1)).goodBy (reply 2 8) = false ∧ copying.engine.retired.length < 256 ∧
      256 ≤ (copying.setEngine { copying.engine with retired := List.range 256 }).engine.retired.length ∧
      (copying.recOf 1).st = .copying ∧ (copying.recOf 2).st = .recopy := by
  refine ⟨by decide, by decide, by decide, by decide, by decide, ?_, by decide, by decide⟩
  simp [State.setEngine]
theorem test_premise_CopiesEndAndStoreGoesDown_line_presented :
    (copying.present .copy 4096).presented .copy = some { src := .engine .copy, line := 4096 } ∧
      (copying.present .copy 4096).dram.cond = .up ∧
      (copying.present .copy 4096).store.op = some (op .writeBlock (.copy 1 1)) := by decide
theorem test_premise_CopiesEndAndStoreGoesDown_told :
    ((w .committing).tc.state = .committing ∧ (w .saving).tc.state = .saving ∧ (w .saving).tc.railLoss = false) ∧
      ((committingAt .index true).tc.state = .committing ∧ (committingAt .index true).tc.railLoss = true) ∧
      ((w .starting).tc.state = .starting ∧ (w .parking).tc.state = .parking) ∧
      ((stepping .header0).engine.bringUp = some (bringing .attach .header0) ∧
        (stepping .header0).tc.state = .active) ∧
      (w .active).engine.bringUp = none := by decide
theorem test_premise_RailEventsActByState_replies :
    ((stepping .header0).attaching = true ∧ (stepping .header0).tc.railLoss = false) ∧
      (((w .active).setTc { (w .active).tc with fetching := some (freshStart .fetching) }).attaching = false ∧
        ((w .active).setTc { (w .active).tc with fetching := some (freshStart .fetching) }).tc.fetching ≠ none) ∧
      ((loadingIn (w .active)).attaching = false ∧ (loadingIn (w .active)).tc.fetching = none ∧
        (loadingIn (w .active)).region.load ≠ none) ∧
      ((w .active).attaching = false ∧ (w .active).tc.fetching = none ∧ (w .active).region.load = none) := by decide

/-- In an entry, in a state that no operation holds, and while ATTACH_STORE runs. -/
theorem test_premise_RailEventsActByState_interrupted :
    ((w .reviving).tc.state = .reviving ∧ (w .reviving).rail .mem = true ∧ (w .reviving).tc.railLoss = false) ∧
      ((w .restoring).tc.state = .restoring ∧ (w .restoring).engine.bringUp = none) ∧
      (stepping .header0).engine.bringUp.map BringUp.mode = some .attach := by decide
theorem test_premise_StoreArbiterChoosesByRank :
    ((bare .starting).setEngine
        { (bare .starting).engine with bringUp := some (State.newBringUp .fresh) }).engine.bringUp =
        some (State.newBringUp .fresh) ∧
      ((w .active).engine.bringUp = none ∧ (w .active).store.status ≠ .attached) ∧
      ((parkedIn .pattern none).tc.state = .parking ∧ (parkedIn .pattern none).tc.parkPhase ≠ .drain) ∧
      ((stored (w .active)).store.status = .attached ∧ (stored (w .active)).tc.state ≠ .parking ∧
        (stored (w .active)).engine.markClearQueued = false ∧ (stored (w .active)).tc.railLoss = false ∧
        (stored (w .active)).tc.state ≠ .committing ∧ (stored (w .active)).engine.fillList = []) ∧
      (((w .active).joinFillList 4).engine.fillList.find? fun g =>
        ((w .active).recOf g).cls.preserved) = some 4 ∧
      indexing.tc.state = .committing ∧ (losing.tc.railLoss = true ∧ losing.tc.state ≠ .committing) ∧
      (w .restoring).tracker.absentScan 0 = some 4 ∧ ((w .restoring).recOf 4).cls.preserved = true := by decide

/-- With a committed header and one that a commit has built. -/
def headed : State :=
  heading.setEngine { heading.engine with headerRecord := some header, builtHeader := some header }

/-- A step of ATTACH_STORE that is due, with a header at hand. -/
def stepDue (step : StoreStep) : State :=
  (w .active).setEngine
    { (w .active).engine with bringUp := some { bringing .attach step with header0 := some header } }

theorem test_premise_StoreArbiterChoosesByRank_sent :
    (copying.store.op ≠ none ∧ heldBack.store.holdBack ≠ none ∧ (bare .active).chooseStore = none) ∧
      ((stepDue .identify).store.op = none ∧ (stepDue .identify).store.holdBack = none ∧
        (stepDue .identify).chooseStore.isSome = true) ∧
      (headed.engine.headerRecord.isSome = true ∧ headed.engine.builtHeader.isSome = true) ∧
      ((stepDue .emptyHeader).engine.bringUp.map BringUp.step = some .emptyHeader ∧
        ((stepDue .emptyHeader).engine.bringUp.bind BringUp.header0).isSome = true) ∧
      ([StoreStep.identify, .header0, .header1, .index, .emptyIndex].map fun x =>
          (stepDue x).engine.bringUp.map BringUp.step) =
        [some .identify, some .header0, some .header1, some .index, some .emptyIndex] := by decide
theorem test_premise_StoreArbiterChoosesByRank_states :
    ((stored (parkedIn .none none)).store.status = .attached ∧ (stored (parkedIn .none none)).tc.parkPhase = .none) ∧
      ((stored (bare .sleeping)).store.status = .attached ∧ (stored (bare .sleeping)).tc.state ≠ .active ∧
        (stored (bare .sleeping)).tc.state ≠ .restoring ∧ (stored (bare .sleeping)).tc.state ≠ .saving ∧
        (stored (bare .sleeping)).tc.state ≠ .parking) := by decide

/-- A scan at a granule, past the last one in its state, and of a table without one. -/
theorem test_premise_StoreArbiterChoosesByRank_scans :
    GTable.wf (w .saving).tracker.table = true ∧ (w .saving).tracker.dirtyScan 0 = some 0 ∧
      (w .saving).tracker.dirtyScan 1 = some 0 ∧ (w .saving).tracker.absentScan 4 = some 4 ∧
      (w .saving).tracker.absentScan 5 = some 4 ∧ (bare .saving).tracker.absentScan 0 = none := by decide

/-- COMMITTING with a write held, at a pass. -/
def held (passes : Nat) : State :=
  ((w .committing).joinTable (wr 0 .preserve (.held .commit))).setEngine
    { (w .committing).engine with passes := passes }

theorem test_premise_CommitEndsAndDecides :
    losing.tc.railLoss = true ∧ (heading.tc.railLoss = false ∧ heading.tc.waitingAbort = none) ∧
      (heading.setTc { heading.tc with waitingAbort := some .wake }).tc.waitingAbort = some .wake ∧
      (heading.ru.table.find? fun e => decide (e.st = .held .commit)) = none ∧
      (heading.setTc { heading.tc with origin := .hibernate }).tc.origin = .hibernate ∧
      heading.tc.origin ≠ .hibernate ∧
      ((held 3).ru.table.find? fun e => decide (e.st = .held .commit)) = some (wr 0 .preserve (.held .commit)) ∧
      (held 3).engine.passes < 4 ∧ 4 ≤ (held 4).engine.passes := by decide

/-- After the fourth pass the held write is reported, then released in the state entered (R109 case 4). -/
theorem test_fourth_pass_reports_and_releases :
    (held 4).commitDecision.faults.code = some .entryUnsettled ∧
      (held 4).commitDecision.faults.stateAt = some .committing ∧
      (∀ e ∈ (held 4).commitDecision.ru.table, e.st ≠ .held .commit) ∧
      (held 4).commitDecision.tc.outcome.reason = .unsettled := by decide

/-! ## Premises: transfers, bring-up and self-refresh -/

/-- RESTORING with the background grant held. -/
def granted : State := (w .restoring).setEngine { (w .restoring).engine with grant := true }

/-- With a line access of an engine transfer presented, and nothing else waiting. -/
def presenting (o : Owner) (line : Nat) : State := (w .active).present o line

/-- RESTORING with the grant held, its first absent granule of ZERO class. -/
def grantedZero : State :=
  let s := part .restoring [(8, { st := .absent, committed := none, pending := none, cls := .zero })]
  s.setEngine { s.engine with grant := true }

theorem test_premise_StoreArbiterChoosesByRank_grant :
    (grantedZero.tc.state = .restoring ∧ grantedZero.engine.grant = true ∧
        grantedZero.tracker.absentScan 0 = some 8 ∧ (grantedZero.recOf 8).cls.preserved = false) ∧
      ((w .restoring).tc.state = .restoring ∧ (w .restoring).engine.grant = false) ∧
      (granted.engine.grant = true ∧ granted.tracker.absentScan 0 = some 4 ∧
        (granted.recOf 4).cls.preserved = true) := by decide
theorem test_premise_TransfersPerformTheirLinesAndEnd_pattern :
    (22 < 23 ∧ 22 < 8 * 3) ∧ (23 ≤ 23 ∧ 23 < 8 * 3) ∧ ([1, 2] : List Byte).length = ([1, 3] : List Byte).length := by
  decide
theorem test_premise_TransfersPerformTheirLinesAndEnd :
    ((presenting (.fill 7) 28672).presented (.fill 7) = some { src := .engine (.fill 7), line := 28672 } ∧
        (presenting .pattern 5).dram.cond = .up ∧ (presenting .pattern 5).tc.waitingAbort = none) ∧
      ((w .active).presented .zeroFill = none ∧ State.reset.dram.cond ≠ .up) ∧
      (loadingIn (w .active)).region.load.isSome = true ∧ (w .active).region.load = none ∧
      ((presenting .compare 4095).dram.queue = [{ src := .engine .compare, line := 4095 }] ∧
        pickAccess (presenting .compare 4095).dram.queue 0 = some { src := .engine .compare, line := 4095 }) ∧
      Memory.wf (presenting .compare 4095).dram.mem = true ∧ 4095 % 4096 ≠ 0 ∧ 8192 % 4096 = 0 ∧
      (∀ n : Fin 32, Owner.pattern ≠ .writeBack n.val) ∧
      ((presenting (.fill 7) 28672).setEngine
        { (w .active).engine with fills := [{ granule := 7, rest := some [1] }] }).engine.fills =
          [{ granule := 7, rest := some [1] }] ∧
      ((copying.present .copy 4096).store.op = some (op .writeBlock (.copy 1 1)) ∧
        (loadingIn (w .active)).region.load = some { addr := 8192, fetched := [] } ∧
        (fetchingStart.present .fetch 128).tc.fetching = some (freshStart .fetching)) := by decide
theorem test_premise_TransfersPerformTheirLinesAndEnd_zero_choice :
    ((w .restoring).engine.zeroFill = none ∧ (w .restoring).tc.railLoss = false ∧ (w .restoring).tc.state ≠ .parking) ∧
      ((parkedIn .pattern none).tc.state = .parking ∧ (parkedIn .pattern none).tc.parkPhase ≠ .drain ∧
        (parkedIn .pattern none).tc.parkPhase ≠ .none) ∧
      ((parkListing 8).engine.fillList.find? fun g => decide (((parkListing 8).recOf g).cls.preserved = false)) =
        some 8 ∧
      (w .restoring).tracker.absentScan 0 = some 4 ∧ (bare .restoring).tracker.absentScan 0 = none ∧
      (granted.tc.state = .restoring ∧ granted.engine.grant = true) := by decide
theorem test_premise_EndsOfTransfersActOnTheirOwners :
    ((w .active).setEngine { (w .active).engine with zeroFill := some 8 }).engine.zeroFill = some 8 ∧
      (w .parking).tc.waitingAbort = none ∧ (parkedIn .pattern (some .wake)).tc.waitingAbort = some .wake ∧
      (w .unparking).dram.mismatches ≤ (w .unparking).side.params.checkThreshold ∧
      (w .unparking).side.params.checkThreshold <
        ((w .unparking).setDram { (w .unparking).dram with mismatches := 1 }).dram.mismatches ∧
      (loadingIn (w .active)).region.load = some { addr := 8192, fetched := [] } ∧
      (fetchingStart.region.load = none ∧ fetchingStart.tc.fetching = some (freshStart .fetching) ∧
        fetchingStart.tc.state = .unconfigured ∧
        ((w .active).setTc { (w .active).tc with fetching := some (freshStart .fetching) }).tc.state ≠ .unconfigured) ∧
      descriptorsOk (1024 * 4) RegionFile.empty.descs = true ∧
      descriptorsOk (1024 * 4)
        (RegionFile.empty.descs.set 0 { Descriptor.empty with valid := true, cls := 4 }) = false := by decide
theorem test_premise_EndsOfTransfersActOnTheirOwners_load :
    (loadingIn (w .active)).tablePasses
        { RegionFile.empty with descs := RegionFile.empty.descs.set 0 { Descriptor.empty with valid := true, cls := 4 } } =
      false ∧
      (loadingIn (w .active)).tablePasses RegionFile.empty = true := by decide
theorem test_premise_BringUpAndSelfRefreshEnd :
    (w .active).dram.cond ≠ .bringingUp ∧
      ((bare .reviving).setDram { (bare .reviving).dram with cond := .bringingUp }).dram.cond = .bringingUp ∧
      (bare .reviving).tc.state = .reviving ∧ (bare .unconfigured).tc.state ≠ .reviving ∧
      (w .active).dram.cond ≠ .enteringSr ∧
      ((parkedIn .undo none).setDram { (bare .parking).dram with cond := .enteringSr }).tc.parkPhase = .undo ∧
      (parkedIn .srEntry none).tc.parkPhase ≠ .undo ∧ (w .active).dram.cond ≠ .exitingSr ∧
      ((parkedIn .undo (some .wake)).tc.state = .parking ∧
        (parkedIn .undo (some .wake)).tc.waitingAbort = some .wake) ∧
      (bare .unparking).tc.state ≠ .parking ∧ Memory.wf (w .active).dram.mem = true := by decide

/-- SLEEPING is entered from a park with its timer, its lines still watched, and a deferred request asserted (R145,
R158, R163). -/
theorem test_sleeping_is_entered_with_its_timer :
    let s := lineAs (parkedIn .srEntry none) 0 { WakeLine.reset with mode := .edge, machine := .armed }
    let t := ((s.setSide { s.side with params := { s.side.params with escalateAfter := 2 } }).setWake
      { s.wake with deferred := true }).enterSleeping
    t.tc.sleepTimer = Timer.load 120000 ∧ t.wake.lines[(0 : Fin 5)].machine = .armed ∧ t.wake.wakeReq = true ∧
      t.wake.deferred = false := by decide

/-- Every loss of bits in a list counts, two of one byte among them. -/
theorem test_decay_of_a_list :
    let d := { (bare .unparking).dram with mem := [(5, 255), (9, 1)] }
    (d.decay [(5, 1), (9, 2), (5, 6)]).mem = [(5, 248), (9, 3)] := by decide

/-! ## A run to an ATTACHED store

What R82's statement asks for: a state that a run of commands reaches, with the store ATTACHED. The part has no DIMMs,
so its region table reads as zeros (R62). -/

/-- START FRESH with the store, on a part without DIMMs, up to the last line of its table's fetch. -/
def fetched : State :=
  taken State.reset
    ([.railRise .main, .railRise .mem, .dramBringupEnd 0, .start ([0, 4, 1, 0] ++ leBytes 8 0)] ++
      List.replicate 7 .engineAccessDone)
def lastRead : Access := { src := .engine .fetch, line := 7 }
def asked : StartReq :=
  { fresh := true, units := 4, tableAddr := 0, storeUse := true, phase := .fetching,
    fetched := List.replicate 512 0 }
def noRegions : RegionFile :=
  { descs := Vector.replicate 32 Descriptor.empty, tableAddr := some 0, owed := 0 }

theorem fetched_facts :
    fetched.presented .fetch = some lastRead ∧ fetched.arbiterChoice = some lastRead ∧ fetched.dram.cond = .up ∧
      fetched.loading = false ∧ (performedBy fetched lastRead).region.load = none ∧
      (performedBy fetched lastRead).tc.fetching = some asked ∧
      (performedBy fetched lastRead).tc.state = .unconfigured ∧ State.fileOf 0 asked.fetched = noRegions ∧
      descriptorsOk 4096 noRegions.descs = true ∧ (∀ n : Fin 32, noRegions.descs[n].valid = false) := by
  decide +kernel

/-- ACCEPTED, and under way. -/
def started : State :=
  (((((performedBy fetched lastRead).acceptStart asked).setRegion
    { ((performedBy fetched lastRead).acceptStart asked).region with file := noRegions }).setTracker
      (Tracker.withTable { Tracker.reset with units := 4 } [])).settle).settle

theorem exec_fetch_end : exec .startTableFetchEnd fetched = .next started := by
  obtain ⟨h1, h2, h3, h4, h5, h6, h7, h8, h9, h10⟩ := fetched_facts
  exact congrArg Host.Outcome.next
    (startTableFetchEnd_last h1 h2 h3 h4 (by decide) rfl (fetchDone_of_no_valid h5 h6 h7 h8 h9 h10))

/-- A response answered GOOD. -/
def answeredGood (num : Byte) (blocks length : Nat) : Instr :=
  .storeResponse { bytes := [0, num, 0, 0] ++ leBytes 4 blocks, length := length }

/-- The store is identified, of 2,052 blocks, and header block 0 read. -/
def identified : State := taken started [answeredGood 1 2052 8, answeredGood 2 0 262152]
def atHeader1 : BringUp := { State.newBringUp .fresh with step := .header1, slots := 2048 }
def header1Read : StoreOp :=
  { num := 3, kind := .readBlock, block := 1, payload := State.noPayload, purpose := .bringUp .header1,
    disregarded := false }


/-- The empty epoch's index is due. -/
def adopted : State :=
  (((identified.endOp Timer.stopped).setEngine { (identified.endOp Timer.stopped).engine with retired := [] }).nextStep
    { atHeader1 with header1 := none, oldEpoch := 0, formerRetired := [], step := .emptyIndex }).settle

theorem identified_facts :
    identified.store.holdBack = none ∧ identified.store.op = some header1Read ∧
      header1Read.goodBy { bytes := [0, 3, 0, 0] ++ leBytes 4 0, length := 262152 } = true ∧
      identified.engine.bringUp = some atHeader1 ∧ identified.engine.retired = [] ∧
      Header.decode (respBlock { bytes := [0, 3, 0, 0] ++ leBytes 4 0, length := 262152 }).bytes = none ∧
      ∀ n : Fin 32, identified.region.file.descs[n].valid = false := by decide +kernel

theorem exec_header1 : exec (answeredGood 3 0 262152) identified = .next adopted := by
  obtain ⟨h1, h2, h3, h4, h5, h6, h7⟩ := identified_facts
  refine congrArg Host.Outcome.next ((header1_read h1 h2 rfl rfl h3 rfl h4 rfl rfl rfl h6 h7).trans ?_)
  rw [h5]
  rfl

/-- The empty epoch is written. -/
def attachedRun : State := taken adopted [answeredGood 4 0 8, answeredGood 5 0 8]

theorem attachedRun_attached : attachedRun.store.status = .attached ∧ attachedRun.store.slots = 2048 := by decide +kernel

theorem test_run_is_sendable :
    sendable
        ([.railRise .main, .railRise .mem, .dramBringupEnd 0, .start ([0, 4, 1, 0] ++ leBytes 8 0)] ++
          List.replicate 7 .engineAccessDone) State.reset = true ∧
      fetched.pending = [] ∧ sendable [answeredGood 1 2052 8, answeredGood 2 0 262152] started = true ∧ identified.pending = [] ∧
      sendable [answeredGood 4 0 8, answeredGood 5 0 8] adopted = true := by decide +kernel

theorem attachedRun_reachable : Reachable attachedRun := by
  obtain ⟨h1, h2, h3, h4, h5⟩ := test_run_is_sendable
  have a : Reachable started := reachable_exec (reachable_taken .reset h1) h2 rfl exec_fetch_end
  exact reachable_taken (reachable_exec (reachable_taken a h3) h4 rfl exec_header1) h5

theorem test_premise_EverySlotIsInOnePlace :
    Reachable attachedRun ∧ attachedRun.store.status = .attached ∧ attachedRun.store.slots = 2048 :=
  ⟨attachedRun_reachable, attachedRun_attached⟩

end Sys2Proof.Tests
end

