-- ==== Sys2Proof/Proofs/AnsweredRequests.lean ====
section
/-! Requests that the part answers itself (R54, R55, R56): which requests the judgement of R52 makes such, and what
their answer does. -/

namespace Sys2Proof.Machine

/-- The ten classes after the first three are enabled by the bits of REPORT (R175, R180). -/
theorem FaultUnit.reportable_of_maskable (f : FaultUnit) {c : FaultClass} {bit : Nat} (h : c.code = bit + 4) :
    f.reportable c = f.enables.getLsbD bit := by
  rw [FaultUnit.reportable, h, Nat.add_sub_cancel, if_neg (by omega)]

namespace State

variable {s : State} {e : Entry}

/-! ## The judgements that end in an answer (R52) -/

theorem judgement_of_outOfRange (ht : s.tc.state ≠ .unconfigured) (ha : 262144 * s.granules ≤ e.addr) :
    s.judgement e = .range := by
  rw [judgement, if_neg ht, if_pos (show Config.granuleBytes * s.granules ≤ e.addr from ha)]

/-- In range, the judgement of a tracked request goes on to its kind, its class and its granule. -/
theorem judgement_of_inRange (ht : s.tc.state ≠ .unconfigured) (ha : e.addr < 262144 * s.granules) :
    s.judgement e =
      if e.kind = .write ∧ e.cls = some .fixed then .fixedWrite
      else if e.kind = .write ∧ s.tc.state = .committing then .commitHold
      else if (s.recOf e.granule).st.countsAbsent then .fillHold
      else if e.kind = .read ∧ (s.recOf e.granule).st = .poison then .poisonRead
      else .proceed := by
  rw [judgement, if_neg ht, if_neg (show ¬ Config.granuleBytes * s.granules ≤ e.addr from Nat.not_le.2 ha)]

theorem judgement_of_fixedWrite (ht : s.tc.state ≠ .unconfigured) (ha : e.addr < 262144 * s.granules)
    (hk : e.kind = .write) (hc : e.cls = some .fixed) : s.judgement e = .fixedWrite := by
  rw [judgement_of_inRange ht ha, if_pos ⟨hk, hc⟩]

theorem judgement_of_poisonRead (ht : s.tc.state ≠ .unconfigured) (ha : e.addr < 262144 * s.granules)
    (hk : e.kind = .read) (hp : (s.recOf e.granule).st = .poison) : s.judgement e = .poisonRead := by
  have hpresent : GState.poison.countsAbsent = false := rfl
  rw [judgement_of_inRange ht ha]
  simp [hk, hp, hpresent]

/-! ## The answer (R54, R55, R56) -/

/-- An answer takes the request out of the table, reports its class where that is enabled, and sends a completion:
no other block changes. -/
theorem answer_of_maskable {c : FaultClass} {status : CompletionStatus} {bit : Nat} (h : c.code = bit + 4) :
    s.answer e c status =
      if s.faults.enables.getLsbD bit then
        ((s.setRu { s.ru with table := s.ru.table.filter fun x => decide (x.tag ≠ e.tag) }).setFaults
          (s.faults.take c e.addr (.number 0) s.tc.state)).setSent
            { s.sent with completions := s.sent.completions ++ [{ tag := e.tag, status := status, data := [] }] }
      else
        (s.setRu { s.ru with table := s.ru.table.filter fun x => decide (x.tag ≠ e.tag) }).setSent
          { s.sent with
            completions := s.sent.completions ++
              [{ tag := e.tag, status := .good, data := if e.kind = .read then List.replicate 64 0 else [] }] } := by
  rw [← s.faults.reportable_of_maskable h]
  rfl

/-! ## The class of a READ (R55) -/

theorem judgement_withClass_of_read (hk : e.kind = .read) (c : Option GClass) :
    s.judgement { e with cls := c } = s.judgement e := by
  have hnotWrite : e.kind ≠ .write := by rw [hk]; decide
  simp only [judgement, hnotWrite, false_and, if_false]
  rfl

theorem proceed_withClass_of_read (hk : e.kind = .read) (c : Option GClass) :
    s.proceed { e with cls := c } = s.proceed e := by
  obtain ⟨tag, kind, line, data, enables, cls, st⟩ := e
  cases hk
  rfl

theorem settleEntry_withClass_of_read (hk : e.kind = .read) (c : Option GClass) :
    s.settleEntry { e with cls := c } = s.settleEntry e := by
  rw [settleEntry, settleEntry, judgement_withClass_of_read hk]
  cases s.judgement e with
  | proceed => exact proceed_withClass_of_read hk c
  | untracked | range | fixedWrite | commitHold | fillHold | poisonRead => rfl

end State

/-- Settles O23: the judgement of R52 names the answer, and the answer is that of a maskable class. -/
theorem outOfRangeRequestIsAnsweredByItsFaultClass : Obligations.OutOfRangeRequestIsAnsweredByItsFaultClass := by
  intro s e ht left answered
  refine ⟨fun ha => ?range, fun ha hk hc => ?fixedWrite, fun ha hk => ⟨fun hp => ?poisonRead, ?readClass⟩⟩
  case range =>
    rw [State.settleEntry, State.judgement_of_outOfRange ht ha]
    exact State.answer_of_maskable rfl
  case fixedWrite =>
    rw [State.settleEntry, State.judgement_of_fixedWrite ht ha hk hc]
    exact State.answer_of_maskable rfl
  case poisonRead =>
    rw [State.settleEntry, State.judgement_of_poisonRead ht ha hk hp]
    exact State.answer_of_maskable rfl
  case readClass => exact State.settleEntry_withClass_of_read hk

end Sys2Proof.Machine
end

