-- ==== Sys2Proof/Proofs/HigherHeader.lean ====
section
/-! The choice between two valid headers, and the count of the epochs (R76). -/

namespace Sys2Proof.Machine

namespace Header

variable {a b : Header}

/-! ## The higher of two headers, by how their numbers stand -/

theorem higher_of_second_follows (h : b.epoch = a.epoch + 1) : a.higher b = b := if_pos h

/-- No two numbers follow each other: the count is of 32 bits, not of 1. -/
theorem not_follows_of_follows (h : a.epoch = b.epoch + 1) : b.epoch ≠ a.epoch + 1 := by
  bv_omega

theorem higher_of_first_follows (h : a.epoch = b.epoch + 1) : a.higher b = a := by
  rw [higher, if_neg (not_follows_of_follows h), if_pos h]

theorem higher_of_apart (hb : b.epoch ≠ a.epoch + 1) (ha : a.epoch ≠ b.epoch + 1) :
    a.higher b = if a.epoch.toNat < b.epoch.toNat then b else a := by
  rw [higher, if_neg hb, if_neg ha]
  by_cases hlt : a.epoch.toNat < b.epoch.toNat
  · rw [if_pos hlt, if_neg (Nat.not_le.mpr hlt)]
  · rw [if_neg hlt, if_pos (Nat.not_lt.mp hlt)]

theorem higher_eq (a b : Header) :
    a.higher b = if b.epoch = a.epoch + 1 then b else if a.epoch = b.epoch + 1 then a
      else if a.epoch.toNat < b.epoch.toNat then b else a := by
  by_cases hb : b.epoch = a.epoch + 1
  · rw [if_pos hb, higher_of_second_follows hb]
  · by_cases ha : a.epoch = b.epoch + 1
    · rw [if_neg hb, if_pos ha, higher_of_first_follows ha]
    · rw [if_neg hb, if_neg ha, higher_of_apart hb ha]

end Header

/-! ## The next epoch -/

/-- The header that a commit writes has the next epoch after the committed one, counted modulo 2^32. -/
theorem State.commitHeader_epoch_toNat (s : State) :
    s.commitHeader.epoch.toNat = (s.engine.epoch.toNat + 1) % 4294967296 :=
  BitVec.toNat_add s.engine.epoch 1

/-- Settles O25: the higher of two headers by how their numbers stand, and the committed epoch's successor. -/
theorem higherHeaderFollowsTheEpochNumbers : Obligations.HigherHeaderFollowsTheEpochNumbers := by
  intro a b
  have two_valid : highest (some a) (some b) = some (a.higher b) := rfl
  refine ⟨?twoValid, ?onlyFirst, ?onlySecond, ?noneValid, State.commitHeader_epoch_toNat⟩
  case twoValid => rw [two_valid, Header.higher_eq]
  case onlyFirst | onlySecond | noneValid => rfl

end Sys2Proof.Machine
end

