-- ==== Sys2Proof/Proofs/ClearedFaults.lean ====
section
/-! CLEAR_FAULT (R182): the command frame's way to its owner (R184), and the Fault Unit and the reply that it leaves. -/

namespace Sys2Proof.Machine

/-- ALERT follows ERROR down, whatever ALERT_DISABLE says (R179). -/
theorem FaultUnit.alertNow_of_no_error {f : FaultUnit} (h : f.error = false) : f.alertNow = false := by
  rw [alertNow, h, Bool.false_and]

/-- The latch, the enables and ALERT_DISABLE are those of before (R182). -/
theorem FaultUnit.clear_eq (f : FaultUnit) : f.clear = { f with count := 0, error := false, alert := false } := by
  rw [clear, driveAlert, alertNow_of_no_error rfl]

namespace State

variable {s : State}

/-- A frame that passes the steps 2 to 4 of R184 reaches its owner, the buffer empty. -/
theorem command_of_passed {code len : Nat} {p : List Byte} {named : Bool} {own : State → State}
    (hlen : p.length = len) (hready : s.side.handling = false) (hrail : (named && s.tc.railLoss) = false) :
    s.command code len p named own = own s.clearBuffer := by
  simp [command, hlen, hready, hrail]

/-- An owner that answers finds nothing of the reply that the frame discarded (R183). -/
theorem setFaults_putReply_clearBuffer (s : State) (f : FaultUnit) (command : Nat) (code : ReplyCode)
    (data : List Byte) :
    (s.clearBuffer.setFaults f).putReply command code data =
      (s.setFaults f).setSide { s.side with buffer := some { command := command, code := code, data := data } } := rfl

/-- CLEAR_FAULT's own effect is on the Fault Unit and on the reply buffer (R182). -/
theorem clearFault_clearBuffer (s : State) :
    s.clearBuffer.clearFault =
      (s.setFaults { s.faults with count := 0, error := false, alert := false }).setSide
        { s.side with buffer := some { command := 19, code := .done, data := [] } } := by
  rw [clearFault, setFaults_putReply_clearBuffer, FaultUnit.clear_eq]
  rfl

end State

theorem exec_clearFault (p : List Byte) (s : State) :
    exec (.clearFault p) s = .next (s.command 19 0 p false State.clearFault) := rfl

/-- Settles O33: a rail loss does not refuse CLEAR_FAULT, and a READY port gives it to the Fault Unit. -/
theorem clearFaultKeepsTheLatch : Obligations.ClearFaultKeepsTheLatch := by
  intro s hready
  have taken : s.command 19 0 [] false State.clearFault = s.clearBuffer.clearFault :=
    State.command_of_passed rfl hready (Bool.false_and _)
  rw [exec_clearFault, taken, State.clearFault_clearBuffer]

end Sys2Proof.Machine
end

