-- ==== Sys2Proof/Proofs/StepInvariants.lean ====
section
/-! Every command answers a next state that comes from the state it finds by operations of the part (`Evolves`), and so
does a step: the queue and each invariant of the part are kept (R26, R7, R176, R48). -/

namespace Sys2Proof.Machine

namespace State

/-! ## The sideband commands -/

theorem evolves_clearBuffer (s : State) : Evolves s s.clearBuffer := s.evolves_setSide _

theorem evolves_beginHandling (s : State) : Evolves s s.beginHandling := s.evolves_setSide _

/-- A command frame is refused with a reply, or goes to its owner (R184). -/
theorem evolves_command (s : State) (code len : Nat) (p : List Byte) (named : Bool) {own : State → State}
    (h : ∀ s, Evolves s (own s)) : Evolves s (s.command code len p named own) := by
  unfold command
  split
  · exact s.evolves_putReply _ _ _
  · split
    · exact s.evolves_putReply _ _ _
    · split
      · exact s.evolves_putReply _ _ _
      · exact (s.evolves_clearBuffer).trans (h _)

theorem evolves_fetchTable (s : State) (a : StartArgs) : Evolves s (s.fetchTable a) :=
  (((s.evolves_beginHandling).trans (evolves_setTc _ _)).calm (calm_present _ _ _)).calm (calm_settle _)

theorem evolves_start (s : State) (p : List Byte) : Evolves s (s.start p) := by
  unfold start
  split
  · split
    · exact s.evolves_putReply _ _ _
    · split
      · split
        · exact s.evolves_fetchTable _
        · exact s.evolves_putReply _ _ _
      · split
        · exact (s.evolves_acceptStart _).calm (calm_settle _)
        · exact s.evolves_putReply _ _ _
  · exact s.evolves_putReply _ _ _

theorem evolves_beginLoad (s : State) (addr : Nat) : Evolves s (s.beginLoad addr) :=
  (((s.evolves_beginHandling).trans (evolves_setRegion _ _)).calm (calm_present _ _ _)).calm (calm_settle _)

theorem evolves_loadRegions (s : State) (p : List Byte) : Evolves s (s.loadRegions p) := by
  unfold loadRegions
  split
  · exact s.evolves_putReply _ _ _
  · split
    · exact s.evolves_putReply _ _ _
    · split
      · exact s.evolves_putReply _ _ _
      · exact s.evolves_beginLoad _

theorem evolves_attachStore (s : State) : Evolves s s.attachStore := by
  unfold attachStore
  split
  · exact s.evolves_putReply _ _ _
  · exact ((s.evolves_beginHandling).trans (evolves_setEngine _ _)).calm (calm_settle _)

theorem evolves_acceptTransition (s : State) (op : LongOp) : Evolves s (s.acceptTransition op) :=
  (s.evolves_setWake _ fun _ => causesOk_nil).calm (calm_setOrigin _ _)

theorem evolves_setAbortable (s : State) (flag : Bool) : Evolves s (s.setAbortable flag) := s.evolves_setTc _

theorem evolves_beginEntry (s : State) (op : LongOp) (flag : Bool) : Evolves s (s.beginEntry op flag) := by
  have h := (s.evolves_acceptTransition op).trans (evolves_setAbortable _ flag)
  refine ((h.trans (evolves_setTc _ _)).trans (evolves_setEngine _ _ fun h => ?_)).calm (calm_enterState _ _)
  exact ⟨h.1, show 1 ≤ Config.maxPasses by decide⟩

theorem evolves_imagedEntry (s : State) (code : Nat) (op : LongOp) (p : List Byte) :
    Evolves s (s.imagedEntry code op p) := by
  unfold imagedEntry
  split
  · split
    · exact s.evolves_putReply _ _ _
    · split
      · exact ((s.evolves_beginEntry _ _).trans (evolves_putReply _ _ _ _)).calm (calm_settle _)
      · exact s.evolves_putReply _ _ _
  · exact s.evolves_putReply _ _ _

theorem evolves_sleep (s : State) (p : List Byte) : Evolves s (s.sleep p) := by
  unfold sleep
  split
  · split
    · exact s.evolves_putReply _ _ _
    · exact ((((s.evolves_acceptTransition _).trans (evolves_setTc _ _)).calm (calm_enterParking _)).trans
        (evolves_putReply _ _ _ _)).calm (calm_settle _)
  · exact s.evolves_putReply _ _ _

theorem evolves_abortEntry (s : State) : Evolves s s.abortEntry := by
  unfold abortEntry
  split
  · exact ((s.evolves_setTc _).trans (evolves_putReply _ _ _ _)).calm (calm_settle _)
  · exact ((s.evolves_setTc _).trans (evolves_putReply _ _ _ _)).calm (calm_settle _)
  · exact (((s.calm_parkAbort _).toEvolves).trans (evolves_putReply _ _ _ _)).calm (calm_settle _)
  · exact s.evolves_putReply _ _ _

theorem evolves_exitSleep (s : State) : Evolves s s.exitSleep := by
  unfold exitSleep
  split
  · exact ((((s.evolves_acceptTransition _).calm (calm_enterState _ _)).trans (evolves_setDram _ _)).trans
      (evolves_putReply _ _ _ _)).calm (calm_settle _)
  · exact s.evolves_putReply _ _ _

theorem evolves_exitImaged (s : State) : Evolves s s.exitImaged := by
  unfold exitImaged
  split
  · exact ((((s.evolves_acceptTransition _).calm (calm_enterState _ _)).calm (calm_beginBringUp _)).trans
      (evolves_putReply _ _ _ _)).calm (calm_settle _)
  · exact s.evolves_putReply _ _ _

theorem evolves_releasePoison (s : State) (p : List Byte) : Evolves s (s.releasePoison p) := by
  unfold releasePoison
  split
  · split
    · exact s.evolves_putReply _ _ _
    · exact (((s.calm_claimRelease _ _).toEvolves).trans (evolves_putReply _ _ _ _)).calm (calm_settle _)
  · exact s.evolves_putReply _ _ _

/-! ## Settings -/

theorem evolves_startPace (s : State) : Evolves s s.startPace := by
  unfold startPace
  split
  · exact (s.calm_reloadPace).toEvolves
  · exact .refl s

theorem evolves_presaveResume (s : State) : Evolves s s.presaveResume := by
  have h := s.evolves_setEngine { s.engine with presavePaused := false }
  unfold presaveResume
  dsimp only
  split
  · split
    · exact h.trans (evolves_paceExpires _)
    · exact h.trans (evolves_setEngine _ _)
  · exact h.trans (evolves_startPace _)

theorem evolves_presaveAs (s : State) (a : PresaveArg) : Evolves s (s.presaveAs a) := by
  cases a with
  | on => exact (s.evolves_setEngine _).trans (evolves_startPace _)
  | off => exact s.evolves_setEngine _
  | pause => exact s.evolves_setEngine _
  | resume => exact s.evolves_presaveResume

theorem evolves_presave (s : State) (p : List Byte) : Evolves s (s.presave p) := by
  unfold presave
  split
  · exact s.evolves_putReply _ _ _
  · exact ((s.evolves_presaveAs _).trans (evolves_putReply _ _ _ _)).calm (calm_settle _)

/-- A parameter that SET_PARAM takes lies in its range (R186). -/
theorem inRange_setParamArg {ps qs : Params} {p : List Byte} (h : setParamArg ps p = some qs) (hp : ps.inRange) :
    qs.inRange := by
  unfold Params.inRange at hp ⊢
  simp only [setParamArg] at h
  split_ifs at h <;> cases h <;> simp only <;> omega

theorem evolves_setParam (s : State) (p : List Byte) : Evolves s (s.setParam p) := by
  unfold setParam
  split
  · exact s.evolves_putReply _ _ _
  · rename_i ps hps
    exact (s.evolves_setSide { s.side with params := ps } (inRange_setParamArg hps)).trans (evolves_putReply _ _ _ _)

theorem evolves_setWakeLine (s : State) (p : List Byte) : Evolves s (s.setWakeLine p) := by
  unfold setWakeLine
  split
  · exact s.evolves_putReply _ _ _
  · exact (s.evolves_setWake _).trans (evolves_putReply _ _ _ _)

theorem evolves_clearWake (s : State) : Evolves s s.clearWake :=
  (s.evolves_setWake _ fun _ => causesOk_nil).trans (evolves_putReply _ _ _ _)

theorem evolves_setReport (s : State) (p : List Byte) : Evolves s (s.setReport p) := by
  unfold setReport
  split
  · exact s.evolves_putReply _ _ _
  · exact (s.evolves_setFaults (s.faults.setEnable _ _) id).trans (evolves_putReply _ _ _ _)

theorem evolves_setReportAll (s : State) (p : List Byte) : Evolves s (s.setReportAll p) :=
  (s.evolves_setFaults { s.faults with enables := reportAllArg p } id).trans (evolves_putReply _ _ _ _)

theorem evolves_setAlertDisable (s : State) (p : List Byte) : Evolves s (s.setAlertDisable p) := by
  unfold setAlertDisable
  split
  · exact s.evolves_putReply _ _ _
  · rename_i on _
    exact (s.evolves_setFaults (s.faults.setAlertDisable on) fun h => ⟨h.1, rfl, h.2.2⟩).trans (evolves_putReply _ _ _ _)

theorem evolves_clearFault (s : State) : Evolves s s.clearFault := by
  refine (s.evolves_setFaults _ fun _ => ?_).trans (evolves_putReply _ _ _ _)
  rw [FaultUnit.clear_eq]
  simp [FaultUnit.agrees]

theorem evolves_injectCheckError (s : State) : Evolves s s.injectCheckError :=
  (s.evolves_setDram _).trans (evolves_putReply _ _ _ _)

/-! ## Readings -/

theorem evolves_snapshot (s : State) (p : List Byte) : Evolves s (s.snapshot p) :=
  (s.evolves_setSide _).trans (evolves_putReply _ _ _ _)

theorem evolves_readSnapshot (s : State) (p : List Byte) : Evolves s (s.readSnapshot p) := by
  unfold readSnapshot
  split
  · exact s.evolves_putReply _ _ _
  · exact (s.evolves_setSide _).trans (evolves_putReply _ _ _ _)

theorem evolves_readReply (s : State) : Evolves s s.readReply := (s.evolves_setSent _).trans (evolves_clearBuffer _)

theorem evolves_resetPartCommand (s : State) (p : List Byte) : Evolves s (s.resetPartCommand p) := by
  unfold resetPartCommand
  split
  · exact s.evolves_putReply _ _ _
  · exact s.evolves_resetPart

end State

/-! ## Every command, and a step -/

theorem exec_evolves (c : Instr) (s : State) : ∃ t, exec c s = .next t ∧ Evolves s t := by
  cases c with
  | start p => exact ⟨_, rfl, s.evolves_command _ _ _ _ fun s => s.evolves_start p⟩
  | loadRegions p => exact ⟨_, rfl, s.evolves_command _ _ _ _ fun s => s.evolves_loadRegions p⟩
  | attachStore p => exact ⟨_, rfl, s.evolves_command _ _ _ _ State.evolves_attachStore⟩
  | sleep p => exact ⟨_, rfl, s.evolves_command _ _ _ _ fun s => s.evolves_sleep p⟩
  | hybrid p => exact ⟨_, rfl, s.evolves_command _ _ _ _ fun s => s.evolves_imagedEntry _ _ p⟩
  | hibernate p => exact ⟨_, rfl, s.evolves_command _ _ _ _ fun s => s.evolves_imagedEntry _ _ p⟩
  | abortEntry p => exact ⟨_, rfl, s.evolves_command _ _ _ _ State.evolves_abortEntry⟩
  | exitSleep p => exact ⟨_, rfl, s.evolves_command _ _ _ _ State.evolves_exitSleep⟩
  | exitImaged p => exact ⟨_, rfl, s.evolves_command _ _ _ _ State.evolves_exitImaged⟩
  | presave p => exact ⟨_, rfl, s.evolves_command _ _ _ _ fun s => s.evolves_presave p⟩
  | releasePoison p => exact ⟨_, rfl, s.evolves_command _ _ _ _ fun s => s.evolves_releasePoison p⟩
  | setParam p => exact ⟨_, rfl, s.evolves_command _ _ _ _ fun s => s.evolves_setParam p⟩
  | setWake p => exact ⟨_, rfl, s.evolves_command _ _ _ _ fun s => s.evolves_setWakeLine p⟩
  | clearWake p => exact ⟨_, rfl, s.evolves_command _ _ _ _ State.evolves_clearWake⟩
  | report p => exact ⟨_, rfl, s.evolves_command _ _ _ _ fun s => s.evolves_setReport p⟩
  | reportAll p => exact ⟨_, rfl, s.evolves_command _ _ _ _ fun s => s.evolves_setReportAll p⟩
  | alertDisable p => exact ⟨_, rfl, s.evolves_command _ _ _ _ fun s => s.evolves_setAlertDisable p⟩
  | readFault p => exact ⟨_, rfl, s.evolves_command _ _ _ _ fun s => s.evolves_putReply _ _ _⟩
  | clearFault p => exact ⟨_, rfl, s.evolves_command _ _ _ _ State.evolves_clearFault⟩
  | status p => exact ⟨_, rfl, s.evolves_command _ _ _ _ fun s => s.evolves_putReply _ _ _⟩
  | readGranule p => exact ⟨_, rfl, s.evolves_command _ _ _ _ fun s => s.evolves_putReply _ _ _⟩
  | snapshot p => exact ⟨_, rfl, s.evolves_command _ _ _ _ fun s => s.evolves_snapshot p⟩
  | readSnapshot p => exact ⟨_, rfl, s.evolves_command _ _ _ _ fun s => s.evolves_readSnapshot p⟩
  | injectCheckError p => exact ⟨_, rfl, s.evolves_command _ _ _ _ State.evolves_injectCheckError⟩
  | resetPart p => exact ⟨_, rfl, s.evolves_resetPartCommand p⟩
  | unknownCommandFrame code p => exact ⟨_, rfl, s.evolves_putReply _ _ _⟩
  | readReply => exact ⟨_, rfl, s.evolves_readReply⟩
  | upstreamRequest packet => exact ⟨_, rfl, s.evolves_upstreamRequest packet⟩
  | linkReset => exact ⟨_, rfl, s.evolves_linkReset⟩
  | upstreamAccessDone tag => exact ⟨_, rfl, s.evolves_upstreamAccessDone tag⟩
  | engineAccessDone => exact ⟨_, rfl, s.evolves_engineAccessDone⟩
  | railFall r => exact ⟨_, rfl, s.evolves_railFall r⟩
  | railRise r => exact ⟨_, rfl, s.evolves_railRise r⟩
  | wkAssert line => exact ⟨_, rfl, s.evolves_wkAssert line⟩
  | wkDeassert line => exact ⟨_, rfl, s.evolves_wkDeassert line⟩
  | holdTimerExpiry line => exact ⟨_, rfl, s.evolves_holdTimerExpiry line⟩
  | paceTimerExpiry => exact ⟨_, rfl, s.evolves_paceTimerExpiry⟩
  | fillTimerExpiry => exact ⟨_, rfl, s.evolves_fillTimerExpiry⟩
  | storeTimerExpiry => exact ⟨_, rfl, s.evolves_storeTimerExpiry⟩
  | sleepTimerExpiry => exact ⟨_, rfl, s.evolves_sleepTimerExpiry⟩
  | storeResponse f => exact ⟨_, rfl, s.evolves_storeResponse f⟩
  | fillEnd g => exact ⟨_, rfl, s.evolves_lastLine _⟩
  | zeroFillEnd => exact ⟨_, rfl, s.evolves_lastLine _⟩
  | dramBringupEnd n => exact ⟨_, rfl, s.evolves_dramBringupEnd n⟩
  | selfRefreshEntryEnd => exact ⟨_, rfl, s.evolves_selfRefreshEntryEnd⟩
  | selfRefreshExitEnd decay => exact ⟨_, rfl, s.evolves_selfRefreshExitEnd decay⟩
  | patternWriteEnd => exact ⟨_, rfl, s.evolves_lastLine _⟩
  | compareEnd => exact ⟨_, rfl, s.evolves_lastLine _⟩
  | regionFetchEnd => exact ⟨_, rfl, s.evolves_regionFetchEnd⟩
  | startTableFetchEnd => exact ⟨_, rfl, s.evolves_startTableFetchEnd⟩
  | standbyPowerOn => exact ⟨_, rfl, s.evolves_standbyPowerOn⟩

theorem step_of_nil {s : State} (h : s.pending = []) : step s = .next s.idle := by rw [step, h]

theorem step_of_cons {s : State} {c : Instr} {rest : List Instr} (h : s.pending = c :: rest) :
    step s = exec c (s.setPending rest) := by rw [step, h]

/-- What a step comes to: one ms, or its front command taken on the rest of the queue. -/
theorem step_cases {s t : State} (h : step s = .next t) :
    (s.pending = [] ∧ t = s.idle) ∨ ∃ c rest, s.pending = c :: rest ∧ exec c (s.setPending rest) = .next t := by
  cases hp : s.pending with
  | nil =>
    rw [step_of_nil hp] at h
    exact .inl ⟨rfl, (Host.Outcome.next.inj h).symm⟩
  | cons c rest => exact .inr ⟨c, rest, rfl, by rw [← step_of_cons hp]; exact h⟩

/-- A step evolves a state that differs from the one it finds in the queue at most. -/
theorem step_evolves {s t : State} (h : step s = .next t) : ∃ q, Evolves (s.setPending q) t := by
  obtain ⟨_, rfl⟩ | ⟨c, rest, _, he⟩ := step_cases h
  · exact ⟨s.pending, s.evolves_idle⟩
  · obtain ⟨t', ht', hev⟩ := exec_evolves c (s.setPending rest)
    rw [he] at ht'
    obtain rfl := Host.Outcome.next.inj ht'
    exact ⟨rest, hev⟩

/-! ## The obligations on the queue and on the invariants that `Evolves` carries -/

/-- Settles O1. -/
theorem stepTakesFrontCommand : Obligations.StepTakesFrontCommand :=
  fun _ _ _ h => step_of_cons h

/-- Settles O3: each command's meaning evolves its state, and so leaves the queue. -/
theorem everyCommandKeepsTheQueue : Obligations.EveryCommandKeepsTheQueue := by
  intro c s
  obtain ⟨t, ht, hev⟩ := exec_evolves c s
  exact ⟨t, ht, hev.pending⟩

/-- Settles O5. -/
theorem invariantsHoldAtReset : Obligations.InvariantsHoldAtReset :=
  ⟨Memory.wf_nil, Tracker.counted_reset, Tracker.sound_reset, FaultUnit.agrees_reset, ⟨rfl, rfl, rfl⟩, List.nodup_nil,
    DramPort.inRange_reset, ImageEngine.inRange_reset, Params.inRange_default, causesOk_nil⟩

/-- Settles O6: every command evolves its state. -/
theorem stepKeepsMemoryForm : Obligations.StepKeepsMemoryForm := by
  intro s t hs h
  obtain ⟨q, hev⟩ := step_evolves h
  exact hev.wf hs

/-- Settles O7: every command evolves its state. -/
theorem stepKeepsDirectoryCounts : Obligations.StepKeepsDirectoryCounts := by
  intro s t hs h
  obtain ⟨q, hev⟩ := step_evolves h
  exact hev.counted hs

/-- Settles O8: every command evolves its state, and an unlisted record is blank, which is sound. -/
theorem stepKeepsRecordsSound : Obligations.StepKeepsRecordsSound := by
  intro s t hs h
  obtain ⟨q, hev⟩ := step_evolves h
  have ht : t.tracker.sound := hev.sound hs
  exact ⟨ht, Tracker.sound_recAt ht⟩

/-- Settles O9: every command evolves its state. -/
theorem stepKeepsFaultUnitAgreeing : Obligations.StepKeepsFaultUnitAgreeing := by
  intro s t hs h
  obtain ⟨q, hev⟩ := step_evolves h
  exact hev.agrees hs

/-- Settles O11: every command evolves its state. -/
theorem stepKeepsTagsDistinct : Obligations.StepKeepsTagsDistinct := by
  intro s t hs h
  obtain ⟨q, hev⟩ := step_evolves h
  exact hev.tags hs

end Sys2Proof.Machine
end

