-- ==== Sys2Proof/Proofs/LinesOut.lean ====
section
/-! The lines out and link ready (R134, R49): a command's event ends with `State.settle`, which drives them, or leaves
what they are driven from. -/

namespace Sys2Proof.Machine

/-- What `t` makes of lines that `s` has driven. -/
def Drives (s t : State) : Prop := s.linesDriven → t.linesDriven

namespace State

/-- The lines stand where nothing that they follow has changed. -/
theorem drives_of_eq {s t : State} (hl : t.lines = s.lines) (hr : t.ru.linkReady = s.ru.linkReady)
    (ht : t.tc.state = s.tc.state ∧ t.tc.railLoss = s.tc.railLoss ∧ t.tc.parkPhase = s.tc.parkPhase ∧
      t.tc.start = s.tc.start)
    (hc : t.dram.cond = s.dram.cond) : Drives s t := by
  obtain ⟨hstate, hloss, hphase, hstart⟩ := ht
  have hnow : t.linkReadyNow = s.linkReadyNow := by
    simp only [linkReadyNow, railsOk, draining, hl, hstate, hloss, hphase, hstart, hc]
  intro hs
  simp only [linesDriven, hl, hr, hstate, hnow]
  exact hs

theorem drives_of_blocks {s t : State} (hl : t.lines = s.lines) (hr : t.ru = s.ru) (ht : t.tc = s.tc)
    (hc : t.dram.cond = s.dram.cond) : Drives s t :=
  drives_of_eq hl (by rw [hr]) ⟨by rw [ht], by rw [ht], by rw [ht], by rw [ht]⟩ hc

theorem drives_settle (s t : State) : Drives s t.settle := fun _ => linesDriven_settle t

theorem drives_refl (s : State) : Drives s s := id

theorem drives_putReply (s : State) (command : Nat) (code : ReplyCode) (data : List Byte) :
    Drives s (s.putReply command code data) := drives_of_blocks rfl rfl rfl rfl

/-- A command frame is refused with a reply, or goes to its owner (R184). -/
theorem drives_command (s : State) (code len : Nat) (p : List Byte) (named : Bool) {own : State → State}
    (h : ∀ s, Drives s (own s)) : Drives s (s.command code len p named own) := by
  have hclear : Drives s s.clearBuffer := drives_of_blocks rfl rfl rfl rfl
  unfold command
  split
  · exact s.drives_putReply _ _ _
  · split
    · exact s.drives_putReply _ _ _
    · split
      · exact s.drives_putReply _ _ _
      · exact h _ ∘ hclear

/-! ## The sideband commands -/

theorem drives_start (s : State) (p : List Byte) : Drives s (s.start p) := by
  unfold start
  split
  · split
    · exact s.drives_putReply _ _ _
    · split
      · split
        · exact s.drives_settle _
        · exact s.drives_putReply _ _ _
      · split
        · exact s.drives_settle _
        · exact s.drives_putReply _ _ _
  · exact s.drives_putReply _ _ _

theorem drives_loadRegions (s : State) (p : List Byte) : Drives s (s.loadRegions p) := by
  unfold loadRegions
  split
  · exact s.drives_putReply _ _ _
  · split
    · exact s.drives_putReply _ _ _
    · split
      · exact s.drives_putReply _ _ _
      · exact s.drives_settle _

theorem drives_attachStore (s : State) : Drives s s.attachStore := by
  unfold attachStore
  split
  · exact s.drives_putReply _ _ _
  · exact s.drives_settle _

theorem drives_imagedEntry (s : State) (code : Nat) (op : LongOp) (p : List Byte) :
    Drives s (s.imagedEntry code op p) := by
  unfold imagedEntry
  split
  · split
    · exact s.drives_putReply _ _ _
    · split
      · exact s.drives_settle _
      · exact s.drives_putReply _ _ _
  · exact s.drives_putReply _ _ _

theorem drives_sleep (s : State) (p : List Byte) : Drives s (s.sleep p) := by
  unfold sleep
  split
  · split
    · exact s.drives_putReply _ _ _
    · exact s.drives_settle _
  · exact s.drives_putReply _ _ _

theorem drives_abortEntry (s : State) : Drives s s.abortEntry := by
  unfold abortEntry
  split
  · exact s.drives_settle _
  · exact s.drives_settle _
  · exact s.drives_settle _
  · exact s.drives_putReply _ _ _

theorem drives_exitSleep (s : State) : Drives s s.exitSleep := by
  unfold exitSleep
  split
  · exact s.drives_settle _
  · exact s.drives_putReply _ _ _

theorem drives_exitImaged (s : State) : Drives s s.exitImaged := by
  unfold exitImaged
  split
  · exact s.drives_settle _
  · exact s.drives_putReply _ _ _

theorem drives_releasePoison (s : State) (p : List Byte) : Drives s (s.releasePoison p) := by
  unfold releasePoison
  split
  · split
    · exact s.drives_putReply _ _ _
    · exact s.drives_settle _
  · exact s.drives_putReply _ _ _

theorem drives_presave (s : State) (p : List Byte) : Drives s (s.presave p) := by
  unfold presave
  split
  · exact s.drives_putReply _ _ _
  · exact s.drives_settle _

theorem drives_setParam (s : State) (p : List Byte) : Drives s (s.setParam p) := by
  unfold setParam
  split <;> exact drives_of_blocks rfl rfl rfl rfl

theorem drives_setWakeLine (s : State) (p : List Byte) : Drives s (s.setWakeLine p) := by
  unfold setWakeLine
  split <;> exact drives_of_blocks rfl rfl rfl rfl

theorem drives_setReport (s : State) (p : List Byte) : Drives s (s.setReport p) := by
  unfold setReport
  split <;> exact drives_of_blocks rfl rfl rfl rfl

theorem drives_setAlertDisable (s : State) (p : List Byte) : Drives s (s.setAlertDisable p) := by
  unfold setAlertDisable
  split <;> exact drives_of_blocks rfl rfl rfl rfl

theorem drives_readSnapshot (s : State) (p : List Byte) : Drives s (s.readSnapshot p) := by
  unfold readSnapshot
  split <;> exact drives_of_blocks rfl rfl rfl rfl

/-! ## Power-on and the rails -/

/-- At power-on link ready is deasserted, and DRAM is not UP: with both rails its bring-up begins. -/
theorem linesDriven_bringUpIfReady {s : State} (hs : s.tc.state = .unconfigured) (hc : s.dram.cond = .notUp)
    (hr : s.ru.linkReady = false) (hst : s.lines.stable = true) (hd : s.lines.dramHold = false) :
    s.bringUpIfReady.linesDriven := by
  unfold bringUpIfReady
  split
  · simp [linesDriven, beginBringUp, linkReadyNow, hs, hr, hst, hd, stableIn, dramHoldIn]
  · simp [linesDriven, linkReadyNow, hs, hc, hr, hst, hd, stableIn, dramHoldIn]

theorem drives_standbyPowerOn (s : State) : Drives s s.standbyPowerOn :=
  fun _ => linesDriven_bringUpIfReady rfl rfl rfl rfl rfl

theorem drives_resetPartCommand (s : State) (p : List Byte) : Drives s (s.resetPartCommand p) := by
  unfold resetPartCommand
  split
  · exact s.drives_putReply _ _ _
  · exact fun _ => linesDriven_bringUpIfReady rfl rfl rfl rfl rfl

/-- Outside UNCONFIGURED the lines do not follow the rails (R49). -/
theorem drives_setRail (s : State) (r : Rail) (level : Bool) (h : s.tc.state ≠ .unconfigured) :
    Drives s (s.setRail r level) := by
  intro hs
  obtain ⟨hstable, hhold, hready⟩ := hs
  have hnow : (s.setRail r level).linkReadyNow = s.linkReadyNow := by
    cases r <;> cases hst : s.tc.state <;> simp_all [linkReadyNow, setRail]
  refine ⟨?_, ?_, ?_⟩
  · cases r <;> exact hstable
  · cases r <;> exact hhold
  · rw [hnow, ← hready]; cases r <;> rfl

theorem tc_setRail (s : State) (r : Rail) (level : Bool) : (s.setRail r level).tc = s.tc := by cases r <;> rfl

theorem drives_railFall (s : State) (r : Rail) : Drives s (s.railFall r) := by
  unfold railFall
  split
  · dsimp only
    split
    · exact fun _ => linesDriven_drive _
    · split
      · exact s.drives_settle _
      · rename_i hu
        split
        · exact s.drives_settle _
        · exact s.drives_setRail r false (by rwa [tc_setRail] at hu)
  · exact s.drives_refl

theorem drives_railRise (s : State) (r : Rail) : Drives s (s.railRise r) := by
  unfold railRise
  dsimp only
  split
  · exact s.drives_settle _
  · rename_i hu
    exact s.drives_setRail r true (by rwa [tc_setRail] at hu)

/-! ## Accesses and transfers -/

theorem drives_lastLine (s : State) (o : Owner) : Drives s (s.lastLine o) := by
  unfold lastLine
  split
  · split
    · exact s.drives_settle _
    · exact s.drives_refl
  · exact s.drives_refl

theorem drives_upstreamAccessDone (s : State) (tag : BitVec 5) : Drives s (s.upstreamAccessDone tag) := by
  unfold upstreamAccessDone
  split
  · exact s.drives_settle _
  · split
    · exact s.drives_settle _
    · exact s.drives_refl

theorem drives_engineAccessDone (s : State) : Drives s s.engineAccessDone := by
  unfold engineAccessDone
  split
  · exact s.drives_settle _
  · exact s.drives_refl

theorem drives_regionFetchEnd (s : State) : Drives s s.regionFetchEnd := by
  unfold regionFetchEnd
  split
  · exact s.drives_lastLine _
  · exact s.drives_refl

theorem drives_startTableFetchEnd (s : State) : Drives s s.startTableFetchEnd := by
  unfold startTableFetchEnd
  split
  · exact s.drives_refl
  · exact s.drives_lastLine _

theorem drives_dramBringupEnd (s : State) (installed : Nat) : Drives s (s.dramBringupEnd installed) := by
  unfold dramBringupEnd
  split
  · exact s.drives_settle _
  · exact s.drives_refl

theorem drives_selfRefreshEntryEnd (s : State) : Drives s s.selfRefreshEntryEnd := by
  unfold selfRefreshEntryEnd
  split
  · split
    · exact s.drives_settle _
    · exact s.drives_settle _
  · exact s.drives_refl

theorem drives_selfRefreshExitEnd (s : State) (decay : List Host.Cell) : Drives s (s.selfRefreshExitEnd decay) := by
  unfold selfRefreshExitEnd
  split
  · dsimp only
    split
    · exact s.drives_settle _
    · exact s.drives_settle _
  · exact s.drives_refl

/-! ## The links, the wake lines and the timers -/

theorem drives_storeResponse (s : State) (f : Frame) : Drives s (s.storeResponse f) := by
  unfold storeResponse
  split
  · split
    · exact s.drives_settle _
    · exact s.drives_refl
  · split
    · split
      · exact s.drives_settle _
      · exact s.drives_refl
    · exact s.drives_refl

theorem drives_storeTimerExpiry (s : State) : Drives s s.storeTimerExpiry := by
  unfold storeTimerExpiry
  split
  · split
    · exact s.drives_settle _
    · split
      · exact s.drives_settle _
      · exact s.drives_refl
  · exact s.drives_refl

theorem drives_upstreamRequest (s : State) (packet : List Byte) : Drives s (s.upstreamRequest packet) := by
  unfold upstreamRequest
  split
  · exact s.drives_settle _
  · exact drives_of_blocks rfl rfl rfl rfl

theorem drives_lineMoved (s : State) (line : Fin 5) (l : WakeLine × Bool) : Drives s (s.lineMoved line l) := by
  unfold lineMoved
  dsimp only
  split
  · exact s.drives_settle _
  · exact drives_of_blocks rfl rfl rfl rfl

theorem drives_wkAssert (s : State) (line : Fin 5) : Drives s (s.wkAssert line) := by
  unfold wkAssert
  split
  · exact s.drives_refl
  · exact s.drives_lineMoved _ _

theorem drives_wkDeassert (s : State) (line : Fin 5) : Drives s (s.wkDeassert line) := by
  unfold wkDeassert
  split <;> exact drives_of_blocks rfl rfl rfl rfl

theorem drives_holdTimerExpiry (s : State) (line : Fin 5) : Drives s (s.holdTimerExpiry line) := by
  unfold holdTimerExpiry
  split
  · exact s.drives_lineMoved _ _
  · exact s.drives_refl

theorem drives_paceTimerExpiry (s : State) : Drives s s.paceTimerExpiry := by
  unfold paceTimerExpiry
  split
  · exact s.drives_settle _
  · exact s.drives_refl

theorem drives_fillTimerExpiry (s : State) : Drives s s.fillTimerExpiry := by
  unfold fillTimerExpiry
  split
  · exact s.drives_settle _
  · exact s.drives_refl

theorem drives_sleepTimerExpiry (s : State) : Drives s s.sleepTimerExpiry := by
  unfold sleepTimerExpiry
  split
  · exact s.drives_settle _
  · exact s.drives_refl

theorem drives_idle (s : State) : Drives s s.idle := drives_of_eq rfl rfl ⟨rfl, rfl, rfl, rfl⟩ rfl

end State

/-! ## Every command, and a step -/

theorem exec_drives (c : Instr) (s : State) : ∃ t, exec c s = .next t ∧ Drives s t := by
  cases c with
  | start p => exact ⟨_, rfl, s.drives_command _ _ _ _ fun s => s.drives_start p⟩
  | loadRegions p => exact ⟨_, rfl, s.drives_command _ _ _ _ fun s => s.drives_loadRegions p⟩
  | attachStore p => exact ⟨_, rfl, s.drives_command _ _ _ _ State.drives_attachStore⟩
  | sleep p => exact ⟨_, rfl, s.drives_command _ _ _ _ fun s => s.drives_sleep p⟩
  | hybrid p => exact ⟨_, rfl, s.drives_command _ _ _ _ fun s => s.drives_imagedEntry _ _ p⟩
  | hibernate p => exact ⟨_, rfl, s.drives_command _ _ _ _ fun s => s.drives_imagedEntry _ _ p⟩
  | abortEntry p => exact ⟨_, rfl, s.drives_command _ _ _ _ State.drives_abortEntry⟩
  | exitSleep p => exact ⟨_, rfl, s.drives_command _ _ _ _ State.drives_exitSleep⟩
  | exitImaged p => exact ⟨_, rfl, s.drives_command _ _ _ _ State.drives_exitImaged⟩
  | presave p => exact ⟨_, rfl, s.drives_command _ _ _ _ fun s => s.drives_presave p⟩
  | releasePoison p => exact ⟨_, rfl, s.drives_command _ _ _ _ fun s => s.drives_releasePoison p⟩
  | setParam p => exact ⟨_, rfl, s.drives_command _ _ _ _ fun s => s.drives_setParam p⟩
  | setWake p => exact ⟨_, rfl, s.drives_command _ _ _ _ fun s => s.drives_setWakeLine p⟩
  | clearWake p => exact ⟨_, rfl, s.drives_command _ _ _ _ fun _ => State.drives_of_blocks rfl rfl rfl rfl⟩
  | report p => exact ⟨_, rfl, s.drives_command _ _ _ _ fun s => s.drives_setReport p⟩
  | reportAll p => exact ⟨_, rfl, s.drives_command _ _ _ _ fun _ => State.drives_of_blocks rfl rfl rfl rfl⟩
  | alertDisable p => exact ⟨_, rfl, s.drives_command _ _ _ _ fun s => s.drives_setAlertDisable p⟩
  | readFault p => exact ⟨_, rfl, s.drives_command _ _ _ _ fun s => s.drives_putReply _ _ _⟩
  | clearFault p => exact ⟨_, rfl, s.drives_command _ _ _ _ fun _ => State.drives_of_blocks rfl rfl rfl rfl⟩
  | status p => exact ⟨_, rfl, s.drives_command _ _ _ _ fun s => s.drives_putReply _ _ _⟩
  | readGranule p => exact ⟨_, rfl, s.drives_command _ _ _ _ fun s => s.drives_putReply _ _ _⟩
  | snapshot p => exact ⟨_, rfl, s.drives_command _ _ _ _ fun _ => State.drives_of_blocks rfl rfl rfl rfl⟩
  | readSnapshot p => exact ⟨_, rfl, s.drives_command _ _ _ _ fun s => s.drives_readSnapshot p⟩
  | injectCheckError p => exact ⟨_, rfl, s.drives_command _ _ _ _ fun _ => State.drives_of_blocks rfl rfl rfl rfl⟩
  | resetPart p => exact ⟨_, rfl, s.drives_resetPartCommand p⟩
  | unknownCommandFrame code p => exact ⟨_, rfl, s.drives_putReply _ _ _⟩
  | readReply => exact ⟨_, rfl, State.drives_of_blocks rfl rfl rfl rfl⟩
  | upstreamRequest packet => exact ⟨_, rfl, s.drives_upstreamRequest packet⟩
  | linkReset => exact ⟨_, rfl, s.drives_settle _⟩
  | upstreamAccessDone tag => exact ⟨_, rfl, s.drives_upstreamAccessDone tag⟩
  | engineAccessDone => exact ⟨_, rfl, s.drives_engineAccessDone⟩
  | railFall r => exact ⟨_, rfl, s.drives_railFall r⟩
  | railRise r => exact ⟨_, rfl, s.drives_railRise r⟩
  | wkAssert line => exact ⟨_, rfl, s.drives_wkAssert line⟩
  | wkDeassert line => exact ⟨_, rfl, s.drives_wkDeassert line⟩
  | holdTimerExpiry line => exact ⟨_, rfl, s.drives_holdTimerExpiry line⟩
  | paceTimerExpiry => exact ⟨_, rfl, s.drives_paceTimerExpiry⟩
  | fillTimerExpiry => exact ⟨_, rfl, s.drives_fillTimerExpiry⟩
  | storeTimerExpiry => exact ⟨_, rfl, s.drives_storeTimerExpiry⟩
  | sleepTimerExpiry => exact ⟨_, rfl, s.drives_sleepTimerExpiry⟩
  | storeResponse f => exact ⟨_, rfl, s.drives_storeResponse f⟩
  | fillEnd g => exact ⟨_, rfl, s.drives_lastLine _⟩
  | zeroFillEnd => exact ⟨_, rfl, s.drives_lastLine _⟩
  | dramBringupEnd n => exact ⟨_, rfl, s.drives_dramBringupEnd n⟩
  | selfRefreshEntryEnd => exact ⟨_, rfl, s.drives_selfRefreshEntryEnd⟩
  | selfRefreshExitEnd decay => exact ⟨_, rfl, s.drives_selfRefreshExitEnd decay⟩
  | patternWriteEnd => exact ⟨_, rfl, s.drives_lastLine _⟩
  | compareEnd => exact ⟨_, rfl, s.drives_lastLine _⟩
  | regionFetchEnd => exact ⟨_, rfl, s.drives_regionFetchEnd⟩
  | startTableFetchEnd => exact ⟨_, rfl, s.drives_startTableFetchEnd⟩
  | standbyPowerOn => exact ⟨_, rfl, s.drives_standbyPowerOn⟩

theorem step_linesDriven {s t : State} (hs : s.linesDriven) (h : step s = .next t) : t.linesDriven := by
  obtain ⟨_, rfl⟩ | ⟨c, rest, _, he⟩ := step_cases h
  · exact s.drives_idle hs
  · obtain ⟨t', ht', hd⟩ := exec_drives c (s.setPending rest)
    rw [he] at ht'
    obtain rfl := Host.Outcome.next.inj ht'
    exact hd hs

/-! ## What the tables of R134 and R49 say -/

theorem stableIn_iff (st : TState) :
    stableIn st = true ↔
      st = .unconfigured ∨ st = .active ∨ st = .restoring ∨ st = .sleeping ∨ st = .imagedOff := by
  cases st <;> decide

theorem dramHoldIn_iff (st : TState) : dramHoldIn st = true ↔ st ≠ .unconfigured ∧ st ≠ .imagedOff := by
  cases st <;> decide

theorem State.draining_eq_false_iff (s : State) :
    s.draining = false ↔ ∀ r, s.tc.start = some r → r.phase ≠ .draining := by
  unfold State.draining
  split <;> simp_all

theorem State.linkReadyNow_iff (s : State) :
    s.linkReadyNow = true ↔
      (s.tc.state = .unconfigured ∧ s.lines.mainOk = true ∧ s.lines.memOk = true ∧ s.dram.cond = .up ∧
        ∀ r, s.tc.start = some r → r.phase ≠ .draining) ∨
      ((s.tc.state = .active ∨ s.tc.state = .restoring ∨ s.tc.state = .saving ∨ s.tc.state = .committing) ∧
        s.tc.railLoss = false) ∨
      (s.tc.state = .parking ∧ s.tc.railLoss = false ∧ (s.tc.parkPhase = .drain ∨ s.tc.parkPhase = .pattern)) := by
  rw [← s.draining_eq_false_iff]
  cases h : s.tc.state <;> simp [linkReadyNow, h, railsOk, and_assoc]

/-- Settles O10: every command drives the lines or leaves what they follow, and the tables say when each is asserted. -/
theorem stepKeepsLinesDriven : Obligations.StepKeepsLinesDriven := by
  intro s t hs h
  have ht := step_linesDriven hs h
  obtain ⟨hstable, hhold, hready⟩ := ht
  refine ⟨⟨hstable, hhold, hready⟩, ?_, ?_, ?_⟩
  · rw [hstable, stableIn_iff]
  · rw [hhold, dramHoldIn_iff]
  · rw [hready, State.linkReadyNow_iff]

end Sys2Proof.Machine
end

