-- ==== Sys2Proof/Proofs/Formats.lean ====
section
/-! The layouts of Section 12 read back as they were written: numbers, descriptors, headers (R74), index blocks (R75,
R194) and command frames (R192). -/

namespace Sys2Proof.Machine

/-! ## Numbers in bytes -/

@[simp] theorem length_leBytes (k n : Nat) : (leBytes k n).length = k := by simp [leBytes]

theorem leBytes_succ (k n : Nat) : leBytes (k + 1) n = BitVec.ofNat 8 n :: leBytes k (n / 256) := by
  simp only [leBytes, List.range_succ_eq_map, List.map_cons, List.map_map]
  congr 1
  · simp
  · apply List.map_congr_left
    intro i _
    simp [Nat.div_div_eq_div_mul, Nat.pow_succ, Nat.mul_comm]

/-- A number is read back from its bytes, as far as they reach. -/
theorem leNat_leBytes (k : Nat) : ∀ n : Nat, leNat (leBytes k n) = n % 256 ^ k := by
  induction k with
  | zero => intro n; simp [leBytes, leNat, Nat.mod_one]
  | succ k ih =>
    intro n
    have hpow : 256 ^ (k + 1) = 256 * 256 ^ k := pow_succ' 256 k
    rw [leBytes_succ, leNat, ih, BitVec.toNat_ofNat, hpow, Nat.mod_mul]

theorem leNat_append (as bs : List Byte) : leNat (as ++ bs) = leNat as + 256 ^ as.length * leNat bs := by
  induction as with
  | nil => simp [leNat]
  | cons a as ih =>
    rw [List.cons_append, leNat, leNat, ih, List.length_cons, Nat.pow_succ]
    ring

theorem leNat_replicate_zero (n : Nat) : leNat (List.replicate n 0) = 0 := by
  induction n with
  | zero => rfl
  | succ n ih =>
    rw [List.replicate_succ, leNat, ih]
    rfl

/-! ## Numbers at an offset -/

theorem byteAt_append (as bs : List Byte) (off : Nat) :
    byteAt (as ++ bs) off = if off < as.length then byteAt as off else byteAt bs (off - as.length) := by
  simp only [byteAt, List.getD_eq_getElem?_getD, List.getElem?_append]
  split <;> rfl

theorem numberAt_append_right (as bs : List Byte) {off k : Nat} (h : as.length ≤ off) :
    numberAt (as ++ bs) off k = numberAt bs (off - as.length) k := by
  unfold numberAt
  congr 1
  apply List.map_congr_left
  intro i _
  rw [byteAt_append, if_neg (by omega)]
  congr 1
  omega

theorem numberAt_append_left (as bs : List Byte) {off k : Nat} (h : off + k ≤ as.length) :
    numberAt (as ++ bs) off k = numberAt as off k := by
  unfold numberAt
  congr 1
  apply List.map_congr_left
  intro i hi
  rw [byteAt_append, if_pos (by have := List.mem_range.mp hi; omega)]

/-- The number in a whole list of bytes. -/
theorem numberAt_whole (bs : List Byte) : numberAt bs 0 bs.length = leNat bs := by
  unfold numberAt
  congr 1
  apply List.ext_getElem
  · simp
  · intro i h1 h2
    simp [byteAt, List.getD_eq_getElem?_getD, List.getElem?_eq_getElem h2]

/-- The number in the first bytes of a list. -/
theorem numberAt_front {as : List Byte} (bs : List Byte) {k : Nat} (h : as.length = k) :
    numberAt (as ++ bs) 0 k = leNat as := by
  subst h
  rw [numberAt_append_left _ _ (by omega), numberAt_whole]

theorem numberAt_nil (off k : Nat) : numberAt [] off k = 0 := by
  have h : (List.range k).map (fun i => byteAt [] (off + i)) = List.replicate k 0 := by
    rw [List.eq_replicate_iff]
    simp [byteAt]
  rw [numberAt, h, leNat_replicate_zero]

theorem numberAt_replicate_zero (n off k : Nat) : numberAt (List.replicate n 0) off k = 0 := by
  have h : (List.range k).map (fun i => byteAt (List.replicate n 0) (off + i)) = List.replicate k 0 := by
    rw [List.eq_replicate_iff]
    simp only [List.length_map, List.length_range, List.mem_map, true_and]
    rintro b ⟨i, _, rfl⟩
    simp only [byteAt, List.getD_eq_getElem?_getD, List.getElem?_replicate]
    split <;> rfl
  rw [numberAt, h, leNat_replicate_zero]

/-! ## Lists of pieces of one length -/

/-- In a list of pieces of one length, the piece of a number stands at that number's offset. -/
theorem take_drop_flatMap {α : Type} {f : α → List Byte} {k : Nat} (hf : ∀ a, (f a).length = k) (rest : List Byte) :
    ∀ (l : List α) (n : Nat) (h : n < l.length), ((l.flatMap f ++ rest).drop (k * n)).take k = f l[n]
  | [], n, h => by simp at h
  | a :: l, 0, h => by
    simp [List.flatMap_cons, List.append_assoc, ← hf a]
  | a :: l, n + 1, h => by
    have hk : k * (n + 1) = (f a).length + k * n := by rw [hf, Nat.mul_succ, Nat.add_comm]
    rw [List.flatMap_cons, List.append_assoc, hk, List.drop_append, List.drop_eq_nil_of_le (by omega),
      List.nil_append, Nat.add_sub_cancel_left, take_drop_flatMap hf rest l n (by simpa using h)]
    rfl

theorem length_flatMap_of_length {α : Type} {f : α → List Byte} {k : Nat} (hf : ∀ a, (f a).length = k) (l : List α) :
    (l.flatMap f).length = k * l.length := by
  induction l with
  | nil => simp
  | cons a l ih => rw [List.flatMap_cons, List.length_append, ih, hf, List.length_cons, Nat.mul_succ, Nat.add_comm]

/-! ## Descriptors -/

theorem Descriptor.length_encode (d : Descriptor) : d.encode.length = 16 := by simp [encode]

theorem bit_of_lsb (b : Bool) : (BitVec.ofNat 8 (bit b)).getLsbD 0 = b := by cases b <;> decide

theorem Descriptor.decode_encode {d : Descriptor} (hb : d.base < 65536) (he : d.extent < 65536) :
    Descriptor.decode d.encode = d := by
  have hbase : numberAt d.encode 4 2 = d.base := by
    rw [encode, numberAt_append_left _ _ (by simp), numberAt_append_left _ _ (by simp),
      numberAt_append_right _ _ (by simp)]
    simp only [List.length_append, length_leBytes, List.length_cons, List.length_nil]
    rw [← List.append_nil (leBytes 2 d.base), numberAt_front _ (by simp), leNat_leBytes]
    omega
  have hextent : numberAt d.encode 6 2 = d.extent := by
    rw [encode, numberAt_append_left _ _ (by simp), numberAt_append_right _ _ (by simp)]
    simp only [List.length_append, length_leBytes, List.length_cons, List.length_nil]
    rw [← List.append_nil (leBytes 2 d.extent), numberAt_front _ (by simp), leNat_leBytes]
    omega
  have h0 : byteAt d.encode 0 = BitVec.ofNat 8 (bit d.written) := by simp [encode, leBytes_succ, byteAt]
  have h1 : byteAt d.encode 1 = BitVec.ofNat 8 (bit d.valid) := by simp [encode, leBytes, byteAt]
  have h2 : byteAt d.encode 2 = d.cls := by simp [encode, leBytes, byteAt]
  have h3 : byteAt d.encode 3 = d.unit := by simp [encode, leBytes, byteAt]
  rw [Descriptor.decode, hbase, hextent, h0, h1, h2, h3, bit_of_lsb, bit_of_lsb]

theorem length_encodeDescriptors (ds : Vector Descriptor 32) : (encodeDescriptors ds).length = 512 := by
  rw [encodeDescriptors, length_flatMap_of_length Descriptor.length_encode]
  simp

theorem decodeDescriptors_encode {ds : Vector Descriptor 32}
    (h : ∀ n : Fin 32, ds[n].base < 65536 ∧ ds[n].extent < 65536) :
    decodeDescriptors (encodeDescriptors ds) = ds := by
  apply Vector.ext
  intro i hi
  have piece := take_drop_flatMap Descriptor.length_encode [] ds.toList i (by simpa using hi)
  rw [List.append_nil] at piece
  rw [decodeDescriptors, Vector.getElem_ofFn, encodeDescriptors, piece]
  have hd := h ⟨i, hi⟩
  simpa using Descriptor.decode_encode hd.1 hd.2

/-! ## Headers (R74) -/

theorem length_padTo (n : Nat) (bs : List Byte) : (padTo n bs).length = n := by
  simp only [padTo, List.length_append, List.length_take, List.length_replicate]
  omega

theorem padTo_of_length {n : Nat} {bs : List Byte} (h : bs.length = n) : padTo n bs = bs := by simp [padTo, ← h]

/-- The fields of a header before its descriptors, and those after them. -/
def Header.front (h : Header) : List Byte :=
  leBytes 4 Config.formatMark ++ leBytes 4 h.epoch.toNat ++ leBytes 1 (bit h.mark) ++ leBytes 1 h.units ++
    leBytes 2 0 ++ leBytes 4 h.slots ++ leBytes 4 h.indexCode.toNat ++ leBytes 4 h.file.owed.toNat ++
    leBytes 8 (h.file.tableAddr.getD 0)

def Header.list (h : Header) : List Byte := padTo 1024 (h.retired.flatMap (leBytes 4))

theorem Header.body_eq (h : Header) :
    h.body = h.front ++ (encodeDescriptors h.file.descs ++ (leBytes 2 h.retiredLength ++ (leBytes 2 0 ++ h.list))) := by
  simp [body, front, list, List.append_assoc]

@[simp] theorem Header.length_front (h : Header) : h.front.length = 32 := by simp [front]

theorem Header.length_body (h : Header) : h.body.length = 1572 := by
  simp [body_eq, length_encodeDescriptors, list, length_padTo]

section
variable (h : Header) (rest : List Byte)

theorem Header.numberAt_front_fields :
    numberAt h.front 0 4 = Config.formatMark ∧ numberAt h.front 4 4 = h.epoch.toNat ∧
      byteAt h.front 8 = BitVec.ofNat 8 (bit h.mark) ∧ numberAt h.front 9 1 = h.units % 256 ∧
      numberAt h.front 12 4 = h.slots % 2 ^ 32 ∧ numberAt h.front 16 4 = h.indexCode.toNat ∧
      numberAt h.front 20 4 = h.file.owed.toNat ∧ numberAt h.front 24 8 = h.file.tableAddr.getD 0 % 2 ^ 64 := by
  have pieces : h.front = leBytes 4 Config.formatMark ++ (leBytes 4 h.epoch.toNat ++ (leBytes 1 (bit h.mark) ++
      (leBytes 1 h.units ++ (leBytes 2 0 ++ (leBytes 4 h.slots ++ (leBytes 4 h.indexCode.toNat ++
        (leBytes 4 h.file.owed.toNat ++ (leBytes 8 (h.file.tableAddr.getD 0) ++ [])))))))) := by
    simp [front, List.append_assoc]
  have hepoch := h.epoch.isLt
  have hcode := h.indexCode.isLt
  have howed := h.file.owed.isLt
  rw [pieces]
  refine ⟨?_, ?_, ?_, ?_, ?_, ?_, ?_, ?_⟩
  · rw [numberAt_front _ (length_leBytes _ _), leNat_leBytes]; rfl
  · rw [numberAt_append_right _ _ (by simp)]
    simp only [length_leBytes, Nat.sub_self]
    rw [numberAt_front _ (length_leBytes _ _), leNat_leBytes]; omega
  · simp [leBytes, byteAt, List.range_succ]
  · rw [numberAt_append_right _ _ (by simp), numberAt_append_right _ _ (by simp), numberAt_append_right _ _ (by simp)]
    simp only [length_leBytes, Nat.reduceSub]
    rw [numberAt_front _ (length_leBytes _ _), leNat_leBytes]; rfl
  all_goals
    iterate 5 rw [numberAt_append_right _ _ (by simp)]
    simp only [length_leBytes, Nat.reduceSub]
  · rw [numberAt_front _ (length_leBytes _ _), leNat_leBytes]; rfl
  · rw [numberAt_append_right _ _ (by simp)]
    simp only [length_leBytes, Nat.reduceSub]
    rw [numberAt_front _ (length_leBytes _ _), leNat_leBytes]; omega
  · iterate 2 rw [numberAt_append_right _ _ (by simp)]
    simp only [length_leBytes, Nat.reduceSub]
    rw [numberAt_front _ (length_leBytes _ _), leNat_leBytes]; omega
  · iterate 3 rw [numberAt_append_right _ _ (by simp)]
    simp only [length_leBytes, Nat.reduceSub]
    rw [numberAt_front _ (length_leBytes _ _), leNat_leBytes]; rfl

theorem Header.numberAt_body {off k : Nat} (hk : off + k ≤ 32) :
    numberAt (h.body ++ rest) off k = numberAt h.front off k := by
  rw [numberAt_append_left _ _ (by rw [length_body]; omega), body_eq, numberAt_append_left _ _ (by simpa using hk)]

theorem Header.byteAt_body {off : Nat} (hk : off < 32) : byteAt (h.body ++ rest) off = byteAt h.front off := by
  rw [byteAt_append, if_pos (by rw [length_body]; omega), body_eq, byteAt_append, if_pos (by simpa using hk)]

theorem Header.descs_body : ((h.body ++ rest).drop 32).take 512 = encodeDescriptors h.file.descs := by
  have hf := h.length_front
  have hd := length_encodeDescriptors h.file.descs
  rw [body_eq, List.append_assoc, List.append_assoc, List.drop_left' hf, List.take_left' hd]

theorem Header.numberAt_tail {off k : Nat} (hk : 544 ≤ off) :
    numberAt (h.body ++ rest) off k =
      numberAt (leBytes 2 h.retiredLength ++ (leBytes 2 0 ++ (h.list ++ rest))) (off - 544) k := by
  have hf := h.length_front
  have hd := length_encodeDescriptors h.file.descs
  have hoff : off - h.front.length - (encodeDescriptors h.file.descs).length = off - 544 := by omega
  rw [body_eq]
  simp only [List.append_assoc]
  rw [numberAt_append_right _ _ (by omega), numberAt_append_right _ _ (by omega), hoff]

theorem Header.retiredLength_body : numberAt (h.body ++ rest) 544 2 = h.retiredLength % 65536 := by
  rw [numberAt_tail _ _ (by omega), Nat.sub_self, numberAt_front _ (length_leBytes _ _), leNat_leBytes]
  rfl

/-- The slot of a number in the retired list. -/
theorem Header.retired_body {i : Nat} (hi : i < h.retired.length) (hl : h.retired.length ≤ 256) :
    numberAt (h.body ++ rest) (548 + 4 * i) 4 = h.retired[i] % 2 ^ 32 := by
  have hlen := length_flatMap_of_length (length_leBytes 4) h.retired
  have hlist : h.list = h.retired.flatMap (leBytes 4) ++ List.replicate (1024 - 4 * h.retired.length) 0 := by
    rw [list, padTo, hlen, List.take_of_length_le (by omega)]
  have piece := take_drop_flatMap (length_leBytes 4) (List.replicate (1024 - 4 * h.retired.length) 0 ++ rest)
    h.retired i hi
  have split : h.list ++ rest =
      (h.list ++ rest).take (4 * i) ++ (leBytes 4 h.retired[i] ++ ((h.list ++ rest).drop (4 * i)).drop 4) := by
    rw [← piece, ← List.append_assoc (h.retired.flatMap _), ← hlist, List.take_append_drop, List.take_append_drop]
  have hfront : ((h.list ++ rest).take (4 * i)).length = 4 * i := by
    rw [List.length_take, hlist]
    simp only [List.length_append, hlen, List.length_replicate]
    omega
  rw [numberAt_tail _ _ (by omega), numberAt_append_right _ _ (by simp; omega),
    numberAt_append_right _ _ (by simp; omega), split, numberAt_append_right _ _ (by rw [hfront]; simp; omega), hfront]
  have hoff : 548 + 4 * i - 544 - (leBytes 2 h.retiredLength).length - (leBytes 2 0).length - 4 * i = 0 := by
    simp; omega
  rw [hoff, numberAt_front _ (length_leBytes _ _), leNat_leBytes]
  rfl

end

theorem padTo_headerBytes_block (h : Header) : padTo Config.headerBytes h.block.bytes = h.block.bytes := by
  apply padTo_of_length
  simp [Header.block, Header.length_body]
  rfl

theorem Header.code_block (h : Header) : numberAt h.block.bytes 1572 4 = (headerCode h.body).toNat := by
  have hlen := h.length_body
  have hcode := (headerCode h.body).isLt
  rw [block, numberAt_append_right _ _ (by omega), hlen, ← List.append_nil (leBytes 4 _),
    numberAt_front _ (length_leBytes _ _), leNat_leBytes]
  omega

/-- Decode of encode (R74). -/
theorem Header.decode_block {h : Header} {addr : Nat} (ha : h.file.tableAddr = some addr) (haddr : addr < 2 ^ 64)
    (hu : h.units < 256) (hs : h.slots < 2 ^ 32) (hl : h.retiredLength = h.retired.length)
    (hlen : h.retired.length ≤ 256) (hr : ∀ n ∈ h.retired, n < 2 ^ 32)
    (hd : ∀ n : Fin 32, h.file.descs[n].base < 65536 ∧ h.file.descs[n].extent < 65536) :
    Header.decode h.block.bytes = some h := by
  obtain ⟨fmark, fepoch, fbyte, funits, fslots, fcode, fowed, faddr⟩ := h.numberAt_front_fields
  have hblock : h.block.bytes = h.body ++ leBytes 4 (headerCode h.body).toNat := rfl
  have hbody : h.block.bytes.take 1572 = h.body := by rw [hblock, List.take_left' h.length_body]
  have hmark : decide (BitVec.ofNat 8 (bit h.mark) = 1) = h.mark := by cases h.mark <;> decide
  have hn : numberAt h.block.bytes 544 2 = h.retired.length := by
    rw [hblock, retiredLength_body, hl]; omega
  have hretired : (List.range (min h.retired.length Config.retiredSize)).map
      (fun i => numberAt h.block.bytes (548 + 4 * i) 4) = h.retired := by
    have hmin : min h.retired.length Config.retiredSize = h.retired.length := Nat.min_eq_left hlen
    rw [hmin]
    apply List.ext_getElem
    · simp
    · intro i h1 h2
      rw [List.getElem_map, List.getElem_range, hblock, retired_body _ _ h2 hlen,
        Nat.mod_eq_of_lt (hr _ (List.getElem_mem h2))]
  unfold Header.decode
  simp only [padTo_headerBytes_block, hbody]
  rw [if_pos ⟨by rw [hblock, numberAt_body _ _ (by omega), fmark], h.code_block⟩, hn, hretired, hblock,
    numberAt_body _ _ (by omega), numberAt_body _ _ (by omega), numberAt_body _ _ (by omega),
    numberAt_body _ _ (by omega), numberAt_body _ _ (by omega), numberAt_body _ _ (by omega),
    byteAt_body _ _ (by omega), descs_body, decodeDescriptors_encode hd, fepoch, fbyte, funits, fslots, fcode, fowed,
    faddr, ha, hmark]
  obtain ⟨epoch, mark, units, slots, code, file, len, retired⟩ := h
  obtain ⟨descs, tableAddr, owed⟩ := file
  simp_all [Nat.mod_eq_of_lt]

/-! ## Index blocks (R75, R194) -/

theorem IndexEntry.length_bytes (e : IndexEntry) : e.bytes.length = 4 := by cases e <;> simp [bytes]

/-- The number that the four bytes of an entry carry. -/
def IndexEntry.number : IndexEntry → Nat
  | .none => 0
  | .slot n => 2 ^ 24 + n % 2 ^ 24
  | .lost => 2 * 2 ^ 24

theorem IndexEntry.leNat_bytes (e : IndexEntry) : leNat e.bytes = e.number := by
  cases e with
  | none => simp [bytes, number, leNat_leBytes]
  | slot n =>
    rw [bytes, number, leNat_append, leNat_leBytes, length_leBytes]
    show n % 16777216 + 16777216 * 1 = 16777216 + n % 16777216
    omega
  | lost =>
    rw [bytes, number, leNat_append, leNat_leBytes, length_leBytes]
    rfl

/-- An entry is read back, its slot as far as 24 bits reach. -/
theorem IndexEntry.decode_bytes {e : IndexEntry} (h : ∀ n, e = .slot n → n < 2 ^ 24) :
    IndexEntry.decode e.bytes = some e := by
  cases e with
  | none => decide
  | slot n =>
    have hkind : numberAt (IndexEntry.slot n).bytes 3 1 = 1 := by
      rw [bytes, numberAt_append_right _ _ (by simp), length_leBytes]
      rfl
    have hslot : numberAt (IndexEntry.slot n).bytes 0 3 = n := by
      have hn := h n rfl
      rw [bytes, numberAt_front _ (length_leBytes _ _), leNat_leBytes]
      omega
    simp [decode, hkind, hslot]
  | lost => decide

/-- A kind other than 0, 1 and 2 is no entry (R194). -/
theorem IndexEntry.decode_unknown {a b c kind : Byte} (h : 2 < kind.toNat) :
    IndexEntry.decode [a, b, c, kind] = Option.none := by
  have hkind : numberAt [a, b, c, kind] 3 1 = kind.toNat := by simp [numberAt, byteAt, leNat, List.range_succ]
  rw [decode, hkind, if_neg (by omega), if_neg (by omega), if_neg (by omega)]

theorem chunks4_cons {piece : List Byte} (h : piece.length = 4) (rest : List Byte) :
    chunks4 (piece ++ rest) = piece :: chunks4 rest := by
  obtain ⟨a, b, c, d, rfl⟩ := List.length_eq_four.mp h
  rfl

theorem chunks4_entries (entries : List IndexEntry) (rest : List Byte) :
    chunks4 (entries.flatMap IndexEntry.bytes ++ rest) = entries.map IndexEntry.bytes ++ chunks4 rest := by
  induction entries with
  | nil => rfl
  | cons e entries ih =>
    rw [List.flatMap_cons, List.append_assoc, chunks4_cons e.length_bytes, ih]
    rfl

theorem mapM_decode_bytes {entries : List IndexEntry} (h : ∀ n, .slot n ∈ entries → n < 2 ^ 24) :
    (entries.map IndexEntry.bytes).mapM IndexEntry.decode = some entries := by
  induction entries with
  | nil => rfl
  | cons e entries ih =>
    have he := IndexEntry.decode_bytes (e := e) fun n hn => h n (by simp [hn])
    have hrest := ih fun n hn => h n (List.mem_cons_of_mem _ hn)
    simp [List.mapM_cons, he, hrest]

theorem decodeIndex_entries {entries : List IndexEntry} (h : ∀ n, .slot n ∈ entries → n < 2 ^ 24)
    (hlen : entries.length ≤ 65536) :
    decodeIndex { bytes := entries.flatMap IndexEntry.bytes, length := 262144 } = some entries := by
  have hbytes := length_flatMap_of_length IndexEntry.length_bytes entries
  have htake : (entries.flatMap IndexEntry.bytes).take Config.granuleBytes = entries.flatMap IndexEntry.bytes :=
    List.take_of_length_le (by rw [hbytes, Config.granuleBytes]; omega)
  have hchunks := chunks4_entries entries []
  rw [List.append_nil, show chunks4 [] = [] from rfl, List.append_nil] at hchunks
  rw [decodeIndex, htake, hchunks, mapM_decode_bytes h]

theorem decodeIndex_unknown {entries : List IndexEntry} (h : ∀ n, .slot n ∈ entries → n < 2 ^ 24)
    (hlen : entries.length < 65536) {a b c kind : Byte} (hk : 2 < kind.toNat) (rest : List Byte) :
    decodeIndex { bytes := entries.flatMap IndexEntry.bytes ++ [a, b, c, kind] ++ rest, length := 262144 } = none := by
  have hbytes := length_flatMap_of_length IndexEntry.length_bytes entries
  have htake : (entries.flatMap IndexEntry.bytes ++ [a, b, c, kind] ++ rest).take Config.granuleBytes =
      entries.flatMap IndexEntry.bytes ++ ([a, b, c, kind] ++ rest.take (262140 - 4 * entries.length)) := by
    rw [List.take_append, List.take_of_length_le (by simp [hbytes, Config.granuleBytes]; omega), List.append_assoc]
    congr 3
    simp [hbytes, Config.granuleBytes]
  rw [decodeIndex, htake, chunks4_entries, chunks4_cons rfl, List.mapM_append, mapM_decode_bytes h]
  simp [List.mapM_cons, IndexEntry.decode_unknown hk]

/-! ## Command frames (R192) -/

theorem frameParams_of_frame (code : Byte) {p : List Byte} (h : p.length ≤ 16) :
    frameParams (code :: BitVec.ofNat 8 p.length :: p) = p := by
  have hlen : (byteAt (code :: BitVec.ofNat 8 p.length :: p) 1).toNat = p.length := by
    simp [byteAt]; omega
  rw [frameParams, hlen]
  apply List.ext_getElem
  · simp
  · intro i h1 h2
    simp [byteAt, Nat.add_comm 2 i, List.getD_eq_getElem?_getD, List.getElem?_eq_getElem h2]

theorem commandOfFrame_of_form {c : Instr} {code length : Nat} {p : List Byte}
    (hc : c.sidebandForm = some (code, length, p)) (hp : p.length ≤ 16) :
    commandOfFrame (BitVec.ofNat 8 code :: BitVec.ofNat 8 p.length :: p) = c := by
  have hparams := frameParams_of_frame (BitVec.ofNat 8 code) hp
  cases c <;> cases hc <;> rw [commandOfFrame, hparams] <;> rfl

/-- A code outside 1 to 25 names no command (R184). -/
theorem commandOfFrame_of_unknown {code : Byte} {p : List Byte} (h : code = 0 ∨ 25 < code.toNat)
    (hp : p.length ≤ 16) :
    commandOfFrame (code :: BitVec.ofNat 8 p.length :: p) = .unknownCommandFrame code p := by
  have hcode : (byteAt (code :: BitVec.ofNat 8 p.length :: p) 0).toNat = 0 ∨
      25 < (byteAt (code :: BitVec.ofNat 8 p.length :: p) 0).toNat := by
    rcases h with rfl | h
    · exact .inl rfl
    · exact .inr h
  rw [commandOfFrame, frameParams_of_frame code hp]
  split
  case h_26 => rfl
  all_goals omega

/-- Settles O26: each layout is read back piece by piece. -/
theorem headerDecodesAsWritten : Obligations.HeaderDecodesAsWritten := by
  refine ⟨fun h addr ha haddr hu hs hl hlen hr hd => ?header, fun c code length p => ?command, fun code p => ?unknown,
    fun entries hslots hlen => ⟨?index, fun a b c kind rest hk hshort => ?badKind⟩⟩
  case header => exact Header.decode_block ha haddr hu hs hl hlen hr hd
  case command => exact commandOfFrame_of_form
  case unknown => exact commandOfFrame_of_unknown
  case index => exact decodeIndex_entries hslots hlen
  case badKind => exact decodeIndex_unknown hslots hshort hk rest

end Sys2Proof.Machine
end

