-- ==== Sys2Proof/Proofs/ClaimTables.lean ====
section
/-! What each claim on the Granule Tracker makes of the records, of the free slot queue and of the mark (R9 to R25): the
claims on one granule and on every granule once, and from them the table of each claim. -/

namespace Sys2Proof.Machine

namespace State

/-! ## The notice and the queue (R6, R82) -/

theorem only_noticeDirty (s : State) : s.noticeDirty = s.setEngine s.noticeDirty.engine := by
  unfold noticeDirty
  split <;> rfl

theorem only_appendSlots (s : State) (slots : List Nat) :
    s.appendSlots slots = s.setEngine (s.appendSlots slots).engine := by
  unfold appendSlots
  split <;> rfl

/-- The notice leaves the mark CLEARING where it was SET, and otherwise as it was (R6). -/
theorem noticedDirty_noticeDirty (s : State) : s.noticedDirty s.noticeDirty := by
  unfold noticedDirty noticeDirty
  split <;> simp

theorem mark_appendSlots (s : State) (slots : List Nat) :
    (s.appendSlots slots).engine.mark = s.engine.mark ∧
      (s.appendSlots slots).engine.markClearQueued = s.engine.markClearQueued := by
  rw [engine_appendSlots]
  exact ⟨rfl, rfl⟩

/-- What the notice is of depends on the mark and its queue alone. -/
theorem noticedDirty_of_mark {s t u : State} (hm : t.engine.mark = s.engine.mark)
    (hq : t.engine.markClearQueued = s.engine.markClearQueued) (h : t.noticedDirty u) : s.noticedDirty u := by
  unfold noticedDirty at h ⊢
  rwa [hm, hq] at h

/-! ## A claim on one granule -/

/-- A claim changes the record of its granule, and the Image Engine as `engine_claim` says. -/
theorem only_claim (s : State) (g : Nat) (f : GRec → GRec) (frees : GRec → List Nat) :
    s.claim g f frees = (s.setTracker (s.tracker.putRec g (f (s.recOf g)))).setEngine (s.claim g f frees).engine := by
  unfold claim
  dsimp only
  split
  · rw [only_noticeDirty, only_appendSlots]; rfl
  · rw [only_appendSlots]; rfl

theorem tracker_claim (s : State) (g : Nat) (f : GRec → GRec) (frees : GRec → List Nat) :
    (s.claim g f frees).tracker = s.tracker.putRec g (f (s.recOf g)) := by
  rw [only_claim]; rfl

theorem recOf_claim (s : State) (g : Nat) (f : GRec → GRec) (frees : GRec → List Nat) (h : Nat) :
    (s.claim g f frees).recOf h = if h = g then f (s.recOf g) else s.recOf h := by
  rw [recOf, tracker_claim, Tracker.recAt_putRec]; rfl

theorem claim_noticed {s : State} {g : Nat} {f : GRec → GRec} (frees : GRec → List Nat)
    (h : (s.recOf g).entersDirty (f (s.recOf g)) = true) : s.noticedDirty (s.claim g f frees) := by
  unfold claim
  dsimp only
  rw [if_pos h]
  have hm := mark_appendSlots (s.setTracker (s.tracker.putRec g (f (s.recOf g)))) (frees (s.recOf g))
  exact noticedDirty_of_mark hm.1 hm.2 (noticedDirty_noticeDirty _)

theorem claim_unnoticed {s : State} {g : Nat} {f : GRec → GRec} (frees : GRec → List Nat)
    (h : (s.recOf g).entersDirty (f (s.recOf g)) = false) :
    (s.claim g f frees).engine.mark = s.engine.mark ∧
      (s.claim g f frees).engine.markClearQueued = s.engine.markClearQueued := by
  unfold claim
  dsimp only
  rw [if_neg (by rw [h]; decide)]
  exact mark_appendSlots _ _

/-- A claim that takes no record into DIRTY moves the slots that it releases, and nothing more of the Image Engine. -/
theorem engine_claim_of_unnoticed {s : State} {g : Nat} {f : GRec → GRec} (frees : GRec → List Nat)
    (h : (s.recOf g).entersDirty (f (s.recOf g)) = false) :
    (s.claim g f frees).engine =
      { s.engine with
        freeSlots := s.engine.freeSlots ++ frees (s.recOf g)
        exhaustionNoted := s.engine.exhaustionNoted && decide (frees (s.recOf g) = []) } := by
  rw [engine_claim, (claim_unnoticed frees h).1, (claim_unnoticed frees h).2]

/-! ## A claim on every granule -/

theorem only_claimAll (s : State) (f : Nat → GRec → GRec) (frees : GRec → List Nat) :
    s.claimAll f frees = (s.setTracker (s.tracker.mapRecs f)).setEngine (s.claimAll f frees).engine := by
  unfold claimAll
  dsimp only
  split
  · rw [only_noticeDirty, only_appendSlots]; rfl
  · rw [only_appendSlots]; rfl

theorem tracker_claimAll (s : State) (f : Nat → GRec → GRec) (frees : GRec → List Nat) :
    (s.claimAll f frees).tracker = s.tracker.mapRecs f := by
  rw [only_claimAll]; rfl

theorem recOf_claimAll {s : State} {f : Nat → GRec → GRec} (frees : GRec → List Nat)
    (hwf : GTable.wf s.tracker.table = true) {g : Nat} (hf : f g GRec.blank = GRec.blank) :
    (s.claimAll f frees).recOf g = f g (s.recOf g) := by
  rw [recOf, tracker_claimAll, Tracker.recAt_mapRecs _ _ _ hwf hf]; rfl

theorem claimAll_noticed {s : State} {f : Nat → GRec → GRec} (frees : GRec → List Nat)
    (h : (s.tracker.table.any fun x => x.2.entersDirty (f x.1 x.2)) = true) : s.noticedDirty (s.claimAll f frees) := by
  unfold claimAll
  dsimp only
  rw [if_pos h]
  have hm := mark_appendSlots (s.setTracker (s.tracker.mapRecs f)) (s.tracker.table.flatMap fun x => frees x.2)
  exact noticedDirty_of_mark hm.1 hm.2 (noticedDirty_noticeDirty _)

theorem claimAll_unnoticed {s : State} {f : Nat → GRec → GRec} (frees : GRec → List Nat)
    (h : (s.tracker.table.any fun x => x.2.entersDirty (f x.1 x.2)) = false) :
    (s.claimAll f frees).engine.mark = s.engine.mark ∧
      (s.claimAll f frees).engine.markClearQueued = s.engine.markClearQueued := by
  unfold claimAll
  dsimp only
  rw [if_neg (by rw [h]; decide)]
  exact mark_appendSlots _ _

theorem engine_claimAll_of_unnoticed {s : State} {f : Nat → GRec → GRec} (frees : GRec → List Nat)
    (h : (s.tracker.table.any fun x => x.2.entersDirty (f x.1 x.2)) = false) :
    (s.claimAll f frees).engine =
      { s.engine with
        freeSlots := s.engine.freeSlots ++ s.tracker.table.flatMap fun x => frees x.2
        exhaustionNoted :=
          s.engine.exhaustionNoted && decide ((s.tracker.table.flatMap fun x => frees x.2) = []) } := by
  rw [engine_claimAll, (claimAll_unnoticed frees h).1, (claimAll_unnoticed frees h).2]

theorem freeSlots_claimAll (s : State) (f : Nat → GRec → GRec) (frees : GRec → List Nat) :
    (s.claimAll f frees).engine.freeSlots = s.engine.freeSlots ++ s.tracker.table.flatMap fun x => frees x.2 := by
  rw [engine_claimAll]

/-- The Image Engine after a claim that takes no record into DIRTY, the flag of R94 by the queue that the claim leaves. -/
theorem engine_claimAll_by_queue {s : State} {f : Nat → GRec → GRec} (frees : GRec → List Nat)
    (h : (s.tracker.table.any fun x => x.2.entersDirty (f x.1 x.2)) = false) :
    (s.claimAll f frees).engine =
      { s.engine with
        freeSlots := (s.claimAll f frees).engine.freeSlots
        exhaustionNoted :=
          s.engine.exhaustionNoted && decide ((s.claimAll f frees).engine.freeSlots = s.engine.freeSlots) } := by
  rw [freeSlots_claimAll, engine_claimAll_of_unnoticed frees h]
  simp only [List.append_right_eq_self]

/-- The flag of R94 by the queue that a claim leaves. -/
theorem noted_claimAll (s : State) (f : Nat → GRec → GRec) (frees : GRec → List Nat) :
    (s.claimAll f frees).engine.exhaustionNoted =
      (s.engine.exhaustionNoted && decide ((s.claimAll f frees).engine.freeSlots = s.engine.freeSlots)) := by
  rw [freeSlots_claimAll, engine_claimAll]
  simp only [List.append_right_eq_self]

end State

/-! ## Which claims take a record into DIRTY (R6) -/

namespace GRec

theorem entersDirty_write (r : GRec) :
    r.entersDirty r.write = decide (r.st = .clean ∨ r.st = .saved) := by
  cases h : r.st <;> simp [entersDirty, write, h]

theorem entersDirty_copyStart (slot : Nat) (r : GRec) : r.entersDirty (r.copyStart slot) = false := by
  cases h : r.st <;> simp [entersDirty, copyStart, h]

theorem entersDirty_copyGood (r : GRec) : r.entersDirty r.copyGood = decide (r.st = .recopy) := by
  cases h : r.st <;> simp [entersDirty, copyGood, h]

theorem entersDirty_commit (r : GRec) : r.entersDirty r.commit = false := by
  cases h : r.st <;> simp [entersDirty, commit, h]

theorem entersDirty_abandon (r : GRec) : r.entersDirty r.abandon = decide (r.st = .saved) := by
  cases h : r.st <;> simp [entersDirty, abandon, h]

theorem entersDirty_releasePoison (r : GRec) : r.entersDirty r.releasePoison = decide (r.st = .poison) := by
  cases h : r.st <;> simp [entersDirty, releasePoison, h]

theorem entersDirty_reload (cls : GClass) (r : GRec) :
    r.entersDirty (r.reload cls) = (!r.cls.preserved && cls.preserved && decide (r.st ≠ .dirty)) := by
  cases hr : r.cls.preserved <;> cases hc : cls.preserved <;> simp [entersDirty, reload, hr, hc]

end GRec

/-! ## Writes and copies (R9, R12, R13) -/

/-- Settles O13: the claim on one granule, by the record's state. -/
theorem writeClaimFollowsItsTable : Obligations.WriteClaimFollowsItsTable := by
  intro s g
  have frees : (s.recOf g).writeFrees = if (s.recOf g).st = .saved then (s.recOf g).pending.toList else [] := by
    cases h : (s.recOf g).st <;> simp [GRec.writeFrees, h]
  have eng := s.engine_claim g GRec.write GRec.writeFrees
  refine ⟨?others, ?own, ?slots, ?noted, ?notice, ?dram, ?ru, ?tc⟩
  case others => exact fun h hg => by rw [State.claimWrite, State.recOf_claim, if_neg hg]
  case own =>
    rw [State.claimWrite, State.recOf_claim, if_pos rfl]
    rfl
  case slots => rw [State.claimWrite, eng, ← frees]
  case noted =>
    rw [State.claimWrite, eng, frees]
    by_cases h : (s.recOf g).st = .saved <;> cases hp : (s.recOf g).pending <;> simp [h]
  case notice =>
    have enters := GRec.entersDirty_write (s.recOf g)
    split
    · rename_i h
      exact State.claim_noticed _ (by rw [enters, decide_eq_true h])
    · rename_i h
      exact State.claim_unnoticed _ (by rw [enters, decide_eq_false h])
  case dram | ru | tc => rw [State.claimWrite, State.only_claim]; rfl

/-- Settles O14: the claims of a copy, by the record's state. -/
theorem copyClaimsFollowTheirTables : Obligations.CopyClaimsFollowTheirTables := by
  intro s g slot
  have start : (s.claimCopyStart g slot).engine = { s.engine with freeSlots := s.engine.freeSlots.tail } := by
    rw [State.claimCopyStart, State.claimKeep, State.engine_claim_of_unnoticed _ (GRec.entersDirty_copyStart _ _)]
    simp
  have started : ∀ h, (s.claimCopyStart g slot).recOf h = if h = g then (s.recOf g).copyStart slot else s.recOf h :=
    fun h => State.recOf_claim _ _ _ _ h
  have ended : ∀ h, (s.claimCopyGood g).recOf h = if h = g then (s.recOf g).copyGood else s.recOf h :=
    fun h => State.recOf_claim _ _ _ _ h
  refine ⟨fun hd => ⟨?_, start⟩, fun hc => ⟨?_, ?_⟩, fun hr => ⟨?_, ?_, ?_, ?_⟩, fun h1 h2 => ?_, fun h hg => ?_⟩
  · simp [started, GRec.copyStart, hd]
  · simp [ended, GRec.copyGood, hc]
  · rw [State.claimCopyGood, State.engine_claim_of_unnoticed _ (by simp [GRec.entersDirty_copyGood, hc])]
    simp [GRec.copyGoodFrees, hc]
  · simp [ended, GRec.copyGood, hr]
  · rw [State.claimCopyGood, State.engine_claim]
    simp [GRec.copyGoodFrees, hr]
  · rw [State.claimCopyGood, State.engine_claim]
    cases hp : (s.recOf g).pending <;> simp [GRec.copyGoodFrees, hr, hp]
  · exact State.claim_noticed _ (by simp [GRec.entersDirty_copyGood, hr])
  · rw [ended, if_pos rfl]
    unfold GRec.copyGood
    split
    · contradiction
    · contradiction
    · rfl
  · exact ⟨by rw [started, if_neg hg], by rw [ended, if_neg hg]⟩

/-! ## Commits and abandonments (R16, R17) -/

/-! The entries of a new epoch's index (R16, R75). -/

theorem indexEntry_blank : indexEntry GRec.blank = .none := rfl

/-- In the index of the granules from `k` on, each granule's entry stands in its 4 bytes. -/
theorem numberAt_indexBytesFrom : ∀ (t : GTable) (k g : Nat), (t.Pairwise fun x y => x.1 < y.1) →
    (∀ x ∈ t, k ≤ x.1) → k ≤ g →
      numberAt (indexBytesFrom k t) (4 * (g - k)) 4 = (indexEntry (GTable.get t g)).number
  | [], k, g, _, _, _ => by rw [indexBytesFrom, numberAt_nil]; rfl
  | (j, r) :: t, k, g, hp, hk, hg => by
    obtain ⟨hlater, hp⟩ := List.pairwise_cons.mp hp
    have hj : k ≤ j := hk (j, r) (by simp)
    have hlen := (indexEntry r).length_bytes
    have hget : GTable.get ((j, r) :: t) g = if g = j then r else GTable.get t g := by
      by_cases h : g = j
      · simp [GTable.get, h]
      · simp [GTable.get, h, List.lookup_cons, beq_false_of_ne h]
    rw [indexBytesFrom, List.append_assoc, hget]
    rcases Nat.lt_trichotomy g j with h | h | h
    · have hout : GTable.get t g = GRec.blank := by
        rw [GTable.get, List.lookup_eq_none_iff.mpr, Option.getD_none]
        intro x hx
        have := hlater x hx
        simp only [bne_iff_ne, ne_eq]; omega
      rw [if_neg (by omega), hout, numberAt_append_left _ _ (by simp; omega), numberAt_replicate_zero]
      rfl
    · subst h
      rw [if_pos rfl, numberAt_append_right _ _ (by simp), List.length_replicate, Nat.sub_self, numberAt_front _ hlen,
        IndexEntry.leNat_bytes]
    · have ih := numberAt_indexBytesFrom t (j + 1) g hp (fun x hx => hlater x hx) h
      have hoff : 4 * (g - k) - (List.replicate (4 * (j - k)) (0 : Byte)).length - (indexEntry r).bytes.length =
          4 * (g - (j + 1)) := by
        rw [List.length_replicate, hlen]; omega
      rw [if_neg (by omega), numberAt_append_right _ _ (by simp; omega), numberAt_append_right _ _ (by simp; omega),
        hoff, ih]

theorem numberAt_indexBlock {t : GTable} (h : GTable.wf t = true) (g : Nat) :
    numberAt (indexBlock t).bytes (4 * g) 4 = (indexEntry (GTable.get t g)).number :=
  numberAt_indexBytesFrom t 0 g ((GTable.wf_iff t).mp h).1 (fun _ _ => Nat.zero_le _) (Nat.zero_le g)

/-- The number of a record's index entry, by its state. -/
theorem number_indexEntry (r : GRec) :
    let named := fun (slot : Option Nat) =>
      match slot with
      | some n => 2 ^ 24 + n % 2 ^ 24
      | none => 0
    (indexEntry r).number =
      match r.st with
      | .saved => named r.pending
      | .clean | .absent | .filling => named r.committed
      | .poison => 2 * 2 ^ 24
      | .void | .dirty | .copying | .recopy => 0 := by
  obtain ⟨st, committed, pending, cls⟩ := r
  cases st with
  | saved => cases pending <;> rfl
  | clean | absent | filling => cases committed <;> rfl
  | poison | void | dirty | copying | recopy => rfl

theorem GRec.commit_eq (r : GRec) :
    r.commit =
      match r.st with
      | .saved => { r with st := .clean, committed := r.pending, pending := none }
      | .poison | .void => { r with committed := none }
      | _ => r := by
  cases h : r.st <;> simp [commit, h]

/-- Settles O15: the claims on every granule, and the index of the table entry by entry. -/
theorem commitClaimFollowsItsTable : Obligations.CommitClaimFollowsItsTable := by
  intro s hwf
  have commitQuiet : (s.tracker.table.any fun x => x.2.entersDirty x.2.commit) = false := by
    simp [GRec.entersDirty_commit]
  have abandonEnters : (s.tracker.table.any fun x => x.2.entersDirty x.2.abandon) = true ↔
      ∃ x ∈ s.tracker.table, x.2.st = .saved := by
    simp [GRec.entersDirty_abandon]
  refine ⟨fun g => ?records, s.freeSlots_claimAll _ GRec.commitFrees, ?engine, fun g => ?index, fun g => ?abandoned, ?abandonFreed,
    s.noted_claimAll _ _, fun h => ?notice, fun h => ?quiet⟩
  case records => exact (State.recOf_claimAll _ hwf GRec.commit_blank).trans (GRec.commit_eq _)
  case engine => exact State.engine_claimAll_by_queue _ commitQuiet
  case index =>
    rw [numberAt_indexBlock hwf]
    exact number_indexEntry _
  case abandoned =>
    rw [State.claimAbandon, State.recOf_claimAll _ hwf GRec.abandon_blank]
    cases h : (s.recOf g).st <;> simp [GRec.abandon, h]
  case abandonFreed =>
    have frees : ∀ r : GRec, r.abandonFrees = if r.st = .saved then r.pending.toList else [] := by
      intro r
      cases h : r.st <;> simp [GRec.abandonFrees, h]
    rw [State.claimAbandon, State.freeSlots_claimAll]
    simp only [frees]
  case notice => exact State.claimAll_noticed _ (abandonEnters.mpr h)
  case quiet =>
    refine State.claimAll_unnoticed _ (Bool.eq_false_iff.mpr fun he => ?_)
    obtain ⟨x, hx, hst⟩ := abandonEnters.mp he
    exact h x hx hst

/-! ## DRAM loss and store DOWN (R21, R22) -/

theorem GRec.dramLoss_eq (r : GRec) :
    r.dramLoss =
      match r.st with
      | .clean | .filling => { r with st := .absent }
      | .dirty => { r with st := .poison }
      | .saved | .copying | .recopy => { r with st := .poison, pending := none }
      | .void => if r.cls = .zero then { r with st := .absent, committed := none } else r
      | .absent | .poison => r := by
  cases h : r.st <;> simp [dramLoss, h]

/-- Settles O16: the claim on every granule takes none into DIRTY. -/
theorem dramLossClaimFollowsItsTable : Obligations.DramLossClaimFollowsItsTable := by
  intro s hwf
  have quiet : (s.tracker.table.any fun x => x.2.entersDirty x.2.dramLoss) = false := by
    simp [GRec.entersDirty_dramLoss]
  refine ⟨fun g => ?_, s.freeSlots_claimAll _ GRec.dramLossFrees, State.engine_claimAll_by_queue _ quiet⟩
  exact (State.recOf_claimAll _ hwf GRec.dramLoss_blank).trans (GRec.dramLoss_eq _)

theorem State.recOf_claimStoreDown {s : State} (hwf : GTable.wf s.tracker.table = true) (g : Nat) :
    s.claimStoreDown.recOf g = (s.recOf g).storeDown :=
  Tracker.recAt_mapRecs _ _ _ hwf GRec.storeDown_blank

/-- After the claim no record of the table holds a pending slot. -/
theorem pendingOf_storeDown (t : GTable) : pendingOf (GTable.mapRecs t fun _ => GRec.storeDown) = 0 := by
  rw [pendingOf, List.countP_eq_zero]
  intro x hx
  obtain ⟨y, _, rfl⟩ := GTable.mem_mapRecs hx
  simp [GRec.storeDown]

/-- Settles O17: the claim on every granule, by the record's state. -/
theorem storeDownClaimFollowsItsTable : Obligations.StoreDownClaimFollowsItsTable := by
  intro s hwf
  refine ⟨fun g => ?_, pendingOf_storeDown _, rfl⟩
  rw [State.recOf_claimStoreDown hwf]
  refine ⟨?_, rfl, rfl, rfl⟩
  cases h : (s.recOf g).st <;> simp [GRec.storeDown, h]

/-! ## Region reloads and resumes (R24, R25) -/

/-- The table that a reload builds. -/
def State.reloaded (s : State) : GTable :=
  GTable.build s.granules fun g => (GTable.get s.tracker.table g).reload (s.region.file.classOf s.granules g)

/-- Whether a reload takes a record into DIRTY. -/
def State.reloadEnters (s : State) : Bool :=
  s.reloaded.any fun x => (GTable.get s.tracker.table x.1).entersDirty x.2

theorem State.claimReload_eq (s : State) :
    s.claimReload =
      if s.reloadEnters then (s.setTracker (s.tracker.withTable s.reloaded)).noticeDirty
      else s.setTracker (s.tracker.withTable s.reloaded) := rfl

theorem State.only_claimReload (s : State) :
    s.claimReload = (s.setTracker (s.tracker.withTable s.reloaded)).setEngine s.claimReload.engine := by
  rw [claimReload_eq]
  split
  · rw [only_noticeDirty]; rfl
  · rfl

theorem State.recOf_claimReload (s : State) (g : Nat) :
    s.claimReload.recOf g =
      if g < s.granules then (s.recOf g).reload (s.region.file.classOf s.granules g) else GRec.blank := by
  rw [only_claimReload]
  exact GTable.get_build _ _ _

theorem RegionFile.classOf_check (f : RegionFile) {granules g : Nat} (h : granules ≤ g + 1) :
    f.classOf granules g = .discard := by
  rw [classOf, governing, if_pos h]

/-- A record enters DIRTY at a reload where its granule becomes preserved and it was not DIRTY (R24). -/
theorem State.reloadEnters_iff (s : State) :
    s.reloadEnters = true ↔ ∃ h, h < s.granules ∧ (s.recOf h).st ≠ .dirty ∧ (s.recOf h).cls.preserved = false ∧
      (s.region.file.classOf s.granules h).preserved = true := by
  rw [reloadEnters, List.any_eq_true]
  constructor
  · rintro ⟨x, hx, hd⟩
    obtain ⟨hlt, hrec⟩ := GTable.mem_build hx
    rw [hrec, GRec.entersDirty_reload] at hd
    simp only [Bool.and_eq_true, Bool.not_eq_true', decide_eq_true_eq] at hd
    exact ⟨x.1, hlt, hd.2, hd.1.1, hd.1.2⟩
  · rintro ⟨h, hlt, hst, hold, hnew⟩
    have henters : (s.recOf h).entersDirty ((s.recOf h).reload (s.region.file.classOf s.granules h)) = true := by
      simp [GRec.entersDirty_reload, hst, hold, hnew]
    have hdirty : ((s.recOf h).reload (s.region.file.classOf s.granules h)).st = .dirty := by
      simp [GRec.reload, hold, hnew]
    have hcell : (h, (s.recOf h).reload (s.region.file.classOf s.granules h)) ∈ s.reloaded := by
      refine List.mem_flatMap.mpr ⟨h, List.mem_range.mpr hlt, ?_⟩
      rw [GTable.cell, if_neg]
      · exact List.mem_singleton.mpr rfl
      · intro heq
        have hblank : (s.recOf h).reload (s.region.file.classOf s.granules h) = GRec.blank := heq
        rw [hblank] at hdirty
        exact absurd hdirty (by decide)
    exact ⟨_, hcell, henters⟩

/-- Settles O18: the table that the reload builds, and the notice where a record enters DIRTY. -/
theorem reloadClaimFollowsItsTable : Obligations.ReloadClaimFollowsItsTable := by
  intro s g
  refine ⟨fun hg => ?inside, fun hg => ?beyond, ⟨fun he => ?notice, fun he => ?quiet⟩, ?engine, fun hg => ?check⟩
  case inside =>
    rw [State.recOf_claimReload, if_pos hg]
    cases hr : (s.recOf g).cls.preserved <;> cases hc : (s.region.file.classOf s.granules g).preserved <;>
      simp [GRec.reload, hr, hc]
  case beyond => rw [State.recOf_claimReload, if_neg (by omega)]
  case notice =>
    rw [State.claimReload_eq, if_pos (s.reloadEnters_iff.mpr he)]
    exact State.noticedDirty_of_mark (t := s.setTracker (s.tracker.withTable s.reloaded)) rfl rfl
      (State.noticedDirty_noticeDirty _)
  case quiet =>
    rw [State.claimReload_eq, if_neg (mt s.reloadEnters_iff.mp he)]
    exact ⟨rfl, rfl⟩
  case engine =>
    rw [State.claimReload_eq]
    split
    · rw [State.engine_noticeDirty]; rfl
    · rfl
  case check => exact RegionFile.classOf_check _ (by omega)

theorem GClass.preserved_iff (c : GClass) : c.preserved = true ↔ c = .preserve ∨ c = .fixed := by
  cases c <;> decide

/-- One entry of an index passes the checks of R25. -/
theorem entryOk_iff (granules slots : Nat) (h : Header) (g : Nat) (e : IndexEntry) :
    entryOk granules slots h g e = true ↔
      (e ≠ .none → g + 1 < granules ∧ (h.file.classOf granules g = .preserve ∨ h.file.classOf granules g = .fixed)) ∧
      ∀ n, e = .slot n → n < slots ∧ n ∉ h.retired := by
  cases e <;> simp [entryOk, GClass.preserved_iff, and_assoc]

theorem namedSlots_cons (e : IndexEntry) (index : List IndexEntry) :
    namedSlots (e :: index) = (match e with | .slot n => [n] | _ => []) ++ namedSlots index := by
  cases e <;> rfl

theorem mem_namedSlots {index : List IndexEntry} {n : Nat} :
    n ∈ namedSlots index ↔ ∃ g : Nat, index[g]? = some (IndexEntry.slot n) := by
  rw [← List.mem_iff_getElem?, namedSlots, List.mem_filterMap]
  constructor
  · rintro ⟨e, he, hn⟩
    cases e <;> simp_all
  · exact fun h => ⟨_, h, rfl⟩

/-- No slot is named twice. -/
theorem nodup_namedSlots_iff (index : List IndexEntry) :
    (namedSlots index).Nodup ↔
      ∀ g k n : Nat, index[g]? = some (.slot n) → index[k]? = some (.slot n) → g = k := by
  induction index with
  | nil => simp [namedSlots]
  | cons e index ih =>
    have hcons : (namedSlots (e :: index)).Nodup ↔
        (∀ n, e = .slot n → n ∉ namedSlots index) ∧ (namedSlots index).Nodup := by
      cases e <;> simp [namedSlots_cons]
    rw [hcons, ih]
    constructor
    · rintro ⟨hhead, htail⟩ g k n hg hk
      cases g with
      | zero =>
        cases k with
        | zero => rfl
        | succ k => exact absurd (mem_namedSlots.mpr ⟨k, by simpa using hk⟩) (hhead n (by simpa using hg))
      | succ g =>
        cases k with
        | zero => exact absurd (mem_namedSlots.mpr ⟨g, by simpa using hg⟩) (hhead n (by simpa using hk))
        | succ k => rw [htail g k n (by simpa using hg) (by simpa using hk)]
    · intro hall
      refine ⟨fun n hn hmem => ?_, fun g k n hg hk => ?_⟩
      · obtain ⟨g, hg⟩ := mem_namedSlots.mp hmem
        have := hall 0 (g + 1) n (by simpa using hn) (by simpa using hg)
        omega
      · have := hall (g + 1) (k + 1) n (by simpa using hg) (by simpa using hk)
        omega

theorem State.recOf_claimResume (s : State) (index : List IndexEntry) (g : Nat) :
    (s.claimResume index).recOf g =
      if g < s.granules then GRec.resume (index.getD g .none) (s.region.file.classOf s.granules g) else GRec.blank :=
  GTable.get_build _ _ _

/-- Settles O19: the entries one by one, and the table that the resume builds. -/
theorem resumeClaimFollowsItsTable : Obligations.ResumeClaimFollowsItsTable := by
  refine ⟨fun granules slots h index => ?_, fun s index g hg => ?_⟩
  · have hentries : (index.zipIdx.all fun x => entryOk granules slots h x.2 x.1) = true ↔
        ∀ (g : Nat) (e : IndexEntry), index[g]? = some e → entryOk granules slots h g e = true := by
      rw [List.all_eq_true]
      constructor
      · exact fun hall g e he => hall (e, g) (List.mem_zipIdx_iff_getElem?.mpr he)
      · exact fun hall x hx => hall x.2 x.1 (List.mem_zipIdx_iff_getElem?.mp hx)
    rw [indexOk, Bool.and_eq_true, hentries, decide_eq_true_eq, nodup_namedSlots_iff, ← and_assoc]
    simp only [entryOk_iff]
    refine and_congr_left fun _ => ⟨fun hall => ⟨fun g e he => (hall g e he).1, fun g n hn => (hall g _ hn).2 n rfl⟩,
      fun ⟨hplace, hslot⟩ g e he => ⟨hplace g e he, fun n hn => hslot g n (hn ▸ he)⟩⟩
  · rw [State.recOf_claimResume, if_pos hg]
    cases hc : (s.region.file.classOf s.granules g).preserved with
    | true => cases index.getD g .none <;> simp [GRec.resume, hc]
    | false =>
      have hzero : GClass.zero.preserved = false := rfl
      by_cases hz : s.region.file.classOf s.granules g = .zero <;> simp [GRec.resume, hc, hz, hzero]

/-! ## The summary flags (R26, R28) -/

/-- A total of the directory is not zero where some granule of some span is counted. -/
theorem total_ne_zero_iff {tr : Tracker} (hc : tr.counted) (hk : ∀ x ∈ tr.table, x.1 < 65536) (field : DirEntry → Nat)
    (p : Nat × GRec → Bool)
    (hf : ∀ (t : GTable) (d : Nat), field (spanCounts t d) =
      (t.filter fun x => decide (x.1 / Config.unitGranules = d)).countP p) :
    (tr.dir.toList.map field).sum ≠ 0 ↔ ∃ x ∈ tr.table, p x = true := by
  rw [hc.1, ← Nat.pos_iff_ne_zero, List.sum_pos_iff_exists_pos_nat]
  constructor
  · rintro ⟨n, hn, hpos⟩
    obtain ⟨d, hd, rfl⟩ := List.mem_map.mp hn
    obtain ⟨i, hi⟩ : ∃ i : Fin 64, spanCounts tr.table i.val = d := by
      simpa [directoryOf, Vector.mem_ofFn] using hd
    rw [← hi, hf, List.countP_pos_iff] at hpos
    obtain ⟨x, hx, hp⟩ := hpos
    exact ⟨x, List.mem_of_mem_filter hx, hp⟩
  · rintro ⟨x, hx, hp⟩
    have hspan : x.1 / Config.unitGranules < 64 := Nat.div_lt_of_lt_mul (hk x hx)
    refine ⟨_, List.mem_map_of_mem (f := field) (a := spanCounts tr.table (x.1 / Config.unitGranules)) ?_, ?_⟩
    · have : ∃ i : Fin 64, spanCounts tr.table i.val = spanCounts tr.table (x.1 / Config.unitGranules) :=
        ⟨⟨_, hspan⟩, rfl⟩
      simpa [directoryOf, Vector.mem_ofFn] using this
    · rw [hf, List.countP_pos_iff]
      exact ⟨x, List.mem_filter.mpr ⟨hx, by simp⟩, hp⟩

theorem GState.countsDirty_iff (st : GState) : st.countsDirty = true ↔ st = .dirty ∨ st = .copying ∨ st = .recopy := by
  cases st <;> decide

theorem GState.countsAbsent_iff (st : GState) : st.countsAbsent = true ↔ st = .absent ∨ st = .filling := by
  cases st <;> decide

/-- Settles O20: each total counts the granules of its states, over all spans. -/
theorem summaryFlagsFollowTheTable : Obligations.SummaryFlagsFollowTheTable := by
  intro s hc hk
  refine ⟨?dirty, ?absent, ?poison, ?openEpoch⟩
  case dirty =>
    rw [State.anyDirty, decide_eq_true_eq, Tracker.dirtyTotal,
      total_ne_zero_iff hc hk _ (fun x => x.2.st.countsDirty) fun _ _ => rfl]
    simp only [GState.countsDirty_iff]
  case absent =>
    rw [State.anyAbsent, decide_eq_true_eq, Tracker.absentTotal,
      total_ne_zero_iff hc hk _ (fun x => x.2.st.countsAbsent) fun _ _ => rfl]
    simp only [GState.countsAbsent_iff]
  case poison =>
    rw [State.anyPoison, decide_eq_true_eq, Tracker.poisonTotal,
      total_ne_zero_iff hc hk _ (fun x => decide (x.2.st = .poison)) fun _ _ => rfl]
    simp only [decide_eq_true_eq]
  case openEpoch =>
    rw [State.epochOpen, decide_eq_true_eq, hc.2, pendingOf, ← Nat.pos_iff_ne_zero, List.countP_pos_iff]

end Sys2Proof.Machine
end

