-- ==== Sys2Proof/Proofs/ClassesAndRequests.lean ====
section
/-! The class that governs a granule and the checks of a region table (R32 to R35), how a request is settled (R52), and
the choice of the DRAM Port's arbiter (R64). -/

namespace Sys2Proof.Machine

/-! ## Descriptors (R32, R34) -/

/-- A byte is a small number where its value is. -/
theorem byte_eq_iff (b : Byte) {n : Nat} (hn : n < 256) : b = BitVec.ofNat 8 n ↔ b.toNat = n := by
  rw [← BitVec.toNat_inj, BitVec.toNat_ofNat, Nat.mod_eq_of_lt (by omega)]

theorem Descriptor.last_eq (d : Descriptor) :
    d.last = if d.unit = 1 then d.base + 1024 * (d.extent + 1) - 1 else d.base + d.extent := by
  have hunit : d.unit = 1 ↔ d.unit.toNat = 1 := byte_eq_iff d.unit (by decide)
  simp only [last, hunit]
  rfl

theorem Descriptor.covers_iff (d : Descriptor) (g : Nat) :
    d.covers g = true ↔ d.valid = true ∧ d.base ≤ g ∧ g ≤ d.last := by
  simp [covers, and_assoc]

theorem tableAddrOk_iff (granules addr : Nat) :
    tableAddrOk granules addr = true ↔ addr % 512 = 0 ∧ addr < 262144 * (granules - 1) := by
  rw [tableAddrOk, Bool.and_eq_true, decide_eq_true_eq, decide_eq_true_eq]
  rfl

theorem Descriptor.ok_iff (granules : Nat) (d : Descriptor) :
    d.ok granules = true ↔
      (d.valid = true → d.cls.toNat ≤ 3 ∧ (d.unit = 0 ∨ d.unit = 1) ∧ d.last + 2 ≤ granules) := by
  have h0 : d.unit = 0 ↔ d.unit.toNat = 0 := byte_eq_iff d.unit (by decide)
  have h1 : d.unit = 1 ↔ d.unit.toNat = 1 := byte_eq_iff d.unit (by decide)
  have hunit : d.unit = 0 ∨ d.unit = 1 ↔ d.unit.toNat ≤ 1 := by rw [h0, h1]; omega
  rw [hunit]
  cases hv : d.valid <;> simp [ok, hv, and_assoc]

theorem descriptorsOk_iff (granules : Nat) (ds : Vector Descriptor 32) :
    descriptorsOk granules ds = true ↔ ∀ n : Fin 32, ds[n].ok granules = true := by
  rw [descriptorsOk, List.all_eq_true]
  constructor
  · exact fun h n => h _ (by simp)
  · intro h d hd
    obtain ⟨i, hi, rfl⟩ := Vector.mem_iff_getElem.mp (Vector.mem_toList_iff.mp hd)
    exact h ⟨i, hi⟩

/-! ## The capacity (R35) -/

/-- The orphans, counted over the granules: an unlisted record is blank and holds no slot. -/
theorem orphanCount_eq (f : RegionFile) {tr : Tracker} (h : GTable.wf tr.table = true) :
    orphanCount f tr = (List.range tr.granules).countP fun g =>
      (tr.recAt g).committed.isSome && !(f.classOf tr.granules g).preserved := by
  have hp := ((GTable.wf_iff tr.table).mp h).1
  have hnodup : (tr.table.map Prod.fst).Nodup :=
    List.pairwise_map.mpr (hp.imp fun hlt => Nat.ne_of_lt hlt)
  have hget : ∀ x ∈ tr.table, tr.recAt x.1 = x.2 := by
    intro x hx
    have hl : tr.table.lookup x.1 = some x.2 := by
      obtain ⟨l₁, l₂, hsplit⟩ := List.append_of_mem hx
      rw [List.lookup_eq_some_iff]
      refine ⟨l₁, l₂, hsplit, fun y hy => ?_⟩
      rw [hsplit, List.map_append, List.nodup_append] at hnodup
      have := hnodup.2.2 y.1 (List.mem_map_of_mem hy) x.1 (by simp)
      simpa using fun heq => this heq.symm
    rw [Tracker.recAt, GTable.get, hl, Option.getD_some]
  have hmem : ∀ g, (tr.recAt g).committed.isSome = true → g ∈ tr.table.map Prod.fst := by
    intro g hg
    by_contra hnot
    have hl : tr.table.lookup g = none := by
      rw [List.lookup_eq_none_iff]
      intro y hy
      have : g ≠ y.1 := fun heq => hnot (heq ▸ List.mem_map_of_mem hy)
      simpa using this
    rw [Tracker.recAt, GTable.get, hl] at hg
    exact absurd hg (by decide)
  let orphan : Nat → Bool := fun g => (tr.recAt g).committed.isSome && !(f.classOf tr.granules g).preserved
  have hlisted : orphanCount f tr = ((tr.table.map Prod.fst).filter fun g =>
      decide (g < tr.granules) && orphan g).length := by
    rw [orphanCount, List.filter_map, List.length_map, List.countP_eq_length_filter]
    congr 1
    apply List.filter_congr
    intro x hx
    simp only [Function.comp_apply, orphan, hget x hx, Bool.and_assoc]
  have hperm : ((tr.table.map Prod.fst).filter fun g => decide (g < tr.granules) && orphan g).Perm
      ((List.range tr.granules).filter orphan) := by
    rw [List.perm_ext_iff_of_nodup (hnodup.filter _) (List.nodup_range.filter _)]
    intro g
    simp only [List.mem_filter, List.mem_range, Bool.and_eq_true, decide_eq_true_eq]
    constructor
    · exact fun ⟨_, hlt, ho⟩ => ⟨hlt, ho⟩
    · intro ⟨hlt, ho⟩
      have hcommitted : (tr.recAt g).committed.isSome = true := by
        simp only [orphan, Bool.and_eq_true] at ho
        exact ho.1
      exact ⟨hmem g hcommitted, hlt, ho⟩
  rw [hlisted, hperm.length_eq, List.countP_eq_length_filter]

theorem State.tablePasses_iff {s : State} (h : GTable.wf s.tracker.table = true) (file : RegionFile) :
    s.tablePasses file = true ↔
      descriptorsOk s.granules file.descs = true ∧
        (s.store.status = .attached →
          2 * (List.range s.granules).countP (fun g => (file.classOf s.granules g).preserved) +
            (List.range s.granules).countP (fun g =>
              (s.recOf g).committed.isSome && !(file.classOf s.granules g).preserved) +
            s.engine.retired.length ≤ s.store.slots) := by
  have ho : orphanCount file s.tracker = (List.range s.granules).countP fun g =>
      (s.recOf g).committed.isSome && !(file.classOf s.granules g).preserved := orphanCount_eq file h
  rw [tablePasses, ho, Bool.and_eq_true, Bool.or_eq_true, capacityOk, decide_eq_true_eq, decide_eq_true_eq,
    preservedCount, ← imp_iff_not_or]

/-! ## Classes (R33) -/

/-- The governing descriptor is the first that covers the granule. -/
theorem RegionFile.governing_of_first {f : RegionFile} {granules g : Nat} {n : Fin 32} (hg : g + 1 < granules)
    (hn : f.descs[n].covers g = true) (hm : ∀ m : Fin 32, m < n → f.descs[m].covers g = false) :
    f.governing granules g = some n := by
  rw [governing, if_neg (by omega), List.find?_eq_some_iff_getElem]
  refine ⟨hn, n.val, by simp, by simp, fun j hj => ?_⟩
  have hlt : (⟨j, by omega⟩ : Fin 32) < n := hj
  simpa using hm ⟨j, by omega⟩ hlt

theorem RegionFile.governing_of_none {f : RegionFile} {granules g : Nat}
    (h : ∀ n : Fin 32, f.descs[n].covers g = false) : f.governing granules g = none := by
  rw [governing]
  split
  · rfl
  · rw [List.find?_eq_none]
    exact fun n _ => by rw [h n]; decide

/-- The class that a code names, an unknown one as DISCARD. -/
theorem classOfCode_getD (c : Byte) :
    (classOfCode c.toNat).getD .discard =
      if c = 0 then .preserve else if c = 1 then .fixed else if c = 2 then .zero else .discard := by
  have h0 : c = 0 ↔ c.toNat = 0 := byte_eq_iff c (by decide)
  have h1 : c = 1 ↔ c.toNat = 1 := byte_eq_iff c (by decide)
  have h2 : c = 2 ↔ c.toNat = 2 := byte_eq_iff c (by decide)
  simp only [classOfCode, h0, h1, h2]
  split_ifs <;> rfl

/-- Settles O21: the checks one by one, and the first descriptor that covers. -/
theorem classIsThatOfTheGoverningDescriptor : Obligations.ClassIsThatOfTheGoverningDescriptor := by
  unfold Obligations.ClassIsThatOfTheGoverningDescriptor
  intro last
  have hlast : ∀ d : Descriptor, last d = d.last := fun d => (Descriptor.last_eq d).symm
  refine ⟨fun d g => ?covers, tableAddrOk_iff, fun granules descs => ?descriptors,
    fun s file h => State.tablePasses_iff h file, fun f granules g => ⟨f.classOf_check, fun _ h => ?ungoverned,
      fun n hg hn hm => ?governed⟩⟩
  case covers => rw [hlast, Descriptor.covers_iff]
  case descriptors =>
    simp only [hlast, descriptorsOk_iff, Descriptor.ok_iff]
  case ungoverned => rw [RegionFile.classOf, RegionFile.governing_of_none h]
  case governed =>
    rw [RegionFile.classOf, RegionFile.governing_of_first hg hn hm]
    exact classOfCode_getD _

/-! ## How a request is settled (R52) -/

namespace State

variable {s : State} {e : Entry}

theorem judgement_of_unconfigured (h : s.tc.state = .unconfigured) : s.judgement e = .untracked := by
  rw [judgement, if_pos h]

theorem judgement_of_commitHold (ht : s.tc.state ≠ .unconfigured) (ha : e.addr < 262144 * s.granules)
    (hk : e.kind = .write) (hc : e.cls ≠ some .fixed) (hs : s.tc.state = .committing) :
    s.judgement e = .commitHold := by
  rw [judgement_of_inRange ht ha]
  simp [hk, hc, hs]

theorem judgement_of_fillHold (ht : s.tc.state ≠ .unconfigured) (ha : e.addr < 262144 * s.granules)
    (hk : e.kind = .write → e.cls ≠ some .fixed ∧ s.tc.state ≠ .committing)
    (hg : (s.recOf e.granule).st.countsAbsent = true) : s.judgement e = .fillHold := by
  rw [judgement_of_inRange ht ha, if_neg (fun h => (hk h.1).1 h.2), if_neg (fun h => (hk h.1).2 h.2), if_pos hg]

theorem judgement_of_proceed (ht : s.tc.state ≠ .unconfigured) (ha : e.addr < 262144 * s.granules)
    (hk : e.kind = .write → e.cls ≠ some .fixed ∧ s.tc.state ≠ .committing)
    (hg : (s.recOf e.granule).st.countsAbsent = false)
    (hp : e.kind = .read → (s.recOf e.granule).st ≠ .poison) : s.judgement e = .proceed := by
  rw [judgement_of_inRange ht ha, if_neg (fun h => (hk h.1).1 h.2), if_neg (fun h => (hk h.1).2 h.2),
    if_neg (by rw [hg]; decide), if_neg (fun h => hp h.1 h.2)]

/-- The two verdicts that the part answers itself, and the answer out of range, come in no other way. -/
theorem judgement_range_iff :
    s.judgement e = .range ↔ s.tc.state ≠ .unconfigured ∧ 262144 * s.granules ≤ e.addr := by
  constructor
  · intro h
    simp only [judgement] at h
    split_ifs at h with h1 h2
    exact ⟨h1, h2⟩
  · exact fun ⟨ht, ha⟩ => judgement_of_outOfRange ht ha

theorem judgement_fixedWrite_iff :
    s.judgement e = .fixedWrite ↔
      (s.tc.state ≠ .unconfigured ∧ e.addr < 262144 * s.granules) ∧ e.kind = .write ∧ e.cls = some .fixed := by
  constructor
  · intro h
    simp only [judgement] at h
    split_ifs at h with h1 h2 h3
    exact ⟨⟨h1, Nat.lt_of_not_le h2⟩, h3⟩
  · exact fun ⟨⟨ht, ha⟩, hk, hc⟩ => judgement_of_fixedWrite ht ha hk hc

theorem judgement_poisonRead_iff :
    s.judgement e = .poisonRead ↔
      (s.tc.state ≠ .unconfigured ∧ e.addr < 262144 * s.granules) ∧ e.kind = .read ∧
        (s.recOf e.granule).st = .poison := by
  constructor
  · intro h
    simp only [judgement] at h
    split_ifs at h with h1 h2 h3 h4 h5 h6
    exact ⟨⟨h1, Nat.lt_of_not_le h2⟩, h6⟩
  · exact fun ⟨⟨ht, ha⟩, hk, hp⟩ => judgement_of_poisonRead ht ha hk hp

theorem issue_eq (s : State) (e : Entry) :
    s.issue e =
      (s.setRu { s.ru with
        table := s.ru.table.map fun x => if x.tag = e.tag then { x with st := .issued none } else x }).setDram
        { s.dram with
          queue := s.dram.queue ++
            [{ src :=
                match e.kind with
                | .read => .upRead e.tag true
                | .write => .upWrite e.tag true e.data e.enables
               line := e.line }] } := by
  unfold issue
  cases e.kind <;> rfl

theorem holdFill_of_absent (h : (s.recOf e.granule).st = .absent) :
    s.holdFill e = (s.hold e .fill).joinFillList e.granule := if_pos h

theorem holdFill_of_not_absent (h : (s.recOf e.granule).st ≠ .absent) : s.holdFill e = s.hold e .fill := if_neg h

theorem proceed_of_write (h : e.kind = .write) :
    s.proceed e = ((s.issue e).claimWrite e.granule).markWritten e.granule := by rw [proceed, h]

theorem proceed_of_read (h : e.kind = .read) : s.proceed e = s.issue e := by rw [proceed, h]

theorem settleEntry_of_fillHold (h : s.judgement e = .fillHold) : s.settleEntry e = s.holdFill e := by
  rw [settleEntry, h]

theorem settleEntry_of_proceed (h : s.judgement e = .proceed) : s.settleEntry e = s.proceed e := by
  rw [settleEntry, h]

end State

/-- Settles O22: the judgement by its cases, and what settles each. -/
theorem requestIsSettledInTheFirstWayThatApplies : Obligations.RequestIsSettledInTheFirstWayThatApplies := by
  intro s e made tracked
  have present : (s.recOf e.granule).st ≠ .absent → (s.recOf e.granule).st ≠ .filling →
      (s.recOf e.granule).st.countsAbsent = false := fun h1 h2 =>
    Bool.eq_false_iff.mpr fun h => (GState.countsAbsent_iff _).mp h |>.elim h1 h2
  refine ⟨State.issue_eq s e, fun _ => rfl, State.holdFill_of_absent, State.holdFill_of_not_absent,
    State.judgement_range_iff, State.judgement_fixedWrite_iff, State.judgement_poisonRead_iff,
    fun hu => ?untracked, fun ht ha => ?range, fun ht ha => ⟨fun ⟨hk, hc⟩ => ?fixedWrite,
      fun ⟨hk, hc⟩ => ⟨fun hs => ?commitHold, fun hs => ⟨fun hg => ?writeHeld, fun h1 h2 => ?written⟩⟩,
      fun hk => ⟨fun hg => ?readHeld, fun hp => ?poisonRead, fun h1 h2 h3 => ?read⟩⟩⟩
  case untracked => rw [State.settleEntry, State.judgement_of_unconfigured hu]
  case range => rw [State.settleEntry, State.judgement_of_outOfRange ht ha]
  case fixedWrite => rw [State.settleEntry, State.judgement_of_fixedWrite ht ha hk hc]
  case commitHold => rw [State.settleEntry, State.judgement_of_commitHold ht ha hk hc hs]
  case writeHeld =>
    exact State.settleEntry_of_fillHold (State.judgement_of_fillHold ht ha (fun _ => ⟨hc, hs⟩)
      ((GState.countsAbsent_iff _).mpr hg))
  case written =>
    rw [State.settleEntry_of_proceed (State.judgement_of_proceed ht ha (fun _ => ⟨hc, hs⟩) (present h1 h2)
      fun hr => by rw [hk] at hr; cases hr), State.proceed_of_write hk]
  case readHeld =>
    exact State.settleEntry_of_fillHold (State.judgement_of_fillHold ht ha (fun hw => by rw [hk] at hw; cases hw)
      ((GState.countsAbsent_iff _).mpr hg))
  case poisonRead => rw [State.settleEntry, State.judgement_of_poisonRead ht ha hk hp]
  case read =>
    rw [State.settleEntry_of_proceed (State.judgement_of_proceed ht ha (fun hw => by rw [hk] at hw; cases hw)
      (present h1 h2) fun _ => h3), State.proceed_of_read hk]

/-! ## The arbiter (R64) -/

/-- The first access of the link that the arbiter turns to. -/
def chosenAccess (queue : List Access) (run : Nat) : Option Access :=
  match queue.find? Access.upstream, queue.find? fun a => !a.upstream with
  | some u, some e => if Config.maxRun ≤ run then some e else some u
  | some u, none => some u
  | none, e => e

theorem pickAccess_eq (queue : List Access) (run : Nat) :
    pickAccess queue run =
      match chosenAccess queue run with
      | some c => queue.find? fun a => decide (a.line = c.line)
      | none => none := rfl

/-- An access that waits is of the upstream link or of the engines. -/
theorem chosenAccess_eq_none_iff (queue : List Access) (run : Nat) : chosenAccess queue run = none ↔ queue = [] := by
  constructor
  · intro h
    unfold chosenAccess at h
    split at h
    · split at h <;> cases h
    · cases h
    · rename_i hu
      cases queue with
      | nil => rfl
      | cons a queue =>
        have h1 := List.find?_eq_none.mp hu a (by simp)
        have h2 := List.find?_eq_none.mp h a (by simp)
        simp_all
  · rintro rfl
    rfl

theorem chosenAccess_mem {queue : List Access} {run : Nat} {c : Access} (h : chosenAccess queue run = some c) :
    c ∈ queue := by
  unfold chosenAccess at h
  split at h
  · rename_i hu he
    split at h
    · cases h; exact List.mem_of_find?_eq_some he
    · cases h; exact List.mem_of_find?_eq_some hu
  · rename_i hu he
    cases h; exact List.mem_of_find?_eq_some hu
  · exact List.mem_of_find?_eq_some h

theorem pickAccess_eq_some {queue : List Access} {run : Nat} {a : Access} (h : pickAccess queue run = some a) :
    ∃ c, chosenAccess queue run = some c ∧ a.line = c.line ∧
      queue.find? (fun x => decide (x.line = c.line)) = some a := by
  rw [pickAccess_eq] at h
  cases hc : chosenAccess queue run with
  | none => rw [hc] at h; cases h
  | some c =>
    rw [hc] at h
    exact ⟨c, rfl, by simpa using List.find?_some h, h⟩

/-- An upstream access is chosen where no engine access waits, or fewer than 8 were served in a row. -/
theorem chosenAccess_upstream {queue : List Access} {run : Nat} {u : Access}
    (hu : queue.find? Access.upstream = some u) (h : queue.all Access.upstream = true ∨ run < 8) :
    chosenAccess queue run = some u := by
  cases he : queue.find? fun a => !a.upstream with
  | none => simp [chosenAccess, hu, he]
  | some e =>
    have hrun : run < 8 := by
      refine h.resolve_left fun hall => ?_
      have h1 := List.find?_some he
      have h2 := List.all_eq_true.mp hall e (List.mem_of_find?_eq_some he)
      simp [h2] at h1
    simp [chosenAccess, hu, he, Config.maxRun, Nat.not_le.mpr hrun]

/-- An engine access is chosen where no upstream access waits, or 8 were served in a row. -/
theorem chosenAccess_engine {queue : List Access} {run : Nat} {e : Access}
    (he : queue.find? (fun x => !x.upstream) = some e) (h : queue.any Access.upstream = false ∨ 8 ≤ run) :
    chosenAccess queue run = some e := by
  cases hu : queue.find? Access.upstream with
  | none => simp [chosenAccess, hu, he]
  | some u =>
    have hrun : 8 ≤ run := by
      refine h.resolve_left fun hany => ?_
      have h1 := List.any_eq_false.mp hany u (List.mem_of_find?_eq_some hu)
      exact h1 (List.find?_some hu)
    simp [chosenAccess, hu, he, Config.maxRun, hrun]

/-- Settles O24: the access that the arbiter turns to, and the first one to its line. -/
theorem arbiterServesUpstreamFirstUpToEight : Obligations.ArbiterServesUpstreamFirstUpToEight := by
  intro queue run
  refine ⟨⟨fun h => ?empty, fun h => ?nothing⟩, fun a h => ?first, fun a u h hu hrun => ?upstream,
    fun a e h he hrun => ?engine, fun a => ?count⟩
  case empty =>
    rw [pickAccess_eq] at h
    cases hc : chosenAccess queue run with
    | none => exact (chosenAccess_eq_none_iff _ _).mp hc
    | some c =>
      rw [hc] at h
      have := List.find?_eq_none.mp h c (chosenAccess_mem hc)
      simp at this
  case nothing => rw [pickAccess_eq, (chosenAccess_eq_none_iff _ _).mpr h]
  case first =>
    obtain ⟨c, _, hline, hfind⟩ := pickAccess_eq_some h
    rw [hline]
    exact hfind
  case upstream =>
    obtain ⟨c, hc, hline, _⟩ := pickAccess_eq_some h
    rw [chosenAccess_upstream hu hrun] at hc
    cases hc
    exact hline
  case engine =>
    obtain ⟨c, hc, hline, _⟩ := pickAccess_eq_some h
    rw [chosenAccess_engine he hrun] at hc
    cases hc
    exact hline
  case count =>
    simp only [runAfter, Bool.and_eq_true]
    rfl

end Sys2Proof.Machine
end

