-- ==== Sys2Proof/Proofs/SidebandSettings.lean ====
section
/-! The Fault Unit's reports (R176, R177), the judgement of command frames (R184), and the commands that change settings
or read (R157, R164, R169, R179 to R182, R186 to R191); standby power-on (R4), and the ms that passes with no command. -/

namespace Sys2Proof.Machine

/-! ## Time and power-on -/

theorem Timer.tick_of_running {x : Timer} (h : x.status = .running) :
    x.tick = { status := .running, count := if x.count ≤ 1 then x.count else x.count - 1 } := by
  obtain ⟨status, count⟩ := x
  cases h
  by_cases hc : count ≤ 1
  · simp [tick, hc, Nat.not_lt.mpr hc]
  · simp [tick, hc, Nat.lt_of_not_le hc]

theorem Timer.tick_of_not_running {x : Timer} (h : x.status ≠ .running) : x.tick = x := if_neg fun hc => h hc.1

/-- Settles O2: `State.idle` field by field. -/
theorem emptyQueuePassesOneMs : Obligations.EmptyQueuePassesOneMs := by
  refine ⟨fun s h => ⟨s.idle, step_of_nil h, ?_⟩, fun x => ⟨Timer.tick_of_running, Timer.tick_of_not_running⟩⟩
  refine ⟨h, rfl, rfl, rfl, fun i => ?_, rfl, rfl, rfl, rfl, rfl, rfl, rfl, rfl, rfl, rfl, rfl, rfl⟩
  exact Vector.getElem_ofFn _

theorem State.bringUpIfReady_of_notUp {s : State} (h : s.dram.cond = .notUp) :
    s.bringUpIfReady =
      s.setDram { s.dram with cond := if s.lines.mainOk && s.lines.memOk then .bringingUp else .notUp } := by
  have hcond : { s.dram with cond := .notUp } = s.dram := by rw [← h]
  unfold State.bringUpIfReady State.railsOk
  cases s.lines.mainOk <;> cases s.lines.memOk <;> simp [h, State.beginBringUp, hcond] <;> rfl

/-- Settles O4: the reset values, and what both ways to them make of the state. -/
theorem resetIsStandbyPowerOn : Obligations.ResetIsStandbyPowerOn := by
  refine ⟨?_, fun s => ?_⟩
  · refine ⟨rfl, rfl, rfl, fun _ => rfl, by decide, rfl, rfl, rfl, rfl, by decide, rfl, rfl, rfl, rfl, rfl, rfl, rfl, rfl,
      rfl, rfl, rfl, rfl, rfl, rfl, rfl, rfl, rfl, rfl, rfl, rfl, rfl, rfl, rfl, rfl, rfl, rfl, rfl, rfl, rfl, rfl, rfl,
      rfl, rfl, rfl, rfl, rfl, rfl, rfl, rfl, rfl, rfl, rfl, rfl, rfl, by decide, rfl, rfl, rfl, rfl, rfl, rfl, rfl,
      rfl, rfl, rfl, rfl, rfl, rfl, rfl, rfl, rfl, by decide, rfl, rfl⟩
  · intro fresh
    refine ⟨⟨s.standbyPowerOn, rfl, ?_, ?_, ?_⟩, ⟨s.resetPart, rfl, ?_, ?_, ?_⟩⟩
    · rw [State.standbyPowerOn, State.bringUpIfReady_of_notUp rfl]
      exact ⟨rfl, rfl, rfl, rfl, rfl, rfl, rfl, rfl, rfl, rfl, fun i => Vector.getElem_ofFn _, rfl, rfl, rfl, rfl⟩
    · rw [State.standbyPowerOn, State.bringUpIfReady_of_notUp rfl]; rfl
    · rw [State.standbyPowerOn, State.bringUpIfReady_of_notUp rfl]; rfl
    · rw [State.resetPart, State.bringUpIfReady_of_notUp rfl]
      exact ⟨rfl, rfl, rfl, rfl, rfl, rfl, rfl, rfl, rfl, rfl, fun i => Vector.getElem_ofFn _, rfl, rfl, rfl, rfl⟩
    · rw [State.resetPart, State.bringUpIfReady_of_notUp rfl]
      show s.holdBackStore = _
      unfold State.holdBackStore State.leftOnLink
      cases s.store.op <;> cases s.store.holdBack <;> rfl
    · rw [State.resetPart, State.bringUpIfReady_of_notUp rfl]; rfl

/-! ## Reports (R176, R177) -/

theorem FaultUnit.reportable_iff (f : FaultUnit) (c : FaultClass) :
    f.reportable c = true ↔
      c = .storeDown ∨ c = .linkViolation ∨ c = .railLoss ∨ f.enables.getLsbD (c.code - 4) = true := by
  cases c <;> simp [reportable, FaultClass.code]

theorem FaultUnit.take_of_reportable {f : FaultUnit} {c : FaultClass} (h : f.reportable c = true) (addr : Nat)
    (detail : FaultDetail) (st : TState) :
    f.take c addr detail st =
      { f with
        code := some c
        addr := addr
        detail := detail
        stateAt := some st
        count := if f.count < 255 then f.count + 1 else 255
        error := true
        alert := !f.alertDisable } := by
  have hcount : min (f.count + 1) 255 = if f.count < 255 then f.count + 1 else 255 := by split <;> omega
  rw [take, if_pos h, hcount]
  rfl

theorem FaultUnit.take_of_masked {f : FaultUnit} {c : FaultClass} (h : f.reportable c = false) (addr : Nat)
    (detail : FaultDetail) (st : TState) : f.take c addr detail st = f := by
  rw [take, if_neg (by rw [h]; decide)]

/-- Settles O27: a reportable class is latched, and a masked one is not. -/
theorem reportIsLatchedAndCounted : Obligations.ReportIsLatchedAndCounted := by
  intro s c addr detail
  refine ⟨rfl, fun h => ?_, fun h1 h2 h3 hmask => ?_⟩
  · have hr := (s.faults.reportable_iff c).mpr h
    refine ⟨?_, fun st => ?_⟩
    · rw [State.report, FaultUnit.take_of_reportable hr]
    · rw [FaultUnit.take_of_reportable hr, FaultUnit.take_of_reportable hr]
  · have hr : s.faults.reportable c = false := Bool.eq_false_iff.mpr fun hr => by
      rcases (s.faults.reportable_iff c).mp hr with h | h | h | h
      · exact h1 h
      · exact h2 h
      · exact h3 h
      · rw [hmask] at h; cases h
    refine ⟨?_, FaultUnit.take_of_masked hr addr detail⟩
    rw [State.report, FaultUnit.take_of_masked hr]
    rfl

/-! ## Command frames (R184) -/

/-- Every sideband command but RESET_PART runs through the judgement of R184. -/
theorem exec_of_form {c : Instr} {code length : Nat} {p : List Byte} (hc : c.sidebandForm = some (code, length, p))
    (h25 : code ≠ 25) (s : State) :
    ∃ own, exec c s = .next (s.command code length p c.refusedInRailLoss own) := by
  cases c <;> cases hc
  case resetPart => exact absurd rfl h25
  all_goals exact ⟨_, rfl⟩

namespace State

variable {s : State}

theorem command_of_wrong_length {code len : Nat} {p : List Byte} {named : Bool} {own : State → State}
    (h : p.length ≠ len) : s.command code len p named own = s.putReply code .badArgument [] := if_pos h

theorem command_of_handling {code len : Nat} {p : List Byte} {named : Bool} {own : State → State}
    (hlen : p.length = len) (h : s.side.handling = true) :
    s.command code len p named own = s.putReply code .busy [] := by
  simp [command, hlen, h]

theorem command_of_railLoss {code len : Nat} {p : List Byte} {named : Bool} {own : State → State}
    (hlen : p.length = len) (hready : s.side.handling = false) (hn : named = true) (hr : s.tc.railLoss = true) :
    s.command code len p named own = s.putReply code .busy [] := by
  simp [command, hlen, hready, hn, hr]

/-- A frame that finds the port READY goes to an owner that a rail loss does not stop. -/
theorem command_of_takes {code len : Nat} {p : List Byte} {own : State → State} (h : s.takes p len) :
    s.command code len p false own = own s.clearBuffer := command_of_passed h.1 h.2 (Bool.false_and _)

/-- A frame that finds the port READY and no rail loss goes to its owner. -/
theorem command_of_takesLong {code len : Nat} {p : List Byte} {own : State → State} (h : s.takesLong p len) :
    s.command code len p true own = own s.clearBuffer :=
  command_of_passed h.1.1 h.1.2 (by rw [h.2]; rfl)

theorem putReply_clearBuffer (s : State) (command : Nat) (code : ReplyCode) (data : List Byte) :
    s.clearBuffer.putReply command code data = s.putReply command code data := rfl

end State

/-- Settles O28: the steps of the judgement in their order, and the reading of a reply. -/
theorem commandFramesAreJudgedAndRepliesRead : Obligations.CommandFramesAreJudgedAndRepliesRead := by
  refine ⟨fun s c code length p hc => ⟨fun hlen => ?length, fun hlen h25 hh => ?handling, fun hlen hn hh hr => ?railLoss⟩,
    fun s code p => ⟨rfl, ?read⟩⟩
  case length =>
    by_cases h25 : code = 25
    · subst h25
      cases c <;> cases hc
      exact congrArg Host.Outcome.next (if_pos hlen)
    · obtain ⟨own, ho⟩ := exec_of_form hc h25 s
      rw [ho, State.command_of_wrong_length hlen]
      rfl
  case handling =>
    obtain ⟨own, ho⟩ := exec_of_form hc h25 s
    rw [ho, State.command_of_handling hlen hh]
    rfl
  case railLoss =>
    have h25 : code ≠ 25 := by
      rintro rfl
      cases c <;> cases hc
      cases hn
    obtain ⟨own, ho⟩ := exec_of_form hc h25 s
    rw [ho, State.command_of_railLoss hlen hh hn hr]
    rfl
  case read =>
    show Host.Outcome.next s.readReply = _
    unfold State.readReply
    cases s.side.buffer <;> rfl

/-! ## Parameters (R186) -/

theorem exec_setParam {s : State} {p : List Byte} (h : s.takes p 4) :
    exec (.setParam p) s = .next (s.clearBuffer.setParam p) := congrArg Host.Outcome.next (State.command_of_takes h)

theorem exec_setParam_of_some {s : State} {p : List Byte} {ps : Params} (h : s.takes p 4)
    (ha : setParamArg s.side.params p = some ps) :
    exec (.setParam p) s =
      .next (s.setSide
        { s.side with params := ps, buffer := some { command := 12, code := .done, data := [] } }) := by
  have ha' : setParamArg s.clearBuffer.side.params p = some ps := ha
  rw [exec_setParam h, State.setParam, ha']
  rfl

theorem exec_setParam_of_none {s : State} {p : List Byte} (h : s.takes p 4)
    (ha : setParamArg s.side.params p = none) :
    exec (.setParam p) s =
      .next (s.setSide { s.side with buffer := some { command := 12, code := .badArgument, data := [] } }) := by
  have ha' : setParamArg s.clearBuffer.side.params p = none := ha
  rw [exec_setParam h, State.setParam, ha']
  rfl

/-- Settles O29: the parameter named, in its range or not. -/
theorem setParamSetsOneParameter : Obligations.SetParamSetsOneParameter := by
  intro s p h name v answered
  have judged : ∀ (ok : Prop) [Decidable ok] (ps : Params),
      setParamArg s.side.params p = (if ok then some ps else none) → answered (decide ok) ps := by
    intro ok _ ps ha
    by_cases hok : ok
    · rw [if_pos hok] at ha
      rw [decide_eq_true hok]
      exact exec_setParam_of_some h ha
    · rw [if_neg hok] at ha
      rw [decide_eq_false hok]
      exact exec_setParam_of_none h ha
  refine ⟨fun hn => judged _ _ ?_, fun hn => judged _ _ ?_, fun hn => judged _ _ ?_, fun hn => judged _ _ ?_,
    fun hn => judged _ _ ?_, fun hn => judged False _ ?_⟩
  · rw [setParamArg, if_pos hn]
  · rw [setParamArg, if_neg (by omega), if_pos hn]
  · rw [setParamArg, if_neg (by omega), if_neg (by omega), if_pos hn]
  · rw [setParamArg, if_neg (by omega), if_neg (by omega), if_neg (by omega), if_pos hn]
  · rw [setParamArg, if_neg (by omega), if_neg (by omega), if_neg (by omega), if_neg (by omega), if_pos hn]
  · rw [setParamArg, if_neg (by omega), if_neg (by omega), if_neg (by omega), if_neg (by omega), if_neg (by omega)]
    rfl

/-! ## Wake lines (R157, R164) -/

theorem exec_setWake {s : State} {p : List Byte} (h : s.takes p 4) :
    exec (.setWake p) s = .next (s.clearBuffer.setWakeLine p) := congrArg Host.Outcome.next (State.command_of_takes h)

theorem setWakeArgs_of_sound {p : List Byte} {i : Fin 5} {mode : WakeMode} (hi : numberAt p 0 1 = i.val)
    (hm : wakeModeOfCode (numberAt p 1 1) = some mode) (hv : numberAt p 2 2 ≤ 10000)
    (h10 : numberAt p 2 2 % 10 = 0) : setWakeArgs p = some (i, mode, numberAt p 2 2) := by
  have hlt : numberAt p 0 1 < 5 := by omega
  have hfin : (⟨numberAt p 0 1, hlt⟩ : Fin 5) = i := Fin.ext hi
  simp only [setWakeArgs, hm]
  rw [dif_pos hlt, if_pos ⟨hv, h10⟩, hfin]

theorem wakeModeOfCode_of_large {n : Nat} (h : 2 < n) : wakeModeOfCode n = none := by
  rw [wakeModeOfCode, if_neg (by omega), if_neg (by omega), if_neg (by omega)]

theorem setWakeArgs_of_unsound {p : List Byte}
    (h : 4 < numberAt p 0 1 ∨ 2 < numberAt p 1 1 ∨ 10000 < numberAt p 2 2 ∨ numberAt p 2 2 % 10 ≠ 0) :
    setWakeArgs p = none := by
  unfold setWakeArgs
  split
  · rename_i mode hm
    have hmode : ¬ 2 < numberAt p 1 1 := fun hlt => by rw [wakeModeOfCode_of_large hlt] at hm; cases hm
    split
    · rw [if_neg (by omega)]
    · rfl
  · rfl

/-- A line started afresh (R157). -/
theorem WakeLine.setting_eq (l : WakeLine) (mode : WakeMode) (hold : Nat) (monitored : Bool) :
    l.setting mode hold monitored =
      { level := l.level
        mode := mode
        hold := hold
        machine :=
          if mode = .disabled ∨ monitored = false then .idle
          else if l.level then .blocked
          else .armed
        timer := Timer.stopped } := by
  cases monitored <;> by_cases hm : mode = .disabled <;> simp [setting, startMachine, hm]

/-- Settles O30: the arguments, and the line that they set. -/
theorem setWakeStartsTheLineAfresh : Obligations.SetWakeStartsTheLineAfresh := by
  intro s p h
  refine ⟨fun i mode hi hm hv h10 => ?_, fun hbad => ?_⟩
  · rw [exec_setWake h, State.setWakeLine, setWakeArgs_of_sound hi hm hv h10, ← WakeLine.setting_eq]
    rfl
  · rw [exec_setWake h, State.setWakeLine, setWakeArgs_of_unsound hbad]
    rfl

/-- Settles O31: both commands set their register and answer DONE. -/
theorem clearWakeAndInjectCheckError : Obligations.ClearWakeAndInjectCheckError := by
  intro s h
  have hw : s.command 14 0 [] false State.clearWake = s.clearBuffer.clearWake := State.command_of_takes ⟨rfl, h⟩
  have hi : s.command 24 0 [] false State.injectCheckError = s.clearBuffer.injectCheckError :=
    State.command_of_takes ⟨rfl, h⟩
  exact ⟨congrArg Host.Outcome.next hw, congrArg Host.Outcome.next hi⟩

/-! ## Report enables and ALERT (R179, R180) -/

theorem exec_report {s : State} {p : List Byte} (h : s.takes p 2) :
    exec (.report p) s = .next (s.clearBuffer.setReport p) := congrArg Host.Outcome.next (State.command_of_takes h)

theorem exec_alertDisable {s : State} {p : List Byte} (h : s.takes p 1) :
    exec (.alertDisable p) s = .next (s.clearBuffer.setAlertDisable p) :=
  congrArg Host.Outcome.next (State.command_of_takes h)

theorem flagOf_flag (on : Bool) : flagOf (if on then 1 else 0) = some on := by cases on <;> rfl

theorem flagOf_of_large {n : Nat} (h : 1 < n) : flagOf n = none := by
  rw [flagOf, if_neg (by omega), if_neg (by omega)]

theorem reportArgs_of_sound {p : List Byte} {on : Bool} (h4 : 4 ≤ numberAt p 0 1) (h13 : numberAt p 0 1 ≤ 13)
    (hon : numberAt p 1 1 = if on then 1 else 0) : reportArgs p = some (numberAt p 0 1 - 4, on) := by
  simp only [reportArgs, hon, flagOf_flag]
  rw [if_pos ⟨h4, h13⟩]

theorem reportArgs_of_unsound {p : List Byte} (h : numberAt p 0 1 < 4 ∨ 13 < numberAt p 0 1 ∨ 1 < numberAt p 1 1) :
    reportArgs p = none := by
  unfold reportArgs
  split
  · rename_i on hon
    have hflag : ¬ 1 < numberAt p 1 1 := fun hlt => by rw [flagOf_of_large hlt] at hon; cases hon
    rw [if_neg (by omega)]
  · rfl

/-- REPORT sets the enable of one class and leaves the others (R180). -/
theorem FaultUnit.getLsbD_setEnable (f : FaultUnit) {i j : Nat} (on : Bool) (hj : j < 10) :
    (f.setEnable i on).enables.getLsbD j = if j = i then on else f.enables.getLsbD j := by
  by_cases hji : j = i
  · subst hji
    cases on <;> simp [setEnable, hj]
  · cases on <;> simp [setEnable, hj, hji]

/-- Settles O32: the arguments, the enables bit by bit, and ALERT. -/
theorem reportEnablesAndAlertDisableAreSet : Obligations.ReportEnablesAndAlertDisableAreSet := by
  refine ⟨fun s p h => ⟨fun on h4 h13 hon => ?report, fun hbad => ?badReport, ?all⟩,
    fun s p h => ⟨fun on hon => ?alert, fun hbad => ?badAlert⟩⟩
  case report =>
    refine ⟨(s.faults.setEnable (numberAt p 0 1 - 4) on).enables, ?_, fun i hi => ?_⟩
    · rw [exec_report h, State.setReport, reportArgs_of_sound h4 h13 hon]
      rfl
    · rw [FaultUnit.getLsbD_setEnable _ _ hi]
      have hiff : i = numberAt p 0 1 - 4 ↔ i + 4 = numberAt p 0 1 := by omega
      simp only [hiff]
  case badReport =>
    rw [exec_report h, State.setReport, reportArgs_of_unsound hbad]
    rfl
  case all => exact congrArg Host.Outcome.next (State.command_of_takes h)
  case alert =>
    have harg : alertDisableArg p = some on := by rw [alertDisableArg, hon, flagOf_flag]
    rw [exec_alertDisable h, State.setAlertDisable, harg]
    rfl
  case badAlert =>
    have harg : alertDisableArg p = none := flagOf_of_large hbad
    rw [exec_alertDisable h, State.setAlertDisable, harg]
    rfl

/-! ## PRESAVE (R91) -/

theorem TState.running_iff (st : TState) : st.running = true ↔ st = .active ∨ st = .restoring := by
  cases st <;> decide

theorem exec_presave {s : State} {p : List Byte} {a : PresaveArg} (h : s.takes p 1) (ha : presaveArg p = some a) :
    exec (.presave p) s = .next ((s.clearBuffer.presaveAs a).putReply 10 .done []).settle := by
  have hc : s.command 10 1 p false (fun s => s.presave p) = s.clearBuffer.presave p := State.command_of_takes h
  have hp : s.clearBuffer.presave p = ((s.clearBuffer.presaveAs a).putReply 10 .done []).settle := by
    rw [State.presave, ha]
  exact congrArg Host.Outcome.next (hc.trans hp)

/-- The engine whose STOPPED PACE timer is loaded where presave runs (R91). -/
theorem State.startPace_eq (s : State) :
    s.startPace = s.setEngine
      { s.engine with
        paceTimer :=
          if (s.tc.state = .active ∨ s.tc.state = .restoring) ∧ s.engine.presaveOn = true ∧
              s.engine.presavePaused = false ∧ s.engine.paceTimer.status = .stopped then
            { status := .running, count := s.side.params.presavePace }
          else s.engine.paceTimer } := by
  simp only [State.startPace, TState.running_iff]
  split <;> rfl

theorem State.gatePace_eq (t : Timer) :
    gatePace t =
      if t.status = .running then { status := .gated, count := t.count }
      else if t.status = .expired then { status := .gated, count := 0 }
      else t := by
  cases h : t.status <;> simp [gatePace, h]

theorem State.presaveResume_of_gated {s : State} (hg : s.engine.paceTimer.status = .gated)
    (hc : s.engine.paceTimer.count ≠ 0) :
    s.presaveResume = s.setEngine
      { s.engine with presavePaused := false, paceTimer := Timer.load s.engine.paceTimer.count } := by
  simp only [State.presaveResume, State.setEngine_engine, hg]
  exact if_neg hc

theorem State.presaveResume_of_gated_at_zero {s : State} (hg : s.engine.paceTimer.status = .gated)
    (hc : s.engine.paceTimer.count = 0) :
    s.presaveResume = (s.setEngine { s.engine with presavePaused := false }).paceExpires := by
  simp only [State.presaveResume, State.setEngine_engine, hg]
  exact if_pos hc

theorem State.presaveResume_of_not_gated {s : State} (hg : s.engine.paceTimer.status ≠ .gated) :
    s.presaveResume = (s.setEngine { s.engine with presavePaused := false }).startPace := by
  rw [State.presaveResume]
  split
  · exact absurd ‹_› hg
  · rfl

/-- An expiry of the PACE timer, and the report of an exhausted queue (R92, R94). -/
theorem State.paceExpires_eq (s : State) :
    s.paceExpires =
      match s.tracker.dirtyScan s.engine.presaveCursor with
      | some g =>
        if s.store.status = .attached ∧ s.engine.freeSlots = [] ∧ s.engine.exhaustionNoted = false then
          (s.setFaults (s.faults.take .slotExhausted g (.number 0) s.tc.state)).setEngine
            { s.engine with paceTimer := Timer.expired, exhaustionNoted := true }
        else s.setEngine { s.engine with paceTimer := Timer.expired }
      | none => s.setEngine { s.engine with paceTimer := Timer.expired } := by
  unfold State.paceExpires State.noteExhaustion
  simp only [State.setEngine_store, State.setEngine_engine, State.setEngine_tracker]
  cases s.tracker.dirtyScan s.engine.presaveCursor with
  | none => exact ite_self _
  | some g => exact ite_congr rfl (fun _ => rfl) (fun _ => rfl)

/-- Settles O34: the argument, and what each makes of the Image Engine before the state settles. -/
theorem presaveSetsTheEnableAndThePause : Obligations.PresaveSetsTheEnableAndThePause := by
  intro s p h answered runs loaded timer
  have settled : ∀ {t u : State}, t = u.setSide { u.side with buffer := none } → u.side = s.side →
      (t.putReply 10 .done []).settle = answered u := by
    rintro t u rfl hu
    simp only [answered, ← hu]
    rfl
  refine ⟨fun ha => ?on, fun ha => ?off, fun ha => ?pause, fun ha => ⟨fun hg hc => ?resume, fun hg hc => ?expired,
    fun hg => ?notGated⟩, fun ha => ?refused⟩
  case on =>
    have harg : presaveArg p = some .on := by rw [presaveArg, if_neg (by omega), if_pos ha]
    rw [exec_presave h harg]
    refine congrArg Host.Outcome.next (settled ?_ rfl)
    rw [State.presaveAs, State.presaveOn, State.startPace_eq]
    simp only [State.setEngine_engine, true_and]
    rfl
  case off =>
    have harg : presaveArg p = some .off := by rw [presaveArg, if_pos ha]
    rw [exec_presave h harg]
    exact congrArg Host.Outcome.next (settled rfl rfl)
  case pause =>
    have harg : presaveArg p = some .pause := by rw [presaveArg, if_neg (by omega), if_neg (by omega), if_pos ha]
    rw [exec_presave h harg]
    refine congrArg Host.Outcome.next (settled ?_ rfl)
    rw [← State.gatePace_eq]
    rfl
  case resume =>
    have harg : presaveArg p = some .resume := by
      rw [presaveArg, if_neg (by omega), if_neg (by omega), if_neg (by omega), if_pos ha]
    rw [exec_presave h harg]
    refine congrArg Host.Outcome.next (settled ?_ rfl)
    rw [State.presaveAs, State.presaveResume_of_gated (s := s.clearBuffer) hg hc]
    rfl
  case expired =>
    have harg : presaveArg p = some .resume := by
      rw [presaveArg, if_neg (by omega), if_neg (by omega), if_neg (by omega), if_pos ha]
    rw [exec_presave h harg]
    refine congrArg Host.Outcome.next (settled ?_ ?_)
    · rw [State.presaveAs, State.presaveResume_of_gated_at_zero (s := s.clearBuffer) hg hc, State.paceExpires_eq]
      show (match s.tracker.dirtyScan s.engine.presaveCursor with | some g => _ | none => _) = _
      cases s.tracker.dirtyScan s.engine.presaveCursor with
      | none => rfl
      | some g =>
        refine Eq.trans ?_ (apply_ite (fun u : State => u.setSide { u.side with buffer := none }) _ _ _).symm
        exact ite_congr rfl (fun _ => rfl) fun _ => rfl
    · cases s.tracker.dirtyScan s.engine.presaveCursor with
      | none => rfl
      | some g => dsimp only; split <;> rfl
  case notGated =>
    have harg : presaveArg p = some .resume := by
      rw [presaveArg, if_neg (by omega), if_neg (by omega), if_neg (by omega), if_pos ha]
    rw [exec_presave h harg]
    refine congrArg Host.Outcome.next (settled ?_ rfl)
    rw [State.presaveAs, State.presaveResume_of_not_gated (s := s.clearBuffer) hg, State.startPace_eq]
    simp only [State.setEngine_engine, true_and]
    rfl
  case refused =>
    have harg : presaveArg p = none := by
      rw [presaveArg, if_neg (by omega), if_neg (by omega), if_neg (by omega), if_neg (by omega)]
    have hp : s.clearBuffer.presave p = s.clearBuffer.putReply 10 .badArgument [] := by rw [State.presave, harg]
    exact congrArg Host.Outcome.next ((State.command_of_takes h).trans hp)

/-! ## Readings (R181, R187 to R190) -/

/-- Settles O35: the codes in their order, and each reading's layout. -/
theorem readingsReportAndChangeNothing : Obligations.ReadingsReportAndChangeNothing := by
  refine ⟨⟨by decide, by decide, by decide, by decide, by decide, by decide, by decide, by decide, by decide, by decide,
    fun _ => rfl, by decide, by decide, by decide, by decide⟩, fun s h => ⟨?fault, ?status, fun p hp => ?granule⟩⟩
  case fault => exact congrArg Host.Outcome.next (State.command_of_takes ⟨rfl, h⟩)
  case status => exact congrArg Host.Outcome.next (State.command_of_takes ⟨rfl, h⟩)
  case granule => exact congrArg Host.Outcome.next (State.command_of_takes ⟨hp, h⟩)

theorem exec_readSnapshot {s : State} {p : List Byte} (h : s.takes p 1) :
    exec (.readSnapshot p) s = .next (s.clearBuffer.readSnapshot p) :=
  congrArg Host.Outcome.next (State.command_of_takes h)

theorem timerBytes_eq (latched : Bool) (t : Timer) :
    timerBytes latched t = [if latched then 1 else 0] ++ leBytes 1 t.status.code ++ [0, 0] ++ leBytes 4 t.count := by
  have hflag : leBytes 1 (bit latched) = [if latched then 1 else 0] := by cases latched <;> decide
  have hzero : leBytes 2 0 = [0, 0] := by decide
  rw [timerBytes, hflag, hzero]

/-- A timer that a SNAPSHOT latches, by the mask's number. -/
theorem State.latchesNow_eq (s : State) (p : List Byte) (i : Fin 9) :
    s.latchesNow (snapshotArg p) i = ((numberAt p 0 2).testBit i.val && s.side.latches[i].isNone) := by
  rw [latchesNow, snapshotArg, BitVec.getLsbD_ofNat]
  simp [i.isLt]

/-- Settles O36: the mask bit by bit, and the latch that is read. -/
theorem snapshotLatchesAndReadSnapshotUnlatches : Obligations.SnapshotLatchesAndReadSnapshotUnlatches := by
  refine ⟨fun s => rfl, fun s p h => ?snapshot, fun s p h => ⟨fun i hi => ?read, fun hbad => ?refused⟩⟩
  case snapshot =>
    refine ⟨Vector.ofFn fun i : Fin 9 =>
      if s.latchesNow (snapshotArg p) i then some s.timers[i] else s.side.latches[i], ?_, fun i => ?_⟩
    · have hc : s.command 22 2 p false (fun s => s.snapshot p) = s.clearBuffer.snapshot p := State.command_of_takes h
      simp only [← State.latchesNow_eq]
      exact congrArg Host.Outcome.next hc
    · rw [← State.latchesNow_eq]
      exact Vector.getElem_ofFn _
  case read =>
    have hlt : numberAt p 0 1 < 9 := by omega
    have harg : timerArg p = some i := by
      rw [timerArg, dif_pos hlt]
      exact congrArg some (Fin.ext hi)
    rw [exec_readSnapshot h, State.readSnapshot, harg]
    have hlatch : s.clearBuffer.side.latches[i] = s.side.latches[i] := rfl
    simp only [hlatch, timerBytes_eq]
    cases s.side.latches[i] <;> rfl
  case refused =>
    have harg : timerArg p = none := dif_neg (by omega)
    rw [exec_readSnapshot h, State.readSnapshot, harg]
    rfl

end Sys2Proof.Machine
end

