-- ==== Sys2Proof/Proofs/SidebandTransitions.lean ====
section
/-! The commands that begin and end long operations: START (R137), LOAD_REGIONS (R36), ATTACH_STORE (R87), the entries
(R99, R139), ABORT_ENTRY (R142, R148), the exits (R130, R144, R146) and RELEASE_POISON (R131). -/

namespace Sys2Proof.Machine

namespace State

/-! ## Judging requests does not look at the Sideband Port

A command's owner runs on a state whose reply buffer is empty; what it judges and releases is what it would judge and
release without that (R183). -/

theorem ite_setSide {c : Prop} [Decidable c] {a b a' b' : State} {x : SidebandPort} (ha : a = a'.setSide x)
    (hb : b = b'.setSide x) : (if c then a else b) = (if c then a' else b').setSide x := by
  split
  · exact ha
  · exact hb

theorem noticeDirty_setSide (s : State) (x : SidebandPort) : (s.setSide x).noticeDirty = s.noticeDirty.setSide x :=
  ite_setSide rfl rfl

theorem appendSlots_setSide (s : State) (x : SidebandPort) (slots : List Nat) :
    (s.setSide x).appendSlots slots = (s.appendSlots slots).setSide x := ite_setSide rfl rfl

theorem claim_setSide (s : State) (x : SidebandPort) (g : Nat) (f : GRec → GRec) (frees : GRec → List Nat) :
    (s.setSide x).claim g f frees = (s.claim g f frees).setSide x := by
  have happend := appendSlots_setSide (s.setTracker (s.tracker.putRec g (f (s.recOf g)))) x (frees (s.recOf g))
  exact ite_setSide ((congrArg noticeDirty happend).trans (noticeDirty_setSide _ _)) happend

theorem issueWriteBack_setSide (s : State) (x : SidebandPort) (a : Nat) (n : Fin 32) :
    (s.setSide x).issueWriteBack a n = (s.issueWriteBack a n).setSide x := claim_setSide (s.present _ _) x _ _ _

theorem writeBack_setSide (s : State) (x : SidebandPort) (n : Fin 32) :
    (s.setSide x).writeBack n = (s.writeBack n).setSide x := by
  unfold writeBack
  rw [setSide_region]
  cases s.region.file.tableAddr with
  | none => rfl
  | some a => exact ite_setSide rfl (ite_setSide rfl (issueWriteBack_setSide s x a n))

theorem markWritten_setSide (s : State) (x : SidebandPort) (g : Nat) :
    (s.setSide x).markWritten g = (s.markWritten g).setSide x := by
  unfold markWritten
  change (match s.region.file.governing s.granules g with | none => _ | some n => _) = _
  cases s.region.file.governing s.granules g with
  | none => rfl
  | some n => exact ite_setSide rfl (writeBack_setSide (s.setRegion _) x n)

theorem answer_setSide (s : State) (x : SidebandPort) (e : Entry) (c : FaultClass) (st : CompletionStatus) :
    (s.setSide x).answer e c st = (s.answer e c st).setSide x := ite_setSide rfl rfl

theorem issue_setSide (s : State) (x : SidebandPort) (e : Entry) : (s.setSide x).issue e = (s.issue e).setSide x := by
  unfold issue
  cases e.kind <;> rfl

theorem joinFillList_setSide (s : State) (x : SidebandPort) (g : Nat) :
    (s.setSide x).joinFillList g = (s.joinFillList g).setSide x := ite_setSide rfl rfl

theorem holdFill_setSide (s : State) (x : SidebandPort) (e : Entry) :
    (s.setSide x).holdFill e = (s.holdFill e).setSide x :=
  ite_setSide (joinFillList_setSide (s.hold e .fill) x e.granule) rfl

theorem proceed_setSide (s : State) (x : SidebandPort) (e : Entry) :
    (s.setSide x).proceed e = (s.proceed e).setSide x := by
  unfold proceed
  cases e.kind with
  | read => exact issue_setSide s x e
  | write => rw [issue_setSide, claimWrite, claim_setSide, markWritten_setSide]; rfl

theorem settleEntry_setSide (s : State) (x : SidebandPort) (e : Entry) :
    (s.setSide x).settleEntry e = (s.settleEntry e).setSide x := by
  unfold settleEntry
  change (match s.judgement e with
    | .untracked => _ | .range => _ | .fixedWrite => _ | .commitHold => _ | .fillHold => _ | .poisonRead => _
    | .proceed => _) = _
  cases s.judgement e with
  | untracked => exact issue_setSide s x e
  | range | fixedWrite | poisonRead => exact answer_setSide s x e _ _
  | commitHold => rfl
  | fillHold => exact holdFill_setSide s x e
  | proceed => exact proceed_setSide s x e

theorem judgeLine_setSide (x : SidebandPort) :
    ∀ (fuel line : Nat) (s : State), judgeLine fuel line (s.setSide x) = (judgeLine fuel line s).setSide x
  | 0, _, _ => rfl
  | fuel + 1, line, s => by
    unfold judgeLine
    rw [setSide_ru]
    cases s.ru.oldest line with
    | none => rfl
    | some e =>
      have hsettle := settleEntry_setSide s x e
      refine ite_setSide (ite_setSide ?_ hsettle) rfl
      exact (congrArg (judgeLine fuel line) hsettle).trans (judgeLine_setSide x fuel line _)

theorem judge_setSide (s : State) (x : SidebandPort) (e : Entry) : (s.setSide x).judge e = (s.judge e).setSide x :=
  have hsettle := settleEntry_setSide s x e
  ite_setSide ((congrArg (judgeLine _ _) hsettle).trans (judgeLine_setSide x _ _ _)) hsettle

theorem takeUp_setSide (s : State) (x : SidebandPort) (e : Entry) : (s.setSide x).takeUp e = (s.takeUp e).setSide x :=
  ite_setSide rfl (judge_setSide s x e)

theorem release_setSide (reason : Hold) (s : State) (x : SidebandPort) (tag : BitVec 5) :
    release reason (s.setSide x) tag = (release reason s tag).setSide x := by
  unfold release
  rw [setSide_ru]
  cases s.ru.find tag with
  | none => rfl
  | some e =>
    refine ite_setSide ?_ rfl
    cases reason with
    | regionLoad | parking => exact takeUp_setSide (s.updateEntry tag fun _ => s.classify e) x _
    | fill | commit => exact judge_setSide s x e

theorem releaseAll_setSide (s : State) (x : SidebandPort) (reason : Hold) :
    (s.setSide x).releaseAll reason = (s.releaseAll reason).setSide x :=
  List.foldl_hom (fun t : State => t.setSide x) fun t tag => release_setSide reason t x tag

theorem parkReturn_clearBuffer (s : State) (kind : AbortKind) :
    s.clearBuffer.parkReturn kind = (s.parkReturn kind).setSide s.clearBuffer.side :=
  congrArg
    (fun r : State => (r.report .entryAborted 0 (.number 0)).writeOutcome r.tc.origin (abortResult kind) .none)
    (releaseAll_setSide
      (s.enterRunning.setTc
        { s.enterRunning.tc with parkPhase := .none, waitingAbort := none, parkStoreDown := false })
      s.clearBuffer.side .parking)

theorem parkAbort_clearBuffer (s : State) (kind : AbortKind) :
    s.clearBuffer.parkAbort kind = (s.parkAbort kind).setSide s.clearBuffer.side := by
  unfold parkAbort
  change (match s.tc.waitingAbort with | some _ => _ | none => _) = _
  cases s.tc.waitingAbort with
  | some k => rfl
  | none =>
    change (match s.tc.parkPhase with | .drain => _ | .pattern => _ | .srEntry => _ | .none | .undo => _) = _
    cases s.tc.parkPhase with
    | drain => exact parkReturn_clearBuffer s kind
    | none | pattern | srEntry | undo => rfl

theorem parkAbort_waiting {s : State} (kind : AbortKind) (h : s.tc.waitingAbort ≠ none) : s.parkAbort kind = s := by
  unfold parkAbort
  cases hw : s.tc.waitingAbort with
  | none => exact absurd hw h
  | some k => rfl

theorem parkAbort_drain {s : State} (kind : AbortKind) (h : s.tc.waitingAbort = none) (hp : s.tc.parkPhase = .drain) :
    s.parkAbort kind = s.parkReturn kind := by rw [parkAbort, h, hp]

theorem parkAbort_pattern {s : State} (kind : AbortKind) (h : s.tc.waitingAbort = none)
    (hp : s.tc.parkPhase = .pattern) : s.parkAbort kind = s.setTc { s.tc with waitingAbort := some kind } := by
  rw [parkAbort, h, hp]

theorem parkAbort_srEntry {s : State} (kind : AbortKind) (h : s.tc.waitingAbort = none)
    (hp : s.tc.parkPhase = .srEntry) :
    s.parkAbort kind = s.setTc { s.tc with waitingAbort := some kind, parkPhase := .undo } := by rw [parkAbort, h, hp]

/-! ## START (R137) -/

theorem putDeferred_of_ready {s : State} (h : s.side.handling = false) (command : Nat) (code : ReplyCode) :
    s.putDeferred command code = s.putReply command code [] := by
  unfold putDeferred putReply
  rw [← h]

theorem acceptStart_of_ready {s : State} (h : s.side.handling = false) (r : StartReq) :
    s.clearBuffer.acceptStart r =
      ((((s.setTc
        { s.tc with origin := .start, fetching := none, start := some { r with phase := .draining } }).setRegion
        { s.region with file := RegionFile.empty }).setTracker { State.reset.tracker with units := r.units }).setEngine
        { s.engine with presaveCursor := 0, fillCursor := 0 }).putReply 1 .accepted [] := by
  unfold acceptStart
  rw [putDeferred_of_ready (by exact h)]
  rfl

theorem startTaken_iff (s : State) :
    s.startTaken = true ↔ s.tc.state = .unconfigured ∧ s.lines.mainOk = true ∧ s.lines.memOk = true := by
  simp [startTaken, railsOk]

theorem anyCopying_iff (s : State) :
    s.anyCopying = true ↔ ∃ x ∈ s.tracker.table, x.2.st = .copying ∨ x.2.st = .recopy := by
  simp [anyCopying, List.any_eq_true]

theorem railsOk_iff (s : State) : s.railsOk = true ↔ s.lines.mainOk = true ∧ s.lines.memOk = true := by
  simp [railsOk]

end State

theorem flagOf_of_small {n : Nat} (h : n ≤ 1) : flagOf n = some (decide (n = 1)) := by
  obtain rfl | rfl : n = 0 ∨ n = 1 := by omega
  all_goals rfl

theorem startArgs_of_sound {p : List Byte}
    (h : numberAt p 0 1 ≤ 1 ∧ 4 ≤ numberAt p 1 1 ∧ numberAt p 1 1 ≤ 64 ∧ numberAt p 2 1 ≤ 1) :
    startArgs p = some
      { fresh := !decide (numberAt p 0 1 = 1), units := numberAt p 1 1, storeUse := decide (numberAt p 2 1 = 1),
        tableAddr := numberAt p 4 8 } := by
  obtain ⟨hresume, hlow, hhigh, huse⟩ := h
  rw [startArgs, flagOf_of_small hresume, flagOf_of_small huse]
  exact if_pos ⟨hlow, hhigh⟩

theorem startArgs_of_unsound {p : List Byte}
    (h : ¬ (numberAt p 0 1 ≤ 1 ∧ 4 ≤ numberAt p 1 1 ∧ numberAt p 1 1 ≤ 64 ∧ numberAt p 2 1 ≤ 1)) :
    startArgs p = none := by
  by_cases hresume : numberAt p 0 1 ≤ 1
  · by_cases huse : numberAt p 2 1 ≤ 1
    · rw [startArgs, flagOf_of_small hresume, flagOf_of_small huse]
      exact if_neg fun hunits => h ⟨hresume, hunits.1, hunits.2, huse⟩
    · rw [startArgs, flagOf_of_large (Nat.lt_of_not_le huse)]
      cases flagOf (numberAt p 0 1) <;> rfl
  · rw [startArgs, flagOf_of_large (Nat.lt_of_not_le hresume)]

theorem exec_start {s : State} {p : List Byte} (h : s.takesLong p 12) :
    exec (.start p) s = .next (s.clearBuffer.start p) := congrArg Host.Outcome.next (State.command_of_takesLong h)

namespace State

variable {s : State} {p : List Byte} {a : StartArgs}

theorem start_of_not_taken (h : ¬ (s.tc.state = .unconfigured ∧ s.lines.mainOk = true ∧ s.lines.memOk = true)) :
    s.start p = s.putReply 1 .wrongState [] := if_neg (mt s.startTaken_iff.mp h)

theorem start_of_taken (h : s.tc.state = .unconfigured ∧ s.lines.mainOk = true ∧ s.lines.memOk = true) :
    s.start p =
      match startArgs p with
      | none => s.putReply 1 .badArgument []
      | some a =>
        if a.fresh then
          if tableAddrOk (Config.unitGranules * a.units) a.tableAddr then s.fetchTable a
          else s.putReply 1 .badArgument []
        else if a.storeUse then (s.acceptStart (startRequest a .draining)).settle
        else s.putReply 1 .storeUnavailable [] := if_pos (s.startTaken_iff.mpr h)

theorem start_of_fresh (h : s.tc.state = .unconfigured ∧ s.lines.mainOk = true ∧ s.lines.memOk = true)
    (ha : startArgs p = some a) (hf : a.fresh = true) :
    s.start p =
      if tableAddrOk (Config.unitGranules * a.units) a.tableAddr then s.fetchTable a
      else s.putReply 1 .badArgument [] := by
  rw [start_of_taken h, ha]
  exact if_pos hf

theorem start_of_resume (h : s.tc.state = .unconfigured ∧ s.lines.mainOk = true ∧ s.lines.memOk = true)
    (ha : startArgs p = some a) (hf : a.fresh = false) :
    s.start p =
      if a.storeUse then (s.acceptStart (startRequest a .draining)).settle
      else s.putReply 1 .storeUnavailable [] := by
  rw [start_of_taken h, ha]
  exact if_neg (by rw [hf]; decide)

end State

/-- Settles O37: the checks in their order, and what the two kinds of START begin. -/
theorem startIsJudgedInOrder : Obligations.StartIsJudgedInOrder := by
  intro s p h
  refine ⟨fun ht => ?wrongState, fun ht hs => ?unsound, fun ht hs hr hu => ?storeUnavailable,
    fun ht hs hr hu => ?resume, fun ht hs hr hl => ?unlocated, fun ht hs hr hl => ?fresh⟩ <;>
    rw [exec_start h]
  case wrongState => exact congrArg Host.Outcome.next (State.start_of_not_taken ht)
  case unsound =>
    refine congrArg Host.Outcome.next ((State.start_of_taken ht).trans ?_)
    rw [startArgs_of_unsound hs]
  all_goals
    have harg := startArgs_of_sound hs
    have hresume : numberAt p 0 1 = _ := hr
    rw [hresume] at harg
  case storeUnavailable =>
    have huse : numberAt p 2 1 = 0 := hu
    rw [huse] at harg
    exact congrArg Host.Outcome.next (State.start_of_resume ht harg rfl)
  case resume =>
    have huse : numberAt p 2 1 = 1 := hu
    rw [huse] at harg
    have hstart := (State.start_of_resume (s := s.clearBuffer) ht harg rfl).trans (if_pos rfl)
    rw [hstart, State.acceptStart_of_ready h.1.2]
    rfl
  case unlocated =>
    exact congrArg Host.Outcome.next
      ((State.start_of_fresh ht harg rfl).trans (if_neg (mt (tableAddrOk_iff _ _).mp hl)))
  case fresh =>
    exact congrArg Host.Outcome.next ((State.start_of_fresh ht harg rfl).trans (if_pos ((tableAddrOk_iff _ _).mpr hl)))

/-! ## LOAD_REGIONS and ATTACH_STORE (R36, R87) -/

theorem exec_loadRegions {s : State} {p : List Byte} (h : s.takesLong p 8) :
    exec (.loadRegions p) s = .next (s.clearBuffer.loadRegions p) :=
  congrArg Host.Outcome.next (State.command_of_takesLong h)

theorem exec_attachStore {s : State} (h : s.takesLong [] 0) :
    exec (.attachStore []) s = .next s.clearBuffer.attachStore :=
  congrArg Host.Outcome.next (State.command_of_takesLong h)

/-- Settles O38: the checks of both in their order, and what each begins. -/
theorem loadRegionsAndAttachStoreAreJudgedInOrder : Obligations.LoadRegionsAndAttachStoreAreJudgedInOrder := by
  intro s p hready hrail
  refine ⟨fun hp => ?load, ?attach⟩
  case load =>
    have hlocated := tableAddrOk_iff s.granules (numberAt p 0 8)
    refine ⟨fun hs => ?notActive, fun hs hl => ?unlocated, fun hs hl hc => ?copying, fun hs hl hc => ?begun⟩ <;>
      rw [exec_loadRegions ⟨⟨hp, hready⟩, hrail⟩]
    case notActive => exact congrArg Host.Outcome.next (if_pos hs)
    case unlocated =>
      have hbad : tableAddrOk s.granules (numberAt p 0 8) = false := Bool.eq_false_iff.mpr (mt hlocated.mp hl)
      exact congrArg Host.Outcome.next ((if_neg (not_not_intro hs)).trans (if_pos hbad))
    all_goals
      have hok : ¬ tableAddrOk s.granules (numberAt p 0 8) = false := Bool.not_eq_false _ ▸ hlocated.mpr hl
    case copying =>
      exact congrArg Host.Outcome.next ((if_neg (not_not_intro hs)).trans
        ((if_neg hok).trans (if_pos (s.anyCopying_iff.mpr hc))))
    case begun =>
      exact congrArg Host.Outcome.next ((if_neg (not_not_intro hs)).trans
        ((if_neg hok).trans (if_neg (mt s.anyCopying_iff.mp hc))))
  case attach =>
    rintro rfl
    refine ⟨fun hs => ?_, fun hs hd => ?_⟩ <;> rw [exec_attachStore ⟨⟨rfl, hready⟩, hrail⟩]
    · exact congrArg Host.Outcome.next (if_pos hs)
    · exact congrArg Host.Outcome.next (if_neg (not_or.mpr ⟨not_not_intro hs, hd⟩))

/-! ## Entries (R99, R139) -/

theorem exec_sleep {s : State} {p : List Byte} (h : s.takesLong p 1) :
    exec (.sleep p) s = .next (s.clearBuffer.sleep p) := congrArg Host.Outcome.next (State.command_of_takesLong h)

theorem exec_hybrid {s : State} {p : List Byte} (h : s.takesLong p 1) :
    exec (.hybrid p) s = .next (s.clearBuffer.imagedEntry 5 .hybrid p) :=
  congrArg Host.Outcome.next (State.command_of_takesLong h)

theorem exec_hibernate {s : State} {p : List Byte} (h : s.takesLong p 1) :
    exec (.hibernate p) s = .next (s.clearBuffer.imagedEntry 6 .hibernate p) :=
  congrArg Host.Outcome.next (State.command_of_takesLong h)

namespace State

variable {s : State} {p : List Byte}

theorem imagedEntry_of_not_running (code : Nat) (op : LongOp) (h : s.tc.state.running ≠ true) :
    s.imagedEntry code op p = s.putReply code .wrongState [] := if_neg h

theorem imagedEntry_of_bad_flag (code : Nat) (op : LongOp) (h : s.tc.state.running = true)
    (hp : abortableArg p = none) : s.imagedEntry code op p = s.putReply code .badArgument [] := by
  rw [imagedEntry, if_pos h, hp]

theorem imagedEntry_of_unattached {flag : Bool} (code : Nat) (op : LongOp) (h : s.tc.state.running = true)
    (hp : abortableArg p = some flag) (hs : s.store.status ≠ .attached) :
    s.imagedEntry code op p = s.putReply code .storeUnavailable [] := by
  rw [imagedEntry, if_pos h, hp]
  exact if_neg hs

theorem imagedEntry_of_attached {flag : Bool} (code : Nat) (op : LongOp) (h : s.tc.state.running = true)
    (hp : abortableArg p = some flag) (hs : s.store.status = .attached) :
    s.imagedEntry code op p = ((s.beginEntry op flag).putReply code .accepted []).settle := by
  rw [imagedEntry, if_pos h, hp]
  exact if_pos hs

theorem enterParking_clearBuffer (s : State) : s.clearBuffer.enterParking = s.enterParking.clearBuffer := rfl

theorem acceptTransition_clearBuffer (s : State) (op : LongOp) (flag : Bool) :
    (s.clearBuffer.acceptTransition op).setAbortable flag =
      ((s.acceptTransition op).setAbortable flag).clearBuffer := rfl

theorem beginEntry_clearBuffer (s : State) (op : LongOp) (flag : Bool) :
    s.clearBuffer.beginEntry op flag = (s.beginEntry op flag).clearBuffer := rfl

theorem sleep_of_flag {flag : Bool} (h : s.tc.state.running = true) (hp : abortableArg p = some flag) :
    s.clearBuffer.sleep p =
      ((((s.acceptTransition .sleep).setAbortable flag).enterParking).putReply 4 .accepted []).settle := by
  have hr : s.clearBuffer.tc.state.running = true := h
  rw [sleep, if_pos hr, hp]
  dsimp only
  rw [acceptTransition_clearBuffer, enterParking_clearBuffer, putReply_clearBuffer]

end State

/-- Settles O39: the checks in their order, and what an entry begins. -/
theorem entriesAreJudgedInOrder : Obligations.EntriesAreJudgedInOrder := by
  intro s p h
  refine ⟨fun hr => ?notRunning, fun hr hflag => ?badFlag, fun hr flag hflag => ⟨?sleep, fun hs => ?unattached,
    fun hs => ?attached⟩⟩
  all_goals simp only [exec_sleep h, exec_hybrid h, exec_hibernate h]
  case notRunning =>
    have hr : s.clearBuffer.tc.state.running ≠ true := mt (TState.running_iff _).mp hr
    rw [State.imagedEntry_of_not_running _ _ hr, State.imagedEntry_of_not_running _ _ hr, State.sleep, if_neg hr]
    exact ⟨rfl, rfl, rfl⟩
  all_goals replace hr : s.clearBuffer.tc.state.running = true := (TState.running_iff _).mpr hr
  case badFlag =>
    have harg : abortableArg p = none := flagOf_of_large hflag
    rw [State.imagedEntry_of_bad_flag _ _ hr harg, State.imagedEntry_of_bad_flag _ _ hr harg, State.sleep, if_pos hr,
      harg]
    exact ⟨rfl, rfl, rfl⟩
  all_goals have harg : abortableArg p = some flag := by rw [abortableArg, hflag, flagOf_flag]
  case sleep => exact congrArg Host.Outcome.next (State.sleep_of_flag hr harg)
  case unattached =>
    rw [State.imagedEntry_of_unattached _ _ hr harg hs, State.imagedEntry_of_unattached _ _ hr harg hs]
    exact ⟨rfl, rfl⟩
  case attached =>
    rw [State.imagedEntry_of_attached _ _ hr harg hs, State.imagedEntry_of_attached _ _ hr harg hs,
      State.beginEntry_clearBuffer, State.beginEntry_clearBuffer]
    exact ⟨rfl, rfl⟩

/-! ## ABORT_ENTRY (R142, R148) -/

theorem exec_abortEntry {s : State} (h : s.takesLong [] 0) :
    exec (.abortEntry []) s = .next s.clearBuffer.abortEntry :=
  congrArg Host.Outcome.next (State.command_of_takesLong h)

theorem State.side_parkAbort (s : State) (kind : AbortKind) : (s.parkAbort kind).side = s.side := by
  unfold State.parkAbort
  cases s.tc.waitingAbort with
  | some k => rfl
  | none =>
    cases s.tc.parkPhase with
    | drain =>
      show (s.parkReturn kind).side = s.side
      rw [State.parkReturn_eq]
      exact (State.judges_releaseAll _ _).side
    | none | pattern | srEntry | undo => rfl

theorem exec_abortEntry_parking {s : State} (h : s.takesLong [] 0) (hs : s.tc.state = .parking) :
    exec (.abortEntry []) s = .next ((s.parkAbort .request).putReply 7 .accepted []).settle := by
  have hs' : s.clearBuffer.tc.state = .parking := hs
  have hreply : (s.clearBuffer.parkAbort .request).putReply 7 .accepted [] =
      (s.parkAbort .request).putReply 7 .accepted [] := by
    rw [State.parkAbort_clearBuffer, State.putReply, State.putReply, State.side_parkAbort]
    rfl
  rw [exec_abortEntry h, State.abortEntry, hs']
  exact congrArg (fun t : State => Host.Outcome.next t.settle) hreply

theorem abortEntry_saving {s : State} (hs : s.tc.state = .saving ∨ s.tc.state = .committing) :
    s.abortEntry =
      ((s.setTc { s.tc with waitingAbort := s.tc.waitingAbort.or (some .request) }).putReply 7 .accepted []).settle := by
  rcases hs with hs | hs <;> rw [State.abortEntry, hs]

theorem abortEntry_elsewhere {s : State} (h1 : s.tc.state ≠ .saving) (h2 : s.tc.state ≠ .committing)
    (h3 : s.tc.state ≠ .parking) : s.abortEntry = s.putReply 7 .wrongState [] := by
  unfold State.abortEntry
  cases hs : s.tc.state with
  | saving => exact absurd hs h1
  | committing => exact absurd hs h2
  | parking => exact absurd hs h3
  | _ => rfl

/-- Settles O40: the abort of each state and phase, and the return of a park. -/
theorem abortEntryActsByState : Obligations.AbortEntryActsByState := by
  refine ⟨fun s h => ⟨fun hs => ?saving, fun hs => ⟨fun hw hp => ?drain, fun hw hp => ?pattern, fun hw hp => ?srEntry,
    fun hw => ?waiting⟩, fun h1 h2 h3 => ?refused⟩, fun s kind => ⟨State.parkAbort_waiting kind, fun hw =>
      ⟨State.parkAbort_drain kind hw, State.parkAbort_pattern kind hw, State.parkAbort_srEntry kind hw⟩,
    s.parkReturn_eq kind, ?returned⟩⟩
  case saving =>
    have hor : s.tc.waitingAbort.or (some .request) =
        match s.tc.waitingAbort with
        | none => some .request
        | some k => some k := by cases s.tc.waitingAbort <;> rfl
    rw [exec_abortEntry h, abortEntry_saving (s := s.clearBuffer) hs]
    exact congrArg
      (fun w => Host.Outcome.next ((s.setTc { s.tc with waitingAbort := w }).putReply 7 .accepted []).settle) hor
  case drain => rw [exec_abortEntry_parking h hs, State.parkAbort_drain _ hw hp]
  case pattern => rw [exec_abortEntry_parking h hs, State.parkAbort_pattern _ hw hp]
  case srEntry => rw [exec_abortEntry_parking h hs, State.parkAbort_srEntry _ hw hp]
  case waiting => rw [exec_abortEntry_parking h hs, State.parkAbort_waiting _ hw]
  case refused =>
    rw [exec_abortEntry h, abortEntry_elsewhere (s := s.clearBuffer) h1 h2 h3]
    rfl
  case returned =>
    rw [State.parkReturn_eq]
    refine ⟨rfl, rfl, rfl, rfl, rfl, rfl, ?_⟩
    cases kind <;> rfl

/-! ## Exits (R130, R144, R146) -/

theorem exec_exitSleep {s : State} (h : s.takesLong [] 0) : exec (.exitSleep []) s = .next s.clearBuffer.exitSleep :=
  congrArg Host.Outcome.next (State.command_of_takesLong h)

theorem exec_exitImaged {s : State} (h : s.takesLong [] 0) :
    exec (.exitImaged []) s = .next s.clearBuffer.exitImaged :=
  congrArg Host.Outcome.next (State.command_of_takesLong h)

/-- Settles O41: the state and the rails that each exit needs, and what it begins. -/
theorem exitsBeginOrAreRefused : Obligations.ExitsBeginOrAreRefused := by
  intro s h
  have hrails := s.railsOk_iff
  refine ⟨fun hs => ?_, fun hs => ?_, fun hs => ?_, fun hs => ?_⟩
  · rw [exec_exitSleep h]
    exact congrArg Host.Outcome.next (if_pos ⟨hs.1, hrails.mpr hs.2⟩)
  · rw [exec_exitSleep h]
    exact congrArg Host.Outcome.next (if_neg fun hc => hs ⟨hc.1, hrails.mp hc.2⟩)
  · rw [exec_exitImaged h]
    exact congrArg Host.Outcome.next (if_pos ⟨hs.1, hrails.mpr hs.2⟩)
  · rw [exec_exitImaged h]
    exact congrArg Host.Outcome.next (if_neg fun hc => hs ⟨hc.1, hrails.mp hc.2⟩)

/-! ## RELEASE_POISON (R20, R131) -/

theorem State.claimAll_setSide (s : State) (x : SidebandPort) (f : Nat → GRec → GRec) (frees : GRec → List Nat) :
    (s.setSide x).claimAll f frees = (s.claimAll f frees).setSide x := by
  have happend := State.appendSlots_setSide (s.setTracker (s.tracker.mapRecs f)) x
    (s.tracker.table.flatMap fun y => frees y.2)
  exact State.ite_setSide ((congrArg State.noticeDirty happend).trans (State.noticeDirty_setSide _ _)) happend

/-- What RELEASE_POISON makes of a granule's record. -/
def GRec.releasedIn (first count g : Nat) (r : GRec) : GRec :=
  if first ≤ g ∧ g < first + count then r.releasePoison else r

theorem GRec.releasedIn_eq (first count g : Nat) (r : GRec) :
    r.releasedIn first count g =
      if (first ≤ g ∧ g < first + count) ∧ r.st = .poison then { r with st := .dirty } else r := by
  unfold releasedIn releasePoison
  by_cases hg : first ≤ g ∧ g < first + count
  · cases h : r.st <;> simp [hg]
  · simp [hg]

theorem GRec.entersDirty_releasedIn (first count g : Nat) (r : GRec) :
    r.entersDirty (r.releasedIn first count g) =
      (decide (first ≤ g ∧ g < first + count) && decide (r.st = .poison)) := by
  unfold releasedIn
  split
  · rename_i h
    rw [entersDirty_releasePoison, decide_eq_true h, Bool.true_and]
  · rename_i h
    rw [decide_eq_false h, Bool.false_and]
    cases hr : r.st <;> simp [entersDirty, hr]

namespace State

theorem claimRelease_eq (s : State) (first count : Nat) :
    s.claimRelease first count = s.claimAll (fun g r => r.releasedIn first count g) fun _ => [] := rfl

/-- The number of POISON granules of a range, by the condition of the range. -/
theorem poisonIn_eq (s : State) (first count : Nat) :
    s.poisonIn first count =
      s.tracker.table.countP fun x =>
        decide (first ≤ x.1 ∧ x.1 < first + count) && decide (x.2.st = .poison) := by
  simp [poisonIn]

theorem releaseEnters_eq_false_iff (s : State) (first count : Nat) :
    (s.tracker.table.any fun x => x.2.entersDirty (x.2.releasedIn first count x.1)) = false ↔
      s.poisonIn first count = 0 := by
  rw [poisonIn_eq, List.countP_eq_zero, List.any_eq_false]
  simp only [GRec.entersDirty_releasedIn]

theorem claimRelease_putReply_clearBuffer (s : State) (first count : Nat) (command : Nat) (code : ReplyCode)
    (data : List Byte) :
    (s.clearBuffer.claimRelease first count).putReply command code data =
      (s.claimRelease first count).putReply command code data := by
  have hside : (s.claimRelease first count).side = s.side := by rw [claimRelease_eq, only_claimAll]; rfl
  rw [claimRelease_eq, claimRelease_eq, clearBuffer, claimAll_setSide, ← claimRelease_eq, putReply, putReply, hside]
  rfl

end State

theorem releaseArgs_of_sound {granules : Nat} {p : List Byte} (h0 : 0 < numberAt p 4 4)
    (h1 : numberAt p 0 4 + numberAt p 4 4 ≤ granules) :
    releaseArgs granules p = some (numberAt p 0 4, numberAt p 4 4) := if_neg (by omega)

theorem exec_releasePoison {s : State} {p : List Byte} (h : s.takesLong p 8) :
    exec (.releasePoison p) s = .next (s.clearBuffer.releasePoison p) :=
  congrArg Host.Outcome.next (State.command_of_takesLong h)

/-- Settles O42: the checks in their order, and the claim on every granule of the range. -/
theorem releasePoisonMakesPoisonDirty : Obligations.ReleasePoisonMakesPoisonDirty := by
  intro s p h
  refine ⟨fun hr => ?notRunning, fun hr hbad => ?badArgument, fun hr h0 h1 hwf => ?released⟩
  case notRunning =>
    rw [exec_releasePoison h]
    exact congrArg Host.Outcome.next (if_neg (mt (TState.running_iff _).mp hr))
  all_goals replace hr : s.clearBuffer.tc.state.running = true := (TState.running_iff _).mpr hr
  case badArgument =>
    have harg : releaseArgs s.clearBuffer.granules p = none := if_pos hbad
    rw [exec_releasePoison h, State.releasePoison, if_pos hr, harg]
    rfl
  case released =>
    have harg : releaseArgs s.clearBuffer.granules p = some (numberAt p 0 4, numberAt p 4 4) :=
      releaseArgs_of_sound h0 h1
    have honly := s.only_claimAll (fun g r => r.releasedIn (numberAt p 0 4) (numberAt p 4 4) g) fun _ => []
    refine ⟨s.claimRelease (numberAt p 0 4) (numberAt p 4 4), ?exec, fun g => ?records, ?notice, ?slots, ?others⟩
    case exec =>
      rw [exec_releasePoison h, State.releasePoison, if_pos hr, harg]
      dsimp only
      rw [State.claimRelease_putReply_clearBuffer]
      show Host.Outcome.next (State.putReply _ _ _ (leBytes 4 (s.poisonIn _ _))).settle = _
      rw [State.poisonIn_eq]
    case records =>
      rw [State.claimRelease_eq, State.recOf_claimAll _ hwf (by simp [GRec.releasedIn_eq, GRec.blank])]
      exact GRec.releasedIn_eq _ _ _ _
    case notice =>
      rw [← State.poisonIn_eq]
      split
      · rename_i hn
        have hquiet := (s.releaseEnters_eq_false_iff _ _).mpr hn
        have hslots : (s.tracker.table.flatMap fun _ => ([] : List Nat)) = [] := by simp
        rw [State.claimRelease_eq, State.engine_claimAll_of_unnoticed _ hquiet, hslots, List.append_nil,
          decide_eq_true rfl, Bool.and_true]
      · rename_i hn
        exact State.claimAll_noticed _ (Bool.eq_true_of_not_eq_false (mt (s.releaseEnters_eq_false_iff _ _).mp hn))
    case slots =>
      rw [State.claimRelease_eq, State.freeSlots_claimAll]
      simp
    case others =>
      rw [State.claimRelease_eq, honly]
      exact ⟨rfl, rfl, rfl, rfl, rfl, rfl, rfl⟩

end Sys2Proof.Machine
end

