-- ==== Sys2Proof/Proofs/Ranges.lean ====
section
/-! The fill list, the retired list and the records beyond the last granule stay in their ranges (`Ranged`): what each
operation of the part can do to them (R3, R81, R114), up to a step. -/

namespace Sys2Proof.Machine

set_option Elab.async false

/-- The fill list names a granule at most once, and at most 32 of them (R114). -/
def ImageEngine.fillListInRange (e : ImageEngine) : Prop := e.fillList.Nodup ∧ e.fillList.length ≤ 32

/-- The retired lists that a bring-up may still put in place hold at most 256 slots (R81, R85, R88, R126). -/
def BringUp.retiredInRange (b : BringUp) : Prop :=
  b.formerRetired.length ≤ 256 ∧ (∀ h, b.header0 = some h → h.retired.length ≤ 256) ∧
    ∀ h, b.header1 = some h → h.retired.length ≤ 256

theorem ImageEngine.retiredInRange_iff (e : ImageEngine) :
    e.retiredInRange ↔ e.retired.length ≤ 256 ∧ ∀ b, e.bringUp = some b → b.retiredInRange := Iff.rfl

/-- `t` comes from `s` by operations that keep the ranges of the fill list, of the retired lists and of the table. -/
structure Ranged (s t : State) : Prop extends Evolves s t where
  fill : s.ru.tagsDistinct → s.engine.fillListInRange → t.engine.fillListInRange
  retired : s.engine.retiredInRange → t.engine.retiredInRange
  blank : s.tracker.sound → s.checkBlank → t.checkBlank

theorem Ranged.refl (s : State) : Ranged s s := ⟨.refl s, fun _ => id, id, fun _ => id⟩

theorem Ranged.trans {s t u : State} (a : Ranged s t) (b : Ranged t u) : Ranged s u :=
  ⟨a.toEvolves.trans b.toEvolves, fun hd => b.fill (a.tags hd) ∘ a.fill hd, b.retired ∘ a.retired,
    fun hs => b.blank (a.sound hs) ∘ a.blank hs⟩

theorem Ranged.foldl {α : Type} (f : State → α → State) (h : ∀ s x, Ranged s (f s x)) :
    ∀ (l : List α) (s : State), Ranged s (l.foldl f s)
  | [], s => .refl s
  | x :: l, s => (h s x).trans (Ranged.foldl f h l (f s x))

/-- The retired lists stay where none is put in place and no bring-up begins. -/
theorem ImageEngine.retiredInRange_of_kept {e e' : ImageEngine} (hr : e'.retired = e.retired)
    (hb : e'.bringUp = e.bringUp ∨ e'.bringUp = none) (h : e.retiredInRange) : e'.retiredInRange := by
  refine ⟨by rw [hr]; exact h.1, fun b hsome => ?_⟩
  rcases hb with hb | hb
  · exact h.2 b (hb ▸ hsome)
  · rw [hb] at hsome
    cases hsome

/-- Operations on the Image Engine that leave its lists in place. -/
theorem Ranged.of_lists_kept {s t : State} (h : Evolves s t) (blank : s.tracker.sound → s.checkBlank → t.checkBlank)
    (hf : t.engine.fillList = s.engine.fillList := by exact rfl)
    (hr : t.engine.retired = s.engine.retired := by exact rfl)
    (hb : t.engine.bringUp = s.engine.bringUp ∨ t.engine.bringUp = none := by exact .inl rfl) : Ranged s t :=
  ⟨h, fun _ hl => by unfold ImageEngine.fillListInRange; rw [hf]; exact hl,
    ImageEngine.retiredInRange_of_kept hr hb, blank⟩

theorem State.checkBlank_of_tracker {s t : State} (h : t.tracker = s.tracker) (hs : s.checkBlank) : t.checkBlank := by
  unfold State.checkBlank State.granules State.recOf
  rw [h]
  exact hs

/-- Operations that touch neither the table nor the lists. -/
theorem Ranged.of_kept {s t : State} (h : Evolves s t) (ht : t.tracker = s.tracker := by exact rfl)
    (hf : t.engine.fillList = s.engine.fillList := by exact rfl)
    (hr : t.engine.retired = s.engine.retired := by exact rfl)
    (hb : t.engine.bringUp = s.engine.bringUp ∨ t.engine.bringUp = none := by exact .inl rfl) : Ranged s t :=
  .of_lists_kept h (fun _ => State.checkBlank_of_tracker ht) hf hr hb

namespace State

/-! ## Claims -/

theorem ranged_claim (s : State) (g : Nat) (f : GRec → GRec) (frees : GRec → List Nat)
    (hf : ∀ r : GRec, r.sound → (f r).sound) (hb : f GRec.blank = GRec.blank) : Ranged s (s.claim g f frees) := by
  refine .of_lists_kept (s.calm_claim g f frees hf).toEvolves (fun _ h k hk => ?_) (by rw [engine_claim])
    (by rw [engine_claim]) (.inl (by rw [engine_claim]))
  rw [granules, tracker_claim] at hk
  rw [recOf_claim]
  split
  · rename_i hkg
    rw [← hkg, h k hk, hb]
  · exact h k hk

theorem ranged_claimAll (s : State) (f : Nat → GRec → GRec) (frees : GRec → List Nat)
    (hf : ∀ (g : Nat) (r : GRec), r.sound → (f g r).sound) (hb : ∀ g, f g GRec.blank = GRec.blank) :
    Ranged s (s.claimAll f frees) := by
  refine .of_lists_kept (s.calm_claimAll f frees hf).toEvolves (fun hs h k hk => ?_) (by rw [engine_claimAll])
    (by rw [engine_claimAll]) (.inl (by rw [engine_claimAll]))
  rw [granules, tracker_claimAll] at hk
  rw [recOf_claimAll _ hs.1 (hb k), h k hk, hb]

theorem ranged_claimWrite (s : State) (g : Nat) : Ranged s (s.claimWrite g) :=
  s.ranged_claim g _ _ (fun _ => GRec.sound_write) rfl

theorem ranged_claimKeep (s : State) (g : Nat) (f : GRec → GRec) (hf : ∀ r : GRec, r.sound → (f r).sound)
    (hb : f GRec.blank = GRec.blank) : Ranged s (s.claimKeep g f) := s.ranged_claim g f _ hf hb

theorem ranged_claimCopyStart (s : State) (g slot : Nat) : Ranged s (s.claimCopyStart g slot) :=
  (Ranged.of_kept (s.evolves_setEngine { s.engine with freeSlots := s.engine.freeSlots.tail })).trans
    (ranged_claimKeep _ g _ (fun _ => GRec.sound_copyStart slot) rfl)

theorem ranged_claimCopyGood (s : State) (g : Nat) : Ranged s (s.claimCopyGood g) :=
  s.ranged_claim g _ _ (fun _ => GRec.sound_copyGood) rfl

theorem ranged_claimCopyLost (s : State) (g : Nat) : Ranged s (s.claimCopyLost g) :=
  s.ranged_claimKeep g _ (fun _ => GRec.sound_copyLost) rfl

theorem ranged_claimFillGood (s : State) (g : Nat) : Ranged s (s.claimFillGood g) :=
  s.ranged_claimKeep g _ (fun _ => GRec.sound_fillGood) rfl

theorem ranged_claimFillBad (s : State) (g : Nat) : Ranged s (s.claimFillBad g) :=
  s.ranged_claimKeep g _ (fun _ => GRec.sound_fillBad) rfl

/-- The fill list without some of its granules. -/
theorem ranged_filterFillList (s : State) (keep : Nat → Bool) (e : ImageEngine)
    (he : s.engine.inRange → e.inRange) (hf : e.fillList = s.engine.fillList.filter keep)
    (hr : s.engine.retiredInRange → e.retiredInRange) : Ranged s (s.setEngine e) :=
  ⟨s.evolves_setEngine e he,
    fun _ h => by
      unfold ImageEngine.fillListInRange
      rw [setEngine_engine, hf]
      exact ⟨h.1.filter _, (List.length_filter_le _ _).trans h.2⟩,
    hr, fun _ => id⟩

theorem ranged_claimFillStart (s : State) (g : Nat) : Ranged s (s.claimFillStart g) :=
  (s.ranged_filterFillList _ { s.engine with fillList := s.engine.fillList.filter fun x => decide (x ≠ g) }
    (fun h => ⟨h.1.filter _, h.2⟩) rfl id).trans (ranged_claimKeep _ g _ (fun _ => GRec.sound_fillStart) rfl)

theorem ranged_claimCommit (s : State) : Ranged s s.claimCommit :=
  s.ranged_claimAll _ _ (fun _ _ => GRec.sound_commit) fun _ => rfl

theorem ranged_claimAbandon (s : State) : Ranged s s.claimAbandon :=
  s.ranged_claimAll _ _ (fun _ _ => GRec.sound_abandon) fun _ => rfl

theorem ranged_claimDramLoss (s : State) : Ranged s s.claimDramLoss :=
  s.ranged_claimAll _ _ (fun _ _ => GRec.sound_dramLoss) fun _ => rfl

theorem ranged_claimRelease (s : State) (first count : Nat) : Ranged s (s.claimRelease first count) := by
  refine s.ranged_claimAll _ _ (fun g r h => ?_) fun g => ite_self _
  split
  · exact GRec.sound_releasePoison h
  · exact h

theorem ranged_claimStoreDown (s : State) : Ranged s s.claimStoreDown :=
  .of_lists_kept s.calm_claimStoreDown.toEvolves fun hs h k hk => by
    rw [recOf_claimStoreDown hs.1, h k hk]
    rfl

/-- A table that lists no granule has nothing beyond the last one. -/
theorem checkBlank_of_nil {s : State} (h : s.tracker.table = []) : s.checkBlank := fun g _ => by
  unfold recOf Tracker.recAt
  rw [h]
  rfl

theorem ranged_claimClear (s : State) : Ranged s s.claimClear :=
  .of_lists_kept s.calm_claimClear.toEvolves fun _ _ => checkBlank_of_nil rfl

theorem ranged_claimReload (s : State) : Ranged s s.claimReload := by
  have hengine : s.claimReload.engine.fillList = s.engine.fillList ∧
      s.claimReload.engine.retired = s.engine.retired ∧ s.claimReload.engine.bringUp = s.engine.bringUp := by
    rw [claimReload_eq]
    split
    · rw [engine_noticeDirty]; exact ⟨rfl, rfl, rfl⟩
    · exact ⟨rfl, rfl, rfl⟩
  have hgranules : s.claimReload.granules = s.granules := by rw [only_claimReload]; rfl
  refine .of_lists_kept s.calm_claimReload.toEvolves (fun _ h k hk => ?_) hengine.1 hengine.2.1 (.inl hengine.2.2)
  rw [hgranules] at hk
  rw [recOf_claimReload, RegionFile.classOf_check _ hk, h k hk]
  exact ite_self _

theorem ranged_claimResume (s : State) (index : List IndexEntry) : Ranged s (s.claimResume index) := by
  refine .of_lists_kept (s.calm_claimResume index).toEvolves fun _ _ k hk => ?_
  have hk : s.granules ≤ k + 1 := hk
  rw [recOf_claimResume, RegionFile.classOf_check _ hk]
  exact ite_self _

/-! ## The fill list (R115) -/

theorem length_evict {held : Nat → Bool} : ∀ {l : List Nat}, (∃ g ∈ l, held g = false) →
    (evict held l).length + 1 = l.length
  | [], h => by simp at h
  | g :: gs, h => by
    unfold evict
    split
    · rename_i hg
      have hrest : ∃ k ∈ gs, held k = false := by
        obtain ⟨k, hk, hfree⟩ := h
        rcases List.mem_cons.mp hk with rfl | hk
        · rw [hg] at hfree; cases hfree
        · exact ⟨k, hk, hfree⟩
      rw [List.length_cons, length_evict hrest, List.length_cons]
    · rfl

/-- Requests with distinct tags are held on at most 32 granules, one for each tag (R48). -/
theorem length_le_of_fillHeld {r : RequestUnit} (hd : r.tagsDistinct) {l : List Nat} (hl : l.Nodup)
    (hheld : ∀ g ∈ l, r.fillHeld g = true) : l.length ≤ 32 := by
  have hgranules : l ⊆ r.table.map Entry.granule := fun g hg => by
    obtain ⟨e, he, hc⟩ := List.any_eq_true.mp (hheld g hg)
    simp only [Bool.and_eq_true, decide_eq_true_eq] at hc
    exact List.mem_map.mpr ⟨e, he, hc.2⟩
  have htags : (r.table.map Entry.tag).map BitVec.toNat ⊆ List.range 32 := fun n hn => by
    obtain ⟨x, _, rfl⟩ := List.mem_map.mp hn
    exact List.mem_range.mpr x.isLt
  have hnodup : ((r.table.map Entry.tag).map BitVec.toNat).Nodup := hd.map fun _ _ => BitVec.eq_of_toNat_eq
  calc l.length ≤ (r.table.map Entry.granule).length := (List.subperm_of_subset hl hgranules).length_le
    _ = ((r.table.map Entry.tag).map BitVec.toNat).length := by simp
    _ ≤ (List.range 32).length := (List.subperm_of_subset hnodup htags).length_le
    _ = 32 := List.length_range

/-- A granule on which a request is held joins the list: where the list is full it has a granule to give up. -/
theorem ranged_joinFillList (s : State) (g : Nat) (hg : s.ru.fillHeld g = true) : Ranged s (s.joinFillList g) := by
  have hcalm := s.calm_joinFillList g
  unfold joinFillList at hcalm ⊢
  dsimp only at hcalm ⊢
  split at hcalm
  · rename_i hmem
    rw [if_pos hmem]
    exact .refl s
  · rename_i hnot
    have hnew : g ∉ s.engine.fillList := by simpa using hnot
    rw [if_neg hnot]
    refine ⟨hcalm.toEvolves, fun hd h => ?_, id, fun _ => id⟩
    have hsub : (if s.engine.fillList.length < Config.fillListSize then s.engine.fillList
        else evict s.ru.fillHeld s.engine.fillList).Sublist s.engine.fillList := by
      split
      · exact List.Sublist.refl _
      · exact evict_sublist _ _
    refine ⟨List.nodup_append.mpr ⟨h.1.sublist hsub, by simp, ?_⟩, ?_⟩
    · rintro a ha b hb rfl
      exact hnew (hsub.subset (List.mem_singleton.mp hb ▸ ha))
    · show (_ ++ [g]).length ≤ 32
      rw [List.length_append, List.length_singleton]
      split
      · rename_i hlt
        exact hlt
      · by_cases hfree : ∃ k ∈ s.engine.fillList, s.ru.fillHeld k = false
        · rw [length_evict hfree]
          exact h.2
        · rename_i hfull
          have hall : ∀ k ∈ g :: s.engine.fillList, s.ru.fillHeld k = true := fun k hk => by
            rcases List.mem_cons.mp hk with rfl | hk
            · exact hg
            · exact Bool.eq_true_of_not_eq_false fun hc => hfree ⟨k, hk, hc⟩
          have hlen := length_le_of_fillHeld hd (List.nodup_cons.mpr ⟨hnew, h.1⟩) hall
          have hsize : Config.fillListSize = 32 := rfl
          rw [List.length_cons] at hlen
          omega

/-! ## The request table -/

/-- The request table holds an entry with the tag and the line of `e`. -/
def lists (s : State) (e : Entry) : Prop := ∃ x ∈ s.ru.table, x.tag = e.tag ∧ x.line = e.line

theorem lists_of_mem {s : State} {e : Entry} (h : e ∈ s.ru.table) : s.lists e := ⟨e, h, rfl, rfl⟩

theorem lists_of_oldest {s : State} {line : Nat} {e : Entry} (h : s.ru.oldest line = some e) : s.lists e :=
  lists_of_mem (List.mem_of_find?_eq_some h)

/-- An entry that is held with reason FILL holds its granule. -/
theorem fillHeld_hold {s : State} {e : Entry} (h : s.lists e) : (s.hold e .fill).ru.fillHeld e.granule = true := by
  obtain ⟨x, hx, htag, hline⟩ := h
  refine List.any_eq_true.mpr ⟨{ x with st := .held .fill }, List.mem_map.mpr ⟨x, hx, if_pos htag⟩, ?_⟩
  have hgranule : ({ x with st := .held .fill } : Entry).granule = e.granule := by
    unfold Entry.granule Entry.addr
    rw [hline]
  rw [hgranule, decide_eq_true rfl, decide_eq_true rfl]
  rfl

theorem ranged_issueWriteBack (s : State) (a : Nat) (n : Fin 32) : Ranged s (s.issueWriteBack a n) :=
  (Ranged.of_kept (s.calm_present (.writeBack n.val) (flagLine a n)).toEvolves).trans (ranged_claimWrite _ _)

theorem ranged_setRegion (s : State) (x : RegionUnit) : Ranged s (s.setRegion x) := .of_kept (s.evolves_setRegion x)

theorem ranged_writeBack (s : State) (n : Fin 32) : Ranged s (s.writeBack n) := by
  unfold writeBack
  split
  · exact .refl s
  · dsimp only
    split
    · exact .refl s
    · split
      · exact s.ranged_setRegion _
      · exact s.ranged_issueWriteBack _ _

theorem ranged_markWritten (s : State) (g : Nat) : Ranged s (s.markWritten g) := by
  unfold markWritten
  split
  · exact .refl s
  · dsimp only
    split
    · exact .refl s
    · exact (s.ranged_setRegion _).trans (ranged_writeBack _ _)

theorem ranged_payOwedIn (s : State) (left : List Nat) : Ranged s (s.payOwedIn left) := by
  unfold payOwedIn
  split
  · exact .refl s
  · split
    · refine Ranged.foldl _ (fun s n => ?_) _ s
      unfold payOwed
      split
      · split
        · exact s.ranged_setRegion _
        · exact (s.ranged_setRegion _).trans (ranged_issueWriteBack _ _ _)
      · exact .refl s
    · exact .refl s

theorem ranged_answer (s : State) (e : Entry) (c : FaultClass) (st : CompletionStatus) :
    Ranged s (s.answer e c st) := by
  have h := (s.calm_answer e c st).toEvolves
  unfold answer at h ⊢
  dsimp only at h ⊢
  split
  · rename_i hc
    rw [if_pos hc] at h
    exact .of_kept h
  · rename_i hc
    rw [if_neg hc] at h
    exact .of_kept h

theorem ranged_issue (s : State) (e : Entry) : Ranged s (s.issue e) := by
  have h := (s.calm_issue e).toEvolves
  unfold issue at h ⊢
  cases hk : e.kind <;> (simp only [hk] at h ⊢; exact .of_kept h)

theorem ranged_holdFill (s : State) (e : Entry) (h : s.lists e) : Ranged s (s.holdFill e) := by
  have hhold : Ranged s (s.hold e .fill) := .of_kept (s.calm_hold e .fill).toEvolves
  unfold holdFill
  dsimp only
  split
  · exact hhold.trans (ranged_joinFillList _ _ (fillHeld_hold h))
  · exact hhold

theorem ranged_proceed (s : State) (e : Entry) : Ranged s (s.proceed e) := by
  unfold proceed
  split
  · exact s.ranged_issue e
  · exact ((s.ranged_issue e).trans (ranged_claimWrite _ _)).trans (ranged_markWritten _ _)

theorem ranged_settleEntry (s : State) (e : Entry) (h : s.lists e) : Ranged s (s.settleEntry e) := by
  unfold settleEntry
  split
  · exact s.ranged_issue e
  · exact s.ranged_answer e _ _
  · exact s.ranged_answer e _ _
  · exact .of_kept (s.calm_hold e .commit).toEvolves
  · exact s.ranged_holdFill e h
  · exact s.ranged_answer e _ _
  · exact s.ranged_proceed e

theorem ranged_judgeLine : ∀ (fuel line : Nat) (s : State), Ranged s (judgeLine fuel line s)
  | 0, _, s => .refl s
  | fuel + 1, line, s => by
    unfold judgeLine
    split
    · exact .refl s
    · rename_i e he
      have h := s.ranged_settleEntry e (lists_of_oldest he)
      split
      · dsimp only
        split
        · exact h.trans (ranged_judgeLine fuel line _)
        · exact h
      · exact .refl s

theorem ranged_judge (s : State) (e : Entry) (h : s.lists e) : Ranged s (s.judge e) := by
  unfold judge
  dsimp only
  split
  · exact (s.ranged_settleEntry e h).trans (ranged_judgeLine _ _ _)
  · exact s.ranged_settleEntry e h

theorem ranged_takeUp (s : State) (e : Entry) (h : s.lists e) : Ranged s (s.takeUp e) := by
  unfold takeUp
  split
  · exact .of_kept (s.calm_updateEntry e.tag (fun x => { x with st := .waiting }) fun _ _ => rfl).toEvolves
  · exact s.ranged_judge e h

/-- The entry of a tag, classified in its place, is taken up. -/
theorem ranged_classified (s : State) {tag : BitVec 5} {e : Entry} (he : s.ru.find tag = some e) :
    Ranged s ((s.updateEntry tag fun _ => s.classify e).takeUp (s.classify e)) := by
  have htag : e.tag = tag := find_tag he
  have hupdate : Ranged s (s.updateEntry tag fun _ => s.classify e) :=
    .of_kept (s.calm_updateEntry tag (fun _ => s.classify e) fun x hx => htag.trans hx.symm).toEvolves
  refine hupdate.trans (ranged_takeUp _ _ (lists_of_mem ?_))
  exact List.mem_map.mpr ⟨e, List.mem_of_find?_eq_some he, if_pos htag⟩

theorem ranged_release (reason : Hold) (s : State) (tag : BitVec 5) : Ranged s (release reason s tag) := by
  unfold release
  split
  · exact .refl s
  · rename_i e he
    have hlists : s.lists e := lists_of_mem (List.mem_of_find?_eq_some he)
    split
    · cases reason with
      | regionLoad | parking => exact s.ranged_classified he
      | fill | commit => exact s.ranged_judge e hlists
    · exact .refl s

theorem ranged_releaseAll (s : State) (reason : Hold) : Ranged s (s.releaseAll reason) :=
  Ranged.foldl _ (ranged_release reason) _ s

theorem ranged_leftAbsent (s : State) (left : List Nat) : Ranged s (s.leftAbsent left) :=
  (Ranged.foldl _ (ranged_release .fill) _ s).trans (ranged_payOwedIn _ _)

theorem ranged_complete (s : State) (e : Entry) (data : List Byte) : Ranged s (s.complete e data) :=
  (Ranged.of_kept ((s.calm_dropEntry e.tag).trans
    (calm_sendCompletion _ { tag := e.tag, status := .good, data := data })).toEvolves).trans (ranged_judgeLine _ _ _)

/-! ## The Transition Controller -/

theorem ranged_setTc (s : State) (x : TransitionController) : Ranged s (s.setTc x) := .of_kept (s.evolves_setTc x)

theorem ranged_setDram (s : State) (x : DramPort) (h : Evolves s (s.setDram x)) : Ranged s (s.setDram x) := .of_kept h

theorem ranged_report (s : State) (c : FaultClass) (addr : Nat) (d : FaultDetail) : Ranged s (s.report c addr d) :=
  .of_kept (s.calm_report c addr d).toEvolves

theorem ranged_enterState (s : State) (st : TState) : Ranged s (s.enterState st) :=
  .of_kept (s.calm_enterState st).toEvolves

theorem ranged_endCommit (s : State) : Ranged s s.endCommit := .of_kept s.calm_endCommit.toEvolves

theorem ranged_writeOutcome (s : State) (op : LongOp) (result : OutcomeResult) (reason : OutcomeReason) :
    Ranged s (s.writeOutcome op result reason) := s.ranged_setTc _

theorem ranged_returnEntry (s : State) (kind : AbortKind) : Ranged s (s.returnEntry kind) :=
  ((((s.ranged_enterState _).trans (ranged_setTc _ _)).trans (ranged_releaseAll _ _)).trans
    (ranged_report _ _ _ _)).trans (ranged_writeOutcome _ _ _ _)

theorem ranged_failEntry (s : State) (reason : OutcomeReason) : Ranged s (s.failEntry reason) :=
  (((s.ranged_endCommit.trans (ranged_enterState _ _)).trans (ranged_setTc _ _)).trans (ranged_releaseAll _ _)).trans
    (ranged_writeOutcome _ _ _ _)

theorem ranged_savingTest (s : State) : Ranged s s.savingTest := by
  unfold savingTest
  split
  · split
    · exact s.ranged_returnEntry _
    · split
      · exact (s.ranged_enterState .committing).trans (.of_kept (evolves_setEngine _ _))
      · split
        · exact (s.ranged_report _ _ _).trans (ranged_failEntry _ _)
        · exact .refl s
  · exact .refl s

theorem ranged_commitWait (s : State) : Ranged s s.commitWait := by
  unfold commitWait
  split
  · split
    · split
      · exact .refl s
      · exact .of_kept s.calm_buildIndex.toEvolves
    · split
      · exact .refl s
      · exact ((s.ranged_enterState .saving).trans (.of_kept (evolves_setEngine _ _))).trans (ranged_releaseAll _ _)
  · exact .refl s

theorem ranged_restoringTest (s : State) : Ranged s s.restoringTest := by
  unfold restoringTest
  split
  · exact s.ranged_enterState _
  · exact .refl s

theorem ranged_enterParking (s : State) : Ranged s s.enterParking := .of_kept s.calm_enterParking.toEvolves

theorem ranged_parkReturn (s : State) (kind : AbortKind) : Ranged s (s.parkReturn kind) :=
  ((((s.ranged_enterState _).trans (ranged_setTc _ _)).trans (ranged_releaseAll _ _)).trans
    (ranged_report _ _ _ _)).trans (ranged_writeOutcome _ _ _ _)

theorem ranged_parkAbort (s : State) (kind : AbortKind) : Ranged s (s.parkAbort kind) := by
  unfold parkAbort
  split
  · exact .refl s
  · split
    · exact s.ranged_parkReturn _
    · exact s.ranged_setTc _
    · exact s.ranged_setTc _
    · exact .refl s
    · exact .refl s

theorem ranged_parkTest (s : State) : Ranged s s.parkTest := by
  unfold parkTest
  split
  · exact .of_kept s.calm_beginPattern.toEvolves
  · exact .refl s

theorem ranged_disregardTransfers (s : State) : Ranged s s.disregardTransfers := by
  refine .of_kept s.calm_disregardTransfers.toEvolves s.tracker_disregardTransfers ?_ ?_ (.inl ?_)
  all_goals rw [engine_disregardTransfers]

theorem ranged_markDramLoss (s : State) : Ranged s s.markDramLoss :=
  s.ranged_disregardTransfers.trans (ranged_claimDramLoss _)

theorem ranged_enterImagedOff (s : State) : Ranged s s.enterImagedOff :=
  (((s.ranged_markDramLoss.trans (.of_kept (calm_setDram _ _).toEvolves)).trans (ranged_setTc _ _)).trans
    (.of_kept (evolves_setEngine _ _))).trans (ranged_enterState _ _)

theorem ranged_bringUpIfReady (s : State) : Ranged s s.bringUpIfReady := by
  unfold bringUpIfReady
  split
  · exact .of_kept s.calm_beginBringUp.toEvolves
  · exact .refl s

theorem ranged_clearEngine (s : State) : Ranged s s.clearEngine :=
  ⟨s.calm_clearEngine.toEvolves, fun _ _ => ⟨List.nodup_nil, Nat.zero_le _⟩,
    fun _ => ⟨Nat.zero_le _, fun _ hb => nomatch hb⟩, fun _ => id⟩

theorem ranged_disregardOp (s : State) : Ranged s s.disregardOp := .of_kept s.calm_disregardOp.toEvolves

theorem ranged_setStore (s : State) (x : StorePort) : Ranged s (s.setStore x) := .of_kept (s.evolves_setStore x)

theorem ranged_toUnconfigured (s : State) : Ranged s s.toUnconfigured :=
  ((((((s.ranged_claimAbandon.trans (ranged_claimClear _)).trans (ranged_clearEngine _)).trans
    (ranged_setRegion _ _)).trans (ranged_disregardOp _)).trans (ranged_setStore _ _)).trans
    (ranged_setTc _ _)).trans (ranged_enterState _ _)

theorem ranged_railLossOutcome (s : State) (result : OutcomeResult) : Ranged s (s.railLossOutcome result) := by
  unfold railLossOutcome
  dsimp only
  split <;> exact (s.ranged_writeOutcome _ _ _).trans (ranged_setTc _ _)

theorem ranged_railLossToImagedOff (s : State) : Ranged s s.railLossToImagedOff :=
  s.ranged_enterImagedOff.trans (ranged_railLossOutcome _ _)

theorem ranged_railLossToUnconfigured (s : State) : Ranged s s.railLossToUnconfigured :=
  (s.ranged_toUnconfigured.trans (ranged_railLossOutcome _ _)).trans (ranged_bringUpIfReady _)

theorem ranged_railCourse (s : State) : Ranged s s.railCourse := by
  unfold railCourse
  split
  · split
    · exact s.ranged_railLossToUnconfigured
    · split
      · exact s.ranged_railLossToImagedOff
      · split
        · exact s.ranged_endCommit.trans (ranged_railLossToImagedOff _)
        · exact .refl s
    · split
      · exact s.ranged_railLossToImagedOff
      · split
        · exact .refl s
        · exact s.ranged_railLossToUnconfigured
  · exact .refl s

/-! ## The store link and the choices -/

theorem ranged_sendOp (s : State) (kind : FrameKind) (block : Nat) (payload : Frame) (purpose : Purpose) :
    Ranged s (s.sendOp kind block payload purpose) := s.ranged_setStore _

theorem ranged_finishStart (s : State) (reason : OutcomeReason) (st : TState) : Ranged s (s.finishStart reason st) :=
  .of_kept (s.calm_finishStart reason st).toEvolves rfl rfl rfl (.inr rfl)

theorem ranged_resumeFail (s : State) (reason : OutcomeReason) : Ranged s (s.resumeFail reason) :=
  .of_lists_kept (s.calm_resumeFail reason).toEvolves (fun _ _ => checkBlank_of_nil rfl) rfl rfl (.inr rfl)

theorem ranged_startCopy (s : State) (g slot : Nat) : Ranged s (s.startCopy g slot) :=
  ((s.ranged_claimCopyStart g slot).trans (ranged_sendOp _ _ _ _ _)).trans (.of_kept (calm_present _ _ _).toEvolves)

theorem ranged_startFill (s : State) (g : Nat) : Ranged s (s.startFill g) :=
  ((s.ranged_claimFillStart g).trans (.of_kept (evolves_setEngine _ _))).trans (ranged_sendOp _ _ _ _ _)

theorem ranged_startZeroFill (s : State) (g : Nat) : Ranged s (s.startZeroFill g) :=
  ((s.ranged_claimFillStart g).trans (.of_kept (evolves_setEngine _ _))).trans
    (.of_kept (calm_present _ _ _).toEvolves)

theorem ranged_consumeGrant (s : State) (g : Nat) : Ranged s (s.consumeGrant g) :=
  .of_kept (s.calm_consumeGrant g).toEvolves

theorem ranged_startPresave (s : State) (g slot : Nat) : Ranged s (s.startPresave g slot) :=
  ((s.ranged_startCopy g slot).trans (.of_kept (evolves_setEngine _ _))).trans
    (.of_kept (calm_reloadPace _).toEvolves)

theorem ranged_sendStep (s : State) (b : BringUp) : Ranged s (s.sendStep b) := by
  unfold sendStep
  split <;> exact s.ranged_sendOp _ _ _ _

theorem ranged_startWork (s : State) (w : StoreWork) : Ranged s (s.startWork w) := by
  unfold startWork
  split
  · split
    · exact s.ranged_sendStep _
    · exact .refl s
  · exact (Ranged.of_kept (s.evolves_setEngine _)).trans (ranged_sendOp _ _ _ _ _)
  · exact s.ranged_sendOp _ _ _ _
  · exact s.ranged_sendOp _ _ _ _
  · exact s.ranged_startFill _
  · exact s.ranged_startCopy _ _
  · exact (s.ranged_startFill _).trans (ranged_consumeGrant _ _)
  · exact s.ranged_startPresave _ _
  · exact .of_kept s.calm_reloadPace.toEvolves

theorem ranged_storeChoice (s : State) : Ranged s s.storeChoice := by
  unfold storeChoice
  split
  · split
    · exact s.ranged_startWork _
    · exact .refl s
  · exact .refl s

theorem ranged_zeroChoice (s : State) : Ranged s s.zeroChoice := by
  unfold zeroChoice
  split
  · split
    · exact s.ranged_startZeroFill _
    · split
      · split
        · exact (s.ranged_startZeroFill _).trans (ranged_consumeGrant _ _)
        · exact .refl s
      · exact .refl s
  · exact .refl s

/-- A bring-up at its first step holds no retired list. -/
theorem ranged_beginSteps (s : State) (mode : BringUpMode) :
    Ranged s (s.setEngine { s.engine with bringUp := some (newBringUp mode) }) := by
  refine ⟨s.evolves_setEngine _, fun _ => id, fun h => ⟨h.1, fun b hb => ?_⟩, fun _ => id⟩
  obtain rfl := Option.some.inj hb
  exact ⟨Nat.zero_le _, fun _ h => (nomatch h), fun _ h => (nomatch h)⟩

/-- START's store steps, or its end. -/
theorem ranged_startSteps (s : State) (r : StartReq) :
    Ranged s
      (if s.tc.state = .starting ∧ s.dram.cond = .up ∧ s.engine.bringUp = none then
        if r.fresh && !r.storeUse then s.finishStart .none .active
        else s.setEngine { s.engine with bringUp := some (newBringUp (if r.fresh then .fresh else .resume)) }
      else s) := by
  split
  · split
    · exact s.ranged_finishStart _ _
    · exact s.ranged_beginSteps _
  · exact .refl s

theorem ranged_startTest (s : State) : Ranged s s.startTest := by
  unfold startTest
  split
  · exact .refl s
  · rename_i r _
    by_cases hd : r.phase = .draining ∧ s.tc.state = .unconfigured ∧ s.ru.table = []
    · simp only [if_pos hd]
      exact ((s.ranged_enterState .starting).trans
        (ranged_setTc _ { (s.enterState .starting).tc with start := some { r with phase := .running } })).trans
        (ranged_startSteps _ r)
    · simp only [if_neg hd]
      exact s.ranged_startSteps r

theorem ranged_drive (s : State) : Ranged s s.drive := .of_kept s.calm_drive.toEvolves

theorem ranged_settle (s : State) : Ranged s s.settle :=
  (((((s.ranged_startTest.trans
    ((((s.startTest.ranged_restoringTest.trans (ranged_commitWait _)).trans (ranged_savingTest _)).trans
      (ranged_commitWait _)).trans (ranged_railCourse _))).trans (ranged_storeChoice _)).trans
    (ranged_zeroChoice _)).trans (ranged_storeChoice _)).trans (ranged_parkTest _)).trans
    (ranged_drive _)

/-! ## Store DOWN, copies, fills and commits -/

theorem ranged_setSide (s : State) (x : SidebandPort) (h : Evolves s (s.setSide x)) : Ranged s (s.setSide x) :=
  .of_kept h

theorem ranged_putReply (s : State) (command : Nat) (code : ReplyCode) (data : List Byte) :
    Ranged s (s.putReply command code data) := .of_kept (s.evolves_putReply command code data)

theorem ranged_putDeferred (s : State) (command : Nat) (code : ReplyCode) : Ranged s (s.putDeferred command code) :=
  .of_kept (s.evolves_putDeferred command code)

theorem ranged_finishAttach (s : State) (reply : ReplyCode) (result : OutcomeResult) (reason : OutcomeReason) :
    Ranged s (s.finishAttach reply result reason) :=
  .of_kept (s.evolves_finishAttach reply result reason) rfl rfl rfl (.inr rfl)

theorem ranged_tellStoreDown (s : State) : Ranged s s.tellStoreDown := by
  unfold tellStoreDown
  split
  · split
    · exact s.ranged_endCommit
    · exact s.ranged_failEntry _
  · split
    · exact .refl s
    · exact s.ranged_failEntry _
  · split
    · exact .refl s
    · exact s.ranged_finishStart _ _
  · exact s.ranged_setTc _
  · split
    · exact s.ranged_finishAttach _ _ _
    · exact .refl s

theorem ranged_withdraw (s : State) (gone : Owner → Bool) : Ranged s (s.withdraw gone) :=
  .of_kept (s.calm_withdraw gone).toEvolves

/-- The retired list is emptied with a store DOWN (R79). -/
theorem retiredInRange_of_emptied {e e' : ImageEngine} (hr : e'.retired = []) (hb : e'.bringUp = e.bringUp)
    (h : e.retiredInRange) : e'.retiredInRange :=
  ⟨by rw [hr]; exact Nat.zero_le _, fun b hsome => h.2 b (hb ▸ hsome)⟩

theorem ranged_storeDown (s : State) (reason : StoreReason) : Ranged s (s.storeDown reason) := by
  unfold storeDown
  dsimp only
  refine Ranged.trans ?_ (ranged_tellStoreDown _)
  refine Ranged.trans ?_ (ranged_report _ _ _ _)
  refine Ranged.trans ?_ (ranged_leftAbsent _ _)
  refine Ranged.trans ?_ (ranged_filterFillList _ _ _ (fun h => ⟨h.1.filter _, h.2⟩) rfl
    (retiredInRange_of_emptied rfl rfl))
  exact (((s.ranged_setStore _).trans (ranged_claimAbandon _)).trans (ranged_claimStoreDown _)).trans
    (ranged_withdraw _ _)

/-- A slot is retired where the list is not full (R81). -/
theorem ranged_retireSlot (s : State) (slot : Nat) (h : s.retiredFull = false) : Ranged s (s.retireSlot slot) := by
  refine ⟨(s.calm_retireSlot slot).toEvolves, fun _ => id, fun hr => ⟨?_, hr.2⟩, fun _ => id⟩
  have hroom : ¬ Config.retiredSize ≤ s.engine.retired.length := of_decide_eq_false h
  have hsize : Config.retiredSize = 256 := rfl
  show (s.engine.retired ++ [slot]).length ≤ 256
  rw [List.length_append, List.length_singleton]
  omega

theorem ranged_copyGood (s : State) (g : Nat) : Ranged s (s.copyGood g) :=
  (s.ranged_withdraw _).trans (ranged_claimCopyGood _ _)

theorem retiredFull_claimCopyLost (s : State) (g : Nat) : (s.claimCopyLost g).retiredFull = s.retiredFull := by
  unfold retiredFull claimCopyLost claimKeep
  rw [engine_claim]

theorem retiredFull_claimFillBad (s : State) (g : Nat) : (s.claimFillBad g).retiredFull = s.retiredFull := by
  unfold retiredFull claimFillBad claimKeep
  rw [engine_claim]

theorem ranged_copyBad (s : State) (g slot : Nat) : Ranged s (s.copyBad g slot) := by
  unfold copyBad
  dsimp only
  refine (s.ranged_withdraw fun o => o = .copy).trans ?_
  split
  · exact ranged_storeDown _ _
  · rename_i hfull
    rw [Bool.not_eq_true, ← retiredFull_claimCopyLost _ g] at hfull
    exact ((ranged_claimCopyLost _ g).trans (ranged_retireSlot _ slot hfull)).trans (ranged_report _ _ _ _)

theorem ranged_dropFill (s : State) (g : Nat) : Ranged s (s.dropFill g) := .of_kept (s.calm_dropFill g).toEvolves

theorem ranged_fillGood (s : State) (g : Nat) : Ranged s (s.fillGood g) :=
  ((s.ranged_dropFill g).trans (ranged_claimFillGood _ _)).trans (ranged_leftAbsent _ _)

theorem ranged_zeroFillGood (s : State) (g : Nat) : Ranged s (s.zeroFillGood g) :=
  ((Ranged.of_kept (s.evolves_setEngine { s.engine with zeroFill := none })).trans (ranged_claimFillGood _ _)).trans
    (ranged_leftAbsent _ _)

theorem ranged_fillBad (s : State) (g : Nat) : Ranged s (s.fillBad g) := by
  unfold fillBad
  dsimp only
  refine (s.ranged_dropFill g).trans ?_
  split
  · exact ranged_storeDown _ _
  · rename_i hfull
    rw [Bool.not_eq_true, ← retiredFull_claimFillBad _ g] at hfull
    exact (((ranged_claimFillBad _ g).trans (ranged_retireSlot _ _ hfull)).trans (ranged_report _ _ _ _)).trans
      (ranged_leftAbsent _ _)

theorem ranged_commitDone (s : State) : Ranged s s.commitDone :=
  (((Ranged.of_kept (s.evolves_setEngine { s.engine with epoch := s.engine.epoch + 1 })).trans
    (ranged_claimCommit _)).trans (.of_kept (evolves_setEngine _ _))).trans (ranged_endCommit _)

theorem ranged_nextPass (s : State) (addr : Nat) (hp : s.engine.passes < Config.maxPasses) :
    Ranged s (s.nextPass addr) := by
  unfold nextPass
  dsimp only
  refine Ranged.trans ?_ (ranged_releaseAll _ _)
  refine Ranged.trans ?_ (ranged_enterState _ _)
  split
  · exact .of_kept (s.evolves_setEngine _ fun h => ⟨h.1, hp⟩)
  · exact (s.ranged_report _ _ _).trans (.of_kept (evolves_setEngine _ _ fun h => ⟨h.1, hp⟩))

theorem ranged_commitDecision (s : State) : Ranged s s.commitDecision := by
  unfold commitDecision
  split
  · exact .refl s
  · split
    · exact s.ranged_returnEntry _
    · split
      · split
        · exact s.ranged_enterImagedOff.trans (ranged_writeOutcome _ _ _ _)
        · exact s.ranged_enterParking
      · split
        · exact s.ranged_nextPass _ (by assumption)
        · exact (s.ranged_report _ _ _).trans (ranged_failEntry _ _)

/-! ## The steps of START and ATTACH_STORE -/

theorem length_retired_of_decode {bs : List Byte} {h : Header} (hd : Header.decode bs = some h) :
    h.retired.length ≤ 256 := by
  unfold Header.decode at hd
  dsimp only at hd
  split at hd
  · obtain rfl := Option.some.inj hd
    have hsize : Config.retiredSize = 256 := rfl
    rw [List.length_map, List.length_range]
    omega
  · cases hd

/-- The next step keeps the lists in range where its bring-up does. -/
theorem ranged_nextStep (s : State) (b : BringUp) (h : s.engine.retiredInRange → b.retiredInRange) :
    Ranged s (s.nextStep b) :=
  ⟨s.evolves_nextStep b, fun _ => id, fun hr => ⟨hr.1, fun _ hb => Option.some.inj hb ▸ h hr⟩, fun _ => id⟩

theorem ranged_stepFailed (s : State) (b : BringUp) (reason : StoreReason) : Ranged s (s.stepFailed b reason) := by
  unfold stepFailed
  split
  · exact s.ranged_resumeFail _
  · exact s.ranged_storeDown _

/-- A list of slots is put in the retired list's place, as the bring-up goes on or ends. -/
theorem ranged_setRetired (s : State) (retired : List Nat) (h : s.engine.retiredInRange → retired.length ≤ 256) :
    Ranged s (s.setEngine { s.engine with retired := retired }) :=
  ⟨s.evolves_setEngine _, fun _ => id, fun hr => ⟨h hr, hr.2⟩, fun _ => id⟩

theorem ranged_capacityFails (s : State) (b : BringUp) (h : s.engine.retiredInRange → b.retiredInRange) :
    Ranged s (s.capacityFails b) := by
  unfold capacityFails
  split
  · exact (s.ranged_setRetired _ fun hr => (h hr).1).trans (ranged_finishAttach _ _ _ _)
  · exact (s.ranged_setRetired _ fun _ => Nat.zero_le _).trans (ranged_finishStart _ _ _)

theorem highest_of_inRange {b : BringUp} {h : Header} (hb : b.retiredInRange)
    (hh : highest b.header0 b.header1 = some h) : h.retired.length ≤ 256 := by
  obtain ⟨_, h0, h1⟩ := hb
  cases e0 : b.header0 with
  | none =>
    cases e1 : b.header1 with
    | none => rw [e0, e1] at hh; cases hh
    | some y =>
      rw [e0, e1] at hh
      exact h1 h (e1.trans hh)
  | some x =>
    cases e1 : b.header1 with
    | none =>
      rw [e0, e1] at hh
      exact h0 h (e0.trans hh)
    | some y =>
      rw [e0, e1] at hh
      have hxy : x.higher y = x ∨ x.higher y = y := by
        unfold Header.higher
        split
        · exact .inr rfl
        · split
          · exact .inl rfl
          · split
            · exact .inl rfl
            · exact .inr rfl
      have hh : x.higher y = h := Option.some.inj hh
      rcases hxy with hxy | hxy
      · exact h0 h (e0.trans (congrArg some (hxy.symm.trans hh)))
      · exact h1 h (e1.trans (congrArg some (hxy.symm.trans hh)))

theorem length_adoptedRetired {h : Option Header} (slots : Nat) (hr : ∀ x, h = some x → x.retired.length ≤ 256) :
    (adoptedRetired h slots).length ≤ 256 := by
  unfold adoptedRetired
  split
  · split
    · exact hr _ rfl
    · exact Nat.zero_le _
  · exact Nat.zero_le _

theorem capacityFails_kept (s : State) (b : BringUp) :
    (s.capacityFails b).tracker = s.tracker ∧ (s.capacityFails b).engine.fillList = s.engine.fillList := by
  unfold capacityFails
  split <;> exact ⟨rfl, rfl⟩

/-- Adoption takes the list in place with it, and puts that of the highest header in its place (R85). -/
theorem ranged_adopt (s : State) (b : BringUp) (h : s.engine.retiredInRange → b.retiredInRange) :
    Ranged s (s.adopt b) := by
  have hkept : (s.adopt b).tracker = s.tracker ∧ (s.adopt b).engine.fillList = s.engine.fillList := by
    unfold adopt
    dsimp only
    split
    · exact ⟨rfl, rfl⟩
    · exact capacityFails_kept _ _
  refine ⟨s.evolves_adopt b, fun _ hl => ?_, fun hr => ?_, fun _ => checkBlank_of_tracker hkept.1⟩
  · unfold ImageEngine.fillListInRange
    rw [hkept.2]
    exact hl
  · obtain ⟨_, h0, h1⟩ := h hr
    have hadopted := (s.ranged_setRetired (adoptedRetired (highest b.header0 b.header1) b.slots) fun _ =>
      length_adoptedRetired _ fun _ hx => highest_of_inRange (h hr) hx).retired hr
    have hnext : BringUp.retiredInRange
        { b with
          oldEpoch := adoptedEpoch (highest b.header0 b.header1), formerRetired := s.engine.retired
          step := .emptyIndex } := ⟨hr.1, h0, h1⟩
    unfold adopt
    dsimp only
    split
    · exact (ranged_nextStep _ _ fun _ => hnext).retired hadopted
    · exact (ranged_capacityFails _ _ fun _ => hnext).retired hadopted

theorem ranged_judgeHeader (s : State) (b : BringUp) (h : s.engine.retiredInRange → b.retiredInRange) :
    Ranged s (s.judgeHeader b) := by
  unfold judgeHeader
  split
  · exact s.ranged_resumeFail _
  · rename_i x hx
    split
    · exact s.ranged_resumeFail _
    · refine s.ranged_nextStep _ fun hr => ⟨(h hr).1, fun y hy => ?_, fun _ hy => (nomatch hy)⟩
      exact Option.some.inj hy ▸ highest_of_inRange (h hr) hx

theorem ranged_resumeDone (s : State) {b : BringUp} {h : Header} (index : List IndexEntry)
    (hb : s.engine.bringUp = some b) (hh : b.header0 = some h) : Ranged s (s.resumeDone b h index) := by
  have hbuilt := (s.ranged_setRegion { s.region with file := h.file }).trans (ranged_claimResume _ index)
  refine hbuilt.trans (Ranged.trans ?_ ((ranged_setStore _ _).trans (ranged_finishStart _ _ _)))
  exact ⟨evolves_setEngine _ _, fun _ => id, fun hr => ⟨(hr.2 b hb).2.1 h hh, hr.2⟩, fun _ => id⟩

theorem ranged_judgeIndex (s : State) {b : BringUp} (block : Frame) (hb : s.engine.bringUp = some b) :
    Ranged s (s.judgeIndex b block) := by
  unfold judgeIndex
  split
  · exact s.ranged_resumeFail _
  · rename_i h hh
    split
    · exact s.ranged_resumeFail _
    · split
      · exact s.ranged_resumeFail _
      · split
        · exact s.ranged_resumeDone _ hb hh
        · exact s.ranged_resumeFail _

theorem ranged_attached (s : State) (b : BringUp) : Ranged s (s.attached b) := by
  have hset : Ranged s (s.setEngine
      { s.engine with
        epoch := b.oldEpoch + 1
        mark := .clear
        headerRecord := b.header0
        freeSlots := freeOf b.slots [] s.engine.retired
        exhaustionNoted := false }) := .of_kept (s.evolves_setEngine _)
  unfold attached
  dsimp only
  split
  · exact (hset.trans (ranged_setStore _ _)).trans (ranged_finishAttach _ _ _ _)
  · exact (hset.trans (ranged_setStore _ _)).trans (ranged_finishStart _ _ _)

theorem ranged_stepGood (s : State) {b : BringUp} (f : Frame) (hb : s.engine.bringUp = some b) :
    Ranged s (s.stepGood b f) := by
  have hrange : s.engine.retiredInRange → b.retiredInRange := fun hr => hr.2 b hb
  unfold stepGood
  split
  · split
    · exact s.ranged_nextStep _ hrange
    · exact s.ranged_stepFailed _ _
  · refine s.ranged_nextStep _ fun hr => ⟨(hrange hr).1, fun _ hx => length_retired_of_decode hx, (hrange hr).2.2⟩
  · have hread : s.engine.retiredInRange →
        BringUp.retiredInRange { b with header1 := Header.decode (respBlock f).bytes } := fun hr =>
      ⟨(hrange hr).1, (hrange hr).2.1, fun _ hx => length_retired_of_decode hx⟩
    dsimp only
    split
    · exact s.ranged_judgeHeader _ hread
    · exact s.ranged_adopt _ hread
  · exact s.ranged_judgeIndex _ hb
  · refine s.ranged_nextStep _ fun hr => ⟨(hrange hr).1, fun x hx => ?_, (hrange hr).2.2⟩
    exact Option.some.inj hx ▸ hr.1
  · exact s.ranged_attached _

theorem ranged_stepBad (s : State) (b : BringUp) : Ranged s (s.stepBad b) := by
  unfold stepBad
  split <;> exact s.ranged_stepFailed _ _

theorem ranged_stepExpired (s : State) (b : BringUp) : Ranged s (s.stepExpired b) := by
  unfold stepExpired
  split <;> exact s.ranged_stepFailed _ _

/-! ## Loads and fetches -/

theorem ranged_endLoad (s : State) (reply : ReplyCode) : Ranged s (s.endLoad reply) :=
  ((s.ranged_setRegion _).trans (ranged_releaseAll _ _)).trans (ranged_putDeferred _ _ _)

theorem ranged_loadFetched (s : State) (l : Load) : Ranged s (s.loadFetched l) := by
  unfold loadFetched
  dsimp only
  split
  · exact ((s.ranged_claimAbandon.trans (ranged_setRegion _ _)).trans (ranged_claimReload _)).trans (ranged_endLoad _ _)
  · exact s.ranged_endLoad _

theorem ranged_acceptStart (s : State) (r : StartReq) : Ranged s (s.acceptStart r) :=
  .of_lists_kept (s.evolves_acceptStart r) fun _ _ => checkBlank_of_nil rfl

theorem ranged_refuseStart (s : State) (reply : ReplyCode) : Ranged s (s.refuseStart reply) :=
  .of_kept (s.evolves_refuseStart reply)

theorem ranged_startFetched (s : State) (r : StartReq) : Ranged s (s.startFetched r) := by
  unfold startFetched
  dsimp only
  split
  · exact s.ranged_refuseStart _
  · split
    · exact ((s.ranged_acceptStart r).trans (ranged_setRegion _ _)).trans (ranged_claimReload _)
    · exact s.ranged_refuseStart _

theorem ranged_fetchDone (s : State) : Ranged s s.fetchDone := by
  unfold fetchDone
  split
  · exact s.ranged_loadFetched _
  · exact s.ranged_startFetched _
  · exact .refl s

/-! ## The DRAM Port -/

theorem ranged_enterRunning (s : State) : Ranged s s.enterRunning := s.ranged_enterState _

theorem ranged_compareDone (s : State) : Ranged s s.compareDone := by
  have h : Ranged s (s.setDram { s.dram with lastErrors := min s.dram.mismatches 65535, checkPhase := .idle }) :=
    .of_kept (s.evolves_setDram _ id fun h => ⟨h.1, Nat.min_le_right _ _, h.2.2⟩)
  unfold compareDone
  dsimp only
  refine h.trans ?_
  split
  · exact (ranged_enterRunning _).trans (ranged_writeOutcome _ _ _ _)
  · exact ((ranged_markDramLoss _).trans (ranged_report _ _ _ _)).trans
      ((ranged_enterRunning _).trans (ranged_writeOutcome _ _ _ _))

theorem ranged_patternDone (s : State) : Ranged s s.patternDone := by
  unfold patternDone
  split
  · exact (Ranged.of_kept (s.calm_setDram { s.dram with checkPhase := .idle }).toEvolves).trans (ranged_parkReturn _ _)
  · exact .of_kept s.calm_beginSelfRefresh.toEvolves

theorem ranged_transferEnd (s : State) (o : Owner) : Ranged s (s.transferEnd o) := by
  unfold transferEnd
  split
  · exact .refl s
  · exact .refl s
  · exact s.ranged_fillGood _
  · split
    · exact s.ranged_zeroFillGood _
    · exact .refl s
  · exact s.ranged_fetchDone
  · exact s.ranged_patternDone
  · exact s.ranged_compareDone

theorem ranged_afterLine (s : State) (o : Owner) (line : Nat) : Ranged s (s.afterLine o line) := by
  unfold afterLine
  split
  · unfold transferOver
    split
    · exact .refl s
    · exact .refl s
    · exact (s.ranged_transferEnd _).trans (ranged_settle _)
  · exact .of_kept (s.calm_present _ _).toEvolves

theorem ranged_performed (s : State) (tag : BitVec 5) (live : Bool) (data : List Byte) :
    Ranged s (s.performed tag live data) := by
  unfold performed
  split
  · exact .of_kept (s.calm_updateEntry tag (fun e => { e with st := .issued (some data) }) fun _ _ => rfl).toEvolves
  · exact .refl s

theorem ranged_writeDram (s : State) (line : Nat) (bs : List (Option Byte)) : Ranged s (s.writeDram line bs) :=
  .of_kept (s.evolves_writeDram line bs)

theorem ranged_performLine (s : State) (o : Owner) (line : Nat) : Ranged s (s.performLine o line) := by
  unfold performLine
  dsimp only
  split
  · exact s.ranged_setStore _
  · exact (s.ranged_writeDram _ _).trans (.of_kept (evolves_setEngine _ _))
  · exact s.ranged_writeDram _ _
  · exact s.ranged_writeDram _ _
  · split
    · exact s.ranged_setRegion _
    · exact s.ranged_setTc _
  · exact (s.ranged_writeDram _ _).trans (.of_kept (evolves_setDram _ _))
  · exact .of_kept (s.evolves_setDram _)

theorem ranged_perform (s : State) (a : Access) : Ranged s (s.perform a) := by
  unfold perform
  dsimp only
  have h : Ranged s (s.setDram { s.dram with queue := s.dram.queue.erase a }) := .of_kept (s.evolves_setDram _)
  refine h.trans ?_
  split
  · exact ranged_performed _ _ _ _
  · exact (ranged_writeDram _ _ _).trans (ranged_performed _ _ _ _)
  · exact ranged_performLine _ _ _

theorem ranged_serve (s : State) (a : Access) : Ranged s (s.serve a) := by
  have h : Ranged s ((s.perform a).setDram
      { (s.perform a).dram with runCount := runAfter s.dram.queue s.dram.runCount a }) :=
    (s.ranged_perform a).trans (.of_kept (evolves_setDram _ _ id fun h => ⟨h.1, h.2.1, runAfter_le _ _ _⟩))
  unfold serve
  dsimp only
  split
  · exact h.trans (ranged_afterLine _ _ _)
  · exact h

theorem ranged_serveUntil (stop : Access → Bool) : ∀ (fuel : Nat) (s : State), Ranged s (serveUntil stop fuel s)
  | 0, s => .refl s
  | fuel + 1, s => by
    unfold serveUntil
    split
    · exact .refl s
    · split
      · exact s.ranged_serve _
      · exact (s.ranged_serve _).trans (ranged_serveUntil stop fuel _)

theorem ranged_lastLine (s : State) (o : Owner) : Ranged s (s.lastLine o) := by
  unfold lastLine
  split
  · split
    · exact (ranged_serveUntil _ _ s).trans (ranged_settle _)
    · exact .refl s
  · exact .refl s

theorem ranged_sendPerformed (s : State) (tag : BitVec 5) : Ranged s (s.sendPerformed tag) := by
  unfold sendPerformed
  split
  · exact s.ranged_complete _ _
  · exact .refl s

theorem ranged_upstreamAccessDone (s : State) (tag : BitVec 5) : Ranged s (s.upstreamAccessDone tag) := by
  unfold upstreamAccessDone
  split
  · exact (s.ranged_sendPerformed _).trans (ranged_settle _)
  · split
    · exact ((ranged_serveUntil _ _ s).trans (ranged_sendPerformed _ _)).trans (ranged_settle _)
    · exact .refl s

theorem ranged_engineAccessDone (s : State) : Ranged s s.engineAccessDone := by
  unfold engineAccessDone
  split
  · exact (ranged_serveUntil _ _ s).trans (ranged_settle _)
  · exact .refl s

theorem ranged_regionFetchEnd (s : State) : Ranged s s.regionFetchEnd := by
  unfold regionFetchEnd
  split
  · exact s.ranged_lastLine _
  · exact .refl s

theorem ranged_startTableFetchEnd (s : State) : Ranged s s.startTableFetchEnd := by
  unfold startTableFetchEnd
  split
  · exact .refl s
  · exact s.ranged_lastLine _

theorem ranged_dramBringupEnd (s : State) (installed : Nat) : Ranged s (s.dramBringupEnd installed) := by
  unfold dramBringupEnd
  split
  · have h : Ranged s (s.setDram
        { s.dram with
          cond := .up, runCount := 0, mem := [], bringUps := s.dram.bringUps + 1, installed := installed }) :=
      .of_kept (s.evolves_setDram _ (fun _ => Memory.wf_nil) fun h => ⟨h.1, h.2.1, Nat.zero_le _⟩)
    dsimp only
    refine h.trans (Ranged.trans ?_ (ranged_settle _))
    split
    · exact (ranged_enterRunning _).trans (ranged_writeOutcome _ _ _ _)
    · exact .refl _
  · exact .refl s

theorem ranged_selfRefreshEntryEnd (s : State) : Ranged s s.selfRefreshEntryEnd := by
  unfold selfRefreshEntryEnd
  split
  · split
    · exact (Ranged.of_kept (s.calm_setDram { s.dram with cond := .exitingSr }).toEvolves).trans (ranged_settle _)
    · exact (Ranged.of_kept ((s.calm_setDram { s.dram with cond := .selfRefresh }).trans
        (calm_enterSleeping _)).toEvolves).trans (ranged_settle _)
  · exact .refl s

theorem ranged_selfRefreshExitEnd (s : State) (decay : List Host.Cell) : Ranged s (s.selfRefreshExitEnd decay) := by
  unfold selfRefreshExitEnd
  split
  · have h : Ranged s (s.setDram { s.dram.decay decay with cond := .up }) :=
      .of_kept (s.evolves_setDram _ (DramPort.wf_decay _ _) (decay_inRange _ _))
    dsimp only
    refine h.trans ?_
    split
    · exact (ranged_parkReturn _ _).trans (ranged_settle _)
    · exact (Ranged.of_kept (evolves_beginCompare _)).trans (ranged_settle _)
  · exact .refl s

/-! ## The ends of store operations -/

theorem ranged_disregardedEnd (s : State) (o : StoreOp) : Ranged s (s.disregardedEnd o) := by
  have happend : ∀ slots, Ranged s (s.appendSlots slots) := fun slots => by
    refine .of_kept (s.calm_appendSlots slots).toEvolves (by rw [only_appendSlots]; rfl) ?_ ?_ (.inl ?_)
    all_goals rw [engine_appendSlots]
  unfold disregardedEnd
  split
  · split
    · exact happend _
    · exact .refl s
  · exact .refl s

theorem ranged_opGood (s : State) (o : StoreOp) (f : Frame) : Ranged s (s.opGood o f) := by
  unfold opGood
  split
  · exact s.ranged_copyGood _
  · exact .of_kept (s.evolves_fillArrives _ _)
  · exact .of_kept s.evolves_markCleared
  · exact .of_kept s.evolves_indexWritten
  · exact s.ranged_commitDone.trans (ranged_commitDecision _)
  · split
    · exact s.ranged_stepGood _ (by assumption)
    · exact .refl s

theorem ranged_opBad (s : State) (o : StoreOp) : Ranged s (s.opBad o) := by
  unfold opBad
  split
  · exact s.ranged_copyBad _ _
  · exact s.ranged_fillBad _
  · exact s.ranged_storeDown _
  · exact s.ranged_storeDown _
  · exact s.ranged_storeDown _
  · split
    · exact s.ranged_stepBad _
    · exact .refl s

theorem ranged_opExpired (s : State) (o : StoreOp) : Ranged s (s.opExpired o) := by
  unfold opExpired
  split
  · exact (s.ranged_withdraw _).trans (ranged_storeDown _ _)
  · exact s.ranged_storeDown _
  · exact s.ranged_storeDown _
  · exact s.ranged_storeDown _
  · exact s.ranged_storeDown _
  · split
    · exact s.ranged_stepExpired _
    · exact .refl s

theorem ranged_endOp (s : State) (timer : Timer) : Ranged s (s.endOp timer) := .of_kept (s.evolves_endOp timer)

theorem ranged_endHoldBack (s : State) (timer : Timer) : Ranged s (s.endHoldBack timer) := s.ranged_setStore _

theorem ranged_readOut (s : State) (o : StoreOp) (f : Frame) : Ranged s (s.readOut o f) := by
  unfold readOut
  split
  · split
    · unfold copyRead
      split
      · split
        · exact ranged_serveUntil _ _ s
        · exact .refl s
      · exact .refl s
    · exact .refl s
  · exact .refl s

theorem ranged_answered (s : State) (o : StoreOp) (f : Frame) : Ranged s (s.answered o f) := by
  unfold answered
  dsimp only
  refine ((s.ranged_readOut o f).trans (ranged_endOp _ Timer.stopped)).trans ?_
  split
  · exact ranged_disregardedEnd _ _
  · split
    · exact ranged_opGood _ _ _
    · exact ranged_opBad _ _

theorem ranged_storeResponse (s : State) (f : Frame) : Ranged s (s.storeResponse f) := by
  unfold storeResponse
  split
  · split
    · exact (s.ranged_endHoldBack _).trans (ranged_settle _)
    · exact .refl s
  · split
    · split
      · exact (s.ranged_answered _ _).trans (ranged_settle _)
      · exact .refl s
    · exact .refl s

theorem ranged_expired (s : State) (o : StoreOp) : Ranged s (s.expired o) := by
  unfold expired
  dsimp only
  refine (s.ranged_endOp Timer.expired).trans ?_
  split
  · exact ranged_disregardedEnd _ _
  · exact ranged_opExpired _ _

theorem ranged_storeTimerExpiry (s : State) : Ranged s s.storeTimerExpiry := by
  unfold storeTimerExpiry
  split
  · split
    · exact (s.ranged_endHoldBack _).trans (ranged_settle _)
    · split
      · exact (s.ranged_expired _).trans (ranged_settle _)
      · exact .refl s
  · exact .refl s

/-! ## Traffic -/

theorem ranged_acceptRequest (s : State) (packet : List Byte) (kind : ReqKind)
    (h : s.ru.find (packetTag packet) = none) : Ranged s (s.acceptRequest packet kind) := by
  have hjoin : ∀ e : Entry, e.tag = packetTag packet → Ranged s (s.joinTable e) := fun e he =>
    .of_kept (s.evolves_joinTable e (he ▸ h))
  have hlists : ∀ e : Entry, (s.joinTable e).lists e := fun e =>
    lists_of_mem (List.mem_append_right _ (List.mem_singleton_self e))
  unfold acceptRequest
  dsimp only
  split
  · exact (hjoin _ rfl).trans (ranged_takeUp _ _ (hlists _))
  · split
    · exact hjoin _ rfl
    · split
      · exact (hjoin _ rfl).trans (ranged_parkAbort _ _)
      · exact (hjoin _ rfl).trans (ranged_takeUp _ _ (hlists _))

theorem ranged_upstreamRequest (s : State) (packet : List Byte) : Ranged s (s.upstreamRequest packet) := by
  unfold upstreamRequest
  split
  · rename_i kind hk
    unfold accepts at hk
    split at hk
    · rename_i hc
      exact (s.ranged_acceptRequest _ _ hc.2).trans (ranged_settle _)
    · cases hk
  · exact s.ranged_report _ _ _

theorem ranged_discardTable (s : State) : Ranged s s.discardTable := .of_kept s.calm_discardTable.toEvolves

/-! ## Rails and the standby rail -/

theorem ranged_setRail (s : State) (r : Rail) (level : Bool) : Ranged s (s.setRail r level) := by
  cases r <;> exact .of_kept (s.evolves_setLines _)

theorem ranged_dropDram (s : State) : Ranged s s.dropDram := .of_kept s.calm_dropDram.toEvolves

theorem ranged_endFetchByRail (s : State) : Ranged s s.endFetchByRail := by
  unfold endFetchByRail
  split
  · exact s.ranged_refuseStart _
  · exact .refl s

theorem ranged_unconfiguredFall (s : State) : Ranged s s.unconfiguredFall := by
  refine (s.ranged_discardTable.trans (ranged_dropDram _)).trans ?_
  show Ranged _ (endStartByRail _)
  unfold endStartByRail
  split
  · exact ((ranged_endFetchByRail _).trans (ranged_toUnconfigured _)).trans (ranged_writeOutcome _ _ _ _)
  · exact ranged_endFetchByRail _

theorem ranged_dropCopy (s : State) : Ranged s s.dropCopy := by
  unfold dropCopy
  split
  · exact .refl s
  · split
    · split
      · exact .refl s
      · exact s.ranged_claimCopyLost _
    · exact .refl s

theorem ranged_endByRailLoss (s : State) : Ranged s s.endByRailLoss := by
  have hload : Ranged s (if s.loading then (s.setRegion { s.region with load := none }).putDeferred 2 .wrongState
      else s) := by
    split
    · exact (s.ranged_setRegion _).trans (ranged_putDeferred _ _ _)
    · exact .refl s
  have hattach : ∀ t : State, Ranged t (if t.attaching then t.putDeferred 3 .storeUnavailable else t) := by
    intro t
    split
    · exact t.ranged_putDeferred _ _
    · exact .refl t
  have hop : ∀ t : State, Ranged t (if t.engine.bringUp.isSome then t.disregardOp else t) := by
    intro t
    split
    · exact t.ranged_disregardOp
    · exact .refl t
  have hend : ∀ t : State, Ranged t (t.setEngine { t.engine with bringUp := none }) := fun t =>
    .of_kept (t.evolves_setEngine _) rfl rfl rfl (.inr rfl)
  exact ((((hload.trans (ranged_endFetchByRail _)).trans (hattach _)).trans (hop _)).trans (hend _)).trans
    (ranged_setTc _ _)

theorem ranged_takeRailLoss (s : State) : Ranged s s.takeRailLoss := by
  unfold takeRailLoss
  dsimp only
  refine Ranged.trans ?_ (ranged_endByRailLoss _)
  refine Ranged.trans ?_ (ranged_report _ _ _ _)
  refine Ranged.trans ?_ (.of_kept (evolves_setEngine _ _))
  refine Ranged.trans ?_ (ranged_disregardTransfers _)
  refine Ranged.trans ?_ (ranged_dropCopy _)
  refine Ranged.trans ?_ (ranged_dropDram _)
  exact (s.ranged_setTc _).trans (ranged_discardTable _)

theorem ranged_railFall (s : State) (r : Rail) : Ranged s (s.railFall r) := by
  unfold railFall
  dsimp only
  split
  · refine (s.ranged_setRail r false).trans ?_
    split
    · exact ranged_drive _
    · split
      · exact (ranged_unconfiguredFall _).trans (ranged_settle _)
      · split
        · exact (ranged_takeRailLoss _).trans (ranged_settle _)
        · exact .refl _
  · exact .refl s

theorem ranged_railRise (s : State) (r : Rail) : Ranged s (s.railRise r) := by
  unfold railRise
  dsimp only
  refine (s.ranged_setRail r true).trans ?_
  split
  · exact (ranged_bringUpIfReady _).trans (ranged_settle _)
  · exact .refl _

/-- The lists are empty at standby power-on, and no record is listed. -/
theorem ranged_powerOn (s : State) : Ranged s s.powerOn :=
  ⟨s.evolves_powerOn, fun _ _ => ⟨List.nodup_nil, Nat.zero_le _⟩,
    fun _ => ⟨Nat.zero_le _, fun _ hb => (nomatch hb)⟩, fun _ _ => checkBlank_of_nil rfl⟩

theorem ranged_resetPartCommand (s : State) (p : List Byte) : Ranged s (s.resetPartCommand p) := by
  unfold resetPartCommand
  split
  · exact s.ranged_putReply _ _ _
  · exact ((s.ranged_powerOn.trans (ranged_setStore _ _)).trans (ranged_putReply _ _ _ _)).trans
      (ranged_bringUpIfReady _)

/-! ## Wake lines and timers -/

theorem ranged_setWake (s : State) (x : WakeUnit) (h : Evolves s (s.setWake x)) : Ranged s (s.setWake x) := .of_kept h

theorem ranged_actOnWake (s : State) : Ranged s s.actOnWake := by
  have hin : ∀ abort : State → State, (∀ t, Ranged t (abort t)) → Ranged s (s.wakeInEntry abort) := by
    intro abort ha
    unfold wakeInEntry
    split
    · exact s.ranged_setWake _ (s.evolves_setWake _)
    · split
      · exact .refl s
      · split
        · exact ha s
        · exact s.ranged_setWake _ (s.evolves_setWake _)
  unfold actOnWake
  split
  · exact hin _ fun t => t.ranged_setTc _
  · exact hin _ fun t => t.ranged_setTc _
  · exact hin _ fun t => t.ranged_parkAbort _
  · exact s.ranged_setWake _ (s.evolves_setWake _)
  · exact s.ranged_setWake _ (s.evolves_setWake _)
  all_goals exact .refl s

theorem ranged_lineMoved (s : State) (line : Fin 5) (l : WakeLine × Bool) : Ranged s (s.lineMoved line l) := by
  unfold lineMoved
  dsimp only
  refine (s.ranged_setWake (s.wake.setLine line l.1) (s.evolves_setWake _)).trans ?_
  split
  · exact ((ranged_setWake _ _ (evolves_setWake _ _ (causesOk_addCause line))).trans (ranged_actOnWake _)).trans
      (ranged_settle _)
  · exact .refl _

theorem ranged_wkAssert (s : State) (line : Fin 5) : Ranged s (s.wkAssert line) := by
  unfold wkAssert
  split
  · exact .refl s
  · exact s.ranged_lineMoved _ _

theorem ranged_holdTimerExpiry (s : State) (line : Fin 5) : Ranged s (s.holdTimerExpiry line) := by
  unfold holdTimerExpiry
  split
  · exact s.ranged_lineMoved _ _
  · exact .refl s

theorem ranged_paceExpires (s : State) : Ranged s s.paceExpires := by
  have h := s.evolves_paceExpires
  rw [paceExpires_eq] at h ⊢
  split <;> rename_i hg <;> simp only [hg] at h
  · split <;> rename_i hc
    · rw [if_pos hc] at h
      exact .of_kept h
    · rw [if_neg hc] at h
      exact .of_kept h
  · exact .of_kept h

theorem ranged_paceTimerExpiry (s : State) : Ranged s s.paceTimerExpiry := by
  unfold paceTimerExpiry
  split
  · exact s.ranged_paceExpires.trans (ranged_settle _)
  · exact .refl s

theorem ranged_fillTimerExpiry (s : State) : Ranged s s.fillTimerExpiry := by
  unfold fillTimerExpiry
  split
  · exact (Ranged.of_kept (s.evolves_setEngine { s.engine with fillTimer := Timer.expired, grant := true })).trans
      (ranged_settle _)
  · exact .refl s

theorem ranged_sleepTimerExpiry (s : State) : Ranged s s.sleepTimerExpiry := by
  unfold sleepTimerExpiry
  split
  · refine Ranged.trans ?_ (ranged_settle _)
    unfold escalate
    split
    · exact ((s.ranged_setTc _).trans (ranged_enterImagedOff _)).trans (ranged_writeOutcome _ _ _ _)
    · exact (s.ranged_setTc _).trans (ranged_setWake _ _ (evolves_setWake _ _))
  · exact .refl s

theorem ranged_idle (s : State) : Ranged s s.idle := .of_kept s.evolves_idle

/-! ## Sideband commands -/

theorem ranged_command (s : State) (code len : Nat) (p : List Byte) (named : Bool) {own : State → State}
    (h : ∀ t, Ranged t (own t)) : Ranged s (s.command code len p named own) := by
  unfold command
  split
  · exact s.ranged_putReply _ _ _
  · split
    · exact s.ranged_putReply _ _ _
    · split
      · exact s.ranged_putReply _ _ _
      · exact (Ranged.of_kept s.evolves_clearBuffer).trans (h _)

theorem ranged_start (s : State) (p : List Byte) : Ranged s (s.start p) := by
  unfold start
  split
  · split
    · exact s.ranged_putReply _ _ _
    · split
      · split
        · exact (((Ranged.of_kept s.evolves_beginHandling).trans (ranged_setTc _ _)).trans
            (.of_kept (calm_present _ _ _).toEvolves)).trans (ranged_settle _)
        · exact s.ranged_putReply _ _ _
      · split
        · exact (s.ranged_acceptStart _).trans (ranged_settle _)
        · exact s.ranged_putReply _ _ _
  · exact s.ranged_putReply _ _ _

theorem ranged_loadRegions (s : State) (p : List Byte) : Ranged s (s.loadRegions p) := by
  unfold loadRegions
  split
  · exact s.ranged_putReply _ _ _
  · split
    · exact s.ranged_putReply _ _ _
    · split
      · exact s.ranged_putReply _ _ _
      · exact (((Ranged.of_kept s.evolves_beginHandling).trans (ranged_setRegion _ _)).trans
          (.of_kept (calm_present _ _ _).toEvolves)).trans (ranged_settle _)

theorem ranged_attachStore (s : State) : Ranged s s.attachStore := by
  unfold attachStore
  split
  · exact s.ranged_putReply _ _ _
  · exact ((Ranged.of_kept s.evolves_beginHandling).trans (ranged_beginSteps _ _)).trans (ranged_settle _)

theorem ranged_acceptTransition (s : State) (op : LongOp) : Ranged s (s.acceptTransition op) :=
  .of_kept (s.evolves_acceptTransition op)

theorem ranged_beginEntry (s : State) (op : LongOp) (flag : Bool) : Ranged s (s.beginEntry op flag) := by
  refine ((((s.ranged_acceptTransition op).trans (ranged_setTc _ _)).trans (ranged_setTc _ _)).trans (.of_kept (evolves_setEngine _ _ fun h => ?_))).trans (ranged_enterState _ .saving)
  exact ⟨h.1, show 1 ≤ Config.maxPasses by decide⟩

theorem ranged_imagedEntry (s : State) (code : Nat) (op : LongOp) (p : List Byte) :
    Ranged s (s.imagedEntry code op p) := by
  unfold imagedEntry
  split
  · split
    · exact s.ranged_putReply _ _ _
    · split
      · exact ((s.ranged_beginEntry op _).trans (ranged_putReply _ _ _ _)).trans (ranged_settle _)
      · exact s.ranged_putReply _ _ _
  · exact s.ranged_putReply _ _ _

theorem ranged_sleep (s : State) (p : List Byte) : Ranged s (s.sleep p) := by
  unfold sleep
  split
  · split
    · exact s.ranged_putReply _ _ _
    · exact ((((s.ranged_acceptTransition _).trans (ranged_setTc _ _)).trans (ranged_enterParking _)).trans
        (ranged_putReply _ _ _ _)).trans (ranged_settle _)
  · exact s.ranged_putReply _ _ _

theorem ranged_abortEntry (s : State) : Ranged s s.abortEntry := by
  unfold abortEntry
  split
  · exact ((s.ranged_setTc _).trans (ranged_putReply _ _ _ _)).trans (ranged_settle _)
  · exact ((s.ranged_setTc _).trans (ranged_putReply _ _ _ _)).trans (ranged_settle _)
  · exact ((s.ranged_parkAbort _).trans (ranged_putReply _ _ _ _)).trans (ranged_settle _)
  · exact s.ranged_putReply _ _ _

theorem ranged_exitSleep (s : State) : Ranged s s.exitSleep := by
  unfold exitSleep
  split
  · exact ((((s.ranged_acceptTransition .exitSleep).trans (ranged_enterState _ .unparking)).trans
      (.of_kept (calm_setDram _ _).toEvolves)).trans (ranged_putReply _ _ _ _)).trans (ranged_settle _)
  · exact s.ranged_putReply _ _ _

theorem ranged_exitImaged (s : State) : Ranged s s.exitImaged := by
  unfold exitImaged
  split
  · exact ((((s.ranged_acceptTransition .exitImaged).trans (ranged_enterState _ .reviving)).trans
      (.of_kept (calm_beginBringUp _).toEvolves)).trans (ranged_putReply _ _ _ _)).trans (ranged_settle _)
  · exact s.ranged_putReply _ _ _

theorem ranged_releasePoison (s : State) (p : List Byte) : Ranged s (s.releasePoison p) := by
  unfold releasePoison
  split
  · split
    · exact s.ranged_putReply _ _ _
    · exact ((s.ranged_claimRelease _ _).trans (ranged_putReply _ _ _ _)).trans (ranged_settle _)
  · exact s.ranged_putReply _ _ _

theorem ranged_startPace (s : State) : Ranged s s.startPace := by
  rw [startPace_eq]
  exact .of_kept (s.evolves_setEngine _)

theorem ranged_presaveAs (s : State) (a : PresaveArg) : Ranged s (s.presaveAs a) := by
  cases a with
  | on =>
    exact (Ranged.of_kept (s.evolves_setEngine { s.engine with presaveOn := true })).trans (ranged_startPace _)
  | off => exact .of_kept (s.evolves_presaveAs .off)
  | pause => exact .of_kept (s.evolves_presaveAs .pause)
  | resume =>
    have hset : Ranged s (s.setEngine { s.engine with presavePaused := false }) := .of_kept (s.evolves_setEngine _)
    show Ranged s s.presaveResume
    by_cases hg : s.engine.paceTimer.status = .gated
    · by_cases hc : s.engine.paceTimer.count = 0
      · rw [presaveResume_of_gated_at_zero hg hc]
        exact hset.trans (ranged_paceExpires _)
      · rw [presaveResume_of_gated hg hc]
        exact .of_kept (s.evolves_setEngine _)
    · rw [presaveResume_of_not_gated hg]
      exact hset.trans (ranged_startPace _)

theorem ranged_presave (s : State) (p : List Byte) : Ranged s (s.presave p) := by
  unfold presave
  split
  · exact s.ranged_putReply _ _ _
  · exact ((s.ranged_presaveAs _).trans (ranged_putReply _ _ _ _)).trans (ranged_settle _)

theorem ranged_snapshot (s : State) (p : List Byte) : Ranged s (s.snapshot p) := .of_kept (s.evolves_snapshot p)

theorem ranged_setParam (s : State) (p : List Byte) : Ranged s (s.setParam p) := by
  have h := s.evolves_setParam p
  unfold setParam at h ⊢
  cases hp : setParamArg s.side.params p <;> (simp only [hp] at h ⊢; exact .of_kept h)

theorem ranged_setWakeLine (s : State) (p : List Byte) : Ranged s (s.setWakeLine p) := by
  have h := s.evolves_setWakeLine p
  unfold setWakeLine at h ⊢
  cases hp : setWakeArgs p <;> (simp only [hp] at h ⊢; exact .of_kept h)

theorem ranged_setReport (s : State) (p : List Byte) : Ranged s (s.setReport p) := by
  have h := s.evolves_setReport p
  unfold setReport at h ⊢
  cases hp : reportArgs p <;> (simp only [hp] at h ⊢; exact .of_kept h)

theorem ranged_setAlertDisable (s : State) (p : List Byte) : Ranged s (s.setAlertDisable p) := by
  have h := s.evolves_setAlertDisable p
  unfold setAlertDisable at h ⊢
  cases hp : alertDisableArg p <;> (simp only [hp] at h ⊢; exact .of_kept h)

theorem ranged_readSnapshot (s : State) (p : List Byte) : Ranged s (s.readSnapshot p) := by
  have h := s.evolves_readSnapshot p
  unfold readSnapshot at h ⊢
  cases hp : timerArg p <;> (simp only [hp] at h ⊢; exact .of_kept h)

end State

/-! ## Every command, and a step -/

theorem exec_ranged (c : Instr) (s : State) : ∃ t, exec c s = .next t ∧ Ranged s t := by
  cases c with
  | start p => exact ⟨_, rfl, s.ranged_command _ _ _ _ fun s => s.ranged_start p⟩
  | loadRegions p => exact ⟨_, rfl, s.ranged_command _ _ _ _ fun s => s.ranged_loadRegions p⟩
  | attachStore p => exact ⟨_, rfl, s.ranged_command _ _ _ _ State.ranged_attachStore⟩
  | sleep p => exact ⟨_, rfl, s.ranged_command _ _ _ _ fun s => s.ranged_sleep p⟩
  | hybrid p => exact ⟨_, rfl, s.ranged_command _ _ _ _ fun s => s.ranged_imagedEntry _ _ p⟩
  | hibernate p => exact ⟨_, rfl, s.ranged_command _ _ _ _ fun s => s.ranged_imagedEntry _ _ p⟩
  | abortEntry p => exact ⟨_, rfl, s.ranged_command _ _ _ _ State.ranged_abortEntry⟩
  | exitSleep p => exact ⟨_, rfl, s.ranged_command _ _ _ _ State.ranged_exitSleep⟩
  | exitImaged p => exact ⟨_, rfl, s.ranged_command _ _ _ _ State.ranged_exitImaged⟩
  | presave p => exact ⟨_, rfl, s.ranged_command _ _ _ _ fun s => s.ranged_presave p⟩
  | releasePoison p => exact ⟨_, rfl, s.ranged_command _ _ _ _ fun s => s.ranged_releasePoison p⟩
  | setParam p => exact ⟨_, rfl, s.ranged_command _ _ _ _ fun s => s.ranged_setParam p⟩
  | setWake p => exact ⟨_, rfl, s.ranged_command _ _ _ _ fun s => s.ranged_setWakeLine p⟩
  | clearWake p => exact ⟨_, rfl, s.ranged_command _ _ _ _ fun s => .of_kept s.evolves_clearWake⟩
  | report p => exact ⟨_, rfl, s.ranged_command _ _ _ _ fun s => s.ranged_setReport p⟩
  | reportAll p => exact ⟨_, rfl, s.ranged_command _ _ _ _ fun s => .of_kept (s.evolves_setReportAll p)⟩
  | alertDisable p => exact ⟨_, rfl, s.ranged_command _ _ _ _ fun s => s.ranged_setAlertDisable p⟩
  | readFault p => exact ⟨_, rfl, s.ranged_command _ _ _ _ fun s => s.ranged_putReply _ _ _⟩
  | clearFault p => exact ⟨_, rfl, s.ranged_command _ _ _ _ fun s => .of_kept s.evolves_clearFault⟩
  | status p => exact ⟨_, rfl, s.ranged_command _ _ _ _ fun s => s.ranged_putReply _ _ _⟩
  | readGranule p => exact ⟨_, rfl, s.ranged_command _ _ _ _ fun s => s.ranged_putReply _ _ _⟩
  | snapshot p => exact ⟨_, rfl, s.ranged_command _ _ _ _ fun s => s.ranged_snapshot p⟩
  | readSnapshot p => exact ⟨_, rfl, s.ranged_command _ _ _ _ fun s => s.ranged_readSnapshot p⟩
  | injectCheckError p => exact ⟨_, rfl, s.ranged_command _ _ _ _ fun s => .of_kept s.evolves_injectCheckError⟩
  | resetPart p => exact ⟨_, rfl, s.ranged_resetPartCommand p⟩
  | unknownCommandFrame code p => exact ⟨_, rfl, s.ranged_putReply _ _ _⟩
  | readReply => exact ⟨_, rfl, .of_kept s.evolves_readReply⟩
  | upstreamRequest packet => exact ⟨_, rfl, s.ranged_upstreamRequest packet⟩
  | linkReset => exact ⟨_, rfl, s.ranged_discardTable.trans (State.ranged_settle _)⟩
  | upstreamAccessDone tag => exact ⟨_, rfl, s.ranged_upstreamAccessDone tag⟩
  | engineAccessDone => exact ⟨_, rfl, s.ranged_engineAccessDone⟩
  | railFall r => exact ⟨_, rfl, s.ranged_railFall r⟩
  | railRise r => exact ⟨_, rfl, s.ranged_railRise r⟩
  | wkAssert line => exact ⟨_, rfl, s.ranged_wkAssert line⟩
  | wkDeassert line =>
    refine ⟨_, rfl, ?_⟩
    unfold State.wkDeassert
    split
    · exact s.ranged_setWake _ (s.evolves_setWake _)
    · exact .refl s
  | holdTimerExpiry line => exact ⟨_, rfl, s.ranged_holdTimerExpiry line⟩
  | paceTimerExpiry => exact ⟨_, rfl, s.ranged_paceTimerExpiry⟩
  | fillTimerExpiry => exact ⟨_, rfl, s.ranged_fillTimerExpiry⟩
  | storeTimerExpiry => exact ⟨_, rfl, s.ranged_storeTimerExpiry⟩
  | sleepTimerExpiry => exact ⟨_, rfl, s.ranged_sleepTimerExpiry⟩
  | storeResponse f => exact ⟨_, rfl, s.ranged_storeResponse f⟩
  | fillEnd g => exact ⟨_, rfl, s.ranged_lastLine _⟩
  | zeroFillEnd => exact ⟨_, rfl, s.ranged_lastLine _⟩
  | dramBringupEnd n => exact ⟨_, rfl, s.ranged_dramBringupEnd n⟩
  | selfRefreshEntryEnd => exact ⟨_, rfl, s.ranged_selfRefreshEntryEnd⟩
  | selfRefreshExitEnd decay => exact ⟨_, rfl, s.ranged_selfRefreshExitEnd decay⟩
  | patternWriteEnd => exact ⟨_, rfl, s.ranged_lastLine _⟩
  | compareEnd => exact ⟨_, rfl, s.ranged_lastLine _⟩
  | regionFetchEnd => exact ⟨_, rfl, s.ranged_regionFetchEnd⟩
  | startTableFetchEnd => exact ⟨_, rfl, s.ranged_startTableFetchEnd⟩
  | standbyPowerOn => exact ⟨_, rfl, s.ranged_powerOn.trans (State.ranged_bringUpIfReady _)⟩

/-- A step keeps the ranges of a state that differs from the one it finds in the queue at most. -/
theorem step_ranged {s t : State} (h : step s = .next t) : ∃ q, Ranged (s.setPending q) t := by
  obtain ⟨_, rfl⟩ | ⟨c, rest, _, he⟩ := step_cases h
  · exact ⟨s.pending, s.ranged_idle⟩
  · obtain ⟨t', ht', hr⟩ := exec_ranged c (s.setPending rest)
    rw [he] at ht'
    obtain rfl := Host.Outcome.next.inj ht'
    exact ⟨rest, hr⟩

/-- Settles O12: by `Ranged`, whose parts are the conjuncts. -/
theorem stepKeepsRanges : Obligations.StepKeepsRanges := by
  refine ⟨⟨Nat.zero_le _, ⟨Nat.zero_le _, fun _ hb => (nomatch hb)⟩, State.checkBlank_of_nil rfl⟩, fun s t h => ?_⟩
  obtain ⟨q, hr⟩ := step_ranged h
  refine ⟨fun ⟨hdram, hengine, hparams, hcauses⟩ => ?_, fun hd hn hl => (hr.fill hd ⟨hn, hl⟩).2, hr.retired, hr.blank⟩
  exact ⟨hr.dram hdram, hr.engine hengine, hr.params hparams, hr.causes hcauses⟩

end Sys2Proof.Machine
end

