-- ==== Sys2Proof/Proofs/RequestTable.lean ====
section
/-! The request table: how requests join it (R50, R58, R61), how they are judged, released and completed (R51, R52, R57,
R59), LINK_RESET (R65), the fill list (R115), and the accesses that are served (R53, R64). -/

namespace Sys2Proof.Machine

/-! ## The oldest entry of a line -/

namespace RequestUnit

theorem find_eq_none_iff (r : RequestUnit) (tag : BitVec 5) : r.find tag = none ↔ ∀ x ∈ r.table, x.tag ≠ tag := by
  simp [find]

theorem oldest_eq_none_iff (r : RequestUnit) (line : Nat) : r.oldest line = none ↔ ∀ x ∈ r.table, x.line ≠ line := by
  simp [oldest]

/-- An entry changed in its place is the oldest of its line where it was. -/
theorem oldest_update (r : RequestUnit) (tag : BitVec 5) (f : Entry → Entry) (hf : ∀ e, (f e).line = e.line)
    (line : Nat) :
    (r.update tag f).oldest line = (r.oldest line).map fun e => if e.tag = tag then f e else e := by
  have hline : ((fun e : Entry => decide (e.line = line)) ∘ fun e => if e.tag = tag then f e else e) =
      fun e : Entry => decide (e.line = line) := by
    funext e
    simp only [Function.comp_apply]
    split
    · rw [hf]
    · rfl
  unfold oldest update
  rw [List.find?_map, hline]

theorem length_drop_lt {r : RequestUnit} {e : Entry} (h : e ∈ r.table) : (r.drop e.tag).table.length < r.table.length :=
  List.length_filter_lt_length_iff_exists.mpr ⟨e, h, by simp⟩

end RequestUnit

namespace State

/-! ## What judging does to the request table (R52) -/

variable {s : State} {e : Entry}

theorem ru_claim (s : State) (g : Nat) (f : GRec → GRec) (frees : GRec → List Nat) : (s.claim g f frees).ru = s.ru := by
  rw [only_claim]; rfl

theorem ru_writeBack (s : State) (n : Fin 32) : (s.writeBack n).ru = s.ru := by
  unfold writeBack
  split
  · rfl
  · dsimp only
    split
    · rfl
    · split
      · rfl
      · exact ru_claim _ _ _ _

theorem ru_markWritten (s : State) (g : Nat) : (s.markWritten g).ru = s.ru := by
  unfold markWritten
  split
  · rfl
  · dsimp only
    split
    · rfl
    · exact ru_writeBack _ _

theorem ru_answer (s : State) (e : Entry) (c : FaultClass) (st : CompletionStatus) :
    (s.answer e c st).ru = s.ru.drop e.tag := by
  unfold answer
  dsimp only
  split <;> rfl

theorem ru_issue (s : State) (e : Entry) :
    (s.issue e).ru = s.ru.update e.tag fun x => { x with st := .issued none } := by rw [issue_eq]; rfl

theorem ru_joinFillList (s : State) (g : Nat) : (s.joinFillList g).ru = s.ru := by
  unfold joinFillList
  dsimp only
  split <;> rfl

theorem ru_holdFill (s : State) (e : Entry) :
    (s.holdFill e).ru = s.ru.update e.tag fun x => { x with st := .held .fill } := by
  unfold holdFill
  dsimp only
  split
  · exact ru_joinFillList _ _
  · rfl

theorem ru_proceed (s : State) (e : Entry) :
    (s.proceed e).ru = s.ru.update e.tag fun x => { x with st := .issued none } := by
  unfold proceed
  split
  · exact ru_issue s e
  · rw [ru_markWritten, claimWrite, ru_claim, ru_issue]

/-- A request that is answered at once leaves the table (R54 to R56). -/
theorem ru_settleEntry_of_answered (h : (s.judgement e).answered = true) : (s.settleEntry e).ru = s.ru.drop e.tag := by
  unfold settleEntry
  cases hj : s.judgement e with
  | range | fixedWrite | poisonRead => exact ru_answer s e _ _
  | untracked | commitHold | fillHold | proceed => rw [hj] at h; cases h

/-- Another request stays in its place, ISSUED or HELD (R53, R57). -/
theorem ru_settleEntry_of_not_answered (h : (s.judgement e).answered = false) :
    ∃ st, st ≠ .waiting ∧ (s.settleEntry e).ru = s.ru.update e.tag fun x => { x with st := st } := by
  unfold settleEntry
  cases hj : s.judgement e with
  | range | fixedWrite | poisonRead => rw [hj] at h; cases h
  | untracked => exact ⟨.issued none, by simp, ru_issue s e⟩
  | commitHold => exact ⟨.held .commit, by simp, rfl⟩
  | fillHold => exact ⟨.held .fill, by simp, ru_holdFill s e⟩
  | proceed => exact ⟨.issued none, by simp, ru_proceed s e⟩

theorem judgeLine_of_none {line : Nat} (h : s.ru.oldest line = none) (fuel : Nat) : judgeLine fuel line s = s := by
  cases fuel with
  | zero => rfl
  | succ fuel => rw [judgeLine, h]

theorem judgeLine_of_not_waiting {line : Nat} (h : s.ru.oldest line = some e) (he : e.st ≠ .waiting) (fuel : Nat) :
    judgeLine fuel line s = s := by
  cases fuel with
  | zero => rfl
  | succ fuel =>
    rw [judgeLine, h]
    exact if_neg he

theorem judgeLine_of_waiting {line : Nat} (h : s.ru.oldest line = some e) (he : e.st = .waiting) (fuel : Nat) :
    judgeLine (fuel + 1) line s =
      if (s.judgement e).answered then judgeLine fuel line (s.settleEntry e) else s.settleEntry e := by
  rw [judgeLine, h]
  exact if_pos he

/-- What follows a judgement, by the judgement. -/
theorem ite_answered {α : Type} (j : Judgement) (a b : α) :
    (if j.answered then a else b) =
      match j with
      | .range | .fixedWrite | .poisonRead => a
      | _ => b := by cases j <;> rfl

/-- With fuel for every entry of the table, none is left WAITING with nothing ahead of it (R51). -/
theorem oldest_judgeLine_not_waiting (line : Nat) :
    ∀ (fuel : Nat) (s : State), s.ru.tagsDistinct → s.ru.table.length ≤ fuel →
      ∀ e, (judgeLine fuel line s).ru.oldest line = some e → e.st ≠ .waiting
  | fuel, s, hd, hlen, e, he => by
    cases ho : s.ru.oldest line with
    | none =>
      rw [judgeLine_of_none ho, ho] at he
      cases he
    | some o =>
      by_cases hw : o.st = .waiting
      · have hmem : o ∈ s.ru.table := List.mem_of_find?_eq_some ho
        cases fuel with
        | zero =>
          rw [List.length_eq_zero_iff.mp (Nat.le_zero.mp hlen)] at hmem
          cases hmem
        | succ fuel =>
          rw [judgeLine_of_waiting ho hw] at he
          cases ha : (s.judgement o).answered with
          | true =>
            rw [ha, if_pos rfl] at he
            have hlt := RequestUnit.length_drop_lt hmem
            rw [← ru_settleEntry_of_answered ha] at hlt
            exact oldest_judgeLine_not_waiting line fuel _ ((s.calm_settleEntry o).tags hd) (by omega) e he
          | false =>
            rw [ha, if_neg (by decide)] at he
            obtain ⟨st, hst, hru⟩ := ru_settleEntry_of_not_answered ha
            rw [hru, RequestUnit.oldest_update _ _ (fun x => { x with st := st }) (fun _ => rfl), ho] at he
            obtain rfl := Option.some.inj he
            exact (congrArg Entry.st (if_pos rfl)).trans_ne hst
      · rw [judgeLine_of_not_waiting ho hw, ho] at he
        obtain rfl := Option.some.inj he
        exact hw

/-! ## Requests that arrive (R50, R51) -/

/-- A request behind an earlier one for its line waits, as it arrived (R51). -/
theorem takeUp_joined_of_earlier {s : State} {e : Entry} (hw : e.st = .waiting) (hfree : ∀ x ∈ s.ru.table, x.tag ≠ e.tag)
    (h : ∃ x ∈ s.ru.table, x.line = e.line) : (s.joinTable e).takeUp e = s.joinTable e := by
  obtain ⟨x, hx, hline⟩ := h
  have hsome : ∃ o, s.ru.oldest e.line = some o := by
    cases ho : s.ru.oldest e.line with
    | none => exact absurd hline ((s.ru.oldest_eq_none_iff _).mp ho x hx)
    | some o => exact ⟨o, rfl⟩
  obtain ⟨o, ho⟩ := hsome
  have hoTag : o.tag ≠ e.tag := hfree o (List.mem_of_find?_eq_some ho)
  have hjoined : (s.joinTable e).ru.oldest e.line = some o := by
    show (s.ru.table ++ [e]).find? _ = some o
    rw [List.find?_append, show s.ru.table.find? _ = some o from ho]
    rfl
  have hbehind : (s.joinTable e).behind e = true := by
    rw [behind, hjoined]
    exact decide_eq_true hoTag
  have hsame : (s.ru.table ++ [e]).map (fun x => if x.tag = e.tag then { x with st := .waiting } else x) =
      s.ru.table ++ [e] := by
    have hw' : { e with st := .waiting } = e := by rw [← hw]
    rw [List.map_append, List.map_singleton, if_pos rfl, hw']
    congr 1
    exact (List.map_congr_left fun x hx => if_neg (hfree x hx)).trans (List.map_id' _)
  rw [takeUp, if_pos hbehind]
  exact congrArg (fun t => s.setRu { s.ru with table := t }) hsame

/-- A request with its line to itself is judged, and none waits behind it. -/
theorem takeUp_joined_of_first {s : State} {e : Entry} (h : ∀ x ∈ s.ru.table, x.line ≠ e.line) : (s.joinTable e).takeUp e = (s.joinTable e).settleEntry e := by
  have hjoined : (s.joinTable e).ru.oldest e.line = some e := by
    show (s.ru.table ++ [e]).find? _ = some e
    rw [List.find?_append, show s.ru.table.find? _ = none from (s.ru.oldest_eq_none_iff _).mpr h]
    simp
  have hbehind : ¬ (s.joinTable e).behind e = true := by
    rw [behind, hjoined]
    simp
  rw [takeUp, if_neg hbehind, judge]
  split
  · rename_i ha
    refine judgeLine_of_none ((RequestUnit.oldest_eq_none_iff _ _).mpr fun x hx => ?_) _
    rw [ru_settleEntry_of_answered ha] at hx
    obtain ⟨hmem, htag⟩ := List.mem_filter.mp hx
    rcases List.mem_append.mp hmem with hmem | hmem
    · exact h x hmem
    · rw [List.mem_singleton.mp hmem] at htag
      simp at htag
  · rfl

theorem accepts_eq_some_iff (s : State) (packet : List Byte) (kind : ReqKind) :
    s.accepts packet = some kind ↔
      packetReqKind packet = some kind ∧ s.ru.linkReady = true ∧ ∀ x ∈ s.ru.table, x.tag ≠ packetTag packet := by
  simp only [accepts, RequestUnit.find_eq_none_iff]
  split
  · rename_i h
    exact ⟨fun hk => ⟨hk, h⟩, fun hk => hk.1⟩
  · rename_i h
    exact ⟨fun hk => (nomatch hk), fun hk => absurd hk.2 h⟩

theorem accepts_eq_none {s : State} {packet : List Byte}
    (h : packetReqKind packet = none ∨ ¬ (s.ru.linkReady = true ∧ ∀ x ∈ s.ru.table, x.tag ≠ packetTag packet)) :
    s.accepts packet = none := by
  cases ha : s.accepts packet with
  | none => rfl
  | some kind =>
    obtain ⟨hk, hfree⟩ := (s.accepts_eq_some_iff packet kind).mp ha
    rcases h with h | h
    · rw [h] at hk; cases hk
    · exact absurd hfree h

theorem exec_upstreamRequest_of_accepted {s : State} {packet : List Byte} {kind : ReqKind}
    (hk : packetReqKind packet = some kind)
    (hfree : s.ru.linkReady = true ∧ ∀ x ∈ s.ru.table, x.tag ≠ packetTag packet) :
    exec (.upstreamRequest packet) s = .next (s.acceptRequest packet kind).settle := by
  show Host.Outcome.next (s.upstreamRequest packet) = _
  rw [upstreamRequest, (s.accepts_eq_some_iff packet kind).mpr ⟨hk, hfree⟩]

/-- The entry of a request that is neither held for a load nor for a park, with its class where it has one (R50). -/
def arrival (s : State) (packet : List Byte) (kind : ReqKind) : Entry :=
  if s.tc.state = .unconfigured then newEntry packet kind .waiting else s.classify (newEntry packet kind .waiting)

theorem arrival_fields (s : State) (packet : List Byte) (kind : ReqKind) :
    (s.arrival packet kind).st = .waiting ∧ (s.arrival packet kind).tag = packetTag packet ∧
      (s.arrival packet kind).line = packetLine packet := by
  unfold arrival
  split <;> exact ⟨rfl, rfl, rfl⟩

theorem acceptRequest_of_taken {s : State} {packet : List Byte} {kind : ReqKind}
    (h : s.tc.state = .unconfigured ∨ (s.region.load = none ∧ s.tc.state ≠ .parking)) :
    s.acceptRequest packet kind = (s.joinTable (s.arrival packet kind)).takeUp (s.arrival packet kind) := by
  unfold acceptRequest arrival
  by_cases ht : s.tc.state = .unconfigured
  · simp only [if_pos ht]
  · obtain ⟨hl, hp⟩ := h.resolve_left ht
    have hl : ¬ s.loading = true := by rw [loading, hl]; simp
    simp only [if_neg ht, if_neg hl, if_neg hp]

/-! ## Releases (R57) -/

/-- The oldest entry of a line, after the entry of a tag has been put in its place. -/
theorem find?_put {l : List Entry} {tag : BitVec 5} {e c first : Entry} (hc : c.line = e.line)
    (he : l.find? (fun x => decide (x.tag = tag)) = some e)
    (hfirst : l.find? (fun x => decide (x.line = e.line)) = some first) :
    (l.map fun y => if y.tag = tag then c else y).find? (fun x => decide (x.line = e.line)) =
      some (if first.tag = tag then c else first) := by
  induction l with
  | nil => cases he
  | cons y l ih =>
    by_cases hy : y.line = e.line
    · rw [List.find?_cons_of_pos (by simpa using hy)] at hfirst
      obtain rfl := Option.some.inj hfirst
      rw [List.map_cons, List.find?_cons_of_pos]
      split
      · simpa using hc
      · simpa using hy
    · have htag : y.tag ≠ tag := fun ht => by
        rw [List.find?_cons_of_pos (by simpa using ht)] at he
        exact hy (congrArg Entry.line (Option.some.inj he))
      rw [List.find?_cons_of_neg (by simpa using hy)] at hfirst
      rw [List.find?_cons_of_neg (by simpa using htag)] at he
      rw [List.map_cons, if_neg htag, List.find?_cons_of_neg (by simpa using hy)]
      exact ih he hfirst

theorem release_of_not_held {reason : Hold} {tag : BitVec 5} (h : ∀ e ∈ s.ru.table, e.tag = tag → e.st ≠ .held reason) :
    release reason s tag = s := by
  unfold release
  cases hf : s.ru.find tag with
  | none => rfl
  | some e => exact if_neg (h e (List.mem_of_find?_eq_some hf) (find_tag hf))

theorem release_of_judged {reason : Hold} {tag : BitVec 5} (hf : s.ru.find tag = some e) (he : e.st = .held reason)
    (h : reason = .fill ∨ reason = .commit) : release reason s tag = s.judge e := by
  rw [release, hf]
  rcases h with rfl | rfl <;> exact if_pos he

theorem release_of_arrived {reason : Hold} {tag : BitVec 5} (hf : s.ru.find tag = some e) (he : e.st = .held reason)
    (h : reason = .regionLoad ∨ reason = .parking) :
    release reason s tag = (s.updateEntry tag fun _ => s.classify e).takeUp (s.classify e) := by
  rw [release, hf]
  rcases h with rfl | rfl <;> exact if_pos he

/-! ## The fill list (R115) -/

theorem fillHeld_iff (r : RequestUnit) (g : Nat) :
    r.fillHeld g = true ↔ ∃ e ∈ r.table, e.st = .held .fill ∧ e.granule = g := by
  simp [RequestUnit.fillHeld]

theorem evict_of_all_held {held : Nat → Bool} : ∀ {l : List Nat}, (∀ g ∈ l, held g = true) → evict held l = l
  | [], _ => rfl
  | g :: gs, h => by
    rw [evict, if_pos (h g List.mem_cons_self), evict_of_all_held fun k hk => h k (List.mem_cons_of_mem g hk)]

theorem evict_of_first_free {held : Nat → Bool} {x : Nat} (hx : held x = false) (after : List Nat) :
    ∀ {before : List Nat}, (∀ g ∈ before, held g = true) → evict held (before ++ x :: after) = before ++ after
  | [], _ => by
    rw [List.nil_append, evict, if_neg (by rw [hx]; decide)]
    rfl
  | g :: gs, h => by
    rw [List.cons_append, evict, if_pos (h g List.mem_cons_self),
      evict_of_first_free hx after fun k hk => h k (List.mem_cons_of_mem g hk)]
    rfl

theorem joinFillList_of_listed {g : Nat} (h : g ∈ s.engine.fillList) : s.joinFillList g = s :=
  if_pos (List.contains_iff_mem.mpr h)

theorem joinFillList_of_new {g : Nat} (h : g ∉ s.engine.fillList) :
    s.joinFillList g = s.setEngine
      { s.engine with
        fillList :=
          (if s.engine.fillList.length < 32 then s.engine.fillList else evict s.ru.fillHeld s.engine.fillList) ++ [g] } :=
  if_neg (mt List.contains_iff_mem.mp h)

end State

/-- Settles O44: how a request joins the table, a release of each reason, and the fill list. -/
theorem upstreamRequestsAndLinkResetMakeTheTable : Obligations.UpstreamRequestsAndLinkResetMakeTheTable := by
  refine ⟨fun s packet => ⟨fun h => ?violation, fun kind hk hfree => ⟨fun ht hl => ?loading, fun ht hl => ?parking,
    fun ht => ⟨fun hx => ?behind, fun hx => ?first⟩⟩, ?reset⟩, fun s reason tag => ⟨State.release_of_not_held,
    fun e he hst => ⟨State.release_of_judged he hst, fun hr => ?arrived⟩, fun e => ?judge, rfl,
    fun left => ?leftAbsent⟩, fun s g => ⟨State.joinFillList_of_listed, fun hg hroom => ?roomy,
      fun before x after hg hfull hl hbefore hx => ?evicted⟩⟩
  case violation =>
    show Host.Outcome.next (s.upstreamRequest packet) = _
    rw [State.upstreamRequest, State.accepts_eq_none h]
    rfl
  case loading =>
    rw [State.exec_upstreamRequest_of_accepted hk hfree]
    exact congrArg (fun t : State => Host.Outcome.next t.settle) ((if_neg ht).trans (if_pos hl))
  case parking =>
    have hl' : ¬ s.loading = true := by rw [State.loading, hl]; simp
    rw [State.exec_upstreamRequest_of_accepted hk hfree]
    exact congrArg (fun t : State => Host.Outcome.next t.settle)
      ((if_neg (by rw [ht]; decide)).trans ((if_neg hl').trans (if_pos ht)))
  case behind =>
    obtain ⟨hst, htag, hline⟩ := s.arrival_fields packet kind
    rw [State.exec_upstreamRequest_of_accepted hk hfree, State.acceptRequest_of_taken ht,
      State.takeUp_joined_of_earlier hst (htag ▸ hfree.2) (hline ▸ hx)]
    rfl
  case first =>
    obtain ⟨_, htag, hline⟩ := s.arrival_fields packet kind
    rw [State.exec_upstreamRequest_of_accepted hk hfree, State.acceptRequest_of_taken ht,
      State.takeUp_joined_of_first (hline ▸ hx)]
    rfl
  case reset =>
    refine ⟨s.discardTable, rfl, rfl, rfl, rfl, rfl, rfl, rfl, rfl, rfl, rfl, rfl, rfl, ?_⟩
    refine congrArg (fun q => ({ s.dram with queue := q } : DramPort)) (List.map_congr_left fun a _ => ?_)
    obtain ⟨src, line⟩ := a
    cases src <;> rfl
  case arrived =>
    intro classed put first hfirst
    have htag : e.tag = tag := State.find_tag he
    have hrel := State.release_of_arrived he hst hr
    have hold : (s.updateEntry tag fun _ => s.classify e).ru.oldest (s.classify e).line =
        some (if first.tag = tag then s.classify e else first) :=
      State.find?_put (e := e) rfl he hfirst
    refine ⟨fun hf => ?_, fun hf => ?_⟩
    · have hbehind : (s.updateEntry tag fun _ => s.classify e).behind (s.classify e) = true := by
        rw [State.behind, hold, if_neg hf]
        exact decide_eq_true fun h => hf (h.trans htag)
      rw [hrel, State.takeUp, if_pos hbehind]
      refine congrArg (fun t => s.setRu { s.ru with table := t }) ?_
      show List.map _ (List.map _ s.ru.table) = _
      rw [List.map_map]
      refine List.map_congr_left fun y _ => ?_
      simp only [Function.comp_apply]
      by_cases hy : y.tag = tag
      · rw [if_pos hy, if_pos hy]
        exact if_pos rfl
      · rw [if_neg hy, if_neg hy]
        exact if_neg fun h => hy (h.trans htag)
    · have hbehind : ¬ (s.updateEntry tag fun _ => s.classify e).behind (s.classify e) = true := by
        rw [State.behind, hold, if_pos hf]
        simp
      rw [hrel, State.takeUp, if_neg hbehind]
      rfl
  case judge => exact State.ite_answered (s.judgement e) _ _
  case leftAbsent =>
    have hfilter : (s.ru.table.filter fun e => decide (e.st = .held .fill) && left.contains e.granule) =
        s.ru.table.filter fun e => decide (e.st = .held .fill ∧ e.granule ∈ left) :=
      List.filter_congr fun e _ => by simp
    rw [State.leftAbsent, hfilter]
  case roomy =>
    rw [State.joinFillList_of_new hg]
    split
    · rfl
    · rename_i hlen
      have hall := hroom.resolve_left hlen
      rw [State.evict_of_all_held fun k hk => (State.fillHeld_iff s.ru k).mpr (hall k hk)]
  case evicted =>
    have hfree : s.ru.fillHeld x = false := Bool.eq_false_iff.mpr (mt (State.fillHeld_iff s.ru x).mp hx)
    have hevict : State.evict s.ru.fillHeld s.engine.fillList = before ++ after := by
      rw [show s.engine.fillList = before ++ x :: after from hl]
      exact State.evict_of_first_free hfree after fun k hk => (State.fillHeld_iff s.ru k).mpr (hbefore k hk)
    rw [State.joinFillList_of_new hg, if_neg (Nat.not_lt.mpr hfull), hevict]

/-! ## Completions (R53, R64) -/

namespace State

variable {s : State}

theorem performedData_eq_some {tag : BitVec 5} {e : Entry} {data : List Byte} (he : s.ru.find tag = some e)
    (hst : e.st = .issued (some data)) : s.performedData tag = some (e, data) := by
  rw [performedData, he]
  dsimp only
  rw [hst]

theorem upstreamAccessDone_of_performed {tag : BitVec 5} {e : Entry} {data : List Byte}
    (h : s.performedData tag = some (e, data)) : s.upstreamAccessDone tag = (s.complete e data).settle := by
  have hsend : s.sendPerformed tag = s.complete e data := by rw [sendPerformed, h]
  rw [upstreamAccessDone, if_pos (by rw [h]; rfl), hsend]

theorem upstreamAccessDone_of_not_performed {tag : BitVec 5} (h : s.performedData tag = none) :
    s.upstreamAccessDone tag =
      if s.dram.cond = .up ∧ (s.dram.queue.any fun a => decide (a.tag = some tag)) = true then
        ((serveUntil (fun a => decide (a.tag = some tag)) s.turns s).sendPerformed tag).settle
      else s := by
  rw [upstreamAccessDone, if_neg (by rw [h]; decide)]

/-- The state in which the entries behind a completed one are judged. -/
def completed (s : State) (e : Entry) (data : List Byte) : State :=
  (s.setRu (s.ru.drop e.tag)).sendCompletion { tag := e.tag, status := .good, data := data }

theorem complete_eq (s : State) (e : Entry) (data : List Byte) :
    s.complete e data = judgeLine (s.completed e data).ru.table.length e.line (s.completed e data) := rfl

theorem serveUntil_of_choice {a : Access} {stop : Access → Bool} (hup : s.dram.cond = .up)
    (hpick : pickAccess s.dram.queue s.dram.runCount = some a) (hstop : stop a = true) :
    serveUntil stop s.turns s = s.serve a := by
  have hchoice : s.arbiterChoice = some a := (if_pos hup).trans hpick
  rw [turns, serveUntil, hchoice]
  exact if_pos hstop

end State

/-- Settles O45: the judging of a line's oldest entries, and the accesses served until one ends. -/
theorem accessesAreServedAndCompleted : Obligations.AccessesAreServedAndCompleted := by
  refine ⟨fun s line fuel => ⟨fun h => ?quiet, fun e he hw => ?next, State.oldest_judgeLine_not_waiting line fuel s⟩,
    fun s tag => ⟨fun e data he hst => ?performed, fun hn hw => ?served, fun hn hw => ?unserved, fun h => ?engine,
      fun h => ?noEngine, fun a stop hup => State.serveUntil_of_choice hup⟩⟩
  case quiet =>
    cases ho : s.ru.oldest line with
    | none => exact State.judgeLine_of_none ho fuel
    | some e => exact State.judgeLine_of_not_waiting ho (h e ho) fuel
  case next =>
    rw [State.judgeLine_of_waiting he hw]
    exact State.ite_answered (s.judgement e) _ _
  case performed =>
    have htag : e.tag = tag := State.find_tag he
    have hexec : exec (.upstreamAccessDone tag) s = .next (s.complete e data).settle :=
      congrArg Host.Outcome.next (State.upstreamAccessDone_of_performed (State.performedData_eq_some he hst))
    rw [State.complete_eq] at hexec
    refine ⟨s.completed e data, hexec, ?_, ?_, rfl, rfl, rfl, rfl, rfl, rfl, rfl⟩
    · rw [← htag]; rfl
    · rw [← htag]; rfl
  all_goals
    have hany : (s.dram.queue.any fun a => decide (a.tag = some tag)) = true ↔ ∃ a ∈ s.dram.queue, a.tag = some tag := by
      simp
    have hengine : (s.dram.queue.any fun a => !a.upstream) = true ↔ ∃ a ∈ s.dram.queue, a.upstream = false := by simp
  case served =>
    exact congrArg Host.Outcome.next
      ((State.upstreamAccessDone_of_not_performed hn).trans (if_pos ⟨hw.1, hany.mpr hw.2⟩))
  case unserved =>
    exact congrArg Host.Outcome.next
      ((State.upstreamAccessDone_of_not_performed hn).trans (if_neg fun hc => hw ⟨hc.1, hany.mp hc.2⟩))
  case engine => exact congrArg Host.Outcome.next (if_pos ⟨h.1, hengine.mpr h.2⟩)
  case noEngine => exact congrArg Host.Outcome.next (if_neg fun hc => h ⟨hc.1, hengine.mp hc.2⟩)

end Sys2Proof.Machine
end

