-- ==== Sys2Proof/Proofs/ServedAccesses.lean ====
section
/-! What a served access reads or writes (R42, R47, R53, R62), and the written flags and write-backs (R41 to R44). -/

namespace Sys2Proof.Machine

/-! ## Bytes of DRAM -/

namespace DramPort

/-- What any byte reads as after a write of a run. -/
theorem byte_writeRun (d : DramPort) (line : Nat) (bs : List (Option Byte)) (x : Nat) :
    (d.writeRun line bs).byte x =
      if 64 * line ≤ x ∧ x < 64 * line + bs.length ∧ x < d.installed then (bs.getD (x - 64 * line) none).getD (d.byte x)
      else d.byte x := by
  show (if d.installed ≤ x then 0 else
    (Memory.get (Memory.write d.mem (64 * line) (bs.take (d.installed - 64 * line))) x).getD
      (Config.dramFree d.bringUps x)) = _
  have hbyte : ¬ d.installed ≤ x → d.byte x = (Memory.get d.mem x).getD (Config.dramFree d.bringUps x) := fun h => if_neg h
  by_cases hx : d.installed ≤ x
  · rw [if_pos hx, if_neg (by omega)]
    exact (if_pos hx).symm
  · rw [if_neg hx, Memory.get_write, List.length_take]
    by_cases hin : 64 * line ≤ x ∧ x < 64 * line + bs.length
    · have hget : (bs.take (d.installed - 64 * line)).getD (x - 64 * line) none = bs.getD (x - 64 * line) none := by
        rw [List.getD_eq_getElem?_getD, List.getElem?_take, if_pos (by omega), List.getD_eq_getElem?_getD]
      rw [if_pos (by omega), if_pos (by omega), hget, hbyte hx]
      cases bs.getD (x - 64 * line) none <;> rfl
    · rw [if_neg (by omega), if_neg (by omega), hbyte hx]

theorem byte_writeRun_of_outside (d : DramPort) (line : Nat) (bs : List (Option Byte)) {x : Nat}
    (h : x < 64 * line ∨ 64 * line + bs.length ≤ x) : (d.writeRun line bs).byte x = d.byte x :=
  d.byte_writeRun_outside line bs x h

theorem readLine_eq (d : DramPort) (line : Nat) (h : Memory.wf d.mem = true) :
    d.readLine line = (List.range 64).map fun i => d.byte (64 * line + i) := d.readLines_eq line 1 h

end DramPort

theorem length_enabledBytes (data : List Byte) (enables : BitVec 64) :
    (enabledBytes data enables).length = data.length := by simp [enabledBytes]

theorem getD_enabledBytes {data : List Byte} {i : Nat} (enables : BitVec 64) (h : i < data.length) :
    (enabledBytes data enables).getD i none = if enables.getLsbD i then some (data.getD i 0) else none := by
  simp [enabledBytes, List.getD_eq_getElem?_getD, h]

namespace State

/-! ## Accesses served (R42, R47, R53) -/

variable (s : State)

theorem dram_performed (tag : BitVec 5) (live : Bool) (data : List Byte) : (s.performed tag live data).dram = s.dram := by
  unfold performed
  split <;> rfl

theorem table_performed (tag : BitVec 5) (live : Bool) (data : List Byte) :
    (s.performed tag live data).ru.table =
      if live then s.ru.table.map fun e => if e.tag = tag then { e with st := .issued (some data) } else e
      else s.ru.table := by
  unfold performed
  split <;> rfl

theorem byte_serve_upRead (line : Nat) (tag : BitVec 5) (live : Bool) (a : Nat) :
    (s.serve { src := .upRead tag live, line := line }).dram.byte a = s.dram.byte a := by
  unfold serve perform
  simp only [setDram_dram, dram_performed]
  rfl

theorem byte_serve_upWrite (line : Nat) (tag : BitVec 5) (live : Bool) (data : List Byte) (enables : BitVec 64)
    (a : Nat) :
    (s.serve { src := .upWrite tag live data enables, line := line }).dram.byte a =
      (s.dram.writeRun line (enabledBytes data enables)).byte a := by
  unfold serve perform
  simp only [setDram_dram, dram_performed]
  rfl

theorem table_serve_upRead (line : Nat) (tag : BitVec 5) (live : Bool) :
    (s.serve { src := .upRead tag live, line := line }).ru.table =
      if live then
        s.ru.table.map fun e => if e.tag = tag then { e with st := .issued (some (s.dram.readLine line)) } else e
      else s.ru.table := table_performed _ tag live _

theorem table_serve_upWrite (line : Nat) (tag : BitVec 5) (live : Bool) (data : List Byte) (enables : BitVec 64) :
    (s.serve { src := .upWrite tag live data enables, line := line }).ru.table =
      if live then s.ru.table.map fun e => if e.tag = tag then { e with st := .issued (some []) } else e
      else s.ru.table := table_performed _ tag live _

theorem byte_serve_writeBack (line n a : Nat) :
    (s.serve { src := .engine (.writeBack n), line := line }).dram.byte a =
      (s.dram.writeRun line (List.replicate (16 * (n % 4)) none ++ [some 1])).byte a := by
  rw [serve_engine rfl, afterLine_last rfl]
  rfl

theorem ru_serve_writeBack (line n : Nat) : (s.serve { src := .engine (.writeBack n), line := line }).ru = s.ru := by
  rw [serve_engine rfl, afterLine_last rfl]
  rfl

/-! ## A write claimed again -/

end State

theorem GTable.put_put (t : GTable) (g : Nat) (r r' : GRec) : GTable.put (GTable.put t g r) g r' = GTable.put t g r' := by
  have hcell : ∀ (p : Nat → Bool), p g = false → (GTable.cell g r).filter (fun x => p x.1) = [] := fun p hp =>
    List.filter_eq_nil_iff.mpr fun x hx => by rw [(GTable.mem_cell hx).1, hp]; decide
  have hlow : t.filter (fun x => decide (x.1 < g) && decide (g < x.1)) = [] :=
    List.filter_eq_nil_iff.mpr fun x _ => by simp; omega
  have hhigh : t.filter (fun x => decide (g < x.1) && decide (x.1 < g)) = [] :=
    List.filter_eq_nil_iff.mpr fun x _ => by simp; omega
  unfold GTable.put
  simp only [List.filter_append, List.filter_filter, hcell (fun k => decide (k < g)) (by simp),
    hcell (fun k => decide (g < k)) (by simp), hlow, hhigh, Bool.and_self, List.append_nil, List.nil_append]

theorem Tracker.putRec_putRec (tr : Tracker) (g : Nat) (r r' : GRec) :
    (tr.putRec g r).putRec g r' = tr.putRec g r' :=
  congrArg tr.withTable (GTable.put_put tr.table g r r')

theorem GRec.write_write (r : GRec) : r.write.write = r.write := by
  obtain ⟨st, committed, pending, cls⟩ := r
  cases st <;> rfl

theorem GRec.writeFrees_write (r : GRec) : r.write.writeFrees = [] := by
  obtain ⟨st, committed, pending, cls⟩ := r
  cases st <;> rfl

theorem GRec.cls_write (r : GRec) : r.write.cls = r.cls := by
  obtain ⟨st, committed, pending, cls⟩ := r
  cases st <;> rfl

namespace State

variable (s : State)

theorem claimWrite_claimWrite (g : Nat) : (s.claimWrite g).claimWrite g = s.claimWrite g := by
  have hrec : (s.claimWrite g).recOf g = (s.recOf g).write := by
    rw [claimWrite, recOf_claim, if_pos rfl]
  have htr : (s.claimWrite g).tracker.putRec g (s.recOf g).write = (s.claimWrite g).tracker := by
    rw [claimWrite, tracker_claim, Tracker.putRec_putRec]
  have henters : ¬ (s.recOf g).write.entersDirty (s.recOf g).write = true := by simp [GRec.entersDirty]
  show (s.claimWrite g).claim g GRec.write GRec.writeFrees = s.claimWrite g
  unfold claim
  simp only [hrec, GRec.write_write, GRec.writeFrees_write, if_neg henters, htr]
  rfl

/-- A state with another Region Unit and another DRAM Port. -/
def outside (r : RegionUnit) (d : DramPort) : State := (s.setRegion r).setDram d

theorem outside_self : s.outside s.region s.dram = s := rfl

theorem ite_outside {c : Prop} [Decidable c] {a b a' b' : State} {r : RegionUnit} {d : DramPort}
    (ha : a = a'.outside r d) (hb : b = b'.outside r d) :
    (if c then a else b) = (if c then a' else b').outside r d := by
  split
  · exact ha
  · exact hb

theorem noticeDirty_outside (r : RegionUnit) (d : DramPort) : (s.outside r d).noticeDirty = s.noticeDirty.outside r d :=
  ite_outside rfl rfl

theorem appendSlots_outside (r : RegionUnit) (d : DramPort) (slots : List Nat) :
    (s.outside r d).appendSlots slots = (s.appendSlots slots).outside r d :=
  ite_outside rfl rfl

/-- A write's claim reads and changes the Granule Tracker and the Image Engine alone. -/
theorem claimWrite_outside (r : RegionUnit) (d : DramPort) (g : Nat) :
    (s.outside r d).claimWrite g = (s.claimWrite g).outside r d := by
  have happend := appendSlots_outside (s.setTracker (s.tracker.putRec g (s.recOf g).write)) r d (s.recOf g).writeFrees
  exact ite_outside ((congrArg noticeDirty happend).trans (noticeDirty_outside _ r d)) happend

theorem region_claimWrite (g : Nat) : (s.claimWrite g).region = s.region := by
  rw [claimWrite, only_claim]; rfl

theorem dram_claimWrite (g : Nat) : (s.claimWrite g).dram = s.dram := by
  rw [claimWrite, only_claim]; rfl

theorem recOf_claimWrite (g : Nat) : (s.claimWrite g).recOf g = (s.recOf g).write := by
  rw [claimWrite, recOf_claim, if_pos rfl]

/-! ## Owed write-backs paid (R44) -/

end State

/-- The owed flags with one cleared. -/
def owedLess (owed : BitVec 32) (n : Fin 32) : BitVec 32 := owed &&& ~~~(BitVec.twoPow 32 n.val)

theorem getLsbD_owedLess (owed : BitVec 32) (n m : Fin 32) :
    (owedLess owed n).getLsbD m.val = (owed.getLsbD m.val && decide (m ≠ n)) := by
  have hm := m.isLt
  simp only [owedLess, BitVec.getLsbD_and, BitVec.getLsbD_not, BitVec.getLsbD_twoPow, Fin.ext_iff, ne_eq]
  by_cases h : n.val = m.val
  · simp [h]
  · simp [h, Ne.symm h, hm]

theorem owedLess_of_clear {owed : BitVec 32} {n : Fin 32} (h : owed.getLsbD n.val = false) : owedLess owed n = owed := by
  refine BitVec.eq_of_getLsbD_eq fun i hi => ?_
  refine (getLsbD_owedLess owed n ⟨i, hi⟩).trans ?_
  by_cases hn : (⟨i, hi⟩ : Fin 32) = n
  · subst hn
    simp [h]
  · simp [hn]

theorem getLsbD_foldl_owedLess (m : Fin 32) : ∀ (l : List (Fin 32)) (owed : BitVec 32),
    (l.foldl owedLess owed).getLsbD m.val = (owed.getLsbD m.val && decide (m ∉ l))
  | [], owed => by simp
  | n :: l, owed => by
    rw [List.foldl_cons, getLsbD_foldl_owedLess m l, getLsbD_owedLess]
    by_cases hn : m = n <;> simp [hn]

theorem foldl_owedLess_all (owed : BitVec 32) : (List.finRange 32).foldl owedLess owed = 0 := by
  refine BitVec.eq_of_getLsbD_eq fun i hi => ?_
  rw [getLsbD_foldl_owedLess ⟨i, hi⟩]
  simp

/-- The accesses that write back the flags named by `owed`, of the descriptors of a list. -/
def owedAccesses (addr : Nat) (owed : BitVec 32) (l : List (Fin 32)) : List Access :=
  l.filterMap fun n =>
    if owed.getLsbD n.val then some { src := .engine (.writeBack n.val), line := (addr + 16 * n.val) / 64 } else none

theorem owedAccesses_owedLess {n : Fin 32} {l : List (Fin 32)} (h : n ∉ l) (addr : Nat) (owed : BitVec 32) :
    owedAccesses addr (owedLess owed n) l = owedAccesses addr owed l := by
  refine List.filterMap_congr fun m hm => ?_
  rw [getLsbD_owedLess, decide_eq_true (show m ≠ n from fun e => h (e ▸ hm)), Bool.and_true]

namespace State

/-- The Region Unit with the owed flags of a list cleared. -/
def lessOwed (r : RegionUnit) (l : List (Fin 32)) : RegionUnit :=
  { r with file := { r.file with owed := l.foldl owedLess r.file.owed } }

theorem clearOwed_of_clear {s : State} {n : Fin 32} (h : s.region.file.owed.getLsbD n.val = false) :
    s.clearOwed n = s :=
  congrArg (fun o => s.setRegion { s.region with file := { s.region.file with owed := o } }) (owedLess_of_clear h)

theorem payOwed_of_clear {s : State} {addr : Nat} {n : Fin 32} (h : s.region.file.owed.getLsbD n.val = false) :
    s.payOwed addr n = s := if_neg (Bool.eq_false_iff.mp h)

/-- An owed write-back presented, with its flag cleared. -/
def presentOwed (s : State) (addr : Nat) (n : Fin 32) : State :=
  s.outside (lessOwed s.region [n])
    { s.dram with queue := s.dram.queue ++ [{ src := .engine (.writeBack n.val), line := flagLine addr n }] }

theorem payOwed_of_owed {s : State} {addr : Nat} {n : Fin 32} (hcls : (s.recOf (tableGranule addr)).cls ≠ .fixed)
    (h : s.region.file.owed.getLsbD n.val = true) :
    s.payOwed addr n = (s.presentOwed addr n).claimWrite (tableGranule addr) := (if_pos h).trans (if_neg hcls)

theorem presentOwed_claimWrite (s : State) (addr : Nat) (n : Fin 32) (g : Nat) :
    (s.claimWrite g).presentOwed addr n = (s.presentOwed addr n).claimWrite g := by
  rw [presentOwed, presentOwed, region_claimWrite, dram_claimWrite, claimWrite_outside]

/-- Where the table's granule has been claimed as written, each payment is an access more and a flag less. -/
theorem payOwed_of_claimed {addr : Nat} : ∀ (l : List (Fin 32)) (s : State),
    (s.recOf (tableGranule addr)).cls ≠ .fixed → s.claimWrite (tableGranule addr) = s → l.Nodup →
      l.foldl (fun t n => t.payOwed addr n) s =
        s.outside (lessOwed s.region l)
          { s.dram with queue := s.dram.queue ++ owedAccesses addr s.region.file.owed l }
  | [], s, _, _, _ => by
    simp only [List.foldl_nil, owedAccesses, List.filterMap_nil, List.append_nil]
    rfl
  | n :: l, s, hcls, hclaimed, hl => by
    obtain ⟨hn, hl⟩ := List.nodup_cons.mp hl
    rw [List.foldl_cons]
    cases hb : s.region.file.owed.getLsbD n.val with
    | false =>
      rw [payOwed_of_clear hb, payOwed_of_claimed l s hcls hclaimed hl]
      simp only [lessOwed, owedAccesses, List.foldl_cons, owedLess_of_clear hb, List.filterMap_cons, hb]
      rfl
    | true =>
      have hpay : s.payOwed addr n = s.presentOwed addr n := by
        rw [payOwed_of_owed hcls hb, ← presentOwed_claimWrite, hclaimed]
      have hrest : owedAccesses addr (s.presentOwed addr n).region.file.owed l =
          owedAccesses addr s.region.file.owed l := owedAccesses_owedLess hn addr s.region.file.owed
      have hcons : owedAccesses addr s.region.file.owed (n :: l) =
          { src := .engine (.writeBack n.val), line := flagLine addr n } :: owedAccesses addr s.region.file.owed l := by
        simp only [owedAccesses, List.filterMap_cons, hb, if_true]
        rfl
      rw [hpay, payOwed_of_claimed l (s.presentOwed addr n) hcls (by rw [← presentOwed_claimWrite, hclaimed]) hl, hrest,
        hcons, List.append_cons]
      rfl

/-- The first payment claims the table's granule, and the others find it claimed. -/
theorem payOwed_claims {addr : Nat} : ∀ (l : List (Fin 32)) (s : State),
    (s.recOf (tableGranule addr)).cls ≠ .fixed → (∃ n ∈ l, s.region.file.owed.getLsbD n.val = true) →
      l.foldl (fun t n => t.payOwed addr n) s =
        l.foldl (fun t n => t.payOwed addr n) (s.claimWrite (tableGranule addr))
  | [], _, _, hex => by
    obtain ⟨m, hm, _⟩ := hex
    cases hm
  | n :: l, s, hcls, hex => by
    have hcls' : ((s.claimWrite (tableGranule addr)).recOf (tableGranule addr)).cls ≠ .fixed := by
      rw [recOf_claimWrite, GRec.cls_write]; exact hcls
    have howed : (s.claimWrite (tableGranule addr)).region.file.owed.getLsbD n.val =
        s.region.file.owed.getLsbD n.val := by rw [region_claimWrite]
    rw [List.foldl_cons, List.foldl_cons]
    cases hb : s.region.file.owed.getLsbD n.val with
    | false =>
      obtain ⟨m, hm, hmb⟩ := hex
      have hm : m ∈ l := (List.mem_cons.mp hm).resolve_left fun e => by rw [e, hb] at hmb; cases hmb
      rw [payOwed_of_clear hb, payOwed_of_clear (howed.trans hb)]
      exact payOwed_claims l s hcls ⟨m, hm, hmb⟩
    | true =>
      rw [payOwed_of_owed hcls hb, payOwed_of_owed hcls' (howed.trans hb), presentOwed_claimWrite, claimWrite_claimWrite]

/-- Where the table's granule is of FIXED class, the flags are cleared alone (R9, R43). -/
theorem payOwed_of_fixed {addr : Nat} : ∀ (l : List (Fin 32)) (s : State),
    (s.recOf (tableGranule addr)).cls = .fixed →
      l.foldl (fun t n => t.payOwed addr n) s = s.setRegion (lessOwed s.region l)
  | [], s, _ => rfl
  | n :: l, s, hcls => by
    have hpay : s.payOwed addr n = s.clearOwed n := by
      cases hb : s.region.file.owed.getLsbD n.val with
      | true => exact (if_pos hb).trans (if_pos hcls)
      | false => exact (payOwed_of_clear hb).trans (clearOwed_of_clear hb).symm
    rw [List.foldl_cons, hpay, payOwed_of_fixed l (s.clearOwed n) hcls]
    rfl

theorem payOwed_of_none {addr : Nat} {s : State} (h : s.region.file.owed = 0) :
    ∀ l : List (Fin 32), l.foldl (fun t n => t.payOwed addr n) s = s
  | [] => rfl
  | n :: l => by
    have hpay : s.payOwed addr n = s := payOwed_of_clear (by rw [h]; simp)
    rw [List.foldl_cons, hpay, payOwed_of_none h l]

theorem payOwedIn_of_tableAddr {addr : Nat} {s : State} (h : s.region.file.tableAddr = some addr) (left : List Nat) :
    s.payOwedIn left =
      if left.contains (tableGranule addr) then (List.finRange 32).foldl (fun s n => s.payOwed addr n) s else s := by
  rw [payOwedIn, h]

theorem lessOwed_all (r : RegionUnit) : lessOwed r (List.finRange 32) = { r with file := { r.file with owed := 0 } } := by
  rw [lessOwed, foldl_owedLess_all]

theorem payOwed_all {addr : Nat} {s : State} (hcls : (s.recOf (tableGranule addr)).cls ≠ .fixed)
    (howed : s.region.file.owed ≠ 0) :
    (List.finRange 32).foldl (fun s n => s.payOwed addr n) s =
      (s.claimWrite (tableGranule addr)).outside { s.region with file := { s.region.file with owed := 0 } }
        { s.dram with queue := s.dram.queue ++ owedAccesses addr s.region.file.owed (List.finRange 32) } := by
  have hex : ∃ n ∈ List.finRange 32, s.region.file.owed.getLsbD n.val = true := by
    by_contra hno
    refine howed (BitVec.eq_of_getLsbD_eq fun i hi => ?_)
    have := fun h => hno ⟨⟨i, hi⟩, List.mem_finRange _, h⟩
    simpa using this
  have hcls' : ((s.claimWrite (tableGranule addr)).recOf (tableGranule addr)).cls ≠ .fixed := by
    rw [recOf_claimWrite, GRec.cls_write]; exact hcls
  rw [payOwed_claims _ s hcls hex, payOwed_of_claimed _ _ hcls' (s.claimWrite_claimWrite _) (List.nodup_finRange 32),
    lessOwed_all, region_claimWrite, dram_claimWrite]

/-! ## Write-backs begun (R41 to R43) -/

theorem writeBack_of_tableAddr {s : State} {addr : Nat} (h : s.region.file.tableAddr = some addr) (n : Fin 32) :
    s.writeBack n =
      if (s.recOf (tableGranule addr)).cls = .fixed then s
      else if (s.recOf (tableGranule addr)).st.countsAbsent then
        s.setRegion
          { s.region with file := { s.region.file with owed := s.region.file.owed ||| BitVec.twoPow 32 n.val } }
      else s.issueWriteBack addr n := by
  rw [writeBack, h]

theorem getLsbD_owedMore (owed : BitVec 32) (n : Fin 32) (i : Nat) (h : i < 32) :
    (owed ||| BitVec.twoPow 32 n.val).getLsbD i = (decide (i = n.val) || owed.getLsbD i) := by
  rw [BitVec.getLsbD_or, BitVec.getLsbD_twoPow, Bool.or_comm]
  simp [h, n.isLt, eq_comm]

theorem region_enterImagedOff (s : State) : s.enterImagedOff.region = s.region := by
  have h : s.disregardTransfers.region = s.region := by
    rw [disregardTransfers_eq, disregardData_eq]; rfl
  rw [enterImagedOff_eq, ← h]
  rfl

theorem region_markDramLoss (s : State) : s.markDramLoss.region = s.region := by
  rw [markDramLoss, only_claimDramLoss, disregardTransfers_eq, disregardData_eq]
  rfl

end State

/-- Settles O46: what an upstream access and a write-back do to DRAM, and where write-backs come from. -/
theorem servedAccessReadsOrWritesItsLine : Obligations.ServedAccessReadsOrWritesItsLine := by
  refine ⟨fun s line hwf => ⟨fun tag live => ⟨s.byte_serve_upRead line tag live, ?readTable⟩,
      fun tag live data enables hlen => ⟨fun i hi => ?inside, fun a ha => ?outside,
        s.table_serve_upWrite line tag live data enables⟩,
      fun n hn => ⟨fun hflag => ?flag, fun a ha => ?others, s.ru_serve_writeBack line n⟩⟩,
    fun s => ⟨fun g hg => ?ungoverned, fun g n hg => ⟨fun hw => ?already, fun hw => ?marked⟩, fun ht n => ?noTable,
      fun a n ht => ⟨fun hc => ?fixed, fun hc hst => ?owed, fun hc hab hfi => ?issued⟩, fun left hleft => ?notLeft,
      fun left a ht hleft => ⟨fun ho => ?noneOwed, fun hc => ?clearedAlone, fun ho hc => ?paid⟩,
      s.region_markDramLoss, s.region_enterImagedOff⟩⟩
  case readTable =>
    rw [State.table_serve_upRead, DramPort.readLine_eq _ _ hwf]
  case inside =>
    have hi' : i < data.length := by omega
    rw [State.byte_serve_upWrite, DramPort.byte_writeRun, length_enabledBytes, Nat.add_sub_cancel_left,
      getD_enabledBytes enables hi', hlen]
    by_cases hins : 64 * line + i < s.dram.installed
    · rw [if_pos ⟨by omega, by omega, hins⟩]
      cases he : enables.getLsbD i <;> simp [hins]
    · rw [if_neg fun h => hins h.2.2, if_neg fun h => hins h.2]
  case outside =>
    rw [State.byte_serve_upWrite, DramPort.byte_writeRun_of_outside _ _ _ (by rw [length_enabledBytes]; omega)]
  case flag =>
    rw [State.byte_serve_writeBack, DramPort.byte_writeRun, if_pos ⟨by omega, by simp, hflag⟩, Nat.add_sub_cancel_left]
    simp
  case others =>
    rw [State.byte_serve_writeBack, DramPort.byte_writeRun]
    split
    · rename_i hin
      have hlt : a - 64 * line < 16 * (n % 4) := by
        have := hin.2.1
        simp only [List.length_append, List.length_replicate, List.length_singleton] at this
        omega
      rw [List.getD_append _ _ _ _ (by simpa using hlt)]
      simp [hlt]
    · rfl
  case ungoverned => rw [State.markWritten, hg]
  case already =>
    rw [State.markWritten, hg]
    exact if_pos hw
  case marked =>
    rw [State.markWritten, hg]
    exact if_neg (Bool.eq_false_iff.mp hw)
  case noTable => rw [State.writeBack, ht]
  case fixed => exact (State.writeBack_of_tableAddr ht n).trans (if_pos hc)
  case owed =>
    exact ⟨_, (State.writeBack_of_tableAddr ht n).trans
      ((if_neg hc).trans (if_pos ((GState.countsAbsent_iff _).mpr hst))), State.getLsbD_owedMore _ _⟩
  case issued =>
    exact (State.writeBack_of_tableAddr ht n).trans
      ((if_neg hc).trans (if_neg fun h => ((GState.countsAbsent_iff _).mp h).elim hab hfi))
  case notLeft =>
    cases ht : s.region.file.tableAddr with
    | none => rw [State.payOwedIn, ht]
    | some a =>
      exact (State.payOwedIn_of_tableAddr ht left).trans
        (if_neg fun h => hleft a ht (List.contains_iff_mem.mp h))
  all_goals
    have hpay : s.payOwedIn left = (List.finRange 32).foldl (fun s n => s.payOwed a n) s :=
      (State.payOwedIn_of_tableAddr ht left).trans (if_pos (List.contains_iff_mem.mpr hleft))
  case noneOwed => exact hpay.trans (State.payOwed_of_none ho _)
  case clearedAlone => rw [hpay, State.payOwed_of_fixed _ s hc, State.lessOwed_all]
  case paid => exact hpay.trans (State.payOwed_all hc ho)

end Sys2Proof.Machine
end

