-- ==== Sys2Proof/Proofs/WakeLines.lean ====
section
/-! The line machines (R159, R160), the cause record (R161), and what a qualification does (R162). -/

namespace Sys2Proof.Machine

/-! ## The line machines -/

namespace WakeLine

variable {l : WakeLine}

theorem assert_edge_armed (hm : l.mode = .edge) (hk : l.machine = .armed) :
    l.assert = ({ l with level := true, machine := .qualified }, true) := by simp [assert, hm, hk]

theorem assert_hold_armed (hm : l.mode = .hold) (hk : l.machine = .armed) :
    l.assert =
      if l.hold = 0 then ({ l with level := true, machine := .qualified, timer := Timer.expired }, true)
      else ({ l with level := true, machine := .timing, timer := Timer.load l.hold }, false) := by
  simp [assert, hm, hk]

theorem assert_hold_releasing (hm : l.mode = .hold) (hk : l.machine = .releasing) :
    l.assert = ({ l with level := true, machine := .qualified, timer := Timer.stopped }, false) := by
  simp [assert, hm, hk]

theorem assert_other (h : ¬ (l.mode = .edge ∧ l.machine = .armed)) (h' : ¬ (l.mode = .hold ∧ l.machine = .armed))
    (h'' : ¬ (l.mode = .hold ∧ l.machine = .releasing)) : l.assert = ({ l with level := true }, false) := by
  unfold assert
  dsimp only
  split
  · exact absurd ⟨‹_›, ‹_›⟩ h
  · exact absurd ⟨‹_›, ‹_›⟩ h'
  · exact absurd ⟨‹_›, ‹_›⟩ h''
  · rfl

theorem deassert_blocked (hm : l.mode ≠ .disabled) (hk : l.machine = .blocked) :
    l.deassert = { l with level := false, machine := .armed } := by
  cases h : l.mode <;> simp_all [deassert]

theorem deassert_edge_qualified (hm : l.mode = .edge) (hk : l.machine = .qualified) :
    l.deassert = { l with level := false, machine := .armed } := by simp [deassert, hm, hk]

theorem deassert_hold_timing (hm : l.mode = .hold) (hk : l.machine = .timing) :
    l.deassert = { l with level := false, machine := .armed, timer := Timer.stopped } := by simp [deassert, hm, hk]

theorem deassert_hold_qualified (hm : l.mode = .hold) (hk : l.machine = .qualified) :
    l.deassert =
      if l.hold = 0 then { l with level := false, machine := .armed, timer := Timer.expired }
      else { l with level := false, machine := .releasing, timer := Timer.load l.hold } := by
  simp [deassert, hm, hk]

theorem deassert_other (h : ¬ (l.mode ≠ .disabled ∧ l.machine = .blocked))
    (h1 : ¬ (l.mode = .edge ∧ l.machine = .qualified)) (h2 : ¬ (l.mode = .hold ∧ l.machine = .timing))
    (h3 : ¬ (l.mode = .hold ∧ l.machine = .qualified)) : l.deassert = { l with level := false } := by
  unfold deassert
  dsimp only
  split
  · rename_i hm hk
    exact absurd ⟨fun e => (nomatch e.symm.trans hm), hk⟩ h
  · exact absurd ⟨‹_›, ‹_›⟩ h1
  · rename_i hm hk
    exact absurd ⟨fun e => (nomatch e.symm.trans hm), hk⟩ h
  · exact absurd ⟨‹_›, ‹_›⟩ h2
  · exact absurd ⟨‹_›, ‹_›⟩ h3
  · rfl

theorem expire_timing (hm : l.mode = .hold) (hk : l.machine = .timing) :
    l.expire = ({ l with machine := .qualified, timer := Timer.expired }, true) := by simp [expire, hm, hk]

theorem expire_releasing (hm : l.mode = .hold) (hk : l.machine = .releasing) :
    l.expire = ({ l with machine := .armed, timer := Timer.expired }, false) := by simp [expire, hm, hk]

end WakeLine

namespace State

variable {s : State} {i : Fin 5}

theorem lineMoved_qualified (l : WakeLine) :
    s.lineMoved i (l, true) = ((s.setWake (s.wake.setLine i l)).qualify i).settle := by
  unfold lineMoved
  dsimp only
  rw [if_pos rfl]

theorem lineMoved_silent (l : WakeLine) : s.lineMoved i (l, false) = s.setWake (s.wake.setLine i l) := by
  unfold lineMoved
  dsimp only
  rw [if_neg (by decide)]

theorem wkAssert_of_low (h : s.wake.lines[i].level = false) :
    s.wkAssert i = s.lineMoved i s.wake.lines[i].assert := if_neg (by rw [h]; decide)

theorem wkDeassert_of_high (h : s.wake.lines[i].level = true) :
    s.wkDeassert i = s.setWake (s.wake.setLine i s.wake.lines[i].deassert) := if_pos h

theorem holdTimerExpiry_of_running (h : s.wake.lines[i].timer.status = .running) :
    s.holdTimerExpiry i = s.lineMoved i s.wake.lines[i].expire := if_pos h

end State

/-- Settles O48: what each line event does, by the mode and the machine of its line. -/
theorem wakeLinesFollowTheirTables : Obligations.WakeLinesFollowTheirTables := by
  intro s i l moved up down
  refine ⟨fun h => congrArg Host.Outcome.next (if_pos h), fun h => ?asserted,
    fun h => congrArg Host.Outcome.next (if_neg (by rw [h]; decide)), fun h => ?deasserted,
    fun h => congrArg Host.Outcome.next (if_neg h), fun h hm => ⟨fun hk => ?timed, fun hk => ?released⟩⟩
  case asserted =>
    refine congrArg Host.Outcome.next ((State.wkAssert_of_low h).trans ?_)
    by_cases h1 : l.mode = .edge ∧ l.machine = .armed
    · rw [if_pos h1, WakeLine.assert_edge_armed h1.1 h1.2, State.lineMoved_qualified]
    · rw [if_neg h1]
      by_cases h2 : l.mode = .hold ∧ l.machine = .armed
      · rw [if_pos h2, WakeLine.assert_hold_armed h2.1 h2.2]
        by_cases h0 : l.hold = 0
        · rw [if_pos h0, if_pos h0, State.lineMoved_qualified]
        · rw [if_neg h0, if_neg h0, State.lineMoved_silent]
          rfl
      · rw [if_neg h2]
        by_cases h3 : l.mode = .hold ∧ l.machine = .releasing
        · rw [if_pos h3, WakeLine.assert_hold_releasing h3.1 h3.2, State.lineMoved_silent]
        · rw [if_neg h3, WakeLine.assert_other h1 h2 h3, State.lineMoved_silent]
  case deasserted =>
    refine congrArg Host.Outcome.next ((State.wkDeassert_of_high h).trans ?_)
    by_cases h1 : l.mode ≠ .disabled ∧ l.machine = .blocked
    · rw [if_pos h1, WakeLine.deassert_blocked h1.1 h1.2]
    · rw [if_neg h1]
      by_cases h2 : l.mode = .edge ∧ l.machine = .qualified
      · rw [if_pos h2, WakeLine.deassert_edge_qualified h2.1 h2.2]
      · rw [if_neg h2]
        by_cases h3 : l.mode = .hold ∧ l.machine = .timing
        · rw [if_pos h3, WakeLine.deassert_hold_timing h3.1 h3.2]
        · rw [if_neg h3]
          by_cases h4 : l.mode = .hold ∧ l.machine = .qualified
          · rw [if_pos h4, WakeLine.deassert_hold_qualified h4.1 h4.2]
            by_cases h0 : l.hold = 0
            · rw [if_pos h0, if_pos h0]
            · rw [if_neg h0, if_neg h0]
              rfl
          · rw [if_neg h4, WakeLine.deassert_other h1 h2 h3 h4]
  case timed =>
    refine congrArg Host.Outcome.next ((State.holdTimerExpiry_of_running h).trans ?_)
    rw [WakeLine.expire_timing hm hk, State.lineMoved_qualified]
  case released =>
    refine congrArg Host.Outcome.next ((State.holdTimerExpiry_of_running h).trans ?_)
    rw [WakeLine.expire_releasing hm hk, State.lineMoved_silent]

/-! ## Qualifications -/

/-- A qualification enters the record (R161). -/
theorem addCause_eq (cs : List Cause) (i : Fin 5) :
    addCause cs i =
      if ∃ c ∈ cs, c.line = i then
        cs.map fun c => if c.line = i then { c with count := if c.count < 15 then c.count + 1 else 15 } else c
      else cs ++ [{ line := i, count := 1 }] := by
  have hmin : ∀ c : Cause, min (c.count + 1) 15 = if c.count < 15 then c.count + 1 else 15 := fun c => by
    split <;> omega
  unfold addCause
  simp only [List.any_eq_true, decide_eq_true_eq, hmin]

namespace State

variable {s : State}

theorem wakeInEntry_of_railLoss (abort : State → State) (h : s.tc.railLoss = true) :
    s.wakeInEntry abort = s.deferWake := if_pos h

theorem wakeInEntry_of_waiting (abort : State → State) (hr : s.tc.railLoss = false) (h : s.tc.waitingAbort ≠ none) :
    s.wakeInEntry abort = s :=
  (if_neg (by rw [hr]; decide)).trans (if_pos (Option.isSome_iff_ne_none.mpr h))

theorem wakeInEntry_of_none (abort : State → State) (hr : s.tc.railLoss = false) (h : s.tc.waitingAbort = none) :
    s.wakeInEntry abort = if s.tc.abortable then abort s else s.deferWake :=
  (if_neg (by rw [hr]; decide)).trans (if_neg (by rw [h]; decide))

/-- What a qualification does in an entry, whatever the abort of its state does. -/
theorem actOnWake_of_entering (h : s.tc.state = .saving ∨ s.tc.state = .committing ∨ s.tc.state = .parking) :
    ∃ abort, s.actOnWake = s.wakeInEntry abort := by
  unfold actOnWake
  rcases h with h | h | h <;> rw [h] <;> exact ⟨_, rfl⟩

theorem actOnWake_of_saving (h : s.tc.state = .saving ∨ s.tc.state = .committing) :
    s.actOnWake = s.wakeInEntry fun s => s.setTc { s.tc with waitingAbort := some .wake } := by
  unfold actOnWake
  rcases h with h | h <;> rw [h]

theorem actOnWake_of_parking (h : s.tc.state = .parking) :
    s.actOnWake = s.wakeInEntry fun s => s.parkAbort .wake := by
  unfold actOnWake
  rw [h]

theorem actOnWake_of_stopped (h : s.tc.state = .sleeping ∨ s.tc.state = .imagedOff) :
    s.actOnWake = s.assertWakeReq := by
  unfold actOnWake
  rcases h with h | h <;> rw [h]

theorem actOnWake_of_other (h : ¬ (s.tc.state = .saving ∨ s.tc.state = .committing ∨ s.tc.state = .parking))
    (hs : s.tc.state ≠ .sleeping) (hi : s.tc.state ≠ .imagedOff) : s.actOnWake = s := by
  unfold actOnWake
  split
  · exact absurd (.inl ‹_›) h
  · exact absurd (.inr (.inl ‹_›)) h
  · exact absurd (.inr (.inr ‹_›)) h
  · exact absurd ‹_› hs
  · exact absurd ‹_› hi
  all_goals rfl

theorem qualify_eq (s : State) (i : Fin 5) :
    s.qualify i =
      (s.setWake
        { s.wake with
          causes :=
            if ∃ c ∈ s.wake.causes, c.line = i then
              s.wake.causes.map fun c =>
                if c.line = i then { c with count := if c.count < 15 then c.count + 1 else 15 } else c
            else s.wake.causes ++ [{ line := i, count := 1 }] }).actOnWake := by
  rw [qualify, addCause_eq]

end State

/-- Settles O49: what a qualification records, and what the Transition Controller does with it by state. -/
theorem qualificationIsRecordedAndActedOn : Obligations.QualificationIsRecordedAndActedOn := by
  intro s i noted entering deferred
  have hqualify : s.qualify i = noted.actOnWake := s.qualify_eq i
  refine ⟨fun h => ?stopped, fun he hr => ?railLoss, fun he hr hw => ?waiting, fun he hr hw ha => ?notAbortable,
    fun hr hw ha => ⟨fun h => ?saving, fun h => ?parking⟩, fun he hs hi => ?other⟩
  case stopped => exact hqualify.trans (State.actOnWake_of_stopped h)
  case railLoss =>
    obtain ⟨abort, h⟩ := State.actOnWake_of_entering (s := noted) he
    exact hqualify.trans (h.trans (State.wakeInEntry_of_railLoss abort hr))
  case waiting =>
    obtain ⟨abort, h⟩ := State.actOnWake_of_entering (s := noted) he
    exact hqualify.trans (h.trans (State.wakeInEntry_of_waiting abort hr hw))
  case notAbortable =>
    obtain ⟨abort, h⟩ := State.actOnWake_of_entering (s := noted) he
    exact hqualify.trans (h.trans ((State.wakeInEntry_of_none (s := noted) abort hr hw).trans
      (if_neg (Bool.eq_false_iff.mp ha))))
  case saving =>
    exact hqualify.trans ((State.actOnWake_of_saving (s := noted) h).trans
      ((State.wakeInEntry_of_none (s := noted) _ hr hw).trans (if_pos ha)))
  case parking =>
    exact hqualify.trans ((State.actOnWake_of_parking (s := noted) h).trans
      ((State.wakeInEntry_of_none (s := noted) _ hr hw).trans (if_pos ha)))
  case other => exact hqualify.trans (State.actOnWake_of_other he hs hi)

end Sys2Proof.Machine
end

