-- ==== Sys2Proof/Proofs/StatesAndTimers.lean ====
section
/-! The entry into a state (R92, R117, R145, R158, R163), the expiries of the timers that follow the transition state
(R92, R94, R117, R145), and the ends of bring-up and of self-refresh (R130, R135, R141, R142, R146). -/

namespace Sys2Proof.Machine

/-! ## The timers at a change of state (R92, R117) -/

namespace ImageEngine

variable (e : ImageEngine) (pace : Nat) {before after : TState}

theorem paceAt_entered (ha : after.running = true) (hb : before.running = false) :
    e.paceAt pace before after = if e.presaveOn then e.paceLoaded pace else e.paceTimer := by
  simp [paceAt, ha, hb]

theorem paceAt_left (hb : before.running = true) (ha : after.running = false) :
    e.paceAt pace before after = Timer.stopped := by
  simp [paceAt, ha, hb]

theorem paceAt_same (h : before.running = after.running) : e.paceAt pace before after = e.paceTimer := by
  simp [paceAt, h]

theorem fillAt_entered (ha : after = .restoring) (hb : before ≠ .restoring) :
    e.fillAt pace before after = if pace = 0 then (Timer.stopped, true) else (Timer.load pace, false) :=
  if_pos ⟨ha, hb⟩

theorem fillAt_left (hb : before = .restoring) (ha : after ≠ .restoring) :
    e.fillAt pace before after = (Timer.stopped, false) :=
  (if_neg fun h => ha h.1).trans (if_pos ⟨hb, ha⟩)

theorem fillAt_same (h : before = .restoring ↔ after = .restoring) :
    e.fillAt pace before after = (e.fillTimer, e.grant) :=
  (if_neg fun hc => hc.2 (h.mpr hc.1)).trans (if_neg fun hc => hc.2 (h.mp hc.1))

end ImageEngine

/-! ## The wake lines at a change of state (R158, R163) -/

theorem TState.monitored_iff (st : TState) :
    st.monitored = true ↔ st = .saving ∨ st = .committing ∨ st = .parking ∨ st = .sleeping ∨ st = .imagedOff := by
  cases st <;> decide

theorem TState.servesDeferred_iff (st : TState) :
    st.servesDeferred = true ↔
      (st = .active ∨ st = .restoring) ∨ st = .sleeping ∨ st = .imagedOff ∨ st = .unconfigured := by
  cases st <;> decide

theorem WakeLine.follow_eq (l : WakeLine) (before after : Bool) :
    l.follow before after =
      if l.mode = .disabled then l
      else if after = true ∧ ¬ before = true then { l with machine := if l.level then .blocked else .armed }
      else if before = true ∧ ¬ after = true then { l with machine := .idle, timer := Timer.stopped }
      else l := by
  by_cases hm : l.mode = .disabled
  · rw [if_pos hm, WakeLine.follow, if_pos hm]
  · have hstart : l.startMachine true = if l.level then .blocked else .armed := (if_neg hm).trans (if_pos rfl)
    rw [if_neg hm, WakeLine.follow, if_neg hm, hstart]
    cases before <;> cases after <;> rfl

theorem WakeUnit.serveDeferred_eq (w : WakeUnit) (st : TState) :
    w.serveDeferred st =
      if w.deferred = true ∧ st.servesDeferred = true then { w with deferred := false, wakeReq := true } else w := by
  simp only [WakeUnit.serveDeferred, Bool.and_eq_true]

theorem WakeUnit.lines_serveDeferred (w : WakeUnit) (st : TState) : (w.serveDeferred st).lines = w.lines := by
  unfold WakeUnit.serveDeferred
  split <;> rfl

theorem WakeUnit.causes_serveDeferred (w : WakeUnit) (st : TState) :
    (w.serveDeferred st).causes = w.causes ∧ (w.serveDeferred st).escalate = w.escalate := by
  unfold WakeUnit.serveDeferred
  split <;> exact ⟨rfl, rfl⟩

namespace State

theorem lines_enterState (s : State) (st : TState) (i : Fin 5) :
    (s.enterState st).wake.lines[i] = s.wake.lines[i].follow s.tc.state.monitored st.monitored := by
  rw [wake_enterState, Fin.getElem_fin, WakeUnit.lines_serveDeferred]
  exact Vector.getElem_ofFn _

end State

/-- Settles O52: what follows a change of the transition state. -/
theorem enteringAStateMovesTimersAndLines : Obligations.EnteringAStateMovesTimersAndLines := by
  intro s st old t runs watched pace
  have hruns : ∀ x : TState, x.running = true ↔ runs x := TState.running_iff
  have hnot : ∀ x : TState, ¬ runs x → x.running = false := fun x h => Bool.eq_false_iff.mpr (mt (hruns x).mp h)
  have hpace : t.engine.paceTimer = s.engine.paceAt s.side.params.presavePace old st := rfl
  have hfill : (t.engine.fillTimer, t.engine.grant) = s.engine.fillAt pace old st := rfl
  have hwake : t.wake = (s.wake.follow old st).serveDeferred st := rfl
  refine ⟨rfl, rfl, rfl, fun ha hb hp => ?loaded, fun ha hb hp => ?kept, fun hb ha => ?stopped, fun h => ?same,
    fun ha hb => ⟨fun h0 => ?granted, fun h0 => ?timed⟩, fun hb ha => ?ungranted, fun h => ?sameFill, fun i => ?line,
    (WakeUnit.causes_serveDeferred _ _).1, (WakeUnit.causes_serveDeferred _ _).2, fun h => ?served, fun h => ?unserved,
    rfl, rfl, rfl, rfl, rfl, rfl, rfl, rfl, rfl, rfl⟩
  case loaded => rw [hpace, ImageEngine.paceAt_entered _ _ ((hruns st).mpr ha) (hnot old hb), if_pos hp]; rfl
  case kept =>
    rw [hpace, ImageEngine.paceAt_entered _ _ ((hruns st).mpr ha) (hnot old hb), if_neg (Bool.eq_false_iff.mp hp)]
  case stopped => rw [hpace, ImageEngine.paceAt_left _ _ ((hruns old).mpr hb) (hnot st ha)]
  case same =>
    exact hpace.trans (ImageEngine.paceAt_same _ _ (Bool.eq_iff_iff.mpr (((hruns old).trans h).trans (hruns st).symm)))
  case granted =>
    rw [ImageEngine.fillAt_entered _ _ ha hb, if_pos h0] at hfill
    exact ⟨congrArg Prod.fst hfill, congrArg Prod.snd hfill⟩
  case timed =>
    rw [ImageEngine.fillAt_entered _ _ ha hb, if_neg h0] at hfill
    exact ⟨congrArg Prod.fst hfill, congrArg Prod.snd hfill⟩
  case ungranted =>
    rw [ImageEngine.fillAt_left _ _ hb ha] at hfill
    exact ⟨congrArg Prod.fst hfill, congrArg Prod.snd hfill⟩
  case sameFill =>
    rw [ImageEngine.fillAt_same _ _ h] at hfill
    exact ⟨congrArg Prod.fst hfill, congrArg Prod.snd hfill⟩
  case line =>
    rw [State.lines_enterState, WakeLine.follow_eq]
    simp only [TState.monitored_iff]
    rfl
  case served =>
    rw [WakeUnit.serveDeferred_eq, if_pos ⟨h.1, (TState.servesDeferred_iff st).mpr h.2⟩] at hwake
    exact ⟨congrArg WakeUnit.deferred hwake, congrArg WakeUnit.wakeReq hwake⟩
  case unserved =>
    rw [WakeUnit.serveDeferred_eq, if_neg fun hc => h ⟨hc.1, (TState.servesDeferred_iff st).mp hc.2⟩] at hwake
    exact ⟨(congrArg WakeUnit.deferred hwake :), (congrArg WakeUnit.wakeReq hwake :)⟩

/-! ## The expiries (R92, R94, R117, R145) -/

namespace State

variable {s : State}

theorem paceTimerExpiry_of_running (h : s.engine.paceTimer.status = .running) :
    s.paceTimerExpiry = s.paceExpires.settle := if_pos h

theorem paceExpires_of_dirty {g : Nat} (h : s.tracker.dirtyScan s.engine.presaveCursor = some g) :
    s.paceExpires =
      if s.store.status = .attached ∧ s.engine.freeSlots = [] ∧ s.engine.exhaustionNoted = false then
        (s.setFaults (s.faults.take .slotExhausted g (.number 0) s.tc.state)).setEngine
          { s.engine with paceTimer := Timer.expired, exhaustionNoted := true }
      else s.setEngine { s.engine with paceTimer := Timer.expired } := by
  unfold paceExpires noteExhaustion
  dsimp only [setEngine_store, setEngine_engine, setEngine_tracker]
  rw [h]
  rfl

theorem paceExpires_of_clean (h : s.tracker.dirtyScan s.engine.presaveCursor = none) :
    s.paceExpires = s.setEngine { s.engine with paceTimer := Timer.expired } := by
  unfold paceExpires noteExhaustion
  dsimp only [setEngine_store, setEngine_engine, setEngine_tracker]
  rw [h]
  exact ite_self _

theorem sleepTimerExpiry_of_due
    (h : s.tc.state = .sleeping ∧ s.tc.sleepTimer.status = .running ∧ s.tc.railLoss = false) :
    s.sleepTimerExpiry = s.escalate.settle := if_pos h

theorem sameBytes_of_imagedFrom {t : State} (h : s.imagedFrom t) : s.sameBytes t := by
  obtain ⟨_, _, _, _, _, _, _, _, _, _, _, _, _, _, hdram, _⟩ := h
  intro a
  rw [hdram]
  rfl

/-- The escalation of a sleep whose mark is SET (R145, R147). -/
theorem escalate_of_set (h : s.engine.mark = .set) :
    s.escalate = ((s.setOrigin .escalate).enterImagedOff).writeOutcome .escalate .completed .none := if_pos h

theorem escalate_of_not_set (h : s.engine.mark ≠ .set) :
    s.escalate = (s.setTc { s.tc with sleepTimer := Timer.expired }).setWake
      { s.wake with escalate := true, wakeReq := true } := if_neg h

theorem imagedFrom_setOrigin {t : State} {op : LongOp} (h : (s.setOrigin op).imagedFrom t) : s.imagedFrom t := by
  obtain ⟨a1, a2, h⟩ := h
  refine ⟨?_, ?_, h⟩
  · rw [a1, tracker_claimDramLoss, tracker_claimDramLoss]; rfl
  · rw [a2, freeSlots_claimDramLoss, freeSlots_claimDramLoss]; rfl

theorem causes_of_imagedFrom {t : State} (h : s.imagedFrom t) : t.wake.causes = s.wake.causes := by
  obtain ⟨_, _, _, _, _, _, _, _, _, _, _, _, _, _, _, _, _, _, _, _, _, hwake, _⟩ := h
  rw [hwake]
  exact (WakeUnit.causes_serveDeferred _ _).1

end State

/-- Settles O53: what the expiries of the PACE, FILL and SLEEP timers do. -/
theorem paceFillAndSleepTimersExpire : Obligations.PaceFillAndSleepTimersExpire := by
  intro s
  refine ⟨fun h => congrArg Host.Outcome.next (if_neg h), fun h => ?pace, fun h => congrArg Host.Outcome.next (if_neg h),
    fun h => congrArg Host.Outcome.next (if_pos h), fun h => congrArg Host.Outcome.next (if_neg h),
    fun hs ht hr => ⟨fun hm => ?wakes, fun hm => ?escalates⟩⟩
  case pace =>
    refine congrArg Host.Outcome.next ((State.paceTimerExpiry_of_running h).trans ?_)
    cases hscan : s.tracker.dirtyScan s.engine.presaveCursor with
    | none => rw [State.paceExpires_of_clean hscan]
    | some g =>
      rw [State.paceExpires_of_dirty hscan]
      exact apply_ite State.settle _ _ _
  case wakes =>
    refine congrArg Host.Outcome.next ((State.sleepTimerExpiry_of_due ⟨hs, ht, hr⟩).trans ?_)
    rw [State.escalate_of_not_set hm]
  case escalates =>
    have himaged : s.imagedFrom (s.setOrigin .escalate).enterImagedOff :=
      State.imagedFrom_setOrigin (State.imagedFrom_enterImagedOff _)
    have htc := (s.setOrigin .escalate).tc_enterImagedOff
    refine ⟨((s.setOrigin .escalate).enterImagedOff).writeOutcome .escalate .completed .none,
      congrArg Host.Outcome.next ((State.sleepTimerExpiry_of_due ⟨hs, ht, hr⟩).trans (by rw [State.escalate_of_set hm])),
      congrArg TransitionController.state htc, congrArg TransitionController.origin htc,
      congrArg TransitionController.sleepTimer htc, ?_, State.sameBytes_of_imagedFrom himaged, rfl,
      State.causes_of_imagedFrom himaged, (s.setOrigin .escalate).faults_enterImagedOff,
      State.imagedFrom_setTc himaged _ ⟨rfl, rfl, rfl, rfl⟩⟩
    obtain ⟨_, _, _, _, _, _, _, _, _, _, _, _, _, _, hdram, _⟩ := himaged
    exact congrArg DramPort.cond hdram

/-! ## The bits lost in self-refresh (R146) -/

namespace DramPort

theorem decay_cons (d : DramPort) (c : Host.Cell) (l : List Host.Cell) : d.decay (c :: l) = (d.decay [c]).decay l := rfl

theorem decay_one_eq (d : DramPort) (c : Host.Cell) : d.decay [c] = { d with mem := (d.decay [c]).mem } := by
  unfold decay
  rw [List.foldl_cons, List.foldl_nil]
  split <;> rfl

theorem decay_eq : ∀ (l : List Host.Cell) (d : DramPort), d.decay l = { d with mem := (d.decay l).mem }
  | [], _ => rfl
  | c :: l, d => by
    rw [decay_cons]
    have hrest := decay_eq l (d.decay [c])
    have hone := decay_one_eq d c
    generalize d.decay [c] = e at hrest hone
    rw [hrest]
    generalize (e.decay l).mem = m
    rw [hone]

theorem installed_decay (l : List Host.Cell) (d : DramPort) : (d.decay l).installed = d.installed := by
  rw [decay_eq]

theorem byte_decay : ∀ (l : List Host.Cell) (d : DramPort) (x : Nat),
    (d.decay l).byte x =
      if x < d.installed then (l.filter fun c => decide (c.1 = x)).foldl (fun b c => b ^^^ c.2) (d.byte x)
      else d.byte x
  | [], d, x => (ite_self _).symm
  | c :: l, d, x => by
    rw [decay_cons, byte_decay l (d.decay [c]) x, installed_decay, byte_decay_one]
    by_cases hx : x < d.installed
    · rw [if_pos hx, if_pos hx]
      by_cases hc : x = c.1
      · subst hc
        rw [if_pos ⟨rfl, hx⟩, List.filter_cons_of_pos (by simp), List.foldl_cons]
      · rw [if_neg fun h => hc h.1, List.filter_cons_of_neg (by simpa using Ne.symm hc)]
    · rw [if_neg hx, if_neg hx, if_neg fun h : x = c.1 ∧ c.1 < d.installed => hx (h.1 ▸ h.2)]

end DramPort

/-! ## Bring-up and self-refresh (R130, R135, R141, R142, R146) -/

namespace State

variable {s : State}

theorem dramBringupEnd_of_bringingUp (h : s.dram.cond = .bringingUp) (installed : Nat) :
    s.dramBringupEnd installed =
      (let up := s.setDram
        { s.dram with
          cond := .up, runCount := 0, mem := [], bringUps := s.dram.bringUps + 1, installed := installed }
      if s.tc.state = .reviving then up.enterRunning.writeOutcome .exitImaged .completed .none else up).settle :=
  if_pos h

theorem selfRefreshEntryEnd_of_entering (h : s.dram.cond = .enteringSr) :
    s.selfRefreshEntryEnd =
      if s.tc.parkPhase = .undo then (s.setDram { s.dram with cond := .exitingSr }).settle
      else (s.setDram { s.dram with cond := .selfRefresh }).enterSleeping.settle := if_pos h

theorem selfRefreshExitEnd_of_park {k : AbortKind} (h : s.dram.cond = .exitingSr) (hs : s.tc.state = .parking)
    (hw : s.tc.waitingAbort = some k) (decay : List Host.Cell) :
    s.selfRefreshExitEnd decay = ((s.setDram { s.dram.decay decay with cond := .up }).parkReturn k).settle := by
  refine (if_pos h).trans ?_
  dsimp only [setDram_tc]
  rw [hs, hw]

theorem selfRefreshExitEnd_of_other (h : s.dram.cond = .exitingSr) (hs : s.tc.state ≠ .parking)
    (decay : List Host.Cell) :
    s.selfRefreshExitEnd decay = (s.setDram { s.dram.decay decay with cond := .up }).beginCompare.settle := by
  refine (if_pos h).trans ?_
  dsimp only [setDram_tc]
  split
  · exact absurd ‹_› hs
  · rfl

end State

/-- Settles O60: the ends of bring-up, of self-refresh entry and of self-refresh exit. -/
theorem bringUpAndSelfRefreshEnd : Obligations.BringUpAndSelfRefreshEnd := by
  intro s installed decay up running
  refine ⟨fun h => congrArg Host.Outcome.next (if_neg h), fun h hs => ?up, fun h hs => ?revived,
    fun h => congrArg Host.Outcome.next (if_neg h), fun h hp => ?undone, fun h hp => ?asleep,
    fun h => congrArg Host.Outcome.next (if_neg h),
    fun k h hs hw => congrArg Host.Outcome.next (State.selfRefreshExitEnd_of_park h hs hw decay), fun h hs => ?compare,
    fun a m _ x => DramPort.byte_decay_one _ _ _,
    fun hwf => ⟨DramPort.wf_decay decay _ hwf, DramPort.decay_eq decay _, DramPort.byte_decay decay _⟩⟩
  case up =>
    refine congrArg Host.Outcome.next ((State.dramBringupEnd_of_bringingUp h installed).trans ?_)
    exact congrArg State.settle (if_neg hs)
  case revived =>
    refine congrArg Host.Outcome.next ((State.dramBringupEnd_of_bringingUp h installed).trans ?_)
    exact congrArg State.settle (if_pos hs)
  case undone => exact congrArg Host.Outcome.next ((State.selfRefreshEntryEnd_of_entering h).trans (if_pos hp))
  case asleep =>
    exact ⟨(s.setDram { s.dram with cond := .selfRefresh }).enterSleeping,
      congrArg Host.Outcome.next ((State.selfRefreshEntryEnd_of_entering h).trans (if_neg hp)), rfl, rfl, rfl, rfl, rfl,
      rfl, rfl, rfl⟩
  case compare =>
    refine congrArg Host.Outcome.next ((State.selfRefreshExitEnd_of_other h hs decay).trans ?_)
    refine congrArg State.settle ?_
    rw [DramPort.decay_eq]
    rfl

end Sys2Proof.Machine
end

