-- ==== Sys2Proof/Proofs/Settling.lean ====
section
/-! What follows every event: what settling leaves as it was, and the lines out (R134, R49). -/

namespace Sys2Proof.Machine

namespace State

/-! ## What the tests keep of the park -/

/-- The tests of the Transition Controller leave the park's count and its inject flag, and enter no park. -/
structure KeepsPark (s t : State) : Prop where
  inject : t.dram.inject = s.dram.inject
  parkCount : t.dram.parkCount = s.dram.parkCount
  parking : t.tc.state = .parking → s.tc.state = .parking ∧ t.tc.parkPhase = s.tc.parkPhase

theorem KeepsPark.refl (s : State) : KeepsPark s s := ⟨rfl, rfl, fun h => ⟨h, rfl⟩⟩

theorem KeepsPark.trans {s t u : State} (a : KeepsPark s t) (b : KeepsPark t u) : KeepsPark s u :=
  ⟨b.inject.trans a.inject, b.parkCount.trans a.parkCount, fun h =>
    have ⟨ht, hp⟩ := b.parking h
    have ⟨hs, hq⟩ := a.parking ht
    ⟨hs, hp.trans hq⟩⟩

theorem KeepsPark.of_judges {s t : State} (h : Judges s t) : KeepsPark s t :=
  ⟨by rw [h.dram], by rw [h.dram], fun hp => by rw [h.tc] at hp ⊢; exact ⟨hp, rfl⟩⟩

theorem KeepsPark.of_state {s t : State} {st : TState} (hd : t.dram.inject = s.dram.inject)
    (hc : t.dram.parkCount = s.dram.parkCount) (ht : t.tc.state = st) (hst : st ≠ .parking) : KeepsPark s t :=
  ⟨hd, hc, fun h => absurd (ht.symm.trans h) hst⟩

theorem returnTarget_ne_parking (s : State) : s.returnTarget ≠ .parking := by
  unfold returnTarget
  split <;> decide

theorem dram_entryReturned (s : State) : ∃ q, s.entryReturned.dram = { s.dram with queue := q } :=
  ⟨_, (judges_releaseAll _ _).dram⟩

theorem keepsPark_report (s : State) (c : FaultClass) (addr : Nat) (d : FaultDetail) :
    KeepsPark s (s.report c addr d) := ⟨rfl, rfl, fun h => ⟨h, rfl⟩⟩

theorem keepsPark_endCommit (s : State) : KeepsPark s s.endCommit := ⟨rfl, rfl, fun h => ⟨h, rfl⟩⟩

theorem keepsPark_returnEntry (s : State) (k : AbortKind) : KeepsPark s (s.returnEntry k) := by
  obtain ⟨q, hq⟩ := s.dram_entryReturned
  have hd : (s.returnEntry k).dram = { s.dram with queue := q } := by rw [returnEntry_eq]; exact hq
  exact .of_state (by rw [hd]) (by rw [hd]) (by rw [returnEntry_tc]; rfl) s.returnTarget_ne_parking

theorem keepsPark_failEntry (s : State) (reason : OutcomeReason) : KeepsPark s (s.failEntry reason) := by
  obtain ⟨q, hq⟩ := s.endCommit.dram_entryReturned
  have hd : (s.failEntry reason).dram = { s.dram with queue := q } := by rw [failEntry_eq]; exact hq
  exact .of_state (by rw [hd]) (by rw [hd]) (by rw [failEntry_tc]; rfl) s.returnTarget_ne_parking

/-- What START comes to once it no longer waits for the request table (R138). -/
def startCourse (s : State) (r : StartReq) : State :=
  if s.tc.state = .starting ∧ s.dram.cond = .up ∧ s.engine.bringUp = none then
    if r.fresh && !r.storeUse then s.finishStart .none .active
    else s.setEngine { s.engine with bringUp := some (newBringUp (if r.fresh then .fresh else .resume)) }
  else s

/-- STARTING is entered as the request table has drained (R63, R137). -/
def startEntered (s : State) (r : StartReq) : State :=
  (s.enterState .starting).setTc { (s.enterState .starting).tc with start := some { r with phase := .running } }

theorem startTest_of_none {s : State} (h : s.tc.start = none) : s.startTest = s := by
  unfold startTest
  rw [h]

theorem startTest_of_start {s : State} {r : StartReq} (h : s.tc.start = some r) :
    s.startTest =
      (if r.phase = .draining ∧ s.tc.state = .unconfigured ∧ s.ru.table = [] then s.startEntered r
      else s).startCourse r := by
  unfold startTest
  rw [h]
  rfl

theorem startCourse_of_not_due {s : State} {r : StartReq}
    (h : ¬ (s.tc.state = .starting ∧ s.dram.cond = .up ∧ s.engine.bringUp = none)) : s.startCourse r = s := if_neg h

theorem keepsPark_startCourse (s : State) (r : StartReq) : KeepsPark s (s.startCourse r) := by
  unfold startCourse
  split
  · split
    · exact .of_state (st := .active) rfl rfl rfl (by decide)
    · exact ⟨rfl, rfl, fun h => ⟨h, rfl⟩⟩
  · exact .refl s

theorem keepsPark_startTest (s : State) : KeepsPark s s.startTest := by
  cases h : s.tc.start with
  | none => rw [startTest_of_none h]; exact .refl s
  | some r =>
    rw [startTest_of_start h]
    refine KeepsPark.trans ?_ (keepsPark_startCourse _ r)
    split
    · exact .of_state (st := .starting) rfl rfl rfl (by decide)
    · exact .refl s

theorem keepsPark_restoringTest (s : State) : KeepsPark s s.restoringTest := by
  unfold restoringTest
  split
  · exact .of_state (st := .active) rfl rfl rfl (by decide)
  · exact .refl s

theorem keepsPark_commitWait (s : State) : KeepsPark s s.commitWait := by
  unfold commitWait
  split
  · split
    · split
      · exact .refl s
      · exact ⟨rfl, rfl, fun h => ⟨h, rfl⟩⟩
    · split
      · exact .refl s
      · exact (KeepsPark.of_state (s := s) (st := .saving) (t := (s.enterState .saving).setEngine
          { (s.enterState .saving).engine with commitPhase := .none }) rfl rfl rfl (by decide)).trans
          (.of_judges (judges_releaseAll _ .commit))
  · exact .refl s

theorem keepsPark_savingTest (s : State) : KeepsPark s s.savingTest := by
  unfold savingTest
  split
  · split
    · exact s.keepsPark_returnEntry _
    · split
      · exact .of_state (st := .committing) rfl rfl rfl (by decide)
      · split
        · exact (keepsPark_report s _ _ _).trans (keepsPark_failEntry _ _)
        · exact .refl s
  · exact .refl s

theorem keepsPark_railLossToImagedOff (s : State) : KeepsPark s s.railLossToImagedOff := by
  obtain ⟨_, _, _, _, _, _, _, _, _, _, _, _, _, _, hdram, _⟩ := s.imagedFrom_enterImagedOff
  have hd : s.railLossToImagedOff.dram = s.enterImagedOff.dram := by
    unfold railLossToImagedOff railLossOutcome
    dsimp only
    split <;> rfl
  have ht : s.railLossToImagedOff.tc.state = s.enterImagedOff.tc.state := by
    unfold railLossToImagedOff railLossOutcome
    dsimp only
    split <;> rfl
  rw [tc_enterImagedOff] at ht
  exact .of_state (st := .imagedOff) (by rw [hd, hdram]) (by rw [hd, hdram]) ht (by decide)

theorem keepsPark_railLossToUnconfigured (s : State) : KeepsPark s s.railLossToUnconfigured := by
  have hd : (s.toUnconfigured.railLossOutcome .failed).dram = s.dram := by
    refine Eq.trans ?_ s.others_toUnconfigured.1
    unfold railLossOutcome
    dsimp only
    split <;> rfl
  have ht : (s.toUnconfigured.railLossOutcome .failed).tc.state = .unconfigured := by
    unfold railLossOutcome
    dsimp only
    split <;> rfl
  rw [railLossToUnconfigured, bringUpIfReady_eq]
  refine .of_state (st := .unconfigured) ?_ ?_ ht (by decide)
  · rw [setDram_dram, hd]
  · rw [setDram_dram, hd]

theorem keepsPark_railCourse (s : State) : KeepsPark s s.railCourse := by
  unfold railCourse
  split
  · split
    · exact s.keepsPark_railLossToUnconfigured
    · split
      · exact s.keepsPark_railLossToImagedOff
      · split
        · exact s.keepsPark_endCommit.trans (keepsPark_railLossToImagedOff _)
        · exact .refl s
    · split
      · exact s.keepsPark_railLossToImagedOff
      · split
        · exact .refl s
        · exact s.keepsPark_railLossToUnconfigured
  · exact .refl s

theorem keepsPark_tests (s : State) : KeepsPark s s.startTest.tcTests :=
  (((((s.keepsPark_startTest).trans (keepsPark_restoringTest _)).trans (keepsPark_commitWait _)).trans
    (keepsPark_savingTest _)).trans (keepsPark_commitWait _)).trans (keepsPark_railCourse _)

/-! ## Settling where no test is due -/

theorem startTest_of_not_draining {s : State} (hs : s.tc.state ≠ .starting)
    (h : ∀ r, s.tc.start = some r → r.phase ≠ .draining) : s.startTest = s := by
  cases hr : s.tc.start with
  | none => exact startTest_of_none hr
  | some r =>
    rw [startTest_of_start hr, if_neg fun hc => h r hr hc.1, startCourse_of_not_due fun hc => hs hc.1]

/-- Settling keeps the park's count and its inject flag, but where a drain may end. -/
theorem settle_keepsPark {s : State} (h : ¬ (s.tc.state = .parking ∧ s.tc.parkPhase = .drain)) :
    s.settle.dram.inject = s.dram.inject ∧ s.settle.dram.parkCount = s.dram.parkCount := by
  have hk := s.keepsPark_tests
  have hc := s.startTest.tcTests.chooses_choices
  have hsettle := settle_of_tests (s := s) rfl fun ⟨hp, hd, _⟩ =>
    h ⟨(hk.parking hp).1, (hk.parking hp).2.symm.trans hd⟩
  rw [hsettle]
  exact ⟨(congrArg DramPort.inject hc.dram).trans hk.inject, (congrArg DramPort.parkCount hc.dram).trans hk.parkCount⟩

/-- Where no test is due, settling is the choices and the lines out. -/
theorem settle_of_no_test {s : State} (hr : s.tc.railLoss = false)
    (h : s.tc.state = .active ∨ s.tc.state = .sleeping ∨ s.tc.state = .unparking ∨ s.tc.state = .imagedOff ∨
      s.tc.state = .reviving ∨ (s.tc.state = .unconfigured ∧ ∀ r, s.tc.start = some r → r.phase ≠ .draining) ∨
      (s.tc.state = .parking ∧ s.tc.parkPhase ≠ .drain)) :
    s.settle = s.storeChoice.zeroChoice.storeChoice.drive := by
  have hstart : s.startTest = s := by
    by_cases hu : s.tc.state = .unconfigured
    · refine startTest_of_not_draining (by rw [hu]; decide) ?_
      rcases h with h | h | h | h | h | h | h
      case inr.inr.inr.inr.inr.inl => exact h.2
      case inr.inr.inr.inr.inr.inr => rw [hu] at h; cases h.1
      all_goals rw [hu] at h; cases h
    · refine s.startTest_eq hu fun hs => ?_
      simp [hs] at h
  have htests : s.startTest.tcTests = s := by
    rw [hstart]
    exact s.tcTests_eq hr (fun hs => by simp [hs] at h) (fun hs => by simp [hs] at h) fun hs => by simp [hs] at h
  refine settle_of_tests htests fun ⟨hp, hd, _⟩ => ?_
  simp [hp, hd] at h

end State

theorem stableIn_eq (st : TState) :
    stableIn st =
      decide (st = .unconfigured ∨ st = .active ∨ st = .restoring ∨ st = .sleeping ∨ st = .imagedOff) := by
  cases st <;> decide

theorem dramHoldIn_eq (st : TState) : dramHoldIn st = decide (st ≠ .unconfigured ∧ st ≠ .imagedOff) := by
  cases st <;> decide

/-- Settles O50: what settling leaves as it was, what it is where no test is due, and the lines out. -/
theorem settlingMovesNoData : Obligations.SettlingMovesNoData := by
  intro s
  have hcalm := s.calm_settle
  refine ⟨hcalm.pending, hcalm.side, fun a => ?bytes, hcalm.mem, State.settle_keepsPark, hcalm.lastErrors,
    hcalm.replies, hcalm.operations, hcalm.mainOk, hcalm.memOk, hcalm.causesEq, hcalm.escalate, hcalm.load,
    hcalm.enables, hcalm.alertDisable, hcalm.presaveOn, hcalm.presavePaused, hcalm.epoch, fun hr h => ?still,
    State.settle_of_no_test, ?drive, s.linkReadyNow_iff⟩
  case bytes =>
    unfold DramPort.byte
    rw [hcalm.installed, hcalm.mem, hcalm.bringUps]
  case still =>
    have hchoices := s.chooses_choices
    have hsettle : s.settle = s.storeChoice.zeroChoice.storeChoice.drive := by
      refine State.settle_of_no_test hr ?_
      rcases h with h | h | h | h | h <;> simp [h]
    rw [hsettle]
    exact ⟨hchoices.tc, hchoices.wake, hchoices.faults, hchoices.region, hchoices.sent,
      (congrArg RequestUnit.table hchoices.ru :)⟩
  case drive =>
    rw [← stableIn_eq, ← dramHoldIn_eq]
    rfl

end Sys2Proof.Machine
end

