-- ==== Sys2Proof/Proofs/JudgingSteps.lean ====
section
/-! The steps that judging, holding and releasing requests are made of (R52, R57, R59), and from them what a release does
to the granules that are dirty and to the free slot queue (R104). -/

namespace Sys2Proof.Machine

/-- `t` comes from `s` by the steps that judgements and releases are made of. -/
inductive Judging : State → State → Prop where
  | refl (s : State) : Judging s s
  | trans {s t u : State} : Judging s t → Judging t u → Judging s u
  | ru (s : State) (x : RequestUnit) : Judging s (s.setRu x)
  | sent (s : State) (x : Sent) : Judging s (s.setSent x)
  | faults (s : State) (x : FaultUnit) : Judging s (s.setFaults x)
  | file (s : State) (x : RegionFile) : Judging s (s.setRegion { s.region with file := x })
  | fillList (s : State) (l : List Nat) (h : ∀ g ∈ l, g ∈ s.engine.fillList ∨ (s.recOf g).st = .absent) :
    Judging s (s.setEngine { s.engine with fillList := l })
  | enqueue (s : State) (a : Access) (h : ∀ o, a.src = .engine o → ∃ n, o = .writeBack n) : Judging s (s.enqueue a)
  | write (s : State) (g : Nat) : Judging s (s.claimWrite g)

theorem Judging.foldl {α : Type} (f : State → α → State) (h : ∀ s x, Judging s (f s x)) :
    ∀ (l : List α) (s : State), Judging s (l.foldl f s)
  | [], s => .refl s
  | x :: l, s => (h s x).trans (Judging.foldl f h l (f s x))

namespace State

theorem judging_issueWriteBack (s : State) (a : Nat) (n : Fin 32) : Judging s (s.issueWriteBack a n) :=
  (Judging.enqueue s _ fun _ h => ⟨n.val, (Source.engine.inj h).symm⟩).trans (.write _ _)

theorem judging_writeBack (s : State) (n : Fin 32) : Judging s (s.writeBack n) := by
  unfold writeBack
  split
  · exact .refl s
  · dsimp only
    split
    · exact .refl s
    · split
      · exact .file s _
      · exact s.judging_issueWriteBack _ _

theorem judging_markWritten (s : State) (g : Nat) : Judging s (s.markWritten g) := by
  unfold markWritten
  split
  · exact .refl s
  · dsimp only
    split
    · exact .refl s
    · exact (Judging.file s _).trans (judging_writeBack _ _)

theorem judging_payOwed (s : State) (a : Nat) (n : Fin 32) : Judging s (s.payOwed a n) := by
  unfold payOwed
  split
  · split
    · exact .file s _
    · exact (Judging.file s _).trans (judging_issueWriteBack _ _ _)
  · exact .refl s

theorem judging_payOwedIn (s : State) (left : List Nat) : Judging s (s.payOwedIn left) := by
  unfold payOwedIn
  split
  · exact .refl s
  · split
    · exact .foldl _ (fun s n => s.judging_payOwed _ n) _ s
    · exact .refl s

theorem judging_answer (s : State) (e : Entry) (c : FaultClass) (st : CompletionStatus) :
    Judging s (s.answer e c st) := by
  unfold answer
  dsimp only
  split
  · exact ((Judging.ru s _).trans (.faults _ _)).trans (.sent _ _)
  · exact (Judging.ru s _).trans (.sent _ _)

theorem judging_issue (s : State) (e : Entry) : Judging s (s.issue e) := by
  unfold issue
  dsimp only
  split
  · exact (Judging.ru s _).trans (.enqueue _ _ fun _ h => nomatch h)
  · exact (Judging.ru s _).trans (.enqueue _ _ fun _ h => nomatch h)

theorem judging_joinFillList (s : State) (g : Nat) (hg : (s.recOf g).st = .absent) : Judging s (s.joinFillList g) := by
  unfold joinFillList
  dsimp only
  split
  · exact .refl s
  · refine .fillList s _ fun x hx => ?_
    rcases List.mem_append.mp hx with hx | hx
    · refine .inl ?_
      split at hx
      · exact hx
      · exact (evict_sublist _ _).mem hx
    · exact .inr (List.mem_singleton.mp hx ▸ hg)

theorem judging_holdFill (s : State) (e : Entry) : Judging s (s.holdFill e) := by
  unfold holdFill
  dsimp only
  split
  · rename_i h
    exact (Judging.ru s _).trans (judging_joinFillList _ _ h)
  · exact .ru s _

theorem judging_proceed (s : State) (e : Entry) : Judging s (s.proceed e) := by
  unfold proceed
  split
  · exact s.judging_issue e
  · exact ((s.judging_issue e).trans (.write _ _)).trans (judging_markWritten _ _)

theorem judging_settleEntry (s : State) (e : Entry) : Judging s (s.settleEntry e) := by
  unfold settleEntry
  split
  · exact s.judging_issue e
  · exact s.judging_answer e _ _
  · exact s.judging_answer e _ _
  · exact .ru s _
  · exact s.judging_holdFill e
  · exact s.judging_answer e _ _
  · exact s.judging_proceed e

theorem judging_judgeLine : ∀ (fuel line : Nat) (s : State), Judging s (judgeLine fuel line s)
  | 0, _, s => .refl s
  | fuel + 1, line, s => by
    unfold judgeLine
    split
    · exact .refl s
    · split
      · dsimp only
        split
        · exact (s.judging_settleEntry _).trans (judging_judgeLine fuel line _)
        · exact s.judging_settleEntry _
      · exact .refl s

theorem judging_judge (s : State) (e : Entry) : Judging s (s.judge e) := by
  unfold judge
  dsimp only
  split
  · exact (s.judging_settleEntry e).trans (judging_judgeLine _ _ _)
  · exact s.judging_settleEntry e

theorem judging_takeUp (s : State) (e : Entry) : Judging s (s.takeUp e) := by
  unfold takeUp
  split
  · exact .ru s _
  · exact s.judging_judge e

theorem judging_release (reason : Hold) (s : State) (tag : BitVec 5) : Judging s (release reason s tag) := by
  unfold release
  split
  · exact .refl s
  · split
    · split
      · exact (Judging.ru s _).trans (judging_takeUp _ _)
      · exact (Judging.ru s _).trans (judging_takeUp _ _)
      · exact s.judging_judge _
      · exact s.judging_judge _
    · exact .refl s

theorem judging_releaseAll (s : State) (reason : Hold) : Judging s (s.releaseAll reason) :=
  .foldl _ (judging_release reason) _ s

theorem judging_leftAbsent (s : State) (left : List Nat) : Judging s (s.leftAbsent left) :=
  (Judging.foldl _ (judging_release .fill) _ s).trans (judging_payOwedIn _ _)

theorem judging_complete (s : State) (e : Entry) (data : List Byte) : Judging s (s.complete e data) :=
  ((Judging.ru s _).trans (.sent _ _)).trans (judging_judgeLine _ _ _)

end State

/-! ## Dirty granules stay dirty -/

theorem GRec.countsDirty_write (r : GRec) (h : r.st.countsDirty = true) : r.write.st.countsDirty = true := by
  obtain ⟨st, committed, pending, cls⟩ := r
  rcases (GState.countsDirty_iff st).mp h with rfl | rfl | rfl <;> rfl

theorem State.freeSlots_claimWrite (s : State) (g : Nat) :
    (s.claimWrite g).engine.freeSlots = s.engine.freeSlots ++ (s.recOf g).writeFrees := by
  rw [claimWrite, engine_claim]

/-- A granule that counts as dirty goes on doing so, and the free slot queue keeps what it holds. -/
theorem Judging.keepsDirty {s t : State} (h : Judging s t) :
    (∀ g, (s.recOf g).st.countsDirty = true → (t.recOf g).st.countsDirty = true) ∧
      s.engine.freeSlots <+: t.engine.freeSlots := by
  induction h with
  | refl | ru | sent | faults | file | fillList | enqueue => exact ⟨fun _ => id, List.prefix_refl _⟩
  | trans _ _ ih ih' => exact ⟨fun g hg => ih'.1 g (ih.1 g hg), ih.2.trans ih'.2⟩
  | write s g =>
    refine ⟨fun x hx => ?_, ?_⟩
    · rw [State.claimWrite, State.recOf_claim]
      split
      · rename_i hg
        exact GRec.countsDirty_write _ (hg ▸ hx)
      · exact hx
    · rw [State.freeSlots_claimWrite]
      exact List.prefix_append _ _

/-- The dirty total is not zero where some granule of a span counts as dirty. -/
theorem Tracker.dirtyTotal_ne_zero_iff {tr : Tracker} (hc : tr.counted) :
    tr.dirtyTotal ≠ 0 ↔ ∃ x ∈ tr.table, x.1 < 65536 ∧ x.2.st.countsDirty = true := by
  rw [dirtyTotal, hc.1, ← Nat.pos_iff_ne_zero, List.sum_pos_iff_exists_pos_nat]
  constructor
  · rintro ⟨n, hn, hpos⟩
    obtain ⟨d, hd, rfl⟩ := List.mem_map.mp hn
    obtain ⟨i, rfl⟩ : ∃ i : Fin 64, spanCounts tr.table i.val = d := by
      simpa [directoryOf, Vector.mem_ofFn] using hd
    obtain ⟨x, hx, hp⟩ := List.countP_pos_iff.mp hpos
    obtain ⟨hmem, hspan⟩ := List.mem_filter.mp hx
    have hspan := of_decide_eq_true hspan
    refine ⟨x, hmem, ?_, hp⟩
    have := i.isLt
    simp only [Config.unitGranules] at hspan
    omega
  · rintro ⟨x, hx, hlt, hp⟩
    have hspan : x.1 / Config.unitGranules < 64 := Nat.div_lt_of_lt_mul hlt
    refine ⟨_, List.mem_map_of_mem (f := DirEntry.dirty) (a := spanCounts tr.table (x.1 / Config.unitGranules)) ?_, ?_⟩
    · have : ∃ i : Fin 64, spanCounts tr.table i.val = spanCounts tr.table (x.1 / Config.unitGranules) :=
        ⟨⟨_, hspan⟩, rfl⟩
      simpa [directoryOf, Vector.mem_ofFn] using this
    · exact List.countP_pos_iff.mpr ⟨x, List.mem_filter.mpr ⟨hx, by simp⟩, hp⟩

theorem GTable.get_of_mem {t : GTable} (h : GTable.wf t = true) {x : Nat × GRec} (hx : x ∈ t) :
    GTable.get t x.1 = x.2 := by
  have hp := (GTable.wf_iff t).mp h
  have hn : (t.map Prod.fst).Nodup := (List.pairwise_map.mpr hp.1).imp fun {a b} hab => Nat.ne_of_lt hab
  unfold GTable.get
  rw [List.lookup_eq_some_iff.mpr]
  · rfl
  · obtain ⟨l₁, l₂, rfl⟩ := List.append_of_mem hx
    refine ⟨l₁, l₂, rfl, fun y hy => ?_⟩
    rw [List.map_append, List.map_cons] at hn
    have hne := (List.nodup_append.mp hn).2.2 y.1 (List.mem_map_of_mem hy) x.1 List.mem_cons_self
    simpa using Ne.symm hne

theorem GTable.mem_of_get {t : GTable} {g : Nat} (h : GTable.get t g ≠ GRec.blank) : (g, GTable.get t g) ∈ t := by
  unfold GTable.get at h ⊢
  cases hl : t.lookup g with
  | none => rw [hl] at h; exact absurd rfl h
  | some r =>
    obtain ⟨l₁, l₂, rfl, _⟩ := List.lookup_eq_some_iff.mp hl
    simp

/-- Where granules are dirty, they are so after requests have been judged. -/
theorem Judging.dirtyTotal_ne_zero {s t : State} (h : Judging s t) (hs : s.tracker.counted) (ht : t.tracker.counted)
    (hwf : GTable.wf s.tracker.table = true) (hd : s.tracker.dirtyTotal ≠ 0) : t.tracker.dirtyTotal ≠ 0 := by
  obtain ⟨x, hx, hlt, hp⟩ := (Tracker.dirtyTotal_ne_zero_iff hs).mp hd
  have hrec : s.recOf x.1 = x.2 := GTable.get_of_mem hwf hx
  have hdirty : (t.recOf x.1).st.countsDirty = true := h.keepsDirty.1 x.1 (by rw [hrec]; exact hp)
  refine (Tracker.dirtyTotal_ne_zero_iff ht).mpr ⟨_, GTable.mem_of_get (g := x.1) (t := t.tracker.table) ?_, hlt, hdirty⟩
  intro hblank
  have : (t.recOf x.1).st = .void := congrArg GRec.st hblank
  rw [this] at hdirty
  cases hdirty

end Sys2Proof.Machine
end

