-- ==== Sys2Proof/Proofs/TransitionTests.lean ====
section
/-! The tests of the Transition Controller that follow every event: START's course (R63, R138), RESTORING (R113), SAVING
and the commit's wait (R102 to R104, R110), a park's drain (R140, R168), and the course of a rail loss (R150, R152). -/

namespace Sys2Proof.Machine

namespace State

/-! ## What the tests read -/

theorem copyInFlight_iff (s : State) :
    s.copyInFlight = true ↔ ∃ o g slot, s.store.op = some o ∧ o.purpose = .copy g slot ∧ o.disregarded = false := by
  unfold copyInFlight
  cases s.store.op with
  | none => simp
  | some o => cases hp : o.purpose <;> simp [hp]

theorem fillsRunning_iff (s : State) : s.fillsRunning = true ↔ s.engine.fills ≠ [] ∨ s.engine.zeroFill ≠ none := by
  simp [fillsRunning, Option.isSome_iff_ne_none]

theorem fillsRunning_eq_false_iff (s : State) :
    s.fillsRunning = false ↔ s.engine.fills = [] ∧ s.engine.zeroFill = none := by
  simp [fillsRunning]

theorem markClearPending_iff (s : State) :
    s.markClearPending = true ↔
      s.engine.markClearQueued = true ∨
        ∃ o, s.store.op = some o ∧ o.purpose = .markClear ∧ o.disregarded = false := by
  unfold markClearPending
  cases s.store.op <;> simp

variable {s : State}

/-! ## Settling by what the tests leave -/

/-- What the choices and the lines out leave of the state that the tests leave. -/
theorem settled_of_choices {t : State} (h : s.settle = t.storeChoice.zeroChoice.storeChoice.drive) :
    s.settle = t.storeChoice.zeroChoice.storeChoice.drive ∧ s.settle.tc = t.tc ∧ s.settle.wake = t.wake ∧
      s.settle.faults = t.faults ∧ s.settle.ru.table = t.ru.table ∧ s.settle.region = t.region ∧
      s.settle.sent = t.sent := by
  have hc := t.chooses_choices
  refine ⟨h, ?_⟩
  rw [h]
  exact ⟨hc.tc, hc.wake, hc.faults, (congrArg RequestUnit.table hc.ru :), hc.region, hc.sent⟩

theorem tc_of_choices {t : State} (h : s.settle = t.storeChoice.zeroChoice.storeChoice.drive) :
    s.settle.tc = t.tc := (settled_of_choices h).2.1

theorem commitPhase_of_choices {t : State} (h : s.settle = t.storeChoice.zeroChoice.storeChoice.drive) :
    s.settle.engine.commitPhase = t.engine.commitPhase := by
  rw [h]; exact t.chooses_choices.commitPhase

theorem bringUp_of_choices {t : State} (h : s.settle = t.storeChoice.zeroChoice.storeChoice.drive) :
    s.settle.engine.bringUp = t.engine.bringUp := by
  rw [h]; exact t.chooses_choices.bringUp

theorem builtIndex_of_choices {t : State} (h : s.settle = t.storeChoice.zeroChoice.storeChoice.drive) :
    s.settle.engine.builtIndex = t.engine.builtIndex := by
  rw [h]; exact t.chooses_choices.builtIndex

/-! ## The tests one by one -/

theorem restoringTest_of_not {s : State} (h : s.tc.state ≠ .restoring) : s.restoringTest = s := if_neg fun hc => h hc.1

theorem restoringTest_of_restoring (hr : s.tc.railLoss = false) (h : s.tc.state = .restoring) :
    s.restoringTest = if s.anyAbsent then s else s.enterState .active := by
  unfold restoringTest
  cases ha : s.anyAbsent with
  | true => rw [if_neg (by simp), if_pos rfl]
  | false => rw [if_pos ⟨h, hr, rfl⟩, if_neg (by decide)]

theorem commitWait_of_not {s : State}
    (h : ¬ (s.tc.state = .committing ∧ s.engine.commitPhase = .waiting ∧ s.fillsRunning = false)) :
    s.commitWait = s := if_neg h

theorem commitWait_of_state {s : State} (h : s.tc.state ≠ .committing) : s.commitWait = s :=
  commitWait_of_not fun hc => h hc.1

theorem commitWait_of_clean (h : s.tc.state = .committing) (hp : s.engine.commitPhase = .waiting)
    (hf : s.fillsRunning = false) (hd : s.tracker.dirtyTotal = 0) :
    s.commitWait = if s.markClearPending then s else s.buildIndex :=
  (if_pos ⟨h, hp, hf⟩).trans (if_pos hd)

theorem commitWait_of_railLoss (hr : s.tc.railLoss = true) (hd : s.tracker.dirtyTotal ≠ 0) : s.commitWait = s := by
  unfold commitWait
  rw [if_neg hd, if_pos hr]
  exact ite_self _

/-- The commit that finds a granule dirty goes back to SAVING (R104). -/
def commitTakenBack (s : State) : State :=
  (s.enterState .saving).setEngine { (s.enterState .saving).engine with commitPhase := .none }

theorem commitWait_of_dirty (hr : s.tc.railLoss = false) (h : s.tc.state = .committing)
    (hp : s.engine.commitPhase = .waiting) (hf : s.fillsRunning = false) (hd : s.tracker.dirtyTotal ≠ 0) :
    s.commitWait = s.commitTakenBack.releaseAll .commit :=
  (if_pos ⟨h, hp, hf⟩).trans ((if_neg hd).trans (if_neg (by rw [hr]; decide)))

theorem savingTest_of_state {s : State} (h : s.tc.state ≠ .saving) : s.savingTest = s := if_neg fun hc => h hc.1

theorem savingTest_of_copy {s : State} (h : s.copyInFlight = true) : s.savingTest = s :=
  if_neg fun hc => by rw [hc.2.2] at h; cases h

theorem savingTest_of_abort {k : AbortKind} (hr : s.tc.railLoss = false) (h : s.tc.state = .saving)
    (hc : s.copyInFlight = false) (hw : s.tc.waitingAbort = some k) : s.savingTest = s.returnEntry k := by
  unfold savingTest
  rw [if_pos ⟨h, hr, hc⟩, hw]

theorem savingTest_of_none (hr : s.tc.railLoss = false) (h : s.tc.state = .saving)
    (hc : s.copyInFlight = false) (hw : s.tc.waitingAbort = none) :
    s.savingTest =
      if s.tracker.dirtyTotal = 0 then
        (s.enterState .committing).setEngine { (s.enterState .committing).engine with commitPhase := .waiting }
      else if s.engine.freeSlots = [] then
        (s.report .slotExhausted ((s.tracker.dirtyScan 0).getD 0) (.number 0)).failEntry .slots
      else s := by
  unfold savingTest
  rw [if_pos ⟨h, hr, hc⟩, hw]

/-- SAVING with something to copy and a slot to copy into has nothing to test (R102, R103). -/
theorem savingTest_of_copies (hw : s.tc.waitingAbort = none) (hd : s.tracker.dirtyTotal ≠ 0)
    (hf : s.engine.freeSlots ≠ []) : s.savingTest = s := by
  unfold savingTest
  rw [hw]
  dsimp only
  rw [if_neg hd, if_neg hf]
  exact ite_self _

theorem railCourse_of_noLoss {s : State} (h : s.tc.railLoss = false) : s.railCourse = s := if_neg (by rw [h]; decide)

theorem settle_of_tcTests {t : State} (hstart : s.startTest = s) (h : s.tcTests = t)
    (hp : ¬(t.tc.state = .parking ∧ t.tc.parkPhase = .drain ∧ t.tc.railLoss = false)) :
    s.settle = t.storeChoice.zeroChoice.storeChoice.drive :=
  settle_of_tests (by rw [hstart]; exact h) hp

theorem tcTests_of_saving (h : s.tc.state = .saving) :
    s.tcTests = s.savingTest.commitWait.railCourse := by
  unfold tcTests
  rw [restoringTest_of_not (by rw [h]; decide), commitWait_of_state (s := s) (by rw [h]; decide)]

/-- The tests in SAVING, by what the first of them leaves. -/
theorem settle_of_saving {t : State} (h : s.tc.state = .saving)
    (ht : s.savingTest.commitWait = t) (htr : t.tc.railLoss = false) (hp : t.tc.state ≠ .parking) :
    s.settle = t.storeChoice.zeroChoice.storeChoice.drive := by
  refine settle_of_tcTests (s.startTest_eq (by rw [h]; decide) (by rw [h]; decide)) ?_ fun hc => hp hc.1
  rw [tcTests_of_saving h, ht, railCourse_of_noLoss htr]

/-! ## START's course -/

/-- What START's course, once it is due, leaves to the choices. -/
theorem settle_of_startCourse {t : State} {r : StartReq} (h : s.startTest = t.startCourse r)
    (hst : t.tc.state = .starting) (hr : t.tc.railLoss = false) :
    s.settle = (t.startCourse r).storeChoice.zeroChoice.storeChoice.drive := by
  have hcases : ((t.startCourse r).tc.state = .starting ∨ (t.startCourse r).tc.state = .active) ∧
      (t.startCourse r).tc.railLoss = false := by
    unfold startCourse
    split
    · split
      · exact ⟨.inr rfl, hr⟩
      · exact ⟨.inl hst, hr⟩
    · exact ⟨.inl hst, hr⟩
  obtain ⟨hstate, hrail⟩ := hcases
  have htests : s.startTest.tcTests = t.startCourse r := by
    rw [h]
    refine tcTests_eq _ hrail ?_ ?_ ?_ <;> rcases hstate with hs | hs <;> rw [hs] <;> decide
  refine settle_of_tests htests fun hc => ?_
  rcases hstate with hs | hs <;> rw [hs] at hc <;> cases hc.1

theorem startCourse_of_bare {r : StartReq} (hst : s.tc.state = .starting) (hd : s.dram.cond = .up)
    (hb : s.engine.bringUp = none) (h : r.fresh = true ∧ r.storeUse = false) :
    s.startCourse r = s.finishStart .none .active :=
  (if_pos ⟨hst, hd, hb⟩).trans (if_pos (by rw [h.1, h.2]; rfl))

theorem startCourse_of_steps {r : StartReq} (hst : s.tc.state = .starting) (hd : s.dram.cond = .up)
    (hb : s.engine.bringUp = none) (h : ¬ (r.fresh = true ∧ r.storeUse = false)) :
    s.startCourse r =
      s.setEngine { s.engine with bringUp := some (newBringUp (if r.fresh then .fresh else .resume)) } :=
  (if_pos ⟨hst, hd, hb⟩).trans (if_neg (by simpa using h))

/-! ## A park's drain -/

theorem parkTest_of_drained (h : s.tc.state = .parking ∧ s.tc.parkPhase = .drain ∧ s.tc.railLoss = false)
    (hd : s.ru.table = [] ∧ s.store.op = none ∧ s.engine.markClearQueued = false ∧ s.engine.fills = [] ∧
      s.engine.zeroFill = none) : s.parkTest = s.beginPattern :=
  if_pos ⟨h.1, h.2.1, h.2.2, hd.1, hd.2.1, hd.2.2.1, (s.fillsRunning_eq_false_iff).mpr hd.2.2.2⟩

theorem parkTest_of_undrained
    (hd : ¬ (s.ru.table = [] ∧ s.store.op = none ∧ s.engine.markClearQueued = false ∧ s.engine.fills = [] ∧
      s.engine.zeroFill = none)) : s.parkTest = s :=
  if_neg fun ⟨_, _, _, h1, h2, h3, h4⟩ => hd ⟨h1, h2, h3, (s.fillsRunning_eq_false_iff).mp h4⟩

theorem settle_of_drain (hr : s.tc.railLoss = false) (hs : s.tc.state = .parking) :
    s.settle = s.storeChoice.zeroChoice.storeChoice.parkTest.drive :=
  s.settle_of_still (s.startTest_eq (by rw [hs]; decide) (by rw [hs]; decide))
    (s.tcTests_eq hr (by rw [hs]; decide) (by rw [hs]; decide) (by rw [hs]; decide))

/-- In a park's drain the store link is left to demand fills (R83, R116). -/
theorem chooseStore_of_drain (hr : s.tc.railLoss = false) (hs : s.tc.state = .parking) (hb : s.engine.bringUp = none)
    (hm : s.engine.markClearQueued = false) :
    s.chooseStore = if s.store.status ≠ .attached ∨ s.parked = true then none
      else (s.listed true).map .demandFill := by
  have hrest : s.rankCommit = none ∧ s.rankSave = none ∧ s.rankBackground = none ∧ s.rankPresave = none := by
    simp [rankCommit, rankSave, rankBackground, background, rankPresave, TState.running, hs]
  have hdemand : s.rankDemand = (s.listed true).map .demandFill := by
    simp [rankDemand, demandState, hs]
  unfold chooseStore
  rw [hb]
  simp only [hm, hr, hrest.1, hrest.2.1, hrest.2.2.1, hrest.2.2.2, hdemand, Bool.false_eq_true, if_false,
    Option.none_or, Option.or_none]

theorem listed_eq_none_of_nil (h : s.engine.fillList = []) (preserved : Bool) : s.listed preserved = none := by
  rw [listed, h]; rfl

theorem storeChoice_of_none (h : s.chooseStore = none) : s.storeChoice = s := by
  unfold storeChoice
  rw [h]
  exact ite_self _

theorem storeChoice_of_busy (h : s.store.op ≠ none) : s.storeChoice = s := by
  refine if_neg fun hf => h ?_
  simp only [storeFree, Bool.and_eq_true, Option.isNone_iff_eq_none] at hf
  exact hf.1

theorem storeChoice_of_work {w : StoreWork} (ho : s.store.op = none) (hh : s.store.holdBack = none)
    (h : s.chooseStore = some w) : s.storeChoice = s.startWork w := by
  unfold storeChoice
  rw [h, if_pos (by rw [storeFree, ho, hh]; rfl)]

/-- A store choice in a park's drain is nothing, or a demand fill of a listed granule. -/
theorem storeChoice_of_drain (hr : s.tc.railLoss = false) (hs : s.tc.state = .parking) (hb : s.engine.bringUp = none)
    (hm : s.engine.markClearQueued = false) :
    s.storeChoice = s ∨ ∃ g, (s.recOf g).cls.preserved = true ∧ s.storeChoice = s.startFill g := by
  have hchoose := chooseStore_of_drain hr hs hb hm
  by_cases hfree : s.storeFree = true
  · cases hl : s.chooseStore with
    | none => exact .inl (storeChoice_of_none hl)
    | some w =>
      rw [hl] at hchoose
      split at hchoose
      · cases hchoose
      · cases hg : s.listed true with
        | none => rw [hg] at hchoose; cases hchoose
        | some g =>
          rw [hg] at hchoose
          refine .inr ⟨g, by simpa using List.find?_some (show s.engine.fillList.find? _ = some g from hg), ?_⟩
          unfold storeChoice
          rw [if_pos hfree, hl]
          cases hchoose
          rfl
  · exact .inl (if_neg hfree)

end State

end Sys2Proof.Machine
end

