-- ==== Sys2Proof/Proofs/SettlingTests.lean ====
section
/-! What settling comes to in each state that a test leaves (R63, R102 to R104, R110, R113, R138, R140, R147, R150 to
R152, R155, R168). -/

namespace Sys2Proof.Machine

namespace State

variable {s : State}

/-! ## SAVING -/

theorem anyAbsent_target (s : State) : s.returnTarget = if s.anyAbsent then .restoring else .active := rfl

theorem target_ne (s : State) {st : TState} (h : st ≠ .restoring ∧ st ≠ .active) : s.returnTarget ≠ st := by
  unfold returnTarget
  split
  · exact h.1.symm
  · exact h.2.symm

/-- A return from SAVING is what is left of the tests (R110). -/
theorem settle_of_saving_abort {k : AbortKind} (hr : s.tc.railLoss = false) (h : s.tc.state = .saving)
    (hc : s.copyInFlight = false) (hw : s.tc.waitingAbort = some k) :
    s.settle = s.savingTest.storeChoice.zeroChoice.storeChoice.drive := by
  have htest := savingTest_of_abort hr h hc hw
  have htc := s.returnEntry_tc k
  have hst : s.savingTest.tc.state = s.returnTarget := by rw [htest, htc]; rfl
  refine settle_of_saving h (commitWait_of_state (hst ▸ s.target_ne (by decide))) ?_
    (hst ▸ s.target_ne (by decide))
  rw [htest, htc]
  exact hr

/-- So is a failure there (R103). -/
theorem settle_of_saving_full (hr : s.tc.railLoss = false) (h : s.tc.state = .saving) (hc : s.copyInFlight = false)
    (hw : s.tc.waitingAbort = none) (hd : s.tracker.dirtyTotal ≠ 0) (hf : s.engine.freeSlots = []) :
    s.savingTest = (s.report .slotExhausted ((s.tracker.dirtyScan 0).getD 0) (.number 0)).failEntry .slots ∧
      s.settle = s.savingTest.storeChoice.zeroChoice.storeChoice.drive := by
  have htest : s.savingTest = (s.report .slotExhausted ((s.tracker.dirtyScan 0).getD 0) (.number 0)).failEntry .slots :=
    (savingTest_of_none hr h hc hw).trans ((if_neg hd).trans (if_pos hf))
  have htc := (s.report .slotExhausted ((s.tracker.dirtyScan 0).getD 0) (.number 0)).failEntry_tc .slots
  have hst : s.savingTest.tc.state = s.returnTarget := by rw [htest, htc]; rfl
  refine ⟨htest, settle_of_saving h (commitWait_of_state (hst ▸ s.target_ne (by decide))) ?_
    (hst ▸ s.target_ne (by decide))⟩
  rw [htest, htc]
  exact hr

/-- SAVING left as it is by its test. -/
theorem settle_of_saving_still (hr : s.tc.railLoss = false) (h : s.tc.state = .saving) (ht : s.savingTest = s) :
    s.settle = s.storeChoice.zeroChoice.storeChoice.drive :=
  settle_of_saving h (by rw [ht, commitWait_of_state (by rw [h]; decide)]) hr (by rw [h]; decide)

/-- The commit as it is entered from SAVING, in phase WAITING (R102, R104). -/
def commitEntered (s : State) : State :=
  (s.enterState .committing).setEngine { (s.enterState .committing).engine with commitPhase := .waiting }

theorem settle_of_saving_clean (hr : s.tc.railLoss = false) (h : s.tc.state = .saving) (hc : s.copyInFlight = false)
    (hw : s.tc.waitingAbort = none) (hd : s.tracker.dirtyTotal = 0) :
    s.settle = (if s.fillsRunning || s.markClearPending then s.commitEntered
      else s.commitEntered.buildIndex).storeChoice.zeroChoice.storeChoice.drive := by
  have htest : s.savingTest = s.commitEntered := (savingTest_of_none hr h hc hw).trans (if_pos hd)
  have hwait : s.savingTest.commitWait =
      if s.fillsRunning || s.markClearPending then s.commitEntered else s.commitEntered.buildIndex := by
    rw [htest]
    cases hf : s.fillsRunning with
    | true =>
      rw [Bool.true_or, if_pos rfl]
      exact commitWait_of_not fun hn => by rw [show s.commitEntered.fillsRunning = true from hf] at hn; cases hn.2.2
    | false =>
      rw [Bool.false_or]
      exact commitWait_of_clean rfl rfl hf hd
  refine settle_of_saving h hwait ?_ ?_
  · split <;> exact hr
  · split <;> exact fun hp => nomatch hp

/-! ## The commit's wait -/

theorem tcTests_of_committing (h : s.tc.state = .committing) {t : State}
    (ht : s.commitWait = t) (hs : t.tc.state = .committing) (hrt : t.tc.railLoss = false) (hw : t.commitWait = t) :
    s.tcTests = t := by
  unfold tcTests
  rw [restoringTest_of_not (by rw [h]; decide), ht, savingTest_of_state (by rw [hs]; decide), hw,
    railCourse_of_noLoss hrt]

theorem settle_of_commit_still (hr : s.tc.railLoss = false) (h : s.tc.state = .committing) (hw : s.commitWait = s) :
    s.settle = s.storeChoice.zeroChoice.storeChoice.drive :=
  settle_of_tcTests (s.startTest_eq (by rw [h]; decide) (by rw [h]; decide)) (tcTests_of_committing h hw h hr hw)
    fun hp => by rw [h] at hp; cases hp.1

theorem commitWait_buildIndex (s : State) : s.buildIndex.commitWait = s.buildIndex :=
  commitWait_of_not fun hc => nomatch hc.2.1

theorem settle_of_commit_built (hr : s.tc.railLoss = false) (h : s.tc.state = .committing)
    (hw : s.commitWait = s.buildIndex) :
    s.settle = s.buildIndex.storeChoice.zeroChoice.storeChoice.drive :=
  settle_of_tcTests (s.startTest_eq (by rw [h]; decide) (by rw [h]; decide))
    (tcTests_of_committing h hw h hr s.commitWait_buildIndex) fun hp => by
      rw [show s.buildIndex.tc.state = .committing from h] at hp; cases hp.1

/-- The commit that goes back to SAVING settles as SAVING does (R104). -/
theorem settle_of_commit_dirty (h : s.tc.state = .committing) (hu : s.commitWait.tc.state = .saving) :
    s.settle = s.commitWait.settle := by
  have hne : s.commitWait.tc.state ≠ .committing := by rw [hu]; decide
  unfold settle tcTests
  rw [s.startTest_eq (by rw [h]; decide) (by rw [h]; decide), restoringTest_of_not (s := s) (by rw [h]; decide),
    s.commitWait.startTest_eq (by rw [hu]; decide) (by rw [hu]; decide),
    restoringTest_of_not (s := s.commitWait) (by rw [hu]; decide), commitWait_of_state (s := s.commitWait) hne]

/-! ## The course of a rail loss -/

theorem imagedFrom_railLossToImagedOff (s : State) : s.imagedFrom s.railLossToImagedOff := by
  have h := s.imagedFrom_enterImagedOff
  unfold railLossToImagedOff railLossOutcome
  dsimp only
  split
  · exact imagedFrom_setTc (imagedFrom_setTc h _ ⟨rfl, rfl, rfl, rfl⟩) _ ⟨rfl, rfl, rfl, rfl⟩
  · exact imagedFrom_setTc (imagedFrom_setTc h _ ⟨rfl, rfl, rfl, rfl⟩) _ ⟨rfl, rfl, rfl, rfl⟩

theorem markClearQueued_railLossToImagedOff (s : State) :
    s.railLossToImagedOff.engine.markClearQueued = s.engine.markClearQueued := by
  have h : s.enterImagedOff.engine.markClearQueued = s.engine.markClearQueued := by rw [enterImagedOff_eq]; rfl
  refine Eq.trans ?_ h
  unfold railLossToImagedOff railLossOutcome
  dsimp only
  split <;> rfl

theorem state_railLossToImagedOff (s : State) : s.railLossToImagedOff.tc.state = .imagedOff := by
  obtain ⟨_, _, _, _, _, _, _, _, _, _, _, _, _, _, _, _, _, h, _⟩ := s.imagedFrom_railLossToImagedOff
  exact h

theorem settle_of_railCourse {t : State} (hr : s.tc.railLoss = true) (hstart : s.startTest = s)
    (hw : s.commitWait = s) (ht : s.railCourse = t)
    (hp : ¬ (t.tc.state = .parking ∧ t.tc.parkPhase = .drain ∧ t.tc.railLoss = false)) :
    s.settle = t.storeChoice.zeroChoice.storeChoice.drive := by
  rw [settle_of_railLoss s hr hstart hw, ht, parkTest_of_still _ (by rw [t.chooses_choices.tc]; exact hp)]

/-- A rail loss that goes on waiting. -/
theorem settle_of_railLoss_still (hr : s.tc.railLoss = true) (hstart : s.startTest = s) (hw : s.commitWait = s)
    (ht : s.railCourse = s) : s.settle = s.storeChoice.zeroChoice.storeChoice.drive :=
  settle_of_railCourse hr hstart hw ht fun hp => by rw [hr] at hp; cases hp.2.2

/-- A rail loss that ends in IMAGED_OFF (R147, R150, R155). -/
theorem settle_of_railLoss_imaged (hr : s.tc.railLoss = true) (hstart : s.startTest = s) (hw : s.commitWait = s)
    (ht : s.railCourse = s.railLossToImagedOff ∨ s.railCourse = s.endCommit.railLossToImagedOff) :
    (∃ t, s.settle = t.storeChoice.zeroChoice.storeChoice.drive ∧ s.imagedFrom t ∧
        t.engine.markClearQueued = s.engine.markClearQueued) ∧
      s.imagedFrom s.settle ∧ s.settle.faults = s.faults ∧ s.settle.tc.interrupted = .none ∧
      s.settle.tc.outcome =
        (if s.tc.interrupted = .none then
          { op := .railLoss, result := .completed, reason := .railLoss, passes := 0 }
        else
          { op := s.tc.interrupted, result := .failed, reason := .railLoss, passes := s.passesOf s.tc.interrupted }) := by
  have hsettle := settle_of_railLoss s hr hstart hw
  rcases ht with ht | ht <;> rw [ht] at hsettle
  · have hp := parkTest_of_still s.railLossToImagedOff.storeChoice.zeroChoice.storeChoice fun hc => by
      rw [s.railLossToImagedOff.chooses_choices.tc, state_railLossToImagedOff] at hc; cases hc.1
    obtain ⟨himaged, hfaults, hint, hout⟩ := s.settled_railLossToImagedOff
    rw [← hsettle] at himaged hfaults hint hout
    exact ⟨⟨_, by rw [hsettle, hp], s.imagedFrom_railLossToImagedOff, s.markClearQueued_railLossToImagedOff⟩, himaged,
      hfaults, hint, hout⟩
  · have hp := parkTest_of_still s.endCommit.railLossToImagedOff.storeChoice.zeroChoice.storeChoice fun hc => by
      rw [s.endCommit.railLossToImagedOff.chooses_choices.tc, state_railLossToImagedOff] at hc; cases hc.1
    obtain ⟨himaged, hfaults, hint, hout⟩ := s.endCommit.settled_railLossToImagedOff
    rw [← hsettle] at himaged hfaults hint hout
    exact ⟨⟨_, by rw [hsettle, hp], imagedFrom_endCommit (imagedFrom_railLossToImagedOff _),
      markClearQueued_railLossToImagedOff _⟩, imagedFrom_endCommit himaged, hfaults, hint, hout⟩

/-- A rail loss that ends in UNCONFIGURED (R135, R151, R155). -/
theorem settle_of_railLoss_unconfigured (hr : s.tc.railLoss = true) (hstart : s.startTest = s) (hw : s.commitWait = s)
    (ht : s.railCourse = s.railLossToUnconfigured) :
    s.unconfiguredFrom s.settle ∧ s.settle.ru.table = s.ru.table ∧ s.settle.faults = s.faults ∧
      s.settle.dram =
        { s.dram with
          cond := if s.lines.mainOk = true ∧ s.lines.memOk = true ∧ s.dram.cond = .notUp then .bringingUp
            else s.dram.cond } ∧
      s.settle.tc.interrupted = .none ∧
      s.settle.tc.outcome =
        (if s.tc.interrupted = .none then
          { op := .railLoss, result := .failed, reason := .railLoss, passes := 0 }
        else
          { op := s.tc.interrupted, result := .failed, reason := .railLoss, passes := s.passesOf s.tc.interrupted }) := by
  have hsettle := settle_of_railLoss s hr hstart hw
  rw [ht] at hsettle
  rw [hsettle]
  exact s.settled_railLossToUnconfigured

theorem railCourse_of_starting (hr : s.tc.railLoss = true) (h : s.tc.state = .starting) :
    s.railCourse = s.railLossToUnconfigured := by
  unfold railCourse
  rw [if_pos hr, h]

theorem railCourse_of_committing (hr : s.tc.railLoss = true) (h : s.tc.state = .committing) :
    s.railCourse =
      if s.engine.commitPhase = .none then s.railLossToImagedOff
      else if s.engine.commitPhase = .waiting ∧ s.tracker.dirtyTotal ≠ 0 ∧ s.markClearPending = false then
        s.endCommit.railLossToImagedOff
      else s := by
  unfold railCourse
  rw [if_pos hr, h]

theorem railCourse_of_other (hr : s.tc.railLoss = true) (hs : s.tc.state ≠ .starting) (hc : s.tc.state ≠ .committing) :
    s.railCourse =
      if s.engine.mark = .set then s.railLossToImagedOff
      else if s.markClearPending then s
      else s.railLossToUnconfigured := by
  unfold railCourse
  rw [if_pos hr]
  split
  · exact absurd ‹_› hs
  · exact absurd ‹_› hc
  · rfl

/-- A commit under a rail loss, as its wait leaves it (R152). -/
theorem settle_of_railLoss_built (hr : s.tc.railLoss = true) (h : s.tc.state = .committing)
    (hw : s.commitWait = s.buildIndex) : s.settle = s.buildIndex.storeChoice.zeroChoice.storeChoice.drive := by
  have hcourse : s.buildIndex.railCourse = s.buildIndex :=
    (railCourse_of_committing (s := s.buildIndex) hr h).trans
      ((if_neg fun hc => nomatch hc).trans (if_neg fun hc => nomatch hc.1))
  refine settle_of_tcTests (s.startTest_eq (by rw [h]; decide) (by rw [h]; decide)) ?_
    fun hp => by rw [show s.buildIndex.tc.railLoss = true from hr] at hp; cases hp.2.2
  unfold tcTests
  rw [restoringTest_of_not (by rw [h]; decide), hw,
    savingTest_of_state (s := s.buildIndex) (by rw [show s.buildIndex.tc.state = .committing from h]; decide),
    s.commitWait_buildIndex, hcourse]

/-! ## A park's drain -/

theorem parked_of_drain (h : s.tc.parkPhase = .drain) : s.parked = false := by
  simp [parked, h]

theorem GRec.entersDirty_fillStart (r : GRec) : r.entersDirty r.fillStart = false := by
  obtain ⟨st, committed, pending, cls⟩ := r
  cases st <;> rfl

theorem claimFillStart_eq (s : State) (g : Nat) :
    s.claimFillStart g =
      (s.setEngine { s.engine with fillList := s.engine.fillList.filter fun x => decide (x ≠ g) }).setTracker
        (s.tracker.putRec g (s.recOf g).fillStart) :=
  if_neg (by
    rw [GRec.entersDirty_fillStart]
    decide)

theorem cls_fillStart (r : GRec) : r.fillStart.cls = r.cls := by
  obtain ⟨st, committed, pending, cls⟩ := r
  cases st <;> rfl

theorem cls_startFill (s : State) (g h : Nat) : ((s.startFill g).recOf h).cls = (s.recOf h).cls := by
  have hrec : (s.startFill g).recOf h = if h = g then (s.recOf g).fillStart else s.recOf h := by
    show (s.claimFillStart g).recOf h = _
    rw [claimFillStart_eq]
    exact Tracker.recAt_putRec _ _ _ _
  rw [hrec]
  split
  · rename_i e
    rw [cls_fillStart, e]
  · rfl

theorem engine_startFill (s : State) (g : Nat) :
    (s.startFill g).engine =
      { s.engine with
        fillList := s.engine.fillList.filter fun x => decide (x ≠ g)
        fills := s.engine.fills ++ [{ granule := g, rest := none }] } := by
  show ({ (s.claimFillStart g).engine with fills := (s.claimFillStart g).engine.fills ++ _ } : ImageEngine) = _
  rw [claimFillStart_eq]
  rfl

theorem engine_startZeroFill (s : State) (g : Nat) :
    (s.startZeroFill g).engine =
      { s.engine with
        fillList := s.engine.fillList.filter fun x => decide (x ≠ g)
        zeroFill := some g } := by
  show ({ (s.claimFillStart g).engine with zeroFill := some g } : ImageEngine) = _
  rw [claimFillStart_eq]
  rfl

theorem listed_isSome_iff (s : State) (preserved : Bool) :
    (s.listed preserved).isSome = true ↔ ∃ g ∈ s.engine.fillList, (s.recOf g).cls.preserved = preserved := by
  simp [listed, List.find?_isSome]

theorem store_startZeroFill (s : State) (g : Nat) : (s.startZeroFill g).store = s.store := by
  show (s.claimFillStart g).store = s.store
  rw [claimFillStart_eq]
  rfl

theorem store_zeroChoice (s : State) : s.zeroChoice.store = s.store := by
  unfold zeroChoice
  split
  · split
    · exact s.store_startZeroFill _
    · split
      · split
        · exact s.store_startZeroFill _
        · rfl
      · rfl
  · rfl

theorem zeroChoice_of_demand {g : Nat} (hz : s.engine.zeroFill = none) (hr : s.tc.railLoss = false)
    (hp : s.parked = false) (hd : s.demandState = true) (hl : s.listed false = some g) :
    s.zeroChoice = s.startZeroFill g := by
  unfold zeroChoice
  rw [if_pos ⟨hz, hr, hp⟩, if_pos hd, hl]

theorem zeroChoice_of_none (hl : s.listed false = none) (hb : s.background = none) : s.zeroChoice = s := by
  unfold zeroChoice
  rw [hl, ite_self, hb]
  exact ite_self _

theorem demandState_of_parking (h : s.tc.state = .parking) : s.demandState = true := by
  simp [demandState, h]

/-- A drain with nothing listed has nothing to choose (R116). -/
theorem choices_of_empty_drain (hr : s.tc.railLoss = false) (hs : s.tc.state = .parking)
    (hb : s.engine.bringUp = none) (hm : s.engine.markClearQueued = false) (hl : s.engine.fillList = []) :
    s.storeChoice.zeroChoice.storeChoice = s := by
  have hchoose : s.chooseStore = none := by
    rw [chooseStore_of_drain hr hs hb hm, listed_eq_none_of_nil hl]
    exact ite_self _
  have hback : s.background = none := if_neg fun hc => by rw [hs] at hc; cases hc.1
  rw [storeChoice_of_none hchoose, zeroChoice_of_none (listed_eq_none_of_nil hl _) hback, storeChoice_of_none hchoose]

/-- A drain with a preserved granule listed sends its fill (R116). -/
theorem op_of_listed_drain (hr : s.tc.railLoss = false) (hs : s.tc.state = .parking) (hp : s.tc.parkPhase = .drain)
    (hb : s.engine.bringUp = none) (hm : s.engine.markClearQueued = false) (ho : s.store.op = none)
    (hh : s.store.holdBack = none) (ha : s.store.status = .attached)
    (hl : ∃ g ∈ s.engine.fillList, (s.recOf g).cls.preserved = true) :
    s.storeChoice.zeroChoice.storeChoice.store.op.isSome = true := by
  obtain ⟨g, hg⟩ := Option.isSome_iff_exists.mp ((s.listed_isSome_iff true).mpr hl)
  have hchoose : s.chooseStore = some (.demandFill g) := by
    rw [chooseStore_of_drain hr hs hb hm, hg, if_neg fun hc => ?_]
    · rfl
    · rcases hc with hc | hc
      · exact hc ha
      · rw [parked_of_drain hp] at hc; cases hc
  have hop : s.storeChoice.zeroChoice.store.op.isSome = true := by
    rw [store_zeroChoice, storeChoice_of_work ho hh hchoose]
    rfl
  rw [storeChoice_of_busy (Option.isSome_iff_ne_none.mp hop)]
  exact hop

/-- A drain with another granule listed begins its zero fill (R116). -/
theorem zeroFill_of_listed_drain (hr : s.tc.railLoss = false) (hs : s.tc.state = .parking)
    (hp : s.tc.parkPhase = .drain) (hb : s.engine.bringUp = none) (hm : s.engine.markClearQueued = false)
    (hz : s.engine.zeroFill = none) (hl : ∃ g ∈ s.engine.fillList, (s.recOf g).cls.preserved = false) :
    s.storeChoice.zeroChoice.storeChoice.engine.zeroFill.isSome = true := by
  have hc := s.chooses_storeChoice
  have hkept : s.storeChoice.engine.zeroFill = none ∧ s.storeChoice.engine.markClearQueued = false ∧
      ∃ g ∈ s.storeChoice.engine.fillList, (s.storeChoice.recOf g).cls.preserved = false := by
    rcases storeChoice_of_drain hr hs hb hm with h | ⟨k, hk, h⟩ <;> rw [h]
    · exact ⟨hz, hm, hl⟩
    · obtain ⟨g, hg, hgp⟩ := hl
      refine ⟨by rw [engine_startFill]; exact hz, by rw [engine_startFill]; exact hm, g, ?_, by rw [cls_startFill, hgp]⟩
      rw [engine_startFill]
      refine List.mem_filter.mpr ⟨hg, decide_eq_true fun e => ?_⟩
      rw [e, hk] at hgp
      cases hgp
  obtain ⟨hz', hm', hl'⟩ := hkept
  obtain ⟨g, hg⟩ := Option.isSome_iff_exists.mp ((listed_isSome_iff _ false).mpr hl')
  have hzero : s.storeChoice.zeroChoice = s.storeChoice.startZeroFill g :=
    zeroChoice_of_demand hz' (by rw [hc.tc]; exact hr) (parked_of_drain (by rw [hc.tc]; exact hp))
      (demandState_of_parking (by rw [hc.tc]; exact hs)) hg
  have hzt := chooses_zeroChoice s.storeChoice
  have hfill : s.storeChoice.zeroChoice.engine.zeroFill = some g := by rw [hzero, engine_startZeroFill]
  have hmark : s.storeChoice.zeroChoice.engine.markClearQueued = false := by
    rw [hzero, engine_startZeroFill]; exact hm'
  have hlast := storeChoice_of_drain (s := s.storeChoice.zeroChoice) (by rw [hzt.tc, hc.tc]; exact hr)
    (by rw [hzt.tc, hc.tc]; exact hs) (by rw [hzt.bringUp, hc.bringUp]; exact hb) hmark
  rcases hlast with h | ⟨k, _, h⟩ <;> rw [h]
  · rw [hfill]; rfl
  · rw [engine_startFill]
    show s.storeChoice.zeroChoice.engine.zeroFill.isSome = true
    rw [hfill]; rfl

end State

end Sys2Proof.Machine
end

