-- ==== Sys2Proof/Proofs/SettlingMakesTests.lean ====
section
/-! The tests that settling makes, together (R63, R102 to R104, R110, R113, R138, R140, R150 to R152, R155, R168). -/

namespace Sys2Proof.Machine

namespace State

variable {s : State}

/-- START's course, from the state in which it is due (R138). -/
theorem settle_of_starting {t : State} {r : StartReq} (h : s.startTest = t.startCourse r)
    (hst : t.tc.state = .starting) (hr : t.tc.railLoss = false) (hd : t.dram = s.dram)
    (hb : t.engine.bringUp = s.engine.bringUp) :
    (s.dram.cond ≠ .up ∨ s.engine.bringUp ≠ none → s.settle = t.storeChoice.zeroChoice.storeChoice.drive) ∧
      (s.dram.cond = .up → s.engine.bringUp = none →
        (r.fresh = true ∧ r.storeUse = false →
          s.settle = (t.finishStart .none .active).storeChoice.zeroChoice.storeChoice.drive) ∧
        (¬ (r.fresh = true ∧ r.storeUse = false) →
          s.settle =
            (t.setEngine
              { t.engine with
                bringUp := some (newBringUp (if r.fresh then .fresh else .resume)) }).storeChoice.zeroChoice.storeChoice.drive)) := by
  have hsettle := settle_of_startCourse h hst hr
  refine ⟨fun hn => ?_, fun hup hnone => ⟨fun hbare => ?_, fun hbare => ?_⟩⟩
  · rw [hsettle, startCourse_of_not_due fun hc => ?_]
    rw [hd, hb] at hc
    exact hn.elim (fun hn => hn hc.2.1) fun hn => hn hc.2.2
  · rw [hsettle, startCourse_of_bare hst (hd ▸ hup) (hb.trans hnone) hbare]
  · rw [hsettle, startCourse_of_steps hst (hd ▸ hup) (hb.trans hnone) hbare]

/-- A commit taken back judges what it held: granules stay dirty, and slots stay free (R104). -/
theorem commitWait_keeps (hr : s.tc.railLoss = false) (h : s.tc.state = .committing)
    (hp : s.engine.commitPhase = .waiting) (hf : s.fillsRunning = false) (hd : s.tracker.dirtyTotal ≠ 0) :
    s.commitWait.tc.state = .saving ∧ s.commitWait.tc.railLoss = false ∧
      s.commitWait.tc.waitingAbort = s.tc.waitingAbort ∧ s.commitWait.engine.commitPhase = .none ∧
      (s.engine.freeSlots ≠ [] → s.commitWait.engine.freeSlots ≠ []) ∧
      (s.tracker.counted → GTable.wf s.tracker.table = true → s.commitWait.tracker.dirtyTotal ≠ 0) := by
  have hwait := commitWait_of_dirty hr h hp hf hd
  have hjudges := judges_releaseAll s.commitTakenBack .commit
  have hjudging := judging_releaseAll s.commitTakenBack .commit
  have hcalm := s.calm_commitWait
  rw [hwait] at hcalm ⊢
  refine ⟨by rw [hjudges.tc]; rfl, by rw [hjudges.tc]; exact hr, by rw [hjudges.tc]; rfl, by rw [hjudges.engine]; rfl,
    fun hn he => hn ?_, fun hc hwf => hjudging.dirtyTotal_ne_zero hc (hcalm.counted hc) hwf hd⟩
  have hprefix : s.engine.freeSlots <+: (s.commitTakenBack.releaseAll .commit).engine.freeSlots :=
    hjudging.keepsDirty.2
  rw [he] at hprefix
  exact List.prefix_nil.mp hprefix

end State

/-- Settles O51: what settling comes to in each state that has a test. -/
theorem settlingMakesTheTransitionTests : Obligations.SettlingMakesTheTransitionTests := by
  intro s noLoss ended goesOn imaged unconfigured running built becomes
  have hbecomes : ∀ t, goesOn t → becomes t := fun _ => State.settled_of_choices
  refine ⟨s.copyInFlight_iff, s.fillsRunning_iff, s.markClearPending_iff, s.passesOf_eq, ?starting,
    fun hr h => ?restoring, fun hr h => ⟨fun hc => ?copying, fun hw hd hf => ?copies, fun k hc hw => ?aborted,
      fun hc hw hd => ?clean, fun hc hw hd hf => ?full⟩,
    fun hr h => ⟨fun hn => ?waits, fun hp hf hd => ?commitClean, fun hp hf hd => ?commitDirty⟩,
    fun hr h hp => ?drain, fun hr h hp ht ho hb hm hfi hz => ⟨fun hl => ?drained, fun hl ha hh => ?fill,
      fun hl => ?zero⟩, fun hr h hn => ?lossStarting,
    fun hr h => ⟨fun hp => ?lossWriting, fun hp hd hf => ?lossClean, fun hp hd hm => ?lossMark,
      fun hp hd hm => ?lossDirty, fun hp => ?lossOver⟩,
    fun hr hu hs hc => ⟨fun hm => ?lossImaged, fun hm hq => ?lossClears, fun hm hq => ?lossUnconfigured⟩⟩
  case starting =>
    intro starts
    have hstarts : ∀ (t : State) (r : StartReq), s.startTest = t.startCourse r → t.tc.state = .starting →
        t.tc.railLoss = false → t.dram = s.dram → t.engine.bringUp = s.engine.bringUp → starts t r := by
      intro t r htest hst hr hd hb
      obtain ⟨hwaits, hdue⟩ := State.settle_of_starting htest hst hr hd hb
      refine ⟨fun hn => ?_, fun hup hnone => ⟨fun hbare => ?_, fun hbare => ?_⟩⟩
      · have hgo := hwaits hn
        exact ⟨hbecomes _ hgo, (congrArg TransitionController.state (State.tc_of_choices hgo)).trans hst,
          (State.bringUp_of_choices hgo).trans hb⟩
      · have hgo := (hdue hup hnone).1 hbare
        have htc := State.tc_of_choices hgo
        exact ⟨hbecomes _ hgo, congrArg TransitionController.state htc, congrArg TransitionController.start htc,
          congrArg TransitionController.outcome htc⟩
      · have hgo := (hdue hup hnone).2 hbare
        exact ⟨hbecomes _ hgo, (congrArg TransitionController.state (State.tc_of_choices hgo)).trans hst,
          State.bringUp_of_choices hgo⟩
    have hentered : ∀ r, noLoss → s.tc.state = .unconfigured → s.tc.start = some r → r.phase = .draining →
        s.ru.table = [] → starts (s.startEntered r) r := fun r hr h hstart hphase htable =>
      hstarts _ r ((State.startTest_of_start hstart).trans (by rw [if_pos ⟨hphase, h, htable⟩])) rfl hr rfl rfl
    refine ⟨fun r hr h hstart hphase => ⟨fun htable => ?_, hentered r hr h hstart hphase, fun htable hb => ?_⟩,
      fun r hr h hstart => ?_⟩
    · have htest : s.startTest = s := by
        rw [State.startTest_of_start hstart, if_neg fun hc => htable hc.2.2,
          State.startCourse_of_not_due fun hc => by rw [h] at hc; cases hc.1]
      have hgo : goesOn s := State.settle_of_tcTests htest
        (s.tcTests_eq hr (by rw [h]; decide) (by rw [h]; decide) (by rw [h]; decide)) fun hp => by
          rw [h] at hp; cases hp.1
      exact ⟨hgo, State.tc_of_choices hgo⟩
    · obtain ⟨hwaits, hdue⟩ := hentered r hr h hstart hphase htable
      by_cases hup : s.dram.cond = .up
      · by_cases hbare : r.fresh = true ∧ r.storeUse = false
        · rw [if_pos ⟨hbare.1, hbare.2, hup⟩]
          exact ((hdue hup hb).1 hbare).2.1
        · rw [if_neg fun hc => hbare ⟨hc.1, hc.2.1⟩]
          exact ((hdue hup hb).2 hbare).2.1
      · rw [if_neg fun hc => hup hc.2.2]
        exact (hwaits (.inl hup)).2.1
    · refine hstarts s r ((State.startTest_of_start hstart).trans ?_) h hr rfl rfl
      rw [if_neg fun hc => by rw [h] at hc; cases hc.2.1]
  case restoring =>
    have htest := State.restoringTest_of_restoring hr h
    have hst : s.restoringTest.tc.state = if s.anyAbsent then .restoring else .active := by
      rw [htest]
      split
      · exact h
      · rfl
    have hrl : s.restoringTest.tc.railLoss = false := by
      rw [htest]
      split <;> exact hr
    have hne : ∀ st : TState, st ≠ .restoring → st ≠ .active → s.restoringTest.tc.state ≠ st := fun st h1 h2 => by
      rw [hst]
      split
      · exact h1.symm
      · exact h2.symm
    have htests : s.tcTests = s.restoringTest := by
      unfold State.tcTests
      have hcommit := State.commitWait_of_state (hne .committing (by decide) (by decide))
      rw [hcommit, State.savingTest_of_state (hne .saving (by decide) (by decide)), hcommit,
        State.railCourse_of_noLoss hrl]
    have hgo : goesOn s.restoringTest :=
      State.settle_of_tcTests (s.startTest_eq (by rw [h]; decide) (by rw [h]; decide)) htests fun hp =>
        hne .parking (by decide) (by decide) hp.1
    rw [← htest]
    exact ⟨hbecomes _ hgo, (congrArg TransitionController.state (State.tc_of_choices hgo)).trans hst⟩
  case copying =>
    have hgo : goesOn s := State.settle_of_saving_still hr h (State.savingTest_of_copy hc)
    exact ⟨hgo, State.tc_of_choices hgo⟩
  case copies =>
    have hgo : goesOn s := State.settle_of_saving_still hr h (State.savingTest_of_copies hw hd hf)
    exact ⟨hgo, State.tc_of_choices hgo⟩
  case aborted =>
    have hgo : goesOn s.savingTest := State.settle_of_saving_abort hr h hc hw
    have htest := State.savingTest_of_abort hr h hc hw
    have htc : s.settle.tc = _ := (State.tc_of_choices hgo).trans (by rw [htest, State.returnEntry_tc])
    exact ⟨htest.trans (s.returnEntry_eq k), hbecomes _ hgo, congrArg TransitionController.state htc,
      congrArg TransitionController.waitingAbort htc, congrArg TransitionController.outcome htc⟩
  case clean =>
    have hgo := State.settle_of_saving_clean hr h hc hw hd
    refine ⟨hgo, ?_, ?_⟩
    · rw [State.tc_of_choices hgo]
      split <;> rfl
    · rw [State.commitPhase_of_choices hgo]
      split <;> rfl
  case full =>
    obtain ⟨htest, hgo⟩ := State.settle_of_saving_full hr h hc hw hd hf
    have htc : s.settle.tc = _ := (State.tc_of_choices hgo).trans (by rw [htest, State.failEntry_tc])
    refine ⟨congrArg TransitionController.state htc, congrArg TransitionController.outcome htc, hbecomes _ hgo,
      fun g hg hlt hlow hwf => ?_⟩
    have hscan : s.tracker.dirtyScan 0 = some g :=
      (s.tracker.scan_eq_some hwf .dirty (by decide) 0 g).mpr
        ⟨⟨hlt, hg⟩, .inl ⟨Nat.zero_le g, fun x _ hx hin => hlow x hx hin.2⟩⟩
    rw [htest, hscan, State.failEntry_eq]
    show _ = _
    rw [← h]
    rfl
  case waits =>
    have hw : s.commitWait = s := State.commitWait_of_not fun hc => hn.elim (fun hn => hn hc.2.1) fun hn => by
      rw [hc.2.2] at hn; cases hn
    have hgo : goesOn s := State.settle_of_commit_still hr h hw
    exact ⟨hgo, State.tc_of_choices hgo, State.commitPhase_of_choices hgo⟩
  case commitClean =>
    have hwait := State.commitWait_of_clean h hp hf hd
    cases hm : s.markClearPending with
    | true =>
      have hgo : goesOn s := State.settle_of_commit_still hr h (hwait.trans (if_pos hm))
      exact ⟨State.tc_of_choices hgo, fun _ => ⟨hgo, (State.commitPhase_of_choices hgo).trans hp⟩, fun hc => nomatch hc⟩
    | false =>
      have hgo : goesOn s.buildIndex :=
        State.settle_of_commit_built hr h (hwait.trans (if_neg (by rw [hm]; decide)))
      exact ⟨(State.tc_of_choices (t := s.buildIndex) hgo :), fun hc => Bool.noConfusion hc, fun _ =>
        ⟨hgo, State.commitPhase_of_choices (t := s.buildIndex) hgo, State.builtIndex_of_choices (t := s.buildIndex) hgo⟩⟩
  case commitDirty =>
    have hwait := State.commitWait_of_dirty hr h hp hf hd
    obtain ⟨hst, hrl, habort, hphase, hfree, hdirty⟩ := State.commitWait_keeps hr h hp hf hd
    have hsame := State.settle_of_commit_dirty h hst
    refine ⟨hwait, hsame, ⟨s.commitTakenBack, hwait, rfl, rfl, rfl, rfl, rfl, rfl, rfl⟩, fun hw hf' hc hwf => ?_⟩
    have hgo := State.settle_of_saving_still hrl hst
      (State.savingTest_of_copies (habort.trans hw) (hdirty hc hwf) (hfree hf'))
    rw [hsame]
    exact ⟨(congrArg TransitionController.state (State.tc_of_choices hgo)).trans hst,
      (State.commitPhase_of_choices hgo).trans hphase⟩
  case drain =>
    intro chosen
    have hc := s.chooses_choices
    have hdrain : chosen.tc.state = .parking ∧ chosen.tc.parkPhase = .drain ∧ chosen.tc.railLoss = false := by
      rw [show chosen.tc = s.tc from hc.tc]
      exact ⟨h, hp, hr⟩
    rw [State.settle_of_drain hr h]
    by_cases hd : chosen.ru.table = [] ∧ chosen.store.op = none ∧ chosen.engine.markClearQueued = false ∧
        chosen.engine.fills = [] ∧ chosen.engine.zeroFill = none
    · rw [if_pos hd, State.parkTest_of_drained hdrain hd]
      refine congrArg State.drive ?_
      have hcount : chosen.dram.parkCount = s.dram.parkCount := by rw [show chosen.dram = _ from hc.dram]
      have hinject : chosen.dram.inject = s.dram.inject := by rw [show chosen.dram = _ from hc.dram]
      have hgranules : chosen.granules = s.granules := congrArg (Config.unitGranules * ·) hc.units
      rw [← hcount, ← hinject, ← hgranules]
      rfl
    · rw [if_neg hd, State.parkTest_of_undrained hd]
  case drained =>
    have hsettle := State.settle_of_drain hr h
    rw [State.choices_of_empty_drain hr h hb hm hl, State.parkTest_of_drained ⟨h, hp, hr⟩ ⟨ht, ho, hm, hfi, hz⟩]
      at hsettle
    rw [hsettle]
    exact ⟨rfl, rfl⟩
  case fill =>
    have hop := State.op_of_listed_drain hr h hp hb hm ho hh ha hl
    have hsettle := State.settle_of_drain hr h
    rw [State.parkTest_of_undrained fun hd => by rw [hd.2.1] at hop; cases hop] at hsettle
    rw [hsettle]
    exact ⟨s.chooses_choices.tc, hop⟩
  case zero =>
    have hzero := State.zeroFill_of_listed_drain hr h hp hb hm hz hl
    have hsettle := State.settle_of_drain hr h
    rw [State.parkTest_of_undrained fun hd => by rw [hd.2.2.2.2] at hzero; cases hzero] at hsettle
    rw [hsettle]
    exact ⟨s.chooses_choices.tc, hzero⟩
  case lossStarting =>
    exact State.settle_of_railLoss_unconfigured hr (State.startTest_of_none hn)
      (State.commitWait_of_state (by rw [h]; decide)) (State.railCourse_of_starting hr h)
  case lossWriting =>
    have hne : s.engine.commitPhase ≠ .none ∧ s.engine.commitPhase ≠ .waiting := by
      rcases hp with hp | hp <;> rw [hp] <;> decide
    have hw : s.commitWait = s := State.commitWait_of_not fun hc => hne.2 hc.2.1
    have hcourse : s.railCourse = s := (State.railCourse_of_committing hr h).trans
      ((if_neg hne.1).trans (if_neg fun hc => hne.2 hc.1))
    have hgo : goesOn s := State.settle_of_railLoss_still hr
      (s.startTest_eq (by rw [h]; decide) (by rw [h]; decide)) hw hcourse
    exact ⟨hgo, State.tc_of_choices hgo, State.commitPhase_of_choices hgo⟩
  case lossClean =>
    have hwait := State.commitWait_of_clean h hp hf hd
    cases hm : s.markClearPending with
    | true =>
      have hcourse : s.railCourse = s := (State.railCourse_of_committing hr h).trans <| by
        rw [if_neg (by rw [hp]; decide), if_neg fun hc => hc.2.1 hd]
      have hgo : goesOn s := State.settle_of_railLoss_still hr
        (s.startTest_eq (by rw [h]; decide) (by rw [h]; decide)) (hwait.trans (if_pos hm)) hcourse
      exact ⟨hgo, State.tc_of_choices hgo, (State.commitPhase_of_choices hgo).trans hp⟩
    | false =>
      have hgo : goesOn s.buildIndex :=
        State.settle_of_railLoss_built hr h (hwait.trans (if_neg (by rw [hm]; decide)))
      exact ⟨hgo, (State.tc_of_choices (t := s.buildIndex) hgo :), State.commitPhase_of_choices (t := s.buildIndex) hgo⟩
  case lossMark =>
    have hcourse : s.railCourse = s := (State.railCourse_of_committing hr h).trans <| by
      rw [if_neg (by rw [hp]; decide), if_neg fun hc => by rw [hm] at hc; cases hc.2.2]
    have hgo : goesOn s := State.settle_of_railLoss_still hr
      (s.startTest_eq (by rw [h]; decide) (by rw [h]; decide)) (State.commitWait_of_railLoss hr hd) hcourse
    exact ⟨hgo, State.tc_of_choices hgo⟩
  case lossDirty =>
    refine State.settle_of_railLoss_imaged hr (s.startTest_eq (by rw [h]; decide) (by rw [h]; decide))
      (State.commitWait_of_railLoss hr hd) (.inr ?_)
    exact (State.railCourse_of_committing hr h).trans
      ((if_neg (by rw [hp]; decide)).trans (if_pos ⟨hp, hd, hm⟩))
  case lossOver =>
    refine State.settle_of_railLoss_imaged hr (s.startTest_eq (by rw [h]; decide) (by rw [h]; decide))
      (State.commitWait_of_not fun hc => by rw [hp] at hc; cases hc.2.1) (.inl ?_)
    exact (State.railCourse_of_committing hr h).trans (if_pos hp)
  case lossImaged =>
    exact State.settle_of_railLoss_imaged hr (s.startTest_eq hu hs) (State.commitWait_of_state hc)
      (.inl ((State.railCourse_of_other hr hs hc).trans (if_pos hm)))
  case lossClears =>
    have hgo : goesOn s := State.settle_of_railLoss_still hr (s.startTest_eq hu hs) (State.commitWait_of_state hc)
      ((State.railCourse_of_other hr hs hc).trans ((if_neg hm).trans (if_pos hq)))
    exact ⟨hgo, State.tc_of_choices hgo⟩
  case lossUnconfigured =>
    exact State.settle_of_railLoss_unconfigured hr (s.startTest_eq hu hs) (State.commitWait_of_state hc)
      ((State.railCourse_of_other hr hs hc).trans ((if_neg hm).trans (if_neg (by rw [hq]; decide))))

end Sys2Proof.Machine
end

