-- ==== Sys2Proof/Proofs/StoreArbiter.lean ====
section
/-! The store arbiter: what each rank has to do, by state (R83, R93, R100, R105, R116, R118), and what is sent for it. -/

namespace Sys2Proof.Machine

namespace State

variable {s : State}

/-! ## The ranks -/

theorem parked_iff (s : State) :
    s.parked = true ↔ s.tc.state = .parking ∧ s.tc.parkPhase ≠ .drain ∧ s.tc.parkPhase ≠ .none := by
  unfold parked
  cases s.tc.parkPhase <;> simp

theorem listed_true_eq (s : State) : s.listed true = s.engine.fillList.find? fun g => (s.recOf g).cls.preserved :=
  congrArg (fun p => s.engine.fillList.find? p) (funext fun _ => Bool.decide_eq_true)

theorem chooseStore_of_ranked (hb : s.engine.bringUp = none) (ha : s.store.status = .attached)
    (hp : s.parked = false) :
    s.chooseStore =
      if s.engine.markClearQueued then some .markClear
      else
        s.rankCommit.or
          (if s.tc.railLoss then none else s.rankDemand.or (s.rankSave.or (s.rankBackground.or s.rankPresave))) := by
  unfold chooseStore
  rw [hb]
  exact if_neg fun hc => hc.elim (fun hc => hc ha) fun hc => by rw [hp] at hc; cases hc

theorem demandState_iff (s : State) :
    s.demandState = true ↔
      s.tc.state = .active ∨ s.tc.state = .restoring ∨ s.tc.state = .saving ∨ s.tc.state = .parking := by
  simp [demandState, TState.running_iff, or_assoc]

theorem rankDemand_of_state (h : s.demandState = true) :
    s.rankDemand = (s.engine.fillList.find? fun g => (s.recOf g).cls.preserved).map .demandFill := by
  rw [rankDemand, if_pos h, listed_true_eq]

theorem rankDemand_of_not_state (h : ¬ s.demandState = true) : s.rankDemand = none := if_neg h

theorem rankSave_of_not_saving (h : s.tc.state ≠ .saving) : s.rankSave = none := if_neg fun hc => h hc.1

theorem rankSave_of_saving (h : s.tc.state = .saving) :
    s.rankSave =
      match s.tc.waitingAbort, s.tracker.dirtyScan 0, s.engine.freeSlots with
      | none, some g, n :: _ => some (.saveCopy g n)
      | _, _, _ => none := by
  unfold rankSave
  cases s.tc.waitingAbort with
  | none => rw [if_pos ⟨h, rfl⟩]; cases s.tracker.dirtyScan 0 <;> cases s.engine.freeSlots <;> rfl
  | some k => exact if_neg fun hc => nomatch hc.2

theorem rankBackground_of_not_restoring (h : s.tc.state ≠ .restoring) : s.rankBackground = none := by
  rw [rankBackground, background, if_neg fun hc => h hc.1]

theorem rankBackground_of_due {g : Nat} (h : s.tc.state = .restoring) (hg : s.engine.grant = true)
    (hb : s.tracker.absentScan s.engine.fillCursor = some g) (hp : (s.recOf g).cls.preserved = true) :
    s.rankBackground = some (.backgroundFill g) := by
  rw [rankBackground, background, if_pos ⟨h, hg⟩, hb]
  exact if_pos hp

theorem rankBackground_of_none
    (h : ∀ g, s.engine.grant = true → s.tracker.absentScan s.engine.fillCursor = some g →
      (s.recOf g).cls.preserved = false) : s.rankBackground = none := by
  unfold rankBackground background
  by_cases hg : s.tc.state = .restoring ∧ s.engine.grant = true
  · rw [if_pos hg]
    cases hb : s.tracker.absentScan s.engine.fillCursor with
    | none => rfl
    | some g => exact if_neg (by rw [h g hg.2 hb]; decide)
  · rw [if_neg hg]

theorem rankPresave_of_not_running (h : ¬ s.tc.state.running = true) : s.rankPresave = none := if_neg fun hc => h hc.1

theorem rankPresave_of_running (h : s.tc.state.running = true) :
    s.rankPresave =
      if s.engine.presaveOn = true ∧ s.engine.paceTimer.status = .expired ∧ s.region.load = none then
        (match s.engine.freeSlots, s.tracker.dirtyScan s.engine.presaveCursor with
        | n :: _, some g => some (.presaveCopy g n)
        | _ :: _, none => some .presaveNone
        | [], _ => none)
      else none := by
  have hload : s.loading = false ↔ s.region.load = none := by simp [loading]
  unfold rankPresave
  simp only [h, hload, true_and] <;> rfl

theorem rankCommit_of_not_committing (h : s.tc.state ≠ .committing) : s.rankCommit = none := if_neg h

theorem rankCommit_of_committing (h : s.tc.state = .committing) :
    s.rankCommit =
      if s.engine.commitPhase = .index then some .commitIndex
      else if s.engine.commitPhase = .header then some .commitHeader
      else none := by
  unfold rankCommit
  rw [if_pos h]
  cases s.engine.commitPhase <;> rfl

/-- Outside the states of demand fills every rank from the third on is idle. -/
theorem lowRanks_of_not_demand (h : ¬ s.demandState = true) :
    s.rankDemand.or (s.rankSave.or (s.rankBackground.or s.rankPresave)) = none := by
  rw [demandState_iff, not_or, not_or, not_or] at h
  obtain ⟨hact, hres, hsav, hpark⟩ := h
  have hrun : ¬ s.tc.state.running = true := fun hc => ((TState.running_iff _).mp hc).elim hact hres
  rw [rankSave_of_not_saving hsav, rankBackground_of_not_restoring hres, rankPresave_of_not_running hrun,
    rankDemand_of_not_state fun hc => by rcases (s.demandState_iff).mp hc with h | h | h | h <;> contradiction]
  rfl

theorem storeChoice_of_held (h : s.store.holdBack ≠ none) : s.storeChoice = s := by
  refine if_neg fun hf => h ?_
  simp only [storeFree, Bool.and_eq_true, Option.isNone_iff_eq_none] at hf
  exact hf.2

/-! ## What is sent (R73, R85, R86, R98, R105, R125, R127) -/

theorem startWork_markClear {h : Header} (hh : s.engine.headerRecord = some h) :
    s.startWork .markClear =
      (s.setEngine { s.engine with markClearQueued := false }).sendOp .writeBlock (headerBlock s.engine.epoch)
        ({ h with mark := false } : Header).block .markClear := by
  rw [startWork, unmarkedHeader, hh]

theorem startWork_commitHeader {h : Header} (hh : s.engine.builtHeader = some h) :
    s.startWork .commitHeader =
      s.sendOp .writeBlock (headerBlock (s.engine.epoch + 1)) h.block .commitHeader := by
  rw [startWork, hh]
  rfl

theorem startWork_bringUp {b : BringUp} (hb : s.engine.bringUp = some b) (step : StoreStep) :
    s.startWork (.bringUp step) = s.sendStep b := by
  rw [startWork, hb]

end State

/-- Settles O56: the arbiter's choice by rank, what it starts and sends, and the scans it reads. -/
theorem storeArbiterChoosesByRank : Obligations.StoreArbiterChoosesByRank := by
  intro s
  refine ⟨fun b hb => ?bringUp, fun hb => ⟨fun h => ?nothing, fun ha hp => ?ranked⟩, fun h => ?still,
    fun work ho hh hw => State.storeChoice_of_work ho hh hw,
    ⟨fun h hh => State.startWork_markClear hh, rfl, fun h hh => State.startWork_commitHeader hh,
      fun b step hb => ?step, fun g slot => ⟨rfl, rfl, rfl, rfl⟩, rfl⟩, fun _ _ _ _ => rfl, fun hwf start => ?scans⟩
  case bringUp => rw [State.chooseStore, hb]
  case nothing =>
    unfold State.chooseStore
    rw [hb]
    exact if_pos (h.imp_right s.parked_iff.mpr)
  case ranked =>
    have hnot : s.parked = false := Bool.eq_false_iff.mpr fun hc => by
      obtain ⟨h1, h2, h3⟩ := s.parked_iff.mp hc
      rcases hp with hp | hp | hp <;> contradiction
    have hchoose := State.chooseStore_of_ranked hb ha hnot
    refine ⟨fun hm => hchoose.trans (if_pos hm), fun hm => ?_⟩
    replace hchoose := hchoose.trans (if_neg (Bool.eq_false_iff.mp hm))
    refine ⟨fun hc => ?committing, fun hc hr => ?railLoss, fun hc hr => ?low⟩
    case committing =>
      have hdem : ¬ s.demandState = true := by simp [State.demandState_iff, hc]
      rw [hchoose, State.lowRanks_of_not_demand hdem, ite_self, Option.or_none, State.rankCommit_of_committing hc]
    all_goals rw [State.rankCommit_of_not_committing hc, Option.none_or] at hchoose
    case railLoss => exact hchoose.trans (if_pos hr)
    case low =>
      replace hchoose := hchoose.trans (if_neg (Bool.eq_false_iff.mp hr))
      intro demand back
      refine ⟨fun g hst hd => ?demand, fun h1 h2 h3 h4 => ?noDemand, fun hd => ?rest⟩
      case demand =>
        rw [hchoose, State.rankDemand_of_state (s.demandState_iff.mpr hst),
          show s.engine.fillList.find? (fun g => (s.recOf g).cls.preserved) = some g from hd]
        rfl
      case noDemand =>
        refine hchoose.trans (State.lowRanks_of_not_demand fun hc => ?_)
        rcases s.demandState_iff.mp hc with h | h | h | h <;> contradiction
      case rest =>
        have hnone : s.rankDemand = none := by
          by_cases hst : s.demandState = true
          · rw [State.rankDemand_of_state hst,
              show s.engine.fillList.find? (fun g => (s.recOf g).cls.preserved) = none from hd]
            rfl
          · exact State.rankDemand_of_not_state hst
        rw [hnone, Option.none_or] at hchoose
        refine ⟨fun hst => ?saving, fun g hst hg hback hpre => ?background, fun h1 h2 h3 => ?idle, fun hst => ?presave⟩
        case saving =>
          rw [hchoose, State.rankBackground_of_not_restoring (by rw [hst]; decide),
            State.rankPresave_of_not_running (by rw [hst]; decide), Option.or_none, Option.or_none,
            State.rankSave_of_saving hst] <;> rfl
        case background =>
          rw [hchoose, State.rankSave_of_not_saving (by rw [hst]; decide), Option.none_or,
            State.rankBackground_of_due hst hg hback hpre]
          rfl
        case idle =>
          rw [hchoose, State.rankSave_of_not_saving h3, State.rankBackground_of_not_restoring h2,
            State.rankPresave_of_not_running fun hc => ((TState.running_iff _).mp hc).elim h1 h2]
          rfl
        case presave =>
          have hrun : s.tc.state.running = true := (TState.running_iff _).mpr (hst.imp_right And.left)
          have hbg : s.rankBackground = none := by
            rcases hst with hst | hst
            · exact State.rankBackground_of_not_restoring (by rw [hst]; decide)
            · exact State.rankBackground_of_none hst.2
          have hsav : s.tc.state ≠ .saving := by rcases hst with hst | ⟨hst, _⟩ <;> rw [hst] <;> decide
          rw [hchoose, State.rankSave_of_not_saving hsav, hbg, Option.none_or, Option.none_or,
            State.rankPresave_of_running hrun] <;> rfl
  case still =>
    rcases h with h | h | h
    · exact State.storeChoice_of_busy h
    · exact State.storeChoice_of_held h
    · exact State.storeChoice_of_none h
  case step =>
    have hwork := State.startWork_bringUp hb step
    refine ⟨fun hs => ?_, fun hs => ?_, fun hs => ?_, fun hs => ?_, fun hs => ?_, fun h hs hh => ?_⟩ <;>
      rw [hwork, State.sendStep, hs] <;> dsimp only
    · rfl
    · rfl
    · rfl
    · rfl
    · rfl
    · rw [hh]; rfl
  case scans =>
    exact ⟨s.tracker.scan_eq_some hwf .dirty (by decide) start, s.tracker.scan_eq_none hwf .dirty (by decide) start,
      s.tracker.scan_eq_some hwf .absent (by decide) start, s.tracker.scan_eq_none hwf .absent (by decide) start⟩

end Sys2Proof.Machine
end

