-- ==== Sys2Proof/Proofs/CommitEnds.lean ====
section
/-! The end of a commit (R106), and what R109 decides after it. -/

namespace Sys2Proof.Machine

namespace State

variable {s : State}

theorem commitDone_eq (s : State) :
    s.commitDone =
      ((s.setEngine { s.engine with epoch := s.engine.epoch + 1 }).claimCommit).setEngine
        { (s.setEngine { s.engine with epoch := s.engine.epoch + 1 }).claimCommit.engine with
          mark := .set
          headerRecord := (s.setEngine { s.engine with epoch := s.engine.epoch + 1 }).claimCommit.engine.builtHeader
          commitPhase := .none
          builtIndex := { bytes := [], length := 0 }
          builtHeader := none } := rfl

/-! ## What R109 decides -/

theorem oldestCommitHeld_eq (s : State) :
    s.oldestCommitHeld = (s.ru.table.find? fun e => decide (e.st = .held .commit)).map Entry.addr := rfl

theorem commitDecision_of_railLoss (h : s.tc.railLoss = true) : s.commitDecision = s := if_pos h

theorem commitDecision_of_abort {k : AbortKind} (hr : s.tc.railLoss = false) (h : s.tc.waitingAbort = some k) :
    s.commitDecision = s.returnEntry k := by
  unfold commitDecision
  rw [if_neg (by rw [hr]; decide), h]

theorem commitDecision_of_not_held (hr : s.tc.railLoss = false) (hw : s.tc.waitingAbort = none)
    (h : s.ru.table.find? (fun e => decide (e.st = .held .commit)) = none) :
    s.commitDecision = if s.tc.origin = .hibernate then s.hibernated else s.enterParking := by
  unfold commitDecision
  rw [if_neg (by rw [hr]; decide), hw, oldestCommitHeld_eq, h]
  rfl

theorem commitDecision_of_held {e : Entry} (hr : s.tc.railLoss = false) (hw : s.tc.waitingAbort = none)
    (h : s.ru.table.find? (fun e => decide (e.st = .held .commit)) = some e) :
    s.commitDecision =
      if s.engine.passes < 4 then s.nextPass e.addr
      else (s.report .entryUnsettled e.addr (.number 0)).failEntry .unsettled := by
  unfold commitDecision
  rw [if_neg (by rw [hr]; decide), hw, oldestCommitHeld_eq, h]
  rfl

/-- HIBERNATE has ended in IMAGED_OFF (R147). -/
theorem imagedFrom_hibernated (s : State) : s.imagedFrom s.hibernated :=
  imagedFrom_setTc s.imagedFrom_enterImagedOff _ ⟨rfl, rfl, rfl, rfl⟩

theorem outcome_hibernated (s : State) :
    s.hibernated.tc.outcome =
      { op := .hibernate, result := .completed, reason := .none, passes := s.engine.passes } := by
  obtain ⟨_, _, _, _, _, _, _, _, hpasses, _⟩ := s.imagedFrom_enterImagedOff
  rw [← hpasses]
  rfl

/-- The state in which another pass begins, its report and its count made (R109). -/
def passCounted (s : State) (addr : Nat) : State :=
  (if s.engine.lateNoted then s else s.report .lateWrite addr (.number 0)).setEngine
    { s.engine with lateNoted := true, passes := s.engine.passes + 1 }

theorem nextPass_eq (s : State) (addr : Nat) :
    s.nextPass addr = ((s.passCounted addr).enterState .saving).releaseAll .commit := by
  unfold nextPass passCounted
  cases s.engine.lateNoted <;> rfl

theorem passCounted_fields (s : State) (addr : Nat) :
    (s.passCounted addr).engine = { s.engine with lateNoted := true, passes := s.engine.passes + 1 } ∧
      (s.passCounted addr).faults =
        (if s.engine.lateNoted then s.faults else s.faults.take .lateWrite addr (.number 0) s.tc.state) ∧
      (s.passCounted addr).tc = s.tc ∧ (s.passCounted addr).ru = s.ru ∧ (s.passCounted addr).tracker = s.tracker := by
  unfold passCounted
  cases s.engine.lateNoted <;> exact ⟨rfl, rfl, rfl, rfl, rfl⟩

end State

/-- Settles O57: what the end of a commit sets, and what is decided after it. -/
theorem commitEndsAndDecides : Obligations.CommitEndsAndDecides := by
  intro s
  have hclaim : ∀ x : ImageEngine, (s.setEngine x).claimCommit =
      ((s.setEngine x).setTracker s.claimCommit.tracker).setEngine (s.setEngine x).claimCommit.engine := fun x => by
    rw [State.claimCommit, State.claimCommit, State.only_claimAll, State.only_claimAll s]
    rfl
  refine ⟨?epoch, rfl, ?header, rfl, ?tracker, ?free, ?tc, ?ru, ?dram, ?faults, State.commitDecision_of_railLoss,
    fun hr => ⟨fun k hk => ?aborted, fun hw => ⟨fun hh ho => ?hibernated, fun hh ho => ?parked, fun e he =>
      ⟨fun hp => ?again, fun hp => ?unsettled⟩⟩⟩⟩
  case epoch =>
    rw [State.commitDone_eq, State.setEngine_engine, State.claimCommit, State.engine_claimAll]
    rfl
  case header =>
    rw [State.commitDone_eq, State.setEngine_engine, State.claimCommit, State.engine_claimAll]
    rfl
  case free =>
    rw [State.commitDone_eq, State.setEngine_engine, State.claimCommit, State.claimCommit, State.engine_claimAll,
      State.engine_claimAll s]
    rfl
  case aborted =>
    have hdec := State.commitDecision_of_abort hr hk
    have htc := congrArg State.tc hdec
    rw [State.returnEntry_tc] at htc
    exact ⟨hdec.trans (s.returnEntry_eq k), congrArg TransitionController.state htc,
      congrArg TransitionController.waitingAbort htc, congrArg TransitionController.outcome htc⟩
  case hibernated =>
    rw [State.commitDecision_of_not_held hr hw hh, if_pos ho]
    exact ⟨s.imagedFrom_hibernated, s.faults_enterImagedOff, s.outcome_hibernated⟩
  case parked =>
    rw [State.commitDecision_of_not_held hr hw hh, if_neg ho]
    exact ⟨rfl, rfl, rfl⟩
  case again =>
    exact ⟨s.passCounted e.addr, ((State.commitDecision_of_held hr hw he).trans (if_pos hp)).trans (s.nextPass_eq _),
      s.passCounted_fields e.addr⟩
  case unsettled =>
    have hdec := (State.commitDecision_of_held hr hw he).trans (if_neg (Nat.not_lt.mpr hp))
    have htc := congrArg State.tc hdec
    rw [State.failEntry_tc] at htc
    exact ⟨hdec.trans (State.failEntry_eq _ _), congrArg TransitionController.state htc,
      congrArg TransitionController.waitingAbort htc, congrArg TransitionController.outcome htc⟩
  all_goals
    rw [State.commitDone_eq, hclaim]
    rfl

end Sys2Proof.Machine
end

