-- ==== Sys2Proof/Proofs/StoreAnswers.lean ====
section
/-! Which operation a response or an expiry ends (R69, R70, R71, R191), the ends of a copy (R13, R14, R81, R95), and
store DOWN (R79). -/

namespace Sys2Proof.Machine

namespace State

variable {s : State}

/-! ## Which operation ends -/

theorem storeResponse_of_held {n : BitVec 8} (h : s.store.holdBack = some n) (f : Frame) :
    s.storeResponse f = if respNum f = n then (s.endHoldBack Timer.stopped).settle else s := by
  rw [storeResponse, h]

theorem storeResponse_of_idle (h : s.store.holdBack = none) (ho : s.store.op = none) (f : Frame) :
    s.storeResponse f = s := by
  rw [storeResponse, h, ho]

theorem storeResponse_of_op {o : StoreOp} (h : s.store.holdBack = none) (ho : s.store.op = some o) (f : Frame) :
    s.storeResponse f = if respNum f = o.num then (s.answered o f).settle else s := by
  rw [storeResponse, h, ho]

theorem storeTimerExpiry_of_not_running (h : s.store.timer.status ≠ .running) : s.storeTimerExpiry = s := if_neg h

theorem storeTimerExpiry_of_held {n : BitVec 8} (hr : s.store.timer.status = .running)
    (h : s.store.holdBack = some n) : s.storeTimerExpiry = (s.endHoldBack Timer.expired).settle := by
  rw [storeTimerExpiry, if_pos hr, h]

theorem storeTimerExpiry_of_idle (h : s.store.holdBack = none) (ho : s.store.op = none) : s.storeTimerExpiry = s := by
  rw [storeTimerExpiry, h, ho]
  exact ite_self _

theorem storeTimerExpiry_of_op {o : StoreOp} (hr : s.store.timer.status = .running) (h : s.store.holdBack = none)
    (ho : s.store.op = some o) : s.storeTimerExpiry = (s.expired o).settle := by
  rw [storeTimerExpiry, if_pos hr, h, ho]

theorem endOp_of_op {o : StoreOp} (ho : s.store.op = some o) (timer : Timer) :
    s.endOp timer =
      (s.setSent { s.sent with operations := s.sent.operations ++ [o] }).setStore
        { s.store with op := none, timer := timer } := by
  rw [endOp, ho]
  rfl

theorem answered_of_disregarded {o : StoreOp} (hd : o.disregarded = true) (f : Frame) :
    s.answered o f = ((s.readOut o f).endOp Timer.stopped).disregardedEnd o := by
  unfold answered
  exact if_pos hd

theorem answered_of_good {o : StoreOp} {f : Frame} (hd : o.disregarded = false) (hg : o.goodBy f = true) :
    s.answered o f = ((s.readOut o f).endOp Timer.stopped).opGood o f := by
  unfold answered
  exact (if_neg (by rw [hd]; decide)).trans (if_pos hg)

theorem answered_of_bad {o : StoreOp} {f : Frame} (hd : o.disregarded = false) (hg : o.goodBy f = false) :
    s.answered o f = ((s.readOut o f).endOp Timer.stopped).opBad o := by
  unfold answered
  exact (if_neg (by rw [hd]; decide)).trans (if_neg (by rw [hg]; decide))

theorem expired_of_disregarded {o : StoreOp} (hd : o.disregarded = true) :
    s.expired o = (s.endOp Timer.expired).disregardedEnd o := by
  unfold expired
  exact if_pos hd

theorem expired_of_regarded {o : StoreOp} (hd : o.disregarded = false) :
    s.expired o = (s.endOp Timer.expired).opExpired o := by
  unfold expired
  exact if_neg (by rw [hd]; decide)

theorem readOut_of_not_read {o : StoreOp} {f : Frame} (h : o.disregarded = true ∨ o.goodBy f = false) :
    s.readOut o f = s := by
  unfold readOut
  split
  · rcases h with h | h <;> rw [h] <;> simp
  · rfl

theorem readOut_of_copy {o : StoreOp} {f : Frame} {g slot : Nat} (hp : o.purpose = .copy g slot)
    (hd : o.disregarded = false) (hg : o.goodBy f = true) : s.readOut o f = s.copyRead := by
  unfold readOut
  rw [hp]
  exact if_pos (by rw [hd, hg]; rfl)

theorem copyRead_of_still (h : s.presented .copy = none ∨ s.dram.cond ≠ .up) : s.copyRead = s := by
  unfold copyRead
  cases hp : s.presented .copy with
  | none => rfl
  | some a => exact if_neg (h.resolve_left (by rw [hp]; simp))

theorem copyRead_of_presented {a : Access} (h : s.presented .copy = some a) (hup : s.dram.cond = .up) :
    s.copyRead = s.runTransfer .copy a := by
  unfold copyRead
  rw [h]
  exact if_pos hup

/-! ## The ends of a copy -/

/-- The Store Port and the copy's accesses are let go together. -/
def copyEnded (s : State) (timer : Timer) : State :=
  (((s.setDram { s.dram with queue := s.dram.queue.filter fun a => decide (a.src ≠ .engine .copy) }).setSent
    { s.sent with operations := s.sent.operations ++ s.store.op.toList }).setStore
      { s.store with op := none, timer := timer })

theorem withdraw_copy (s : State) :
    (s.withdraw fun o => decide (o = .copy)) =
      s.setDram { s.dram with queue := s.dram.queue.filter fun a => decide (a.src ≠ .engine .copy) } := by
  refine congrArg (fun q => s.setDram { s.dram with queue := q }) (List.filter_congr fun a _ => ?_)
  obtain ⟨src, line⟩ := a
  cases src <;> simp

theorem withdraw_endOp (s : State) (timer : Timer) :
    ((s.endOp timer).withdraw fun o => decide (o = .copy)) = s.copyEnded timer := by
  rw [withdraw_copy]
  rfl

theorem copyGood_endOp (s : State) (timer : Timer) (g : Nat) :
    (s.endOp timer).copyGood g = (s.copyEnded timer).claimCopyGood g := by
  rw [copyGood, withdraw_endOp]

theorem retired_claimCopyLost (s : State) (g : Nat) : (s.claimCopyLost g).engine.retired = s.engine.retired := by
  rw [claimCopyLost, claimKeep, engine_claim]

theorem copyBad_endOp (s : State) (timer : Timer) (g slot : Nat) :
    (s.endOp timer).copyBad g slot =
      if 256 ≤ s.engine.retired.length then (s.copyEnded timer).storeDown .worn
      else (((s.copyEnded timer).claimCopyLost g).setEngine
        { ((s.copyEnded timer).claimCopyLost g).engine with retired := s.engine.retired ++ [slot] }).report
          .slotRetired slot (.number 0) := by
  unfold copyBad
  rw [withdraw_endOp]
  have hfull : (s.copyEnded timer).retiredFull = true ↔ 256 ≤ s.engine.retired.length := decide_eq_true_iff
  refine if_congr hfull rfl ?_
  rw [retireSlot, retired_claimCopyLost]
  rfl

theorem copyEnded_of_op {o : StoreOp} (ho : s.store.op = some o) (timer : Timer) :
    s.copyEnded timer =
      (((s.setDram { s.dram with queue := s.dram.queue.filter fun a => decide (a.src ≠ .engine .copy) }).setSent
        { s.sent with operations := s.sent.operations ++ [o] }).setStore
          { s.store with op := none, timer := timer }) := by
  rw [copyEnded, ho]
  rfl

theorem opGood_of_copy {o : StoreOp} {g slot : Nat} (hp : o.purpose = .copy g slot) (f : Frame) :
    s.opGood o f = s.copyGood g := by rw [opGood, hp]

theorem opBad_of_copy {o : StoreOp} {g slot : Nat} (hp : o.purpose = .copy g slot) :
    s.opBad o = s.copyBad g slot := by rw [opBad, hp]

theorem opExpired_of_copy {o : StoreOp} {g slot : Nat} (hp : o.purpose = .copy g slot) :
    s.opExpired o = (s.withdraw fun o => decide (o = .copy)).storeDown .timeout := by rw [opExpired, hp]

/-! ## Store DOWN (R79) -/

/-- The store DOWN before anyone is told: the claims, the queues and the mark (R79 steps 1 and 2). -/
def downed (s : State) : State :=
  let claimed := ((s.setStore { s.store with status := .down }).claimAbandon.claimStoreDown).withdraw Owner.isFill
  claimed.setEngine
    { claimed.engine with
      freeSlots := []
      retired := []
      mark := .clear
      markClearQueued := false
      fillList := claimed.engine.fillList.filter fun g => !s.poisonedByDown.contains g
      fills := [] }

theorem storeDown_eq (s : State) (reason : StoreReason) :
    s.storeDown reason =
      ((s.downed.leftAbsent s.poisonedByDown).report .storeDown 0 (.reason reason)).tellStoreDown := rfl

theorem fillList_claimAbandon (s : State) : s.claimAbandon.engine.fillList = s.engine.fillList := by
  rw [claimAbandon, engine_claimAll]

/-- What store DOWN leaves before anyone is told, but for the claims and the queues that it empties. -/
theorem downed_others (s : State) :
    s.downed.store = { s.store with status := .down } ∧ s.downed.tracker = s.claimAbandon.claimStoreDown.tracker ∧
      s.downed.tc = s.tc ∧ s.downed.ru = s.ru ∧ s.downed.faults = s.faults ∧ s.downed.region = s.region ∧
      s.downed.dram = (s.withdraw Owner.isFill).dram := by
  have habandon : (s.setStore { s.store with status := .down }).claimAbandon =
      ((s.setStore { s.store with status := .down }).setTracker s.claimAbandon.tracker).setEngine
        (s.setStore { s.store with status := .down }).claimAbandon.engine := by
    rw [claimAbandon, claimAbandon, only_claimAll, only_claimAll s]
    rfl
  unfold downed
  rw [habandon]
  exact ⟨rfl, rfl, rfl, rfl, rfl, rfl, rfl⟩

theorem mem_fillList_downed (s : State) (x : Nat) :
    x ∈ s.downed.engine.fillList ↔ x ∈ s.engine.fillList ∧ x ∉ s.poisonedByDown := by
  show x ∈ ((s.setStore { s.store with status := .down }).claimAbandon.engine.fillList.filter _) ↔ _
  rw [fillList_claimAbandon, List.mem_filter]
  simp

theorem not_fill_of_mem_withdrawn {a : Access} (h : a ∈ (s.withdraw Owner.isFill).dram.queue) (x : Nat) :
    a.src ≠ .engine (.fill x) := by
  obtain ⟨_, hkeep⟩ := List.mem_filter.mp h
  intro hsrc
  rw [hsrc] at hkeep
  cases hkeep

theorem attaching_iff (s : State) :
    s.attaching = true ↔ ∃ b, s.engine.bringUp = some b ∧ b.mode = .attach := by
  unfold attaching
  cases s.engine.bringUp <;> simp

theorem tellStoreDown_of_other (h1 : s.tc.state ≠ .committing) (h2 : s.tc.state ≠ .saving) (h3 : s.tc.state ≠ .starting)
    (h4 : s.tc.state ≠ .parking) :
    s.tellStoreDown = if s.attaching then s.finishAttach .storeUnavailable .failed .store else s := by
  unfold tellStoreDown
  split
  · contradiction
  · contradiction
  · contradiction
  · contradiction
  · rfl

theorem tellStoreDown_of_entry (h : s.tc.state = .committing ∨ s.tc.state = .saving) (hr : s.tc.railLoss = false) :
    s.tellStoreDown = s.failEntry .store := by
  unfold tellStoreDown
  rcases h with h | h <;> rw [h] <;> exact if_neg (by rw [hr]; decide)

/-! ## START that ends -/

theorem others_enterState (s : State) (st : TState) :
    (s.enterState st).tracker = s.tracker ∧ (s.enterState st).store = s.store ∧ (s.enterState st).dram = s.dram ∧
      (s.enterState st).ru = s.ru ∧ (s.enterState st).region = s.region ∧ (s.enterState st).faults = s.faults ∧
      (s.enterState st).side = s.side ∧ (s.enterState st).sent = s.sent := by
  unfold enterState
  exact ⟨rfl, rfl, rfl, rfl, rfl, rfl, rfl, rfl⟩
theorem others_finishStart (s : State) (reason : OutcomeReason) (st : TState) :
    (s.finishStart reason st).tracker = s.tracker ∧ (s.finishStart reason st).store = s.store ∧
      (s.finishStart reason st).dram = s.dram ∧ (s.finishStart reason st).ru = s.ru ∧
      (s.finishStart reason st).region = s.region ∧ (s.finishStart reason st).faults = s.faults ∧
      (s.finishStart reason st).side = s.side := by
  unfold finishStart writeOutcome
  simp only [setTc_tracker, setTc_store, setTc_dram, setTc_ru, setTc_region, setTc_faults, setTc_side,
    others_enterState, setEngine_tracker, setEngine_store, setEngine_dram, setEngine_ru, setEngine_region,
    setEngine_faults, setEngine_side, and_self]

end State

theorem StoreOp.goodBy_iff (o : StoreOp) (f : Frame) :
    o.goodBy f = true ↔ respStatus f = .good ∧ (o.kind = .readBlock → 262152 ≤ f.length) := by
  have hlen : Config.granuleBytes + 8 ≤ f.length ↔ 262152 ≤ f.length := Iff.rfl
  simp only [goodBy, Bool.and_eq_true, Bool.or_eq_true, decide_eq_true_eq, hlen, ne_eq, ← imp_iff_not_or]

/-- Settles O55: the ends of a copy, store DOWN, and what the long operation in progress is told of it. -/
theorem copiesEndAndStoreGoesDown : Obligations.CopiesEndAndStoreGoesDown := by
  refine ⟨fun s f o g slot => ⟨fun hh ho hp hd => ?copy, fun h => ?lost, fun reason => ?down⟩, fun s => ?told⟩
  case copy =>
    have hended := State.copyEnded_of_op ho
    refine ⟨fun hn => ⟨fun hg hstill => ?good, fun a hg ha hup => ?read, fun hg hlen => ?bad, fun hg hlen => ?worn⟩,
      fun hr => ?expired⟩
    case expired =>
      refine congrArg Host.Outcome.next ((State.storeTimerExpiry_of_op hr hh ho).trans ?_)
      rw [State.expired_of_regarded hd, State.opExpired_of_copy hp, State.withdraw_endOp, hended]
    all_goals refine congrArg Host.Outcome.next (((State.storeResponse_of_op hh ho f).trans (if_pos hn)).trans ?_)
    case good =>
      rw [State.answered_of_good hd hg, State.readOut_of_copy hp hd hg, State.copyRead_of_still hstill,
        State.opGood_of_copy hp, State.copyGood_endOp, hended]
    case read =>
      rw [State.answered_of_good hd hg, State.readOut_of_copy hp hd hg, State.copyRead_of_presented ha hup,
        State.opGood_of_copy hp, State.copyGood_endOp]
      rfl
    case bad =>
      rw [State.answered_of_bad hd hg, State.readOut_of_not_read (.inr hg), State.opBad_of_copy hp, State.copyBad_endOp,
        if_neg (Nat.not_le.mpr hlen), hended]
    case worn =>
      rw [State.answered_of_bad hd hg, State.readOut_of_not_read (.inr hg), State.opBad_of_copy hp, State.copyBad_endOp,
        if_pos hlen, hended]
  case lost =>
    rw [State.claimCopyLost, State.claimKeep, State.recOf_claim, if_pos rfl, GRec.copyLost]
    rcases h with h | h <;> rw [h]
  case down =>
    obtain ⟨hstore, htracker, htc, hru, hfaults, hregion, hdram⟩ := s.downed_others
    refine ⟨s.downed, s.storeDown_eq reason, hstore, htracker, rfl, rfl, rfl, rfl, rfl, s.mem_fillList_downed,
      fun a ha x => ?_, htc, hru, hfaults, hregion, fun x => ?_⟩
    · rw [hdram] at ha
      exact State.not_fill_of_mem_withdrawn ha x
    · rw [hdram]
      rfl
  case told =>
    intro t dropped
    refine ⟨?poisoned, fun o f => o.goodBy_iff f, fun h hr => ?entry, fun h hr => ?loss, fun h hr => ?lossOther,
      fun h hr => ?start, fun h => ?park, fun h1 h2 h3 h4 => ⟨fun b hb hm => ?attach, fun hb => ?none⟩⟩
    case poisoned =>
      unfold State.poisonedByDown
      refine congrArg (List.map Prod.fst) (List.filter_congr fun x _ => ?_)
      rw [GRec.poisonedByDown, Bool.eq_iff_iff]
      simp [GState.countsAbsent_iff]
    case entry =>
      have htold : t = s.failEntry .store := State.tellStoreDown_of_entry h hr
      have htc : t.tc = _ := congrArg State.tc htold
      rw [State.failEntry_tc] at htc
      refine ⟨congrArg TransitionController.state htc, congrArg TransitionController.waitingAbort htc, ?_,
        congrArg TransitionController.outcome htc, htold.trans (State.failEntry_eq _ _)⟩
      rw [htold, State.failEntry_eq]
      exact congrArg ImageEngine.commitPhase (State.judges_releaseAll _ _).engine
    case loss =>
      show s.tellStoreDown = _
      unfold State.tellStoreDown
      rw [h]
      exact if_pos hr
    case lossOther =>
      show s.tellStoreDown = _
      unfold State.tellStoreDown
      rcases h with h | h <;> rw [h] <;> exact if_pos hr
    case start =>
      have htold : t = s.finishStart .store .active := by
        show s.tellStoreDown = _
        unfold State.tellStoreDown
        rw [h]
        exact if_neg (by rw [hr]; decide)
      obtain ⟨htracker, hstore, _, hru, _, hfaults, _⟩ := s.others_finishStart .store .active
      rw [← htold] at htracker hstore hru hfaults
      exact ⟨htold, congrArg (fun u : State => u.tc.state) htold, congrArg (fun u : State => u.tc.start) htold,
        congrArg (fun u : State => u.engine.bringUp) htold, congrArg (fun u : State => u.tc.outcome) htold, htracker,
        hstore, hru, hfaults⟩
    case park =>
      show s.tellStoreDown = _
      unfold State.tellStoreDown
      rw [h]
    case attach =>
      exact (State.tellStoreDown_of_other h1 h2 h3 h4).trans (if_pos (s.attaching_iff.mpr ⟨b, hb, hm⟩))
    case none =>
      exact (State.tellStoreDown_of_other h1 h2 h3 h4).trans
        (if_neg fun hc => (s.attaching_iff.mp hc).elim fun b hc => hb b hc.1 hc.2)

end Sys2Proof.Machine
end

