-- ==== Sys2Proof/Proofs/StoreSteps.lean ====
section
/-! The ends of fills, mark clears and commit writes (R19, R81, R98, R105, R119, R122), and the steps of START and
ATTACH_STORE (R85 to R89, R125 to R129). -/

namespace Sys2Proof.Machine

namespace State

variable {s : State}

/-! ## Operations let go -/

theorem disregardedEnd_of_copy {o : StoreOp} {g slot : Nat} (hp : o.purpose = .copy g slot) :
    s.disregardedEnd o =
      if s.store.status = .attached then
        s.setEngine { s.engine with freeSlots := s.engine.freeSlots ++ [slot], exhaustionNoted := false }
      else s := by
  unfold disregardedEnd
  rw [hp]
  rfl

theorem disregardedEnd_of_other {o : StoreOp} (hp : ∀ g slot, o.purpose ≠ .copy g slot) : s.disregardedEnd o = s := by
  unfold disregardedEnd
  split
  · exact absurd ‹_› (hp _ _)
  · rfl

/-! ## The ends of a fill -/

theorem GRec.entersDirty_fillBad (r : GRec) : r.entersDirty r.fillBad = false := by
  obtain ⟨st, committed, pending, cls⟩ := r
  cases st <;> cases cls <;> rfl

theorem claimFillBad_eq (s : State) (g : Nat) :
    s.claimFillBad g = s.setTracker (s.tracker.putRec g (s.recOf g).fillBad) :=
  if_neg (by
    rw [GRec.entersDirty_fillBad]
    decide)

theorem fillBad_rec (r : GRec) :
    r.fillBad =
      if r.st = .filling ∧ r.cls.preserved = true then { r with st := .poison, committed := none } else r := by
  obtain ⟨st, committed, pending, cls⟩ := r
  cases st
  case filling => cases hp : cls.preserved <;> simp [GRec.fillBad, hp]
  all_goals rfl

/-- The state in which a fill that failed is reported: its granule marked and its slot retired (R19, R81). -/
def fillLost (s : State) (g : Nat) : State :=
  ((s.dropFill g).claimFillBad g).retireSlot (((s.recOf g).committed).getD 0)

theorem fillBad_eq (s : State) (g : Nat) :
    s.fillBad g =
      if 256 ≤ s.engine.retired.length then (s.dropFill g).storeDown .worn
      else ((s.fillLost g).report .fillFailed g (.number 0)).leftAbsent [g] :=
  if_congr decide_eq_true_iff rfl rfl

theorem fillLost_fields (s : State) (g : Nat) :
    (s.fillLost g).engine =
        { s.engine with
          fills := s.engine.fills.filter fun x => decide (x.granule ≠ g)
          retired := s.engine.retired ++ [((s.recOf g).committed).getD 0] } ∧
      (∀ h, (s.fillLost g).recOf h = if h = g then (s.recOf g).fillBad else s.recOf h) ∧
      (s.fillLost g).store = s.store ∧ (s.fillLost g).sent = s.sent ∧ (s.fillLost g).dram = s.dram ∧
      (s.fillLost g).ru = s.ru ∧ (s.fillLost g).tc = s.tc ∧ (s.fillLost g).faults = s.faults ∧
      (s.fillLost g).region = s.region ∧ (s.fillLost g).side = s.side := by
  unfold fillLost
  rw [claimFillBad_eq]
  exact ⟨rfl, fun h => Tracker.recAt_putRec _ _ _ _, rfl, rfl, rfl, rfl, rfl, rfl, rfl, rfl⟩

/-! ## The ends by purpose -/

theorem opGood_of_bringUp {o : StoreOp} {step : StoreStep} {b : BringUp} (hp : o.purpose = .bringUp step)
    (hb : s.engine.bringUp = some b) (f : Frame) : s.opGood o f = s.stepGood b f := by rw [opGood, hp, hb]

theorem stepBad_eq (s : State) (b : BringUp) :
    s.stepBad b = s.stepFailed b (if b.step = .identify then .identify else .metadata) := by
  unfold stepBad
  cases b.step <;> rfl

theorem stepExpired_eq (s : State) (b : BringUp) :
    s.stepExpired b = s.stepFailed b (if b.step = .identify then .identify else .timeout) := by
  unfold stepExpired
  cases b.step <;> rfl

theorem opBad_of_bringUp {o : StoreOp} {step : StoreStep} {b : BringUp} (hp : o.purpose = .bringUp step)
    (hb : s.engine.bringUp = some b) :
    s.opBad o = s.stepFailed b (if b.step = .identify then .identify else .metadata) := by
  rw [opBad, hp, hb, ← stepBad_eq]

theorem opExpired_of_bringUp {o : StoreOp} {step : StoreStep} {b : BringUp} (hp : o.purpose = .bringUp step)
    (hb : s.engine.bringUp = some b) :
    s.opExpired o = s.stepFailed b (if b.step = .identify then .identify else .timeout) := by
  rw [opExpired, hp, hb, ← stepExpired_eq]

theorem opBad_of_metadata {o : StoreOp}
    (hp : o.purpose = .markClear ∨ o.purpose = .commitIndex ∨ o.purpose = .commitHeader) :
    s.opBad o = s.storeDown .metadata := by
  unfold opBad
  rcases hp with hp | hp | hp <;> rw [hp]

theorem opExpired_of_other {o : StoreOp}
    (hp : (∃ g, o.purpose = .fill g) ∨ o.purpose = .markClear ∨ o.purpose = .commitIndex ∨
      o.purpose = .commitHeader) : s.opExpired o = s.storeDown .timeout := by
  unfold opExpired
  rcases hp with ⟨g, hp⟩ | hp | hp | hp <;> rw [hp]

theorem readOut_of_other {o : StoreOp} (f : Frame) (h : ∀ g slot, o.purpose ≠ .copy g slot) : s.readOut o f = s := by
  unfold readOut
  split
  · exact absurd ‹_› (h _ _)
  · rfl

/-! ## The steps of START and ATTACH_STORE -/

theorem slotsOf_eq (blocks : Nat) : slotsOf blocks = if blocks - 4 ≤ 131072 then blocks - 4 else 131072 := min_def _ _

/-- A header's retired list may be adopted: the length it gives is at most 256, and the slots it names differ and
exist. -/
theorem retiredOk_iff (h : Header) (slots : Nat) :
    h.retiredOk slots = true ↔ h.retiredLength ≤ 256 ∧ (∀ n ∈ h.retired, n < slots) ∧ h.retired.Nodup := by
  have hsize : h.retiredLength ≤ Config.retiredSize ↔ h.retiredLength ≤ 256 := Iff.rfl
  simp only [Header.retiredOk, Bool.and_eq_true, decide_eq_true_eq, List.all_eq_true, hsize, and_assoc]

theorem adoptedRetired_eq {chosen : Option Header} {slots : Nat} {retired : List Nat}
    (h1 : ∀ h, chosen = some h →
      h.slots = slots ∧ h.retiredLength ≤ 256 ∧ (∀ n ∈ h.retired, n < slots) ∧ h.retired.Nodup → retired = h.retired)
    (h2 : (∀ h, chosen = some h →
      ¬ (h.slots = slots ∧ h.retiredLength ≤ 256 ∧ (∀ n ∈ h.retired, n < slots) ∧ h.retired.Nodup)) → retired = []) :
    adoptedRetired chosen slots = retired := by
  unfold adoptedRetired
  simp only [retiredOk_iff]
  cases chosen with
  | none => exact (h2 fun _ hc => nomatch hc).symm
  | some h =>
    by_cases hs : h.slots = slots ∧ h.retiredLength ≤ 256 ∧ (∀ n ∈ h.retired, n < slots) ∧ h.retired.Nodup
    · exact (if_pos hs).trans (h1 h rfl hs).symm
    · exact (if_neg hs).trans (h2 fun _ hc => by cases hc; exact hs).symm

theorem adoptedEpoch_eq (chosen : Option Header) : adoptedEpoch chosen = (chosen.map Header.epoch).getD 0 := by
  cases chosen <;> rfl

theorem capacityOk_iff (preserved slots retired : Nat) :
    capacityOk preserved 0 slots retired = true ↔ 2 * preserved + retired ≤ slots := by
  rw [capacityOk, decide_eq_true_eq, Nat.add_zero]

theorem adopt_of_fits {b : BringUp} {retired : List Nat}
    (hr : adoptedRetired (highest b.header0 b.header1) b.slots = retired)
    (h : 2 * preservedCount s.region.file s.granules + retired.length ≤ b.slots) :
    s.adopt b =
      s.setEngine
        { s.engine with
          retired := retired
          bringUp := some
            { b with
              oldEpoch := adoptedEpoch (highest b.header0 b.header1)
              formerRetired := s.engine.retired
              step := .emptyIndex } } := by
  subst hr
  exact if_pos ((capacityOk_iff _ _ _).mpr h)

theorem adopt_of_not_fits {b : BringUp} {retired : List Nat}
    (hr : adoptedRetired (highest b.header0 b.header1) b.slots = retired)
    (h : ¬ 2 * preservedCount s.region.file s.granules + retired.length ≤ b.slots) :
    s.adopt b =
      (s.setEngine { s.engine with retired := retired }).capacityFails
        { b with
          oldEpoch := adoptedEpoch (highest b.header0 b.header1)
          formerRetired := s.engine.retired
          step := .emptyIndex } := by
  subst hr
  exact if_neg (mt (capacityOk_iff _ _ _).mp h)

theorem judgeHeader_of_none {b : BringUp} (h : highest b.header0 b.header1 = none) :
    s.judgeHeader b = s.resumeFail .noImage := by rw [judgeHeader, h]

theorem judgeHeader_of_fault {b : BringUp} {h : Header} {reason : OutcomeReason}
    (hh : highest b.header0 b.header1 = some h)
    (hf : headerFault s.granules s.tracker.units b.slots h = some reason) : s.judgeHeader b = s.resumeFail reason := by
  rw [judgeHeader, hh]
  dsimp only
  rw [hf]

theorem judgeHeader_of_sound {b : BringUp} {h : Header} (hh : highest b.header0 b.header1 = some h)
    (hf : headerFault s.granules s.tracker.units b.slots h = none) :
    s.judgeHeader b =
      s.nextStep
        { b with step := .index, header0 := some h, header1 := none, oldEpoch := h.epoch, indexCode := h.indexCode } := by
  rw [judgeHeader, hh]
  dsimp only
  rw [hf]

theorem headerFault_of_stale {granules units slots : Nat} {h : Header} (hm : h.mark = false) :
    headerFault granules units slots h = some .imageStale := if_pos (by rw [hm]; rfl)

theorem headerFault_of_mismatch {granules units slots : Nat} {h : Header} (hm : h.mark = true)
    (hu : h.units ≠ units ∨ h.slots ≠ slots) : headerFault granules units slots h = some .imageMismatch :=
  (if_neg (by rw [hm]; decide)).trans (if_pos hu)

/-- A marked header of this part's size is taken up just where its lists and its region file are sound (R126). -/
theorem headerFault_of_match {granules units slots : Nat} {h : Header} (hm : h.mark = true) (hu : h.units = units)
    (hs : h.slots = slots) :
    headerFault granules units slots h =
      if h.retiredLength ≤ 256 ∧ (∀ n ∈ h.retired, n < slots) ∧ h.retired.Nodup ∧
          descriptorsOk granules h.file.descs = true ∧ tableAddrOk granules (h.file.tableAddr.getD 0) = true then none
      else some .imageInvalid := by
  have hsound : (h.retiredLength ≤ 256 ∧ (∀ n ∈ h.retired, n < slots) ∧ h.retired.Nodup ∧
      descriptorsOk granules h.file.descs = true ∧ tableAddrOk granules (h.file.tableAddr.getD 0) = true) ↔
      h.retiredOk slots = true ∧ descriptorsOk granules h.file.descs = true ∧
        tableAddrOk granules (h.file.tableAddr.getD 0) = true := by
    rw [retiredOk_iff]
    simp only [and_assoc]
  refine (if_neg (by rw [hm]; decide)).trans ((if_neg fun hc => hc.elim (· hu) (· hs)).trans ?_)
  rw [if_congr hsound rfl rfl]
  cases h.retiredOk slots <;> cases descriptorsOk granules h.file.descs <;>
    cases tableAddrOk granules (h.file.tableAddr.getD 0) <;> rfl

theorem freeOf_eq (slots : Nat) (index : List IndexEntry) (retired : List Nat) :
    freeOf slots (namedSlots index) retired =
      (List.range slots).filter fun n => decide (IndexEntry.slot n ∉ index) && decide (n ∉ retired) := by
  refine List.filter_congr fun n _ => ?_
  have hnamed : n ∈ namedSlots index ↔ IndexEntry.slot n ∈ index := mem_namedSlots.trans List.mem_iff_getElem?.symm
  by_cases h1 : IndexEntry.slot n ∈ index <;> by_cases h2 : n ∈ retired <;> simp [hnamed, h1, h2]

theorem freeOf_nil (slots : Nat) (retired : List Nat) :
    freeOf slots [] retired = (List.range slots).filter fun n => decide (n ∉ retired) :=
  List.filter_congr fun n _ => by simp

/-- A resume completes with the table that its index builds (R128). -/
theorem resumeDone_eq (s : State) (b : BringUp) (h : Header) (index : List IndexEntry) :
    s.resumeDone b h index =
      ((((s.setRegion { s.region with file := h.file }).claimResume index).setEngine
        { s.engine with
          retired := h.retired
          freeSlots := (List.range b.slots).filter fun n =>
            decide (IndexEntry.slot n ∉ index) && decide (n ∉ h.retired)
          exhaustionNoted := false
          epoch := h.epoch
          mark := .set
          headerRecord := some h }).setStore
        { s.store with status := .attached, slots := b.slots }).finishStart .none
          (if ((s.setRegion { s.region with file := h.file }).claimResume index).anyAbsent then .restoring
          else .active) := by
  rw [← freeOf_eq]
  rfl

theorem judgeIndex_of_invalid {b : BringUp} {block : Frame}
    (h : b.header0 = none ∨ checkCode { bytes := block.bytes.take 262144, length := 262144 } ≠ b.indexCode ∨
      decodeIndex block = none) : s.judgeIndex b block = s.resumeFail .imageInvalid := by
  unfold judgeIndex
  cases hh : b.header0 with
  | none => rfl
  | some h0 =>
    rcases h with h | h | h
    · rw [hh] at h; cases h
    · exact if_pos h
    · dsimp only
      rw [h]
      exact ite_self _

theorem judgeIndex_of_valid {b : BringUp} {block : Frame} {h : Header} {index : List IndexEntry}
    (hh : b.header0 = some h) (hc : checkCode { bytes := block.bytes.take 262144, length := 262144 } = b.indexCode)
    (hi : decodeIndex block = some index) :
    s.judgeIndex b block =
      if indexOk s.granules b.slots h index then s.resumeDone b h index else s.resumeFail .imageInvalid := by
  unfold judgeIndex
  rw [hh]
  refine (if_neg fun hn => hn hc).trans ?_
  rw [hi]

theorem attached_eq (s : State) (b : BringUp) :
    s.attached b =
      (let t := (s.setEngine
        { s.engine with
          epoch := b.oldEpoch + 1
          mark := .clear
          headerRecord := b.header0
          freeSlots := (List.range b.slots).filter fun n => decide (n ∉ s.engine.retired)
          exhaustionNoted := false }).setStore { s.store with status := .attached, slots := b.slots }
      if b.mode = .attach then t.finishAttach .done .completed .none else t.finishStart .none .active) := by
  rw [← freeOf_nil]
  rfl

/-! ## START that ends, and a resume that fails -/

theorem passesOf_start (s : State) : s.passesOf .start = 0 := rfl

theorem finishStart_eq (s : State) (reason : OutcomeReason) (st : TState) :
    s.finishStart reason st =
      let left := (s.setEngine { s.engine with bringUp := none }).setTc { s.tc with start := none }
      let entered := left.enterState st
      entered.setTc
        { entered.tc with outcome := { op := .start, result := .completed, reason := reason, passes := 0 } } := rfl

/-- What entering a state keeps of the Image Engine. -/
theorem engine_enterState (s : State) (st : TState) :
    (s.enterState st).engine.freeSlots = s.engine.freeSlots ∧ (s.enterState st).engine.retired = s.engine.retired ∧
      (s.enterState st).engine.bringUp = s.engine.bringUp ∧ (s.enterState st).engine.epoch = s.engine.epoch ∧
      (s.enterState st).engine.mark = s.engine.mark := by
  unfold enterState
  exact ⟨rfl, rfl, rfl, rfl, rfl⟩

theorem tc_enterState (s : State) (st : TState) :
    (s.enterState st).tc.state = st ∧ (s.enterState st).tc.start = s.tc.start := by
  unfold enterState
  exact ⟨rfl, rfl⟩

/-- What the end of START writes and keeps in the Transition Controller and the Image Engine. -/
theorem written_finishStart (s : State) (reason : OutcomeReason) (st : TState) :
    (s.finishStart reason st).tc.state = st ∧ (s.finishStart reason st).tc.start = none ∧
      (s.finishStart reason st).engine.bringUp = none ∧
      (s.finishStart reason st).tc.outcome = { op := .start, result := .completed, reason := reason, passes := 0 } ∧
      (s.finishStart reason st).engine.freeSlots = s.engine.freeSlots ∧
      (s.finishStart reason st).engine.retired = s.engine.retired := by
  rw [finishStart_eq]
  dsimp only
  obtain ⟨hfree, hretired, hbringUp, _⟩ :=
    ((s.setEngine { s.engine with bringUp := none }).setTc { s.tc with start := none }).engine_enterState st
  obtain ⟨hstate, hstart⟩ :=
    ((s.setEngine { s.engine with bringUp := none }).setTc { s.tc with start := none }).tc_enterState st
  exact ⟨hstate, hstart, hbringUp, rfl, hfree, hretired⟩

/-- The part as a failed resume leaves it, before UNCONFIGURED is entered (R129). -/
def resumeLeft (s : State) : State :=
  (((s.setEngine { s.engine with bringUp := none }).setTc { s.tc with start := none }).setTracker
    State.reset.tracker).setRegion { s.region with file := RegionFile.empty }

theorem resumeFail_eq (s : State) (reason : OutcomeReason) :
    s.resumeFail reason =
      (s.resumeLeft.enterState .unconfigured).setTc
        { (s.resumeLeft.enterState .unconfigured).tc with
          outcome := { op := .start, result := .failed, reason := reason, passes := 0 } } := rfl

theorem others_resumeFail (s : State) (reason : OutcomeReason) :
    (s.resumeFail reason).tracker = State.reset.tracker ∧
      (s.resumeFail reason).region = { s.region with file := RegionFile.empty } ∧
      (s.resumeFail reason).store = s.store ∧ (s.resumeFail reason).dram = s.dram ∧
      (s.resumeFail reason).ru = s.ru ∧ (s.resumeFail reason).faults = s.faults ∧
      (s.resumeFail reason).side = s.side := by
  obtain ⟨htracker, hstore, hdram, hru, hregion, hfaults, hside, _⟩ := s.resumeLeft.others_enterState .unconfigured
  rw [resumeFail_eq]
  exact ⟨htracker, hregion, hstore, hdram, hru, hfaults, hside⟩

/-- What a failed resume writes and keeps in the Transition Controller and the Image Engine. -/
theorem written_resumeFail (s : State) (reason : OutcomeReason) :
    (s.resumeFail reason).tc.state = .unconfigured ∧ (s.resumeFail reason).tc.start = none ∧
      (s.resumeFail reason).engine.bringUp = none ∧
      (s.resumeFail reason).tc.outcome = { op := .start, result := .failed, reason := reason, passes := 0 } ∧
      (s.resumeFail reason).engine.epoch = s.engine.epoch ∧ (s.resumeFail reason).engine.mark = s.engine.mark ∧
      (s.resumeFail reason).engine.freeSlots = s.engine.freeSlots ∧
      (s.resumeFail reason).engine.retired = s.engine.retired := by
  rw [resumeFail_eq]
  obtain ⟨hfree, hretired, hbringUp, hepoch, hmark⟩ := s.resumeLeft.engine_enterState .unconfigured
  obtain ⟨hstate, hstart⟩ := s.resumeLeft.tc_enterState .unconfigured
  exact ⟨hstate, hstart, hbringUp, rfl, hepoch, hmark, hfree, hretired⟩

/-! ## A step answered GOOD, by its step -/

section
variable {b : BringUp}

theorem stepGood_of_identify (hs : b.step = .identify) (f : Frame) :
    s.stepGood b f =
      if 2052 ≤ respCount f then s.nextStep { b with slots := slotsOf (respCount f), step := .header0 }
      else s.stepFailed b .identify := by
  rw [stepGood, hs]
  rfl

theorem stepGood_of_header0 (hs : b.step = .header0) (f : Frame) :
    s.stepGood b f = s.nextStep { b with header0 := Header.decode (respBlock f).bytes, step := .header1 } := by
  rw [stepGood, hs]

theorem stepGood_of_header1_resume (hs : b.step = .header1) (hm : b.mode = .resume) (f : Frame) :
    s.stepGood b f = s.judgeHeader { b with header1 := Header.decode (respBlock f).bytes } := by
  rw [stepGood, hs]
  exact if_pos hm

theorem stepGood_of_header1_adopt (hs : b.step = .header1) (hm : b.mode ≠ .resume) (f : Frame) :
    s.stepGood b f = s.adopt { b with header1 := Header.decode (respBlock f).bytes } := by
  rw [stepGood, hs]
  exact if_neg hm

theorem stepGood_of_index (hs : b.step = .index) (f : Frame) : s.stepGood b f = s.judgeIndex b (respBlock f) := by
  rw [stepGood, hs]

theorem stepGood_of_emptyIndex (hs : b.step = .emptyIndex) (f : Frame) :
    s.stepGood b f = s.nextStep { b with step := .emptyHeader, header0 := some (s.emptyHeader b) } := by
  rw [stepGood, hs]

theorem stepGood_of_emptyHeader (hs : b.step = .emptyHeader) (f : Frame) : s.stepGood b f = s.attached b := by
  rw [stepGood, hs]

end

/-! ## The header chosen of the two that bring-up reads -/

section
variable {b : BringUp} {f : Frame} {h : Header}

theorem stepGood_resume_of_none (hs : b.step = .header1) (hm : b.mode = .resume)
    (hn : highest b.header0 (Header.decode (respBlock f).bytes) = none) :
    s.stepGood b f = s.resumeFail .noImage :=
  (stepGood_of_header1_resume hs hm f).trans
    (judgeHeader_of_none (b := { b with header1 := Header.decode (respBlock f).bytes }) hn)

theorem stepGood_resume_of_fault {reason : OutcomeReason} (hs : b.step = .header1) (hm : b.mode = .resume)
    (hh : highest b.header0 (Header.decode (respBlock f).bytes) = some h)
    (hf : headerFault s.granules s.tracker.units b.slots h = some reason) :
    s.stepGood b f = s.resumeFail reason :=
  (stepGood_of_header1_resume hs hm f).trans
    (judgeHeader_of_fault (b := { b with header1 := Header.decode (respBlock f).bytes }) hh hf)

theorem stepGood_resume_of_sound (hs : b.step = .header1) (hm : b.mode = .resume)
    (hh : highest b.header0 (Header.decode (respBlock f).bytes) = some h)
    (hf : headerFault s.granules s.tracker.units b.slots h = none) :
    s.stepGood b f =
      s.nextStep
        { b with
          step := .index, header0 := some h, header1 := none, oldEpoch := h.epoch, indexCode := h.indexCode } :=
  (stepGood_of_header1_resume hs hm f).trans
    (judgeHeader_of_sound (b := { b with header1 := Header.decode (respBlock f).bytes }) hh hf)

variable {retired : List Nat}

theorem stepGood_adopt_of_fits (hs : b.step = .header1) (hm : b.mode ≠ .resume)
    (hr : adoptedRetired (highest b.header0 (Header.decode (respBlock f).bytes)) b.slots = retired)
    (hfits : 2 * preservedCount s.region.file s.granules + retired.length ≤ b.slots) :
    s.stepGood b f =
      s.setEngine
        { s.engine with
          retired := retired
          bringUp := some
            { b with
              header1 := Header.decode (respBlock f).bytes
              oldEpoch := ((highest b.header0 (Header.decode (respBlock f).bytes)).map Header.epoch).getD 0
              formerRetired := s.engine.retired
              step := .emptyIndex } } := by
  rw [← adoptedEpoch_eq, stepGood_of_header1_adopt hs hm f]
  exact adopt_of_fits (b := { b with header1 := Header.decode (respBlock f).bytes }) hr hfits

theorem stepGood_adopt_of_not_fits (hs : b.step = .header1) (hm : b.mode ≠ .resume)
    (hr : adoptedRetired (highest b.header0 (Header.decode (respBlock f).bytes)) b.slots = retired)
    (hfits : ¬ 2 * preservedCount s.region.file s.granules + retired.length ≤ b.slots) :
    s.stepGood b f =
      if b.mode = .attach then s.finishAttach .storeUnavailable .failed .slots
      else (s.setEngine { s.engine with retired := [] }).finishStart .slots .active := by
  rw [stepGood_of_header1_adopt hs hm f,
    adopt_of_not_fits (b := { b with header1 := Header.decode (respBlock f).bytes }) hr hfits]
  rfl

end

end State

/-- Settles O54: which operation a response or an expiry ends and how, and each step of START and ATTACH_STORE. -/
theorem storeOperationsEnd : Obligations.StoreOperationsEnd := by
  refine ⟨fun s f => ?ends, fun s b reason => ⟨fun h => if_neg h, fun h => if_pos h⟩, fun s b f => ?steps,
    fun s reason st => ⟨?finish, ?fail⟩⟩
  case ends =>
    intro number done givenBack
    have hgiven : ∀ (o : StoreOp) (timer : Timer), s.store.op = some o →
        (s.endOp timer).disregardedEnd o = givenBack o timer := by
      intro o timer ho
      rw [State.endOp_of_op ho]
      obtain ⟨num, kind, block, payload, purpose, disregarded⟩ := o
      cases purpose with
      | copy g slot => exact State.disregardedEnd_of_copy rfl
      | fill | markClear | commitIndex | commitHeader | bringUp => exact State.disregardedEnd_of_other fun _ _ h => nomatch h
    refine ⟨fun n hh => ⟨fun hn => ?otherHeld, fun hn => ?held, fun hr => ?heldExpires⟩,
      fun hh ho => ⟨congrArg Host.Outcome.next (State.storeResponse_of_idle hh ho f),
        congrArg Host.Outcome.next (State.storeTimerExpiry_of_idle hh ho)⟩,
      fun hr => congrArg Host.Outcome.next (State.storeTimerExpiry_of_not_running hr),
      fun o hh ho hn => congrArg Host.Outcome.next ((State.storeResponse_of_op hh ho f).trans (if_neg hn)),
      fun o hh ho hd => ⟨fun hn => ?disregarded, fun hr => ?disregardedExpires⟩,
      fun o hh ho hd hn => ?answered, fun o hh ho hd hr => ?expired⟩
    case otherHeld => exact congrArg Host.Outcome.next ((State.storeResponse_of_held hh f).trans (if_neg hn))
    case held => exact congrArg Host.Outcome.next ((State.storeResponse_of_held hh f).trans (if_pos hn))
    case heldExpires => exact congrArg Host.Outcome.next (State.storeTimerExpiry_of_held hr hh)
    case disregarded =>
      refine congrArg Host.Outcome.next (((State.storeResponse_of_op hh ho f).trans (if_pos hn)).trans ?_)
      rw [State.answered_of_disregarded hd, State.readOut_of_not_read (.inl hd), hgiven o _ ho]
    case disregardedExpires =>
      refine congrArg Host.Outcome.next ((State.storeTimerExpiry_of_op hr hh ho).trans ?_)
      rw [State.expired_of_disregarded hd, hgiven o _ ho]
    case answered =>
      have hend : s.endOp Timer.stopped = done o Timer.stopped := State.endOp_of_op ho Timer.stopped
      intro good t
      have hgood : o.goodBy f = true ↔ good := o.goodBy_iff f
      have hanswered : ∀ u, s.answered o f = u → exec (.storeResponse f) s = .next u.settle := fun u hu =>
        congrArg Host.Outcome.next (((State.storeResponse_of_op hh ho f).trans (if_pos hn)).trans
          (congrArg State.settle hu))
      have hgoodEnd : (∀ g slot, o.purpose ≠ .copy g slot) → good → s.answered o f = t.opGood o f := fun hp hg => by
        rw [State.answered_of_good hd (hgood.mpr hg), State.readOut_of_other f hp, hend]
      have hbadEnd : ¬ good → s.answered o f = t.opBad o := fun hg => by
        have hbad : o.goodBy f = false := Bool.eq_false_iff.mpr (mt hgood.mp hg)
        rw [State.answered_of_bad hd hbad, State.readOut_of_not_read (.inr hbad), hend]
      refine ⟨fun g hg hp => ?fillGood, fun g hg hp => ?fillBad, fun hg hp => ?markCleared, fun hg hp => ?indexWritten,
        fun hg hp => ?committed, fun hg hp => ?metadata, fun step b hp hb => ⟨fun hg => ?stepGood, fun hg => ?stepBad⟩⟩
      case fillGood =>
        refine hanswered _ ((hgoodEnd (fun _ _ h => nomatch hp.symm.trans h) hg).trans ?_)
        rw [State.opGood, hp]
        rfl
      case fillBad =>
        have hbad := hbadEnd hg
        rw [State.opBad, hp] at hbad
        intro slot left
        replace hbad : s.answered o f = _ := hbad.trans (t.fillBad_eq g)
        refine ⟨fun hlen => hanswered _ (hbad.trans (if_pos hlen)), fun hlen => ?_⟩
        obtain ⟨hengine, hrec, hstore, hsent, hdram, hru, htc, hfaults, hregion, hside⟩ := t.fillLost_fields g
        refine ⟨t.fillLost g, hanswered _ (hbad.trans (if_neg (Nat.not_le.mpr hlen))), hengine, ?_,
          fun h hne => (hrec h).trans (if_neg hne), hstore, hsent, hdram, hru, htc, hfaults, hregion, hside⟩
        exact (hrec g).trans ((if_pos rfl).trans (State.fillBad_rec _))
      case markCleared =>
        refine hanswered _ ((hgoodEnd (fun _ _ h => nomatch hp.symm.trans h) hg).trans ?_)
        rw [State.opGood, hp]
        rfl
      case indexWritten =>
        refine hanswered _ ((hgoodEnd (fun _ _ h => nomatch hp.symm.trans h) hg).trans ?_)
        rw [State.opGood, hp]
        rfl
      case committed =>
        refine hanswered _ ((hgoodEnd (fun _ _ h => nomatch hp.symm.trans h) hg).trans ?_)
        rw [State.opGood, hp]
      case metadata => exact hanswered _ ((hbadEnd hg).trans (State.opBad_of_metadata hp))
      case stepGood =>
        exact hanswered _ ((hgoodEnd (fun _ _ h => nomatch hp.symm.trans h) hg).trans
          (State.opGood_of_bringUp (s := t) hp hb f))
      case stepBad => exact hanswered _ ((hbadEnd hg).trans (State.opBad_of_bringUp (s := t) hp hb))
    case expired =>
      have hend : s.endOp Timer.expired = done o Timer.expired := State.endOp_of_op ho Timer.expired
      refine ⟨fun hp => ?_, fun step b hp hb => ?_⟩ <;>
        refine congrArg Host.Outcome.next ((State.storeTimerExpiry_of_op hr hh ho).trans ?_) <;>
        rw [State.expired_of_regarded hd, hend]
      · rw [State.opExpired_of_other hp]
      · rw [State.opExpired_of_bringUp (s := done o Timer.expired) hp hb]
  case steps =>
    intro going count slots read chosen
    refine ⟨fun hs => ?identify, fun hs => ?header0, fun hs hm => ?adopt, fun hs hm => ⟨fun hn => ?noImage, fun h hh =>
        ⟨fun hk => ?stale, fun hk hu => ?mismatch, fun hk hu hl => ⟨fun hn => ?unsound, fun hy => ?sound⟩⟩⟩,
      fun hs => ⟨fun hn => ?invalid, fun h index hh hc hi => ⟨fun ho => ?badIndex, fun ho => ?resumed⟩⟩,
      fun hs => ?emptyIndex, fun hs => ⟨fun hm => ?started, fun hm => ?attached⟩⟩
    case identify =>
      rw [State.stepGood_of_identify hs, State.slotsOf_eq]
      rfl
    case header0 => exact State.stepGood_of_header0 hs f
    case emptyIndex => exact State.stepGood_of_emptyIndex hs f
    case adopt =>
      intro sound fits retired h1 h2
      have hadopted : adoptedRetired (highest b.header0 (Header.decode (respBlock f).bytes)) b.slots = retired :=
        State.adoptedRetired_eq h1 h2
      refine ⟨fun hfits => State.stepGood_adopt_of_fits hs hm hadopted hfits, fun hfits hmode =>
        (State.stepGood_adopt_of_not_fits hs hm hadopted hfits).trans (if_pos hmode), fun hfits hmode =>
        (State.stepGood_adopt_of_not_fits hs hm hadopted hfits).trans (if_neg (by rw [hmode]; decide))⟩
    case invalid => exact (State.stepGood_of_index hs f).trans (State.judgeIndex_of_invalid hn)
    case badIndex =>
      exact (State.stepGood_of_index hs f).trans
        ((State.judgeIndex_of_valid hh hc hi).trans (if_neg (by rw [ho]; decide)))
    case resumed =>
      exact (State.stepGood_of_index hs f).trans
        (((State.judgeIndex_of_valid hh hc hi).trans (if_pos ho)).trans (s.resumeDone_eq b h index))
    case started => exact (State.stepGood_of_emptyHeader hs f).trans ((s.attached_eq b).trans (if_neg hm))
    case attached => exact (State.stepGood_of_emptyHeader hs f).trans ((s.attached_eq b).trans (if_pos hm))
    case noImage => exact State.stepGood_resume_of_none hs hm hn
    case stale => exact State.stepGood_resume_of_fault hs hm hh (State.headerFault_of_stale hk)
    case mismatch => exact State.stepGood_resume_of_fault hs hm hh (State.headerFault_of_mismatch hk hu)
    case unsound =>
      exact State.stepGood_resume_of_fault hs hm hh ((State.headerFault_of_match hk hu hl).trans (if_neg hn))
    case sound =>
      exact State.stepGood_resume_of_sound hs hm hh ((State.headerFault_of_match hk hu hl).trans (if_pos hy))
  case finish =>
    obtain ⟨htracker, hstore, hdram, hru, hregion, hfaults, hside⟩ := s.others_finishStart reason st
    obtain ⟨hstate, hstart, hbringUp, hrecord, hfree, hretired⟩ := s.written_finishStart reason st
    exact ⟨s.finishStart_eq reason st, hstate, hstart, hbringUp, hrecord, hfree, hretired, htracker, hstore, hdram, hru,
      hregion, hfaults, hside⟩
  case fail =>
    obtain ⟨htracker, hregion, hstore, hdram, hru, hfaults, hside⟩ := s.others_resumeFail reason
    obtain ⟨hstate, hstart, hbringUp, hrecord, hepoch, hmark, hfree, hretired⟩ := s.written_resumeFail reason
    exact ⟨s.resumeFail_eq reason, hstate, hstart, hbringUp, hrecord, htracker, hregion, hepoch, hmark, hfree, hretired,
      hstore, hdram, hru, hfaults, hside⟩

end Sys2Proof.Machine
end

