-- ==== Sys2Proof/Proofs/RailEvents.lean ====
section
/-! What the rails do: a fall in UNCONFIGURED (R49, R137), a rail loss taken (R149), a rise (R153). -/

namespace Sys2Proof.Machine

namespace State

variable {s : State}

/-! ## The copy that a rail loss drops -/

theorem dropCopy_of_copy {o : StoreOp} {g slot : Nat} (ho : s.store.op = some o) (hp : o.purpose = .copy g slot)
    (hd : o.disregarded = false) : s.dropCopy = s.claimCopyLost g := by
  rw [dropCopy, ho]
  dsimp only
  rw [hp]
  exact if_neg (by rw [hd]; decide)

theorem dropCopy_of_not_inFlight (h : s.copyInFlight = false) : s.dropCopy = s := by
  unfold dropCopy
  split
  · rfl
  · rename_i o ho
    split
    · rename_i g slot hp
      refine if_pos (Bool.not_eq_false _ ▸ fun hd => ?_)
      exact absurd ((s.copyInFlight_iff).mpr ⟨o, g, slot, ho, hp, hd⟩) (by rw [h]; decide)
    · rfl

/-- A copy's granule is DIRTY once it is lost, with its notice, and no other record moves (R149 step 4, R6). -/
theorem claimCopyLost_of_copying {g : Nat} (h : (s.recOf g).st = .copying ∨ (s.recOf g).st = .recopy) :
    (s.claimCopyLost g).recOf g = { s.recOf g with st := .dirty, pending := none } ∧
      s.noticedDirty (s.claimCopyLost g) ∧ ∀ x, x ≠ g → (s.claimCopyLost g).recOf x = s.recOf x := by
  have hlost : (s.recOf g).copyLost = { s.recOf g with st := .dirty, pending := none } := by
    unfold GRec.copyLost
    rcases h with h | h <;> rw [h]
  have henters : (s.recOf g).entersDirty (s.recOf g).copyLost = true := by
    rw [hlost, GRec.entersDirty]
    rcases h with h | h <;> rw [h] <;> rfl
  refine ⟨?_, claim_noticed _ henters, fun x hx => ?_⟩
  · rw [claimCopyLost, claimKeep, recOf_claim, if_pos rfl, hlost]
  · rw [claimCopyLost, claimKeep, recOf_claim, if_neg hx]

/-- The loss of the copy in flight changes the records and the mark, and nothing else (R12, R149). -/
theorem dropCopy_cases (s : State) : s.dropCopy = s ∨ ∃ g, s.dropCopy = s.claimCopyLost g := by
  unfold dropCopy
  split
  · exact .inl rfl
  · split
    · rename_i g _ _
      split
      · exact .inl rfl
      · exact .inr ⟨g, rfl⟩
    · exact .inl rfl

theorem only_dropCopy (s : State) :
    s.dropCopy =
      (s.setTracker s.dropCopy.tracker).setEngine
        { s.engine with
          mark := s.dropCopy.engine.mark, markClearQueued := s.dropCopy.engine.markClearQueued } := by
  rcases s.dropCopy_cases with h | ⟨g, h⟩
  · rw [h]; rfl
  · rw [h, claimCopyLost, claimKeep]
    have hengine : (s.claim g GRec.copyLost fun _ => []).engine =
        { s.engine with
          mark := (s.claim g GRec.copyLost fun _ => []).engine.mark
          markClearQueued := (s.claim g GRec.copyLost fun _ => []).engine.markClearQueued } := by
      rw [engine_claim, List.append_nil, decide_eq_true rfl, Bool.and_true]
    rw [← hengine, tracker_claim]
    exact s.only_claim g _ _

/-! ## The operations that a rail loss ends -/

theorem endFetchByRail_of_none (h : s.tc.fetching = none) : s.endFetchByRail = s := if_neg (by rw [h]; decide)

theorem endFetchByRail_of_some (h : s.tc.fetching ≠ none) : s.endFetchByRail = s.refuseStart .wrongState :=
  if_pos (Option.isSome_iff_ne_none.mpr h)

/-- The sideband port with the deferred reply of a command (R184). -/
def sideReplied (s : State) (command : Nat) (code : ReplyCode) : SidebandPort :=
  { s.side with buffer := some { command := command, code := code, data := [] }, handling := false }

/-- The sideband port once a rail loss has answered what it ends: ATTACH_STORE, a START's fetch or a load (R149). -/
def sideAtLoss (s : State) : SidebandPort :=
  if s.attaching then s.sideReplied 3 .storeUnavailable
  else if s.tc.fetching.isSome then s.sideReplied 1 .wrongState
  else if s.loading then s.sideReplied 2 .wrongState
  else s.side

/-- The operation on the link once a rail loss has disregarded a step of bring-up. -/
def opAtLoss (s : State) : Option StoreOp :=
  if s.engine.bringUp.isSome then s.store.op.map fun o => { o with disregarded := true } else s.store.op

theorem setRegion_load_none (h : s.region.load = none) : s.setRegion { s.region with load := none } = s := by
  rw [← h]
  rfl

theorem endLoad_eq (s : State) :
    (if s.loading then (s.setRegion { s.region with load := none }).putDeferred 2 .wrongState else s) =
      (s.setRegion { s.region with load := none }).setSide
        (if s.loading then s.sideReplied 2 .wrongState else s.side) := by
  split
  · rfl
  · rename_i h
    rw [setRegion_load_none (Option.not_isSome_iff_eq_none.mp h)]
    rfl

theorem endFetchByRail_eq (s : State) :
    s.endFetchByRail =
      (s.setTc { s.tc with fetching := none }).setSide
        (if s.tc.fetching.isSome then s.sideReplied 1 .wrongState else s.side) := by
  unfold endFetchByRail
  split
  · rfl
  · rename_i h
    rw [← Option.not_isSome_iff_eq_none.mp h]
    rfl

theorem endAttach_eq (s : State) :
    (if s.attaching then s.putDeferred 3 .storeUnavailable else s) =
      s.setSide (if s.attaching then s.sideReplied 3 .storeUnavailable else s.side) := by
  split <;> rfl

theorem endStep_eq (s : State) :
    (if s.engine.bringUp.isSome then s.disregardOp else s) = s.setStore { s.store with op := s.opAtLoss } := by
  unfold opAtLoss
  split <;> rfl

/-- The replies of a rail loss follow one another in the deferred reply's one place: the last stands. -/
theorem sideAtLoss_eq (s : State) :
    (if s.attaching then
        (s.setSide (if s.tc.fetching.isSome then
          (s.setSide (if s.loading then s.sideReplied 2 .wrongState else s.side)).sideReplied 1 .wrongState
        else if s.loading then s.sideReplied 2 .wrongState else s.side)).sideReplied 3 .storeUnavailable
      else if s.tc.fetching.isSome then
        (s.setSide (if s.loading then s.sideReplied 2 .wrongState else s.side)).sideReplied 1 .wrongState
      else if s.loading then s.sideReplied 2 .wrongState else s.side) = s.sideAtLoss := by
  unfold sideAtLoss
  split <;> split <;> split <;> rfl

theorem endByRailLoss_eq (s : State) :
    s.endByRailLoss =
      ((((s.setRegion { s.region with load := none }).setSide s.sideAtLoss).setStore
        { s.store with op := s.opAtLoss }).setEngine { s.engine with bringUp := none }).setTc
        { s.tc with fetching := none, start := none } := by
  unfold endByRailLoss
  rw [endLoad_eq]
  dsimp only
  rw [endFetchByRail_eq, endAttach_eq, endStep_eq, ← sideAtLoss_eq]
  rfl

/-! ## A rail loss taken (R149) -/

/-- The part as it takes a rail loss, before the copy in flight is dropped (R149 steps 1 to 3). -/
def lossMarked (s : State) : State :=
  (s.setTc
    { s.tc with
      railLoss := true
      interrupted := s.interruptedBy
      origin := .railLoss
      waitingAbort := none
      parkPhase := .none
      sleepTimer := Timer.stopped }).discardTable.dropDram

/-- A copy or a fill disregarded, and any other operation as it was (R71). -/
def dataDisregarded (op : Option StoreOp) : Option StoreOp :=
  op.map fun o =>
    match o.purpose with
    | .copy _ _ | .fill _ => { o with disregarded := true }
    | _ => o

/-- The part once its copies, fills and timers have gone and the loss is reported (R149 steps 4 to 6). -/
def lossReported (s : State) : State :=
  (((s.lossMarked.setTracker s.lossMarked.dropCopy.tracker).setEngine
    { s.engine with
      mark := s.lossMarked.dropCopy.engine.mark
      markClearQueued := s.lossMarked.dropCopy.engine.markClearQueued
      fills := []
      zeroFill := none
      paceTimer := Timer.stopped
      fillTimer := Timer.stopped
      grant := false }).setStore { s.store with op := dataDisregarded s.store.op }).setFaults
    (s.faults.take .railLoss 0 (.number 0) s.tc.state)

theorem takeRailLoss_eq (s : State) : s.takeRailLoss = s.lossReported.endByRailLoss := by
  refine congrArg endByRailLoss (Eq.trans ?_ (?_ : (((s.lossMarked.dropCopy.disregardTransfers).setEngine
    { s.lossMarked.dropCopy.disregardTransfers.engine with
      paceTimer := Timer.stopped, fillTimer := Timer.stopped, grant := false }).report .railLoss 0 (.number 0)) = _))
  · rfl
  · rw [disregardTransfers_eq, withdraw_moves, disregardData_eq, only_dropCopy]
    rfl

/-- The part as a rail loss leaves it, but for the tests that follow. -/
theorem takeRailLoss_blocks (s : State) :
    s.takeRailLoss =
      ((((s.lossReported.setRegion { s.region with load := none }).setSide s.sideAtLoss).setStore
        { s.store with op := s.lossReported.opAtLoss }).setEngine { s.lossReported.engine with bringUp := none }).setTc
        { s.lossMarked.tc with fetching := none, start := none } :=
  s.takeRailLoss_eq.trans s.lossReported.endByRailLoss_eq

/-! ## The operation that a rail loss interrupts (R149 step 1) -/

theorem attaching_eq (s : State) : s.attaching = decide (s.engine.bringUp.map BringUp.mode = some .attach) := by
  unfold attaching
  cases s.engine.bringUp with
  | none => rfl
  | some b => simp

theorem interruptedBy_eq (s : State) :
    s.interruptedBy =
      if decide (s.engine.bringUp.map BringUp.mode = some .attach) = true then .attachStore
      else if s.tc.state = .starting ∨ s.tc.state = .saving ∨ s.tc.state = .committing ∨ s.tc.state = .parking ∨
          s.tc.state = .unparking ∨ s.tc.state = .reviving then s.tc.origin
      else .none := by
  unfold interruptedBy
  rw [attaching_eq]
  split
  · rfl
  · cases s.tc.state <;> rfl

/-! ## A level that changes -/

theorem setRail_eq (s : State) (r : Rail) (level : Bool) : s.setRail r level = s.setLines (s.setRail r level).lines := by
  cases r <;> rfl

theorem losesRail_iff (s : State) (r : Rail) :
    s.losesRail r = true ↔ s.tc.state ≠ .unconfigured ∧ s.tc.state ≠ .imagedOff ∧ ¬ (s.tc.state = .sleeping ∧ r = .main) := by
  unfold losesRail
  cases s.tc.state <;> cases r <;> simp

variable {r : Rail}

theorem railFall_of_deasserted (h : s.rail r = false) : s.railFall r = s := if_neg (by rw [h]; decide)

theorem railFall_of_asserted (h : s.rail r = true) :
    s.railFall r =
      if s.tc.railLoss then (s.setRail r false).drive
      else if s.tc.state = .unconfigured then (s.setRail r false).unconfiguredFall.settle
      else if s.losesRail r then (s.setRail r false).takeRailLoss.settle
      else s.setRail r false := by
  refine (if_pos h).trans ?_
  cases r <;> rfl

/-! ## What is disregarded on the link -/

theorem data_of_dataDisregarded {op : Option StoreOp} {o : StoreOp} (h : dataDisregarded op = some o) :
    match o.purpose with
    | .copy _ _ | .fill _ => o.disregarded = true
    | _ => op = some o := by
  cases op with
  | none => cases h
  | some x =>
    cases h
    obtain ⟨_, _, _, _, purpose, _⟩ := x
    cases purpose <;> rfl

/-- What a rail loss leaves on the link: a copy or a fill is disregarded; another operation is so or as it was. -/
theorem data_of_opAtLoss {o : StoreOp} (h : s.lossReported.opAtLoss = some o) :
    match o.purpose with
    | .copy _ _ | .fill _ => o.disregarded = true
    | _ => s.store.op = some o ∨ o.disregarded = true := by
  unfold opAtLoss at h
  split at h
  · obtain ⟨x, _, rfl⟩ := Option.map_eq_some_iff.mp h
    split
    · rfl
    · rfl
    · exact .inr rfl
  · have hdata := data_of_dataDisregarded h
    split at hdata
    · exact hdata
    · exact hdata
    · exact .inl hdata

/-! ## A fall in UNCONFIGURED (R49, R137) -/

/-- The part as the fall finds DRAM and the request table let go, and the fetch of a START ended. -/
def fallen (s : State) : State :=
  (((s.setRu { s.ru with table := [] }).setDram
    { s.dram with cond := .notUp, queue := [], checkPhase := .idle }).setTc { s.tc with fetching := none }).setSide
    (if s.tc.fetching.isSome then s.sideReplied 1 .wrongState else s.side)

theorem fallen_eq (s : State) : s.discardTable.dropDram.endFetchByRail = s.fallen :=
  s.discardTable.dropDram.endFetchByRail_eq

theorem unconfiguredFall_of_no_start (h : s.tc.start = none) : s.unconfiguredFall = s.fallen :=
  (if_neg (by rw [show s.discardTable.dropDram.tc.start = none from h]; decide)).trans s.fallen_eq

theorem unconfiguredFall_of_start (h : s.tc.start ≠ none) :
    s.unconfiguredFall = s.fallen.toUnconfigured.writeOutcome .start .failed .railLoss :=
  (if_pos (Option.isSome_iff_ne_none.mpr h)).trans
    (congrArg (fun t : State => t.toUnconfigured.writeOutcome .start .failed .railLoss) s.fallen_eq)

/-- What else the UNCONFIGURED path leaves as it was. -/
theorem kept_toUnconfigured (s : State) :
    s.toUnconfigured.side = s.side ∧ s.toUnconfigured.sent = s.sent ∧ s.toUnconfigured.tc.fetching = s.tc.fetching := by
  have hside : s.claimAbandon.side = s.side := by rw [only_claimAbandon]; rfl
  have hsent : s.claimAbandon.sent = s.sent := by rw [only_claimAbandon]; rfl
  have htc : s.claimAbandon.tc = s.tc := by rw [only_claimAbandon]; rfl
  unfold toUnconfigured enterState clearEngine endCommit claimClear disregardOp
  generalize s.claimAbandon = u at *
  simp only [setWake_side, setWake_sent, setWake_tc, setTc_side, setTc_sent, setTc_tc, setStore_side, setStore_sent,
    setStore_tc, setRegion_side, setRegion_sent, setRegion_tc, setEngine_side, setEngine_sent, setEngine_tc,
    setTracker_side, setTracker_sent, setTracker_tc, hside, hsent, htc, and_self]

/-- The UNCONFIGURED path does not look at DRAM, at the request table or at what a START fetches. -/
theorem unconfiguredFrom_fallen {t : State} (h : s.fallen.unconfiguredFrom t) : s.unconfiguredFrom t := h

/-! ## A rise (R153) -/

theorem bringUpIfReady_if (s : State) :
    s.bringUpIfReady =
      if s.lines.mainOk = true ∧ s.lines.memOk = true ∧ s.dram.cond = .notUp then
        s.setDram { s.dram with cond := .bringingUp } else s := by
  unfold bringUpIfReady railsOk
  simp only [Bool.and_eq_true, and_assoc]
  rfl

theorem railRise_eq (s : State) (r : Rail) :
    s.railRise r = if s.tc.state = .unconfigured then (s.setRail r true).bringUpIfReady.settle else s.setRail r true := by
  cases r <;> rfl

end State

/-- Settles O47: what RAIL_FALL and RAIL_RISE do, state by state. -/
theorem railEventsActByState : Obligations.RailEventsActByState := by
  intro s r low high dropped attaching interrupted
  have hlow : low = s.setRail r false := by cases r <;> rfl
  have hhigh : high = s.setRail r true := by cases r <;> rfl
  clear_value low high
  subst hlow hhigh
  have hfall : exec (.railFall r) s = .next (s.railFall r) := rfl
  have hrise : exec (.railRise r) s = .next (s.railRise r) := rfl
  refine ⟨fun h => ?still, fun h hl => ?taken, fun h hl hst => ?nothing, fun h hl hst => ?unconfigured,
    fun h hl h1 h2 h3 => ?loss, fun hst => ?rise, fun hst => ?level⟩
  case still => rw [hfall, State.railFall_of_deasserted h]
  case taken => rw [hfall, State.railFall_of_asserted h, if_pos hl]
  case nothing =>
    have hlose : ¬ s.losesRail r = true := fun hc => by
      obtain ⟨_, hi, hs⟩ := (s.losesRail_iff r).mp hc
      exact hst.elim hi hs
    have hun : s.tc.state ≠ .unconfigured := fun hc => by
      rcases hst with hst | ⟨hst, _⟩ <;> cases hst.symm.trans hc
    rw [hfall, State.railFall_of_asserted h, if_neg (by rw [hl]; decide), if_neg hun, if_neg hlose]
  case unconfigured =>
    have hrun : exec (.railFall r) s = .next (s.setRail r false).unconfiguredFall.settle := by
      rw [hfall, State.railFall_of_asserted h, if_neg (by rw [hl]; decide), if_pos hst]
    rw [hrun, State.setRail_eq]
    generalize (s.setRail r false).lines = l
    have hside : (s.setLines l).fallen.side =
        if s.tc.fetching.isSome then s.sideReplied 1 .wrongState else s.side := rfl
    have hnone : s.tc.fetching = none → (s.setLines l).fallen.side = s.side := fun hf =>
      hside.trans (if_neg (by rw [hf]; decide))
    have hsome : s.tc.fetching ≠ none → (s.setLines l).fallen.side = s.sideReplied 1 .wrongState := fun hf =>
      hside.trans (if_pos (Option.isSome_iff_ne_none.mpr hf))
    by_cases hs : s.tc.start = none
    · exact ⟨_, congrArg (fun t : State => Host.Outcome.next t.settle) (State.unconfiguredFall_of_no_start hs), rfl, rfl,
        rfl, rfl, hs, rfl, hl, rfl, hnone, hsome, fun _ => ⟨rfl, rfl, rfl, rfl⟩, fun hc => absurd hs hc⟩
    · obtain ⟨hdram, hlines, hru, hfaults, _, _⟩ := (s.setLines l).fallen.others_toUnconfigured
      obtain ⟨hkside, hsent, hfetching⟩ := (s.setLines l).fallen.kept_toUnconfigured
      have hpath := (s.setLines l).fallen.unconfiguredFrom_toUnconfigured
      refine ⟨_, congrArg (fun t : State => Host.Outcome.next t.settle) (State.unconfiguredFall_of_start hs),
        congrArg RequestUnit.table hru, hdram, hlines, hfaults, ?_, hfetching, ?_, hsent,
        fun hf => hkside.trans (hnone hf), fun hf => hkside.trans (hsome hf), fun hc => absurd hc hs, fun _ => ⟨?_, rfl⟩⟩
      · obtain ⟨_, _, _, _, _, _, _, _, _, _, _, _, _, _, _, _, _, _, _, _, _, _, hstart, _, _⟩ := hpath
        exact hstart
      · obtain ⟨_, _, _, _, _, _, _, _, _, _, _, _, _, _, _, _, _, _, _, _, _, hloss, _, _, _⟩ := hpath
        exact hloss
      · exact State.unconfiguredFrom_fallen (State.unconfiguredFrom_setTc hpath _ ⟨rfl, rfl, rfl, rfl, rfl⟩)
  case loss =>
    have hrun : exec (.railFall r) s = .next (s.setRail r false).takeRailLoss.settle := by
      rw [hfall, State.railFall_of_asserted h, if_neg (by rw [hl]; decide), if_neg h1,
        if_pos ((s.losesRail_iff r).mpr ⟨h1, h2, h3⟩)]
    rw [hrun, State.setRail_eq]
    generalize (s.setRail r false).lines = l
    have hinterrupted : (s.setLines l).interruptedBy = interrupted := (s.setLines l).interruptedBy_eq
    have hattaching : (s.setLines l).attaching = attaching := (s.setLines l).attaching_eq
    refine ⟨_, rfl, ?_⟩
    rw [State.takeRailLoss_blocks, ← hinterrupted, ← hattaching]
    refine ⟨rfl, rfl, rfl, rfl, rfl, rfl, rfl, rfl, rfl, rfl, rfl, rfl, rfl,
      fun o ho => State.data_of_opAtLoss (s := s.setLines l) ho, ?copy, ?kept, rfl, rfl, rfl, ?attach, ?fetch, ?load, ?quiet⟩
    case copy =>
      intro o g slot ho hp hd hg
      have hdrop : (s.setLines l).lossMarked.dropCopy = (s.setLines l).lossMarked.claimCopyLost g :=
        State.dropCopy_of_copy ho hp hd
      obtain ⟨hrec, hnoticed, hothers⟩ := State.claimCopyLost_of_copying (s := (s.setLines l).lossMarked) hg
      rw [← hdrop] at hrec hnoticed hothers
      exact ⟨hrec, hnoticed, hothers⟩
    case kept =>
      intro hc
      have hdrop : (s.setLines l).lossMarked.dropCopy = (s.setLines l).lossMarked := State.dropCopy_of_not_inFlight hc
      exact ⟨(congrArg State.tracker hdrop :), (congrArg (fun t : State => t.engine.mark) hdrop :),
        (congrArg (fun t : State => t.engine.markClearQueued) hdrop :)⟩
    case attach => exact fun ha => if_pos ha
    case fetch => exact fun ha hf => (if_neg (by rw [ha]; decide)).trans (if_pos (Option.isSome_iff_ne_none.mpr hf))
    case load =>
      exact fun ha hf hload => (if_neg (by rw [ha]; decide)).trans
        ((if_neg (Option.not_isSome_iff_eq_none.mpr hf)).trans (if_pos (Option.isSome_iff_ne_none.mpr hload)))
    case quiet =>
      exact fun ha hf hload => (if_neg (by rw [ha]; decide)).trans
        ((if_neg (Option.not_isSome_iff_eq_none.mpr hf)).trans (if_neg (Option.not_isSome_iff_eq_none.mpr hload)))
  case rise => rw [hrise, State.railRise_eq, if_pos hst, State.bringUpIfReady_if, State.setRail_eq]; rfl
  case level => rw [hrise, State.railRise_eq, if_neg hst]

end Sys2Proof.Machine
end

