-- ==== Sys2Proof/Proofs/TransferEnds.lean ====
section
/-! What the end of each engine transfer does for its owner: fills (R19, R122), the pattern (R141, R142), the compare
(R170 to R172) and the fetched tables (R37, R38, R40). -/

namespace Sys2Proof.Machine

/-! ## A fetched table (R192, R194) -/

theorem byteAt_slice (bs : List Byte) (off : Nat) {n i : Nat} (h : i < n) :
    byteAt ((bs.drop off).take n) i = byteAt bs (off + i) := by
  unfold byteAt
  rw [List.getD_eq_getElem?_getD, List.getD_eq_getElem?_getD, List.getElem?_take_of_lt h, List.getElem?_drop]

theorem numberAt_slice (bs : List Byte) (off : Nat) {n i k : Nat} (h : i + k ≤ n) :
    numberAt ((bs.drop off).take n) i k = numberAt bs (off + i) k := by
  unfold numberAt
  refine congrArg leNat (List.map_congr_left fun j hj => ?_)
  rw [byteAt_slice bs off (by have := List.mem_range.mp hj; omega), Nat.add_assoc]

theorem getElem_decodeDescriptors (bs : List Byte) (n : Fin 32) :
    (decodeDescriptors bs)[n] =
      { written := (byteAt bs (16 * n.val)).getLsbD 0
        valid := (byteAt bs (16 * n.val + 1)).getLsbD 0
        cls := byteAt bs (16 * n.val + 2)
        unit := byteAt bs (16 * n.val + 3)
        base := numberAt bs (16 * n.val + 4) 2
        extent := numberAt bs (16 * n.val + 6) 2 } := by
  have hget : (decodeDescriptors bs)[n] = Descriptor.decode ((bs.drop (16 * n.val)).take 16) := Vector.getElem_ofFn _
  rw [hget, Descriptor.decode, byteAt_slice _ _ (by decide), byteAt_slice _ _ (by decide), byteAt_slice _ _ (by decide),
    byteAt_slice _ _ (by decide), numberAt_slice _ _ (by decide), numberAt_slice _ _ (by decide), Nat.add_zero]

namespace State

variable {s : State}

/-! ## The end of a fill (R19, R122) -/

theorem entersDirty_fillGood (r : GRec) : r.entersDirty r.fillGood = false := by
  obtain ⟨st, committed, pending, cls⟩ := r
  cases st <;> cases cls <;> rfl

theorem claimFillGood_eq (s : State) (g : Nat) :
    s.claimFillGood g = s.setTracker (s.tracker.putRec g (s.recOf g).fillGood) :=
  if_neg (by
    rw [entersDirty_fillGood]
    decide)

theorem fillGood_eq (r : GRec) :
    r.fillGood = if r.st = .filling then { r with st := if r.cls.preserved then .clean else .void } else r := by
  obtain ⟨st, committed, pending, cls⟩ := r
  cases st <;> rfl

theorem recOf_claimFillGood (s : State) (g h : Nat) :
    (s.claimFillGood g).recOf h = if h = g then (s.recOf g).fillGood else s.recOf h := by
  rw [claimFillGood_eq]
  exact Tracker.recAt_putRec _ _ _ _

theorem claimFillGood_blocks (s : State) (g : Nat) :
    ((s.claimFillGood g).recOf g =
      if (s.recOf g).st = .filling then
        { s.recOf g with st := if (s.recOf g).cls.preserved then .clean else .void }
      else s.recOf g) ∧
      (∀ h, h ≠ g → (s.claimFillGood g).recOf h = s.recOf h) ∧ (s.claimFillGood g).dram = s.dram ∧
      (s.claimFillGood g).ru = s.ru ∧ (s.claimFillGood g).tc = s.tc ∧ (s.claimFillGood g).engine = s.engine := by
  refine ⟨?_, fun h hh => ?_, ?_⟩
  · rw [recOf_claimFillGood, if_pos rfl, fillGood_eq]
  · rw [recOf_claimFillGood, if_neg hh]
  · rw [claimFillGood_eq]
    exact ⟨rfl, rfl, rfl, rfl⟩

theorem transferEnd_zeroFill {g : Nat} (h : s.engine.zeroFill = some g) : s.transferEnd .zeroFill = s.zeroFillGood g := by
  rw [transferEnd, h]

/-! ## The compare (R170 to R172) -/

theorem passesOf_exitSleep (s : State) : s.passesOf .exitSleep = 0 := rfl

/-- The record of a wake from SLEEPING, with the reason the check gave (R172). -/
def wakeRecord (reason : OutcomeReason) : OutcomeRec :=
  { op := .exitSleep, result := .completed, reason := reason, passes := 0 }

/-- ACTIVE or RESTORING entered as UNPARKING ends, with the record written (R146, R172). -/
def wakeEnded (s : State) (reason : OutcomeReason) : State :=
  (s.enterState s.returnTarget).setTc { (s.enterState s.returnTarget).tc with outcome := wakeRecord reason }

theorem min_eq_ite (m n : Nat) : min m n = if m < n then m else n := by
  split <;> omega

/-- The part with the compare's count in the register of errors, the check over (R170). -/
def noted (s : State) : State :=
  s.setDram
    { s.dram with
      lastErrors := if s.dram.mismatches < 65535 then s.dram.mismatches else 65535, checkPhase := .idle }

theorem compareDone_of_pass
    (h : (if s.dram.mismatches < 65535 then s.dram.mismatches else 65535) ≤ s.side.params.checkThreshold) :
    s.compareDone = s.noted.wakeEnded .none := by
  have hmin := min_eq_ite s.dram.mismatches 65535
  unfold compareDone
  dsimp only
  rw [hmin]
  exact if_pos h

theorem engine_claimDramLoss (s : State) :
    s.claimDramLoss.engine =
      { s.engine with
        freeSlots := s.engine.freeSlots ++ s.tracker.table.flatMap fun x => x.2.dramLossFrees
        exhaustionNoted := s.engine.exhaustionNoted &&
          decide ((s.tracker.table.flatMap fun x => x.2.dramLossFrees) = []) } := by
  rw [claimDramLoss_eq, engine_appendSlots]
  rfl

/-- The DRAM-loss marking by its blocks: the records with the slots they release, and the transfers that it stops
(R21, R123). -/
theorem markDramLoss_eq (s : State) :
    s.markDramLoss =
      (((s.setTracker s.claimDramLoss.tracker).setEngine
        { s.claimDramLoss.engine with fills := [], zeroFill := none }).setDram
        { s.dram with
          queue := s.dram.queue.filter fun a =>
            match a.src with
            | .engine .copy | .engine (.fill _) | .engine .zeroFill => false
            | _ => true }).setStore
        { s.store with
          op := s.store.op.map fun o =>
            match o.purpose with
            | .copy _ _ | .fill _ => { o with disregarded := true }
            | _ => o } := by
  have hengine := s.disregardTransfers.engine_claimDramLoss
  have htracker : s.disregardTransfers.claimDramLoss.tracker = s.claimDramLoss.tracker := by
    rw [tracker_claimDramLoss, tracker_claimDramLoss, tracker_disregardTransfers]
  rw [tracker_disregardTransfers, engine_disregardTransfers] at hengine
  have honly : s.disregardTransfers.claimDramLoss =
      (s.disregardTransfers.setTracker s.claimDramLoss.tracker).setEngine
        { s.claimDramLoss.engine with fills := [], zeroFill := none } := by
    rw [only_claimDramLoss, htracker, hengine, engine_disregardTransfers, engine_claimDramLoss]
  rw [markDramLoss, honly, disregardTransfers_eq, withdraw_moves, disregardData_eq]
  rfl

theorem compareDone_of_fail
    (h : s.side.params.checkThreshold < (if s.dram.mismatches < 65535 then s.dram.mismatches else 65535)) :
    s.compareDone =
      (s.noted.markDramLoss.setFaults
        (s.faults.take .retentionLost 0
          (.number (s.noted.markDramLoss.tracker.poisonTotal - s.tracker.poisonTotal)) s.tc.state)).wakeEnded
        .retention := by
  have hmin := min_eq_ite s.dram.mismatches 65535
  have hfails : s.compareDone = s.noted.checkFails := by
    unfold compareDone
    dsimp only
    rw [hmin]
    exact if_neg (Nat.not_le.mpr h)
  have hreport : s.noted.markDramLoss.report .retentionLost 0
      (.number (s.noted.markDramLoss.tracker.poisonTotal - s.tracker.poisonTotal)) =
      s.noted.markDramLoss.setFaults (s.faults.take .retentionLost 0
        (.number (s.noted.markDramLoss.tracker.poisonTotal - s.tracker.poisonTotal)) s.tc.state) := by
    rw [markDramLoss_eq]
    rfl
  exact hfails.trans (congrArg (fun t : State => t.wakeEnded .retention) hreport)

/-- The marking of a failed check releases and stops what one of the part before the check would (R172). -/
theorem markDramLoss_noted (s : State) :
    s.noted.markDramLoss =
      (((s.noted.setTracker s.claimDramLoss.tracker).setEngine
        { s.claimDramLoss.engine with fills := [], zeroFill := none }).setDram
        { s.noted.dram with
          queue := s.dram.queue.filter fun a =>
            match a.src with
            | .engine .copy | .engine (.fill _) | .engine .zeroFill => false
            | _ => true }).setStore
        { s.store with
          op := s.store.op.map fun o =>
            match o.purpose with
            | .copy _ _ | .fill _ => { o with disregarded := true }
            | _ => o } := by
  have hengine : s.noted.claimDramLoss.engine = s.claimDramLoss.engine :=
    s.noted.engine_claimDramLoss.trans s.engine_claimDramLoss.symm
  have htracker : s.noted.claimDramLoss.tracker = s.claimDramLoss.tracker :=
    s.noted.tracker_claimDramLoss.trans s.tracker_claimDramLoss.symm
  rw [markDramLoss_eq, hengine, htracker]
  rfl

theorem markDramLoss_noted_blocks (s : State) :
    s.noted.markDramLoss.engine = { s.claimDramLoss.engine with fills := [], zeroFill := none } ∧
      s.noted.markDramLoss.dram =
        { s.noted.dram with
          queue := s.dram.queue.filter fun a =>
            match a.src with
            | .engine .copy | .engine (.fill _) | .engine .zeroFill => false
            | _ => true } ∧
      s.noted.markDramLoss.store =
        { s.store with
          op := s.store.op.map fun o =>
            match o.purpose with
            | .copy _ _ | .fill _ => { o with disregarded := true }
            | _ => o } ∧
      s.noted.markDramLoss.tc = s.tc ∧ s.noted.markDramLoss.wake = s.wake ∧ s.noted.markDramLoss.ru = s.ru ∧
      s.noted.markDramLoss.region = s.region ∧ s.noted.markDramLoss.side = s.side ∧
      s.noted.markDramLoss.tracker = s.claimDramLoss.tracker := by
  rw [markDramLoss_noted]
  exact ⟨rfl, rfl, rfl, rfl, rfl, rfl, rfl, rfl, rfl⟩

/-- What the marking keeps of the Image Engine: all but the slots that it releases (R21, R94). -/
theorem kept_claimDramLoss (s : State) :
    s.claimDramLoss.engine.retired = s.engine.retired ∧ s.claimDramLoss.engine.fillList = s.engine.fillList ∧
      s.claimDramLoss.engine.fillCursor = s.engine.fillCursor ∧ s.claimDramLoss.engine.mark = s.engine.mark ∧
      s.claimDramLoss.engine.epoch = s.engine.epoch := by
  rw [engine_claimDramLoss]
  exact ⟨rfl, rfl, rfl, rfl, rfl⟩

/-- What the end of UNPARKING keeps, and what it writes (R146, R172). -/
theorem wakeEnded_blocks (s : State) (reason : OutcomeReason) :
    (s.wakeEnded reason).tc.state = s.returnTarget ∧ (s.wakeEnded reason).tc.outcome = wakeRecord reason ∧
      (s.wakeEnded reason).dram = s.dram ∧ (s.wakeEnded reason).tracker = s.tracker ∧
      (s.wakeEnded reason).faults = s.faults := by
  obtain ⟨htracker, _, hdram, _, _, hfaults, _⟩ := s.others_enterState s.returnTarget
  obtain ⟨hstate, _⟩ := s.tc_enterState s.returnTarget
  exact ⟨hstate, rfl, hdram, htracker, hfaults⟩

/-- What the end of UNPARKING keeps of the Image Engine. -/
theorem engine_wakeEnded (s : State) (reason : OutcomeReason) :
    (s.wakeEnded reason).engine.freeSlots = s.engine.freeSlots ∧
      (s.wakeEnded reason).engine.retired = s.engine.retired ∧
      (s.wakeEnded reason).engine.fillList = s.engine.fillList ∧
      (s.wakeEnded reason).engine.fillCursor = s.engine.fillCursor ∧
      (s.wakeEnded reason).engine.mark = s.engine.mark ∧ (s.wakeEnded reason).engine.epoch = s.engine.epoch ∧
      (s.wakeEnded reason).engine.fills = s.engine.fills ∧ (s.wakeEnded reason).engine.zeroFill = s.engine.zeroFill := by
  unfold wakeEnded enterState
  exact ⟨rfl, rfl, rfl, rfl, rfl, rfl, rfl, rfl⟩

/-! ## A fetched region table (R37, R38, R40) -/

theorem region_claimAbandon (s : State) : s.claimAbandon.region = s.region := by
  rw [only_claimAbandon]
  rfl

theorem fetchDone_of_load {l : Load} (h : s.region.load = some l) : s.fetchDone = s.loadFetched l := by
  rw [fetchDone, h]

/-- The end of a load, with its reply (R37, R38). -/
theorem endLoad_blocks (s : State) (code : ReplyCode) :
    s.endLoad code =
      (let released := (s.setRegion { s.region with load := none }).releaseAll .regionLoad
      released.setSide
        { released.side with buffer := some { command := 2, code := code, data := [] }, handling := false }) := rfl

theorem loadFetched_of_passes {l : Load} (h : s.tablePasses (fileOf l.addr l.fetched) = true) :
    s.loadFetched l =
      ((s.claimAbandon.setRegion { s.region with file := fileOf l.addr l.fetched }).claimReload).endLoad .done := by
  rw [loadFetched, if_pos h, applyLoad, region_claimAbandon]

theorem loadFetched_of_fails {l : Load} (h : s.tablePasses (fileOf l.addr l.fetched) = false) :
    s.loadFetched l = s.endLoad .badArgument := by
  rw [loadFetched, if_neg (by rw [h]; decide)]

theorem startFetched_of_left {r : StartReq} (h : s.tc.state ≠ .unconfigured) :
    s.startFetched r = s.refuseStart .wrongState := if_pos h

theorem startFetched_of_sound {r : StartReq} (h : s.tc.state = .unconfigured)
    (hok : descriptorsOk (1024 * r.units) (fileOf r.tableAddr r.fetched).descs = true) :
    s.startFetched r =
      ((s.acceptStart r).setRegion { s.region with file := fileOf r.tableAddr r.fetched }).claimReload :=
  (if_neg (not_not_intro h)).trans (if_pos hok)

theorem startFetched_of_unsound {r : StartReq} (h : s.tc.state = .unconfigured)
    (hok : descriptorsOk (1024 * r.units) (fileOf r.tableAddr r.fetched).descs = false) :
    s.startFetched r = s.refuseStart .badArgument :=
  (if_neg (not_not_intro h)).trans (if_neg (by
    rw [show Config.unitGranules = 1024 from rfl, hok]
    decide))

theorem fetchDone_of_start {r : StartReq} (hl : s.region.load = none) (hf : s.tc.fetching = some r) :
    s.fetchDone = s.startFetched r := by
  rw [fetchDone, hl, hf]

end State

/-- Settles O59: what the end of each transfer does. -/
theorem endsOfTransfersActOnTheirOwners : Obligations.EndsOfTransfersActOnTheirOwners := by
  intro s filled
  refine ⟨fun g => ?fill, fun g hz => ?zeroFill, fun hw => ?pattern, fun k hw => ?returned, ?compare, fun l hl => ?load,
    fun addr bs => ?table, fun r hl hf => ?start⟩
  case fill =>
    obtain ⟨hrec, hothers, hdram, hru, htc, hengine⟩ := (s.dropFill g).claimFillGood_blocks g
    exact ⟨_, rfl, ⟨hrec, hothers, hdram, hru, htc⟩, hengine⟩
  case zeroFill =>
    obtain ⟨hrec, hothers, hdram, hru, htc, hengine⟩ :=
      (s.setEngine { s.engine with zeroFill := none }).claimFillGood_blocks g
    exact ⟨_, State.transferEnd_zeroFill hz, ⟨hrec, hothers, hdram, hru, htc⟩, hengine⟩
  case pattern =>
    show s.patternDone = _
    rw [State.patternDone, hw]
    rfl
  case returned =>
    show s.patternDone = _
    rw [State.patternDone, hw]
  case compare =>
    intro count noted ended
    refine ⟨fun h => ?pass, fun h => ?fail⟩
    case pass =>
      have hdone : s.transferEnd .compare = s.noted.wakeEnded .none := State.compareDone_of_pass h
      obtain ⟨hstate, hrecord, hdram, htracker, hfaults⟩ := s.noted.wakeEnded_blocks .none
      rw [hdone]
      exact ⟨rfl, hstate, hdram, htracker, hfaults, hrecord⟩
    case fail =>
      intro lost
      have hdone : s.transferEnd .compare = _ := State.compareDone_of_fail h
      obtain ⟨hlengine, hldram, hlstore, hltc, hlwake, hlru, hlregion, hlside, hltracker⟩ := s.markDramLoss_noted_blocks
      obtain ⟨hkretired, hklist, hkcursor, hkmark, hkepoch⟩ := s.kept_claimDramLoss
      rw [hdone]
      let told := lost.setFaults (s.faults.take .retentionLost 0
        (.number (lost.tracker.poisonTotal - s.tracker.poisonTotal)) s.tc.state)
      obtain ⟨hstate, hrecord, hdram, htracker, hfaults⟩ := told.wakeEnded_blocks .retention
      obtain ⟨hfree, hretired, hlist, hcursor, hmark, hepoch, hfills, hzero⟩ := told.engine_wakeEnded .retention
      have hof : ∀ {α : Type} (field : ImageEngine → α), field told.engine =
          field { s.claimDramLoss.engine with fills := [], zeroFill := none } := fun field => congrArg field hlengine
      exact ⟨rfl, hlengine, hldram, hlstore, hltc, hlwake, hlru, hlregion, hlside, hstate,
        (congrArg DramPort.lastErrors hdram).trans (congrArg DramPort.lastErrors hldram), htracker, hltracker,
        hfree.trans (hof ImageEngine.freeSlots), (hretired.trans (hof ImageEngine.retired)).trans hkretired,
        (hlist.trans (hof ImageEngine.fillList)).trans hklist, (hcursor.trans (hof ImageEngine.fillCursor)).trans hkcursor,
        (hmark.trans (hof ImageEngine.mark)).trans hkmark, (hepoch.trans (hof ImageEngine.epoch)).trans hkepoch,
        hfills.trans (hof ImageEngine.fills), hzero.trans (hof ImageEngine.zeroFill), hfaults, hrecord⟩
  case load =>
    intro file ended
    exact ⟨fun h => (State.fetchDone_of_load hl).trans (State.loadFetched_of_passes h),
      fun h => (State.fetchDone_of_load hl).trans (State.loadFetched_of_fails h)⟩
  case table => exact ⟨rfl, rfl, getElem_decodeDescriptors bs⟩
  case start =>
    intro file refused
    have hdone : s.transferEnd .fetch = s.startFetched r := State.fetchDone_of_start hl hf
    exact ⟨fun hs => hdone.trans (State.startFetched_of_left hs), fun hs hok =>
        ⟨s.acceptStart r, hdone.trans (State.startFetched_of_sound hs hok), rfl, rfl, rfl, rfl, rfl, rfl⟩,
      fun hs hok => hdone.trans (State.startFetched_of_unsound hs hok)⟩

end Sys2Proof.Machine
end

