-- ==== Sys2Proof/Proofs/CheckPattern.lean ====
section
/-! The check pattern as the sequence of R167, and the count of the bits in which two runs of bytes differ (R170). -/

namespace Sys2Proof.Machine

/-! ## The generator (R167) -/

theorem getLsbD_lfsrStep (g : BitVec 23) {i : Nat} (h : i < 22) : (lfsrStep g).getLsbD i = g.getLsbD (i + 1) := by
  unfold lfsrStep
  rw [BitVec.getLsbD_or, BitVec.getLsbD_ushiftRight, BitVec.getLsbD_shiftLeft, decide_eq_true h, Nat.add_comm 1 i]
  simp

theorem getLsbD_lfsrStep_last (g : BitVec 23) : (lfsrStep g).getLsbD 22 = (g.getLsbD 18 ^^ g.getLsbD 0) := by
  unfold lfsrStep
  rw [BitVec.getLsbD_or, BitVec.getLsbD_ushiftRight, BitVec.getLsbD_shiftLeft, BitVec.getLsbD_of_ge g (22 + 1) (by decide)]
  simp

/-- The generator after `k` steps. -/
def lfsrAfter (k : Nat) (g : BitVec 23) : BitVec 23 := lfsrStep^[k] g

theorem lfsrAfter_add (m n : Nat) (g : BitVec 23) : lfsrAfter (m + n) g = lfsrAfter n (lfsrAfter m g) := by
  unfold lfsrAfter
  rw [Nat.add_comm, Function.iterate_add_apply]

theorem lfsrAfter_succ (k : Nat) (g : BitVec 23) : lfsrAfter (k + 1) g = lfsrStep (lfsrAfter k g) :=
  Function.iterate_succ_apply' _ _ _

/-- s(k): the bit that the generator gives after `k` steps (R167). -/
def lfsrBit (g : BitVec 23) (k : Nat) : Bool := (lfsrAfter k g).getLsbD 0

/-- The generator holds the next 23 bits of the sequence. -/
theorem getLsbD_lfsrAfter (g : BitVec 23) : ∀ (i k : Nat), i < 23 → (lfsrAfter k g).getLsbD i = lfsrBit g (k + i)
  | 0, _, _ => rfl
  | i + 1, k, h => by
    rw [← getLsbD_lfsrStep _ (by omega), ← lfsrAfter_succ, getLsbD_lfsrAfter g i (k + 1) (by omega)]
    exact congrArg (lfsrBit g) (by omega)

theorem lfsrBit_of_seed (g : BitVec 23) {k : Nat} (h : k < 23) : lfsrBit g k = g.getLsbD k := by
  rw [← Nat.zero_add k, ← getLsbD_lfsrAfter g k 0 h, Nat.zero_add]
  rfl

theorem lfsrBit_recurrence (g : BitVec 23) {k : Nat} (h : 23 ≤ k) :
    lfsrBit g k = (lfsrBit g (k - 5) ^^ lfsrBit g (k - 23)) := by
  obtain ⟨j, rfl⟩ := Nat.exists_eq_add_of_le h
  have hlast : lfsrBit g (j + 1 + 22) = (lfsrAfter (j + 1) g).getLsbD 22 := (getLsbD_lfsrAfter g 22 (j + 1) (by decide)).symm
  rw [show 23 + j = j + 1 + 22 by omega, hlast, lfsrAfter_succ, getLsbD_lfsrStep_last,
    getLsbD_lfsrAfter g 18 j (by decide), getLsbD_lfsrAfter g 0 j (by decide)]
  rfl

/-! ## The pattern's bytes -/

theorem lfsrByte_eq (g : BitVec 23) : lfsrByte g = lfsrAfter 8 g := rfl

theorem patternAfter_eq : ∀ (n : Nat) (g : BitVec 23), patternAfter n g = lfsrAfter (8 * n) g
  | 0, _ => rfl
  | n + 1, g => by
    rw [patternAfter, patternAfter_eq n, lfsrByte_eq, ← lfsrAfter_add]
    exact congrArg (lfsrAfter · g) (by omega)

theorem patternAfter_add (m n : Nat) (g : BitVec 23) : patternAfter (m + n) g = patternAfter n (patternAfter m g) := by
  rw [patternAfter_eq, patternAfter_eq, patternAfter_eq, ← lfsrAfter_add, Nat.mul_add]

theorem length_patternBytes : ∀ (n : Nat) (g : BitVec 23), (patternBytes n g).length = n
  | 0, _ => rfl
  | n + 1, g => congrArg (· + 1) (length_patternBytes n (lfsrByte g))

theorem patternBytes_add : ∀ (n m : Nat) (g : BitVec 23),
    patternBytes (n + m) g = patternBytes n g ++ patternBytes m (patternAfter n g)
  | 0, m, g => by
    rw [Nat.zero_add]
    rfl
  | n + 1, m, g => by
    rw [Nat.add_right_comm]
    exact congrArg (g.setWidth 8 :: ·) (patternBytes_add n m (lfsrByte g))

/-- Byte `i` of the pattern. -/
def patternByte (g : BitVec 23) (i : Nat) : Byte := (patternAfter i g).setWidth 8

theorem getD_patternBytes : ∀ {n i : Nat} (g : BitVec 23), i < n → (patternBytes n g).getD i 0 = patternByte g i
  | _ + 1, 0, _, _ => rfl
  | _ + 1, _ + 1, g, h => getD_patternBytes (lfsrByte g) (Nat.lt_of_succ_lt_succ h)

theorem patternByte_add (g : BitVec 23) (m i : Nat) : patternByte g (m + i) = patternByte (patternAfter m g) i := by
  unfold patternByte
  rw [patternAfter_add]

/-- Bit `k` mod 8 of byte `k` / 8 of the pattern is s(k) (R167). -/
theorem getLsbD_patternByte (g : BitVec 23) (k : Nat) : (patternByte g (k / 8)).getLsbD (k % 8) = lfsrBit g k := by
  have hk : k % 8 < 8 := Nat.mod_lt k (by decide)
  unfold patternByte
  rw [BitVec.getLsbD_setWidth, decide_eq_true hk, Bool.true_and, patternAfter_eq,
    getLsbD_lfsrAfter g (k % 8) _ (by omega), Nat.div_add_mod]

/-! ## Bits that differ (R170) -/

theorem bitCount_eq (b : Byte) : bitCount b = (List.range 8).countP fun i => b.getLsbD i :=
  List.countP_eq_length_filter.symm

/-- The bit of a run of bytes at a bit offset. -/
def runBit (bs : List Byte) (k : Nat) : Bool := (bs.getD (k / 8) 0).getLsbD (k % 8)

theorem runBit_cons_low (b : Byte) (bs : List Byte) {k : Nat} (h : k < 8) : runBit (b :: bs) k = b.getLsbD k := by
  unfold runBit
  rw [Nat.div_eq_of_lt h, Nat.mod_eq_of_lt h]
  rfl

theorem runBit_cons_high (b : Byte) (bs : List Byte) (k : Nat) : runBit (b :: bs) (8 + k) = runBit bs k := by
  unfold runBit
  rw [Nat.add_mod_left, Nat.add_comm 8 k, Nat.add_div_right _ (by decide)]
  rfl

theorem mismatchesOf_eq : ∀ as bs : List Byte, as.length = bs.length →
    mismatchesOf as bs = (List.range (8 * as.length)).countP fun k => runBit as k ^^ runBit bs k
  | [], [], _ => rfl
  | a :: as, b :: bs, h => by
    have htail := mismatchesOf_eq as bs (Nat.succ.inj h)
    have hlow : bitCount (a ^^^ b) = (List.range 8).countP fun k => runBit (a :: as) k ^^ runBit (b :: bs) k := by
      rw [bitCount_eq]
      refine List.countP_congr fun k hk => ?_
      have hk := List.mem_range.mp hk
      rw [runBit_cons_low a as hk, runBit_cons_low b bs hk, BitVec.getLsbD_xor]
    rw [List.length_cons, Nat.mul_succ, Nat.add_comm, List.range_add, List.countP_append, List.countP_map, ← hlow]
    refine (congrArg (bitCount (a ^^^ b) + ·) htail).trans (congrArg (bitCount (a ^^^ b) + ·) ?_)
    refine List.countP_congr fun k _ => ?_
    rw [Function.comp_apply, runBit_cons_high, runBit_cons_high]

theorem mismatchesOf_append {as bs : List Byte} (as' bs' : List Byte) (h : as.length = bs.length) :
    mismatchesOf (as ++ as') (bs ++ bs') = mismatchesOf as bs + mismatchesOf as' bs' := by
  unfold mismatchesOf
  rw [List.zipWith_append h, List.sum_append]

end Sys2Proof.Machine
end

