-- ==== Sys2Proof/Proofs/TransferLines.lean ====
section
/-! The lines of an engine transfer that has the DRAM Port to itself, one after another (R64, R119, R120, R168, R170). -/

namespace Sys2Proof.Machine

namespace State

variable {s : State} {o : Owner}

/-! ## The lines of a transfer, one after another -/

/-- The lines of a transfer performed, `n` of them from `line`. -/
def performLines (o : Owner) : Nat → Nat → State → State
  | 0, _, s => s
  | n + 1, line, s => performLines o n (line + 1) (s.performLine o line)

/-- The DRAM Port with nothing waiting and no upstream run. -/
def alone (s : State) : State := s.setDram { s.dram with queue := [], runCount := 0 }

/-- A line leaves the queue, the upstream run and the condition of DRAM as they were. -/
theorem performLine_keeps (s : State) (o : Owner) (line : Nat) :
    (s.performLine o line).dram.queue = s.dram.queue ∧ (s.performLine o line).dram.runCount = s.dram.runCount ∧
      (s.performLine o line).dram.cond = s.dram.cond ∧ (s.performLine o line).dram.inject = s.dram.inject ∧
      (s.performLine o line).dram.installed = s.dram.installed ∧
      (s.performLine o line).dram.invertFirst = s.dram.invertFirst ∧
      (s.performLine o line).tracker = s.tracker ∧ (s.performLine o line).ru = s.ru ∧
      (s.performLine o line).faults = s.faults ∧ (s.performLine o line).side = s.side ∧
      (s.performLine o line).sent = s.sent ∧ (s.performLine o line).wake = s.wake ∧
      (s.performLine o line).lines = s.lines := by
  unfold performLine
  cases o with
  | fetch =>
    cases h : s.region.load <;> exact ⟨rfl, rfl, rfl, rfl, rfl, rfl, rfl, rfl, rfl, rfl, rfl, rfl, rfl⟩
  | _ => exact ⟨rfl, rfl, rfl, rfl, rfl, rfl, rfl, rfl, rfl, rfl, rfl, rfl, rfl⟩

theorem performLine_owner (h : o ≠ .fetch) (s : State) (line : Nat) :
    (s.performLine o line).tc = s.tc ∧ (s.performLine o line).region = s.region := by
  unfold performLine
  cases o with
  | fetch => exact absurd rfl h
  | _ => exact ⟨rfl, rfl⟩

/-- A line does not look at the upstream run. -/
theorem performLine_runCount (s : State) (o : Owner) (line n : Nat) :
    (s.performLine o line).setDram { (s.performLine o line).dram with runCount := n } =
      (s.setDram { s.dram with runCount := n }).performLine o line := by
  unfold performLine
  cases o with
  | fetch =>
    dsimp only
    rw [setDram_region]
    cases s.region.load <;> rfl
  | _ => rfl

/-- An engine access that waits alone: its line, the upstream run ended (R64). -/
theorem serve_alone {line : Nat} (hq : s.dram.queue = [{ src := .engine o, line := line }]) :
    s.serve { src := .engine o, line := line } = (s.alone.performLine o line).afterLine o line := by
  have herase : s.dram.queue.erase { src := .engine o, line := line } = [] := by
    rw [hq, List.erase_cons_head]
  have hperform : s.perform { src := .engine o, line := line } =
      (s.setDram { s.dram with queue := [] }).performLine o line := by rw [← herase]; rfl
  rw [serve_engine rfl, performedBy, hperform]
  exact congrArg (fun t : State => t.afterLine o line) (performLine_runCount _ o line 0)

/-- The arbiter serves the one access that waits (R64). -/
theorem arbiterChoice_alone {line : Nat} (hc : s.dram.cond = .up)
    (hq : s.dram.queue = [{ src := .engine o, line := line }]) :
    s.arbiterChoice = some { src := .engine o, line := line } := by
  rw [arbiterChoice, if_pos hc, hq, pickAccess]
  simp [Access.upstream]

theorem serveUntil_of_next {a : Access} (h : s.arbiterChoice = some a) (stop : Access → Bool) (fuel : Nat) :
    serveUntil stop (fuel + 1) s = if stop a = true then s.serve a else serveUntil stop fuel (s.serve a) := by
  rw [serveUntil, h]

/-- What a transfer presents next is all that waits. -/
theorem alone_present (hq : s.dram.queue = []) (hr : s.dram.runCount = 0) (o : Owner) (line : Nat) :
    (s.present o line).alone = s := by
  have hdram : { s.dram with queue := [], runCount := 0 } = s.dram := by rw [← hq, ← hr]
  exact congrArg s.setDram hdram

/-! ## A transfer from the line it has presented -/

theorem linesLeft_eq (hw : ∀ n, o ≠ .writeBack n) (line : Nat) :
    linesLeft o line = if o = .fetch then 8 - line % 8 else 4096 - line % 4096 := by
  cases o with
  | writeBack n => exact absurd rfl (hw n)
  | _ => rfl

theorem linesLeft_succ (hw : ∀ n, o ≠ .writeBack n) {line : Nat} (h : linesLeft o line ≠ 1) :
    linesLeft o line = linesLeft o (line + 1) + 1 := by
  rw [linesLeft_eq hw] at h ⊢
  rw [linesLeft_eq hw]
  split at h
  · rw [if_pos ‹_›, if_pos ‹_›]; omega
  · rw [if_neg ‹_›, if_neg ‹_›]; omega

theorem linesLeft_pos (o : Owner) (line : Nat) : 0 < linesLeft o line := by
  unfold linesLeft
  split
  · decide
  · omega
  · rw [show Config.granuleLines = 4096 from rfl]; omega

/-- A transfer that has the port to itself performs its lines, and then ends (R64). -/
theorem serveUntil_alone (hw : ∀ n, o ≠ .writeBack n) : ∀ (fuel line : Nat) (s : State), s.dram.cond = .up →
    s.dram.queue = [{ src := .engine o, line := line }] → (o = .pattern → s.tc.waitingAbort = none) →
    linesLeft o line ≤ fuel →
    serveUntil (Access.lastOf o) fuel s = (performLines o (linesLeft o line) line s.alone).transferOver o
  | 0, line, s, _, _, _, hf => absurd hf (Nat.not_le.mpr (linesLeft_pos o line))
  | fuel + 1, line, s, hc, hq, ha, hf => by
    have hchoice := arbiterChoice_alone hc hq
    rw [serveUntil_of_next hchoice, serve_alone hq]
    by_cases hl : linesLeft o line = 1
    · have hstop : Access.lastOf o { src := .engine o, line := line } = true := by simp [Access.lastOf, hl]
      rw [if_pos hstop, afterLine_last hl, hl]
      rfl
    · have hstop : ¬ Access.lastOf o { src := .engine o, line := line } = true := by simp [Access.lastOf, hl]
      obtain ⟨hqueue, hrun, hcond, _⟩ := s.alone.performLine_keeps o line
      have hpattern : o = .pattern → (s.alone.performLine o line).tc.waitingAbort = none := by
        rintro rfl
        exact ha rfl
      have hgo : (s.alone.performLine o line).patternStopped o = false := by
        unfold patternStopped
        by_cases ho : o = .pattern
        · rw [hpattern ho]
          exact Bool.and_false _
        · rw [decide_eq_false ho]
          rfl
      have hnext : (s.alone.performLine o line).afterLine o line = (s.alone.performLine o line).present o (line + 1) :=
        if_neg (not_or.mpr ⟨hl, by rw [hgo]; decide⟩)
      have hpresented : ((s.alone.performLine o line).present o (line + 1)).dram.queue =
          [{ src := .engine o, line := line + 1 }] := congrArg (· ++ _) hqueue
      have halone : ((s.alone.performLine o line).present o (line + 1)).alone = s.alone.performLine o line := by
        exact alone_present hqueue hrun _ _
      rw [if_neg hstop, hnext,
        serveUntil_alone hw fuel (line + 1) ((s.alone.performLine o line).present o (line + 1)) (hcond.trans hc)
          hpresented hpattern (by have := linesLeft_succ hw hl; omega), halone, linesLeft_succ hw hl]
      rfl

/-! ## What the lines of a transfer keep -/

theorem performLines_kept {α : Sort*} {field : State → α} (h : ∀ s line, field (s.performLine o line) = field s) :
    ∀ (n line : Nat) (s : State), field (performLines o n line s) = field s
  | 0, _, _ => rfl
  | n + 1, line, s => (performLines_kept h n (line + 1) (s.performLine o line)).trans (h s line)

/-! ## Bytes that the lines of a transfer write -/

end State

theorem getD_some {bs : List Byte} {i : Nat} (h : i < bs.length) (b : Byte) :
    ((bs.map some).getD i none).getD b = bs.getD i 0 := by
  rw [List.getD_eq_getElem?_getD, List.getD_eq_getElem?_getD, List.getElem?_map, List.getElem?_eq_getElem h]
  rfl

theorem getD_padTo (bs : List Byte) {n i : Nat} (h : i < n) : (padTo n bs).getD i 0 = bs.getD i 0 := by
  unfold padTo
  rw [List.getD_eq_getElem?_getD, List.getD_eq_getElem?_getD]
  by_cases hi : i < bs.length
  · rw [List.getElem?_append_left (by rw [List.length_take]; omega), List.getElem?_take_of_lt h]
  · rw [List.getElem?_append_right (by rw [List.length_take]; omega), List.getElem?_eq_none (Nat.le_of_not_lt hi),
      List.length_take, List.getElem?_replicate]
    split <;> rfl

theorem length_injected (inverted : Bool) (bs : List Byte) : (injected inverted bs).length = bs.length := by
  unfold injected
  split
  · cases bs <;> rfl
  · rfl

theorem getD_injected (inverted : Bool) {bs : List Byte} {i : Nat} (h : i < bs.length) :
    (injected inverted bs).getD i 0 = bs.getD i 0 ^^^ (if inverted = true ∧ i = 0 then 1 else 0) := by
  unfold injected
  by_cases hv : inverted = true
  · rw [if_pos hv]
    cases bs with
    | nil => exact absurd h (Nat.not_lt_zero i)
    | cons b rest =>
      cases i with
      | zero => rw [if_pos ⟨hv, rfl⟩]; rfl
      | succ i => rw [if_neg fun hc => Nat.succ_ne_zero i hc.2]; exact BitVec.xor_zero.symm
  · rw [if_neg hv, if_neg fun hc => hv hc.1]
    exact BitVec.xor_zero.symm

namespace State

/-- What is left to write of a fill's block (R119). -/
def restOf (s : State) (g : Nat) : List Byte :=
  ((s.engine.fills.find? fun x => decide (x.granule = g)).bind Fill.rest).getD []

/-- The byte at an offset from a line that a transfer which has come to that line writes. -/
def lineByte (s : State) (o : Owner) (line i : Nat) : Byte :=
  match o with
  | .fill g => (s.restOf g).getD i 0
  | .pattern =>
    patternByte s.dram.generator i ^^^ (if s.dram.invertFirst = true ∧ line % 4096 = 0 ∧ i = 0 then 1 else 0)
  | _ => 0

/-- The owners whose lines are written (R119, R120, R168). -/
def writes : Owner → Bool
  | .fill _ | .zeroFill | .pattern => true
  | _ => false

theorem byte_writeDram (s : State) (line : Nat) {bs : List Byte} (h : bs.length = 64) (x : Nat) :
    (s.writeDram line (bs.map some)).dram.byte x =
      if 64 * line ≤ x ∧ x < 64 * (line + 1) ∧ x < s.dram.installed then bs.getD (x - 64 * line) 0
      else s.dram.byte x := by
  have hbyte := s.dram.byte_writeRun line (bs.map some) x
  rw [List.length_map, h, ← Nat.mul_succ] at hbyte
  refine hbyte.trans (if_congr Iff.rfl rfl rfl |>.trans ?_)
  split
  · exact getD_some (by omega) _
  · rfl

theorem byte_performLine (h : writes o = true) (s : State) (line x : Nat) :
    (s.performLine o line).dram.byte x =
      if 64 * line ≤ x ∧ x < 64 * (line + 1) ∧ x < s.dram.installed then s.lineByte o line (x - 64 * line)
      else s.dram.byte x := by
  cases o with
  | fill g =>
    refine (s.byte_writeDram line (length_padTo 64 (s.restOf g)) x).trans ?_
    split
    · exact getD_padTo _ (by omega)
    · rfl
  | zeroFill =>
    have hbyte := s.byte_writeDram line (bs := List.replicate 64 0) List.length_replicate x
    rw [List.map_replicate] at hbyte
    refine hbyte.trans ?_
    split
    · rw [List.getD_eq_getElem?_getD, List.getElem?_replicate]
      split <;> rfl
    · rfl
  | pattern =>
    have hlen : (patternBytes 64 s.dram.generator).length = 64 := length_patternBytes 64 _
    refine (s.byte_writeDram line ((length_injected _ _).trans hlen) x).trans ?_
    split
    · rw [getD_injected _ (by omega), getD_patternBytes _ (by omega)]
      refine congrArg (patternByte s.dram.generator (x - 64 * line) ^^^ ·) ?_
      refine if_congr ?_ rfl rfl
      rw [Bool.and_eq_true, decide_eq_true_eq, and_comm (a := _ % _ = 0), and_assoc]
      rfl
    · rfl
  | _ => cases h

/-- A line of a fill takes 64 bytes of its block (R119). -/
theorem restOf_performLine (s : State) (g line : Nat) :
    (s.performLine (.fill g) line).restOf g = (s.restOf g).drop 64 := by
  let moved := fun x : Fill => if x.granule = g then { x with rest := some ((s.restOf g).drop 64) } else x
  have hsame : (fun x => decide (x.granule = g)) ∘ moved = fun x => decide (x.granule = g) := by
    funext x
    show decide ((if x.granule = g then { x with rest := some ((s.restOf g).drop 64) } else x).granule = g) = _
    split <;> rfl
  have hfind : (s.performLine (.fill g) line).engine.fills.find? (fun x => decide (x.granule = g)) =
      (s.engine.fills.find? fun x => decide (x.granule = g)).map moved := by
    show (s.engine.fills.map moved).find? _ = _
    rw [List.find?_map, hsame]
  cases hx : s.engine.fills.find? fun x => decide (x.granule = g) with
  | none =>
    have hnone : s.restOf g = [] := by rw [restOf, hx]; rfl
    rw [hnone, restOf, hfind, hx]
    rfl
  | some x =>
    have hg : x.granule = g := of_decide_eq_true (List.find?_some (p := fun x : Fill => decide (x.granule = g)) hx)
    have hmoved : moved x = { x with rest := some ((s.restOf g).drop 64) } := if_pos hg
    rw [restOf, hfind, hx, Option.map_some, hmoved]
    rfl

/-- A line further, a transfer writes what it would have written a line on. -/
theorem lineByte_performLine (h : writes o = true) (s : State) {line : Nat} (hl : (line + 1) % 4096 ≠ 0) (i : Nat) :
    (s.performLine o line).lineByte o (line + 1) i = s.lineByte o line (64 + i) := by
  cases o with
  | fill g =>
    show ((s.performLine (.fill g) line).restOf g).getD i 0 = (s.restOf g).getD (64 + i) 0
    rw [restOf_performLine, List.getD_eq_getElem?_getD, List.getElem?_drop, List.getD_eq_getElem?_getD]
  | zeroFill => rfl
  | pattern =>
    have hgen : (s.performLine .pattern line).dram.generator = patternAfter 64 s.dram.generator := rfl
    show patternByte (s.performLine .pattern line).dram.generator i ^^^ _ = patternByte s.dram.generator (64 + i) ^^^ _
    rw [hgen, patternByte_add, if_neg fun hc => hl hc.2.1, if_neg fun hc => by omega]
  | _ => cases h

theorem byte_performLines (h : writes o = true) : ∀ (n line : Nat) (s : State) (x : Nat),
    (∀ j, line < j → j < line + n → j % 4096 ≠ 0) →
    (performLines o n line s).dram.byte x =
      if 64 * line ≤ x ∧ x < 64 * (line + n) ∧ x < s.dram.installed then s.lineByte o line (x - 64 * line)
      else s.dram.byte x
  | 0, line, s, x, _ => (if_neg (by omega)).symm
  | n + 1, line, s, x, hl => by
    obtain ⟨_, _, _, _, hinstalled, _⟩ := s.performLine_keeps o line
    rw [performLines, byte_performLines h n (line + 1) _ x fun j h1 h2 => hl j (by omega) (by omega), hinstalled,
      byte_performLine h]
    by_cases h1 : 64 * (line + 1) ≤ x ∧ x < 64 * (line + 1 + n) ∧ x < s.dram.installed
    · rw [if_pos h1, if_pos (by omega), lineByte_performLine h s (hl (line + 1) (by omega) (by omega))]
      exact congrArg (s.lineByte o line) (by omega)
    · rw [if_neg h1]
      exact if_congr (by omega) rfl rfl

/-! ## Bytes that the lines of a transfer read -/

end State

theorem DramPort.readLines_succ (d : DramPort) (h : Memory.wf d.mem = true) (line n : Nat) :
    d.readLines line (n + 1) = d.readLine line ++ d.readLines (line + 1) n := by
  rw [d.readLine_eq line h, d.readLines_eq _ _ h, d.readLines_eq _ _ h, show Config.lineBytes = 64 from rfl,
    Nat.mul_succ, Nat.add_comm (64 * n), List.range_add, List.map_append, List.map_map]
  refine congrArg _ (List.map_congr_left fun i _ => ?_)
  rw [Function.comp_apply]
  exact congrArg d.byte (by omega)

theorem DramPort.length_readLines (d : DramPort) (h : Memory.wf d.mem = true) (line n : Nat) :
    (d.readLines line n).length = 64 * n := by
  rw [d.readLines_eq _ _ h, List.length_map, List.length_range, show Config.lineBytes = 64 from rfl]

end Sys2Proof.Machine
end

