-- ==== Sys2Proof/Proofs/TransferRuns.lean ====
section
/-! How engine transfers begin, run and end (R12, R18, R64, R95, R116 to R120, R167 to R170). -/

namespace Sys2Proof.Machine

namespace State

variable {s : State} {o : Owner}

/-! ## What a transfer that reads makes of what it reads -/

theorem performLines_dram_copy (n line : Nat) (s : State) : (performLines .copy n line s).dram = s.dram :=
  performLines_kept (field := State.dram) (fun _ _ => rfl) n line s

/-- The lines of a copy go into its frame (R68). -/
theorem op_performLines_copy : ∀ (n line : Nat) (s : State) (op : StoreOp), Memory.wf s.dram.mem = true →
    s.store.op = some op →
    (performLines .copy n line s).store.op =
      some { op with payload := { op.payload with bytes := op.payload.bytes ++ s.dram.readLines line n } }
  | 0, line, s, op, _, ho => by
    rw [show s.dram.readLines line 0 = [] from rfl, List.append_nil]
    exact ho
  | n + 1, line, s, op, hwf, ho => by
    have hone : (s.performLine .copy line).store.op =
        some { op with payload := { op.payload with bytes := op.payload.bytes ++ s.dram.readLine line } } :=
      congrArg (Option.map _) ho
    rw [performLines, op_performLines_copy n (line + 1) (s.performLine .copy line) _ hwf hone,
      s.dram.readLines_succ hwf, ← List.append_assoc]
    rfl

/-- The lines of a compare are compared with the pattern (R170). -/
theorem mismatches_performLines : ∀ (n line : Nat) (s : State), Memory.wf s.dram.mem = true →
    (performLines .compare n line s).dram.mismatches =
      s.dram.mismatches + mismatchesOf (s.dram.readLines line n) (patternBytes (64 * n) s.dram.generator)
  | 0, _, _, _ => rfl
  | n + 1, line, s, hwf => by
    have hlen : (s.dram.readLine line).length = (patternBytes 64 s.dram.generator).length := by
      rw [length_patternBytes]
      exact s.dram.length_readLines hwf line 1
    have hrest : (s.performLine .compare line).dram.readLines (line + 1) n = s.dram.readLines (line + 1) n := rfl
    have hgen : (s.performLine .compare line).dram.generator = patternAfter 64 s.dram.generator := rfl
    have hone : (s.performLine .compare line).dram.mismatches =
        s.dram.mismatches + mismatchesOf (s.dram.readLine line) (patternBytes 64 s.dram.generator) := rfl
    rw [performLines, mismatches_performLines n (line + 1) (s.performLine .compare line) hwf, hone, hrest, hgen,
      s.dram.readLines_succ hwf, Nat.mul_succ, Nat.add_comm (64 * n), patternBytes_add, mismatchesOf_append _ _ hlen,
      Nat.add_assoc]

theorem mismatchesOf_whole {as : List Byte} {n : Nat} (m : Nat) (g : BitVec 23) (h : as.length = n) :
    mismatchesOf as (patternBytes (n + m) g) = mismatchesOf as (patternBytes n g) := by
  have hcut := mismatchesOf_append (as := as) (bs := patternBytes n g) [] (patternBytes m (patternAfter n g))
    (by rw [h, length_patternBytes])
  rw [List.append_nil, ← patternBytes_add] at hcut
  exact hcut

theorem byte_performLine_fetch (s : State) (line x : Nat) : (s.performLine .fetch line).dram.byte x = s.dram.byte x := by
  unfold performLine
  cases s.region.load <;> rfl

theorem performLine_fetch_load {l : Load} (h : s.region.load = some l) (line : Nat) :
    s.performLine .fetch line =
      s.setRegion { s.region with load := some { l with fetched := l.fetched ++ s.dram.readLine line } } := by
  rw [performLine, h]

theorem performLine_fetch_start (h : s.region.load = none) (line : Nat) :
    s.performLine .fetch line =
      s.setTc
        { s.tc with
          fetching := s.tc.fetching.map fun r => { r with fetched := r.fetched ++ s.dram.readLine line } } := by
  rw [performLine, h]

/-- The lines of a load's table are taken in turn (R37). -/
theorem performLines_load : ∀ (n line : Nat) (s : State) (l : Load), Memory.wf s.dram.mem = true →
    s.region.load = some l →
    (performLines .fetch n line s).tc = s.tc ∧
      (performLines .fetch n line s).region =
        { s.region with load := some { l with fetched := l.fetched ++ s.dram.readLines line n } }
  | 0, line, s, l, _, hl => by
    rw [show s.dram.readLines line 0 = [] from rfl, List.append_nil, ← hl]
    exact ⟨rfl, rfl⟩
  | n + 1, line, s, l, hwf, hl => by
    have hone := performLine_fetch_load hl line
    rw [performLines, hone, s.dram.readLines_succ hwf, ← List.append_assoc]
    exact performLines_load n (line + 1)
      (s.setRegion { s.region with load := some { l with fetched := l.fetched ++ s.dram.readLine line } }) _ hwf rfl

/-- The lines of a START's table are taken in turn (R40). -/
theorem performLines_start : ∀ (n line : Nat) (s : State) (r : StartReq), Memory.wf s.dram.mem = true →
    s.region.load = none → s.tc.fetching = some r →
    (performLines .fetch n line s).region = s.region ∧
      (performLines .fetch n line s).tc =
        { s.tc with fetching := some { r with fetched := r.fetched ++ s.dram.readLines line n } }
  | 0, line, s, r, _, _, hr => by
    rw [show s.dram.readLines line 0 = [] from rfl, List.append_nil, ← hr]
    exact ⟨rfl, rfl⟩
  | n + 1, line, s, r, hwf, hl, hr => by
    have hone := performLine_fetch_start hl line
    rw [hr] at hone
    rw [performLines, hone, s.dram.readLines_succ hwf, ← List.append_assoc]
    exact performLines_start n (line + 1)
      (s.setTc { s.tc with fetching := some { r with fetched := r.fetched ++ s.dram.readLine line } }) _ hwf hl rfl

/-! ## How transfers start (R12, R18, R95, R119, R120) -/

theorem claimCopyStart_eq (s : State) (g slot : Nat) :
    s.claimCopyStart g slot =
      (s.setEngine { s.engine with freeSlots := s.engine.freeSlots.tail }).setTracker
        (s.tracker.putRec g ((s.recOf g).copyStart slot)) :=
  if_neg (by
    rw [GRec.entersDirty_copyStart]
    decide)

/-- A presave start moves the cursor on and loads the PACE timer (R93). -/
theorem startPresave_eq (s : State) (g slot : Nat) :
    s.startPresave g slot =
      (s.startCopy g slot).setEngine
        { (s.startCopy g slot).engine with
          presaveCursor := if g + 1 = s.granules then 0 else g + 1
          paceTimer := { status := .running, count := s.side.params.presavePace } } := by
  rw [startPresave, startCopy, claimCopyStart_eq]
  rfl

/-! ## The zero-fill choice (R84, R116, R118) -/

section
variable {g : Nat} (hz : s.engine.zeroFill = none) (hr : s.tc.railLoss = false) (hp : s.parked = false)
include hz hr hp

theorem zeroChoice_of_listed (hd : (if s.demandState then s.listed false else none) = some g) :
    s.zeroChoice = s.startZeroFill g := by
  rw [zeroChoice, if_pos ⟨hz, hr, hp⟩, hd]

theorem zeroChoice_of_background (hd : (if s.demandState then s.listed false else none) = none)
    (hb : s.background = some g) :
    s.zeroChoice = if (s.recOf g).cls = .zero then (s.startZeroFill g).consumeGrant g else s := by
  rw [zeroChoice, if_pos ⟨hz, hr, hp⟩, hd, hb]

theorem zeroChoice_of_neither (hd : (if s.demandState then s.listed false else none) = none)
    (hb : s.background = none) : s.zeroChoice = s := by
  rw [zeroChoice, if_pos ⟨hz, hr, hp⟩, hd, hb]

end

theorem fillStart_eq (r : GRec) : r.fillStart = if r.st = .absent then { r with st := .filling } else r := by
  obtain ⟨st, committed, pending, cls⟩ := r
  cases st <;> rfl

/-! ## The rows that end a transfer -/

theorem lastLine_of_presented {a : Access} (h : s.presented o = some a) (hc : s.dram.cond = .up)
    (hp : o = .pattern → s.tc.waitingAbort = none) : s.lastLine o = (s.runTransfer o a).settle := by
  have hgo : ¬ s.patternStopped o = true := by
    unfold patternStopped
    rw [Bool.and_eq_true, decide_eq_true_eq]
    rintro ⟨ho, hsome⟩
    rw [hp ho] at hsome
    cases hsome
  rw [lastLine, h]
  exact if_pos ⟨hc, fun hs => absurd hs hgo⟩

theorem lastLine_of_still (h : s.presented o = none ∨ s.dram.cond ≠ .up) : s.lastLine o = s := by
  unfold lastLine
  split
  · rename_i a ha
    refine if_neg fun hc => ?_
    rcases h with h | h
    · cases h.symm.trans ha
    · exact h hc.1
  · rfl

theorem runTransfer_alone {line : Nat} (hw : ∀ n, o ≠ .writeBack n) (hc : s.dram.cond = .up)
    (hq : s.dram.queue = [{ src := .engine o, line := line }]) (hp : o = .pattern → s.tc.waitingAbort = none) :
    s.runTransfer o { src := .engine o, line := line } =
      (performLines o (linesLeft o line) line s.alone).transferOver o := by
  refine serveUntil_alone hw _ line s hc hq hp ?_
  rw [lineTurns, hq]
  exact Nat.le_mul_of_pos_right _ (Nat.add_pos_right _ (by decide))

theorem transferOver_eq (hw : ∀ n, o ≠ .writeBack n) (t : State) :
    t.transferOver o = if o = .copy then t else (t.transferEnd o).settle := by
  cases o with
  | writeBack n => exact absurd rfl (hw n)
  | _ => rfl

/-! ## What a transfer that has the port to itself comes to -/

/-- What the lines of a transfer keep, whoever owns it. -/
theorem performLines_others (o : Owner) : ∀ (n line : Nat) (s : State),
    (performLines o n line s).dram.queue = s.dram.queue ∧ (performLines o n line s).tracker = s.tracker ∧
      (performLines o n line s).ru = s.ru ∧ (performLines o n line s).faults = s.faults ∧
      (performLines o n line s).side = s.side ∧ (performLines o n line s).sent = s.sent ∧
      (performLines o n line s).wake = s.wake ∧ (performLines o n line s).lines = s.lines ∧
      (performLines o n line s).dram.inject = s.dram.inject
  | 0, _, _ => ⟨rfl, rfl, rfl, rfl, rfl, rfl, rfl, rfl, rfl⟩
  | n + 1, line, s => by
    obtain ⟨queue, _, _, inject, _, _, tracker, ru, faults, side, sent, wake, lines⟩ := s.performLine_keeps o line
    obtain ⟨hqueue, htracker, hru, hfaults, hside, hsent, hwake, hlines, hinject⟩ :=
      performLines_others o n (line + 1) (s.performLine o line)
    exact ⟨hqueue.trans queue, htracker.trans tracker, hru.trans ru, hfaults.trans faults, hside.trans side,
      hsent.trans sent, hwake.trans wake, hlines.trans lines, hinject.trans inject⟩

/-- A fill alone writes what is left of its block (R119). -/
theorem lineByte_fill {g : Nat} {bs : List Byte} (h : s.engine.fills = [{ granule := g, rest := some bs }]) (line i : Nat) :
    s.lineByte (.fill g) line i = bs.getD i 0 := by
  have hrest : s.restOf g = bs := by simp [restOf, h]
  exact congrArg (fun l : List Byte => l.getD i 0) hrest

/-- The bytes that a transfer writes from a line to the end of its granule (R119, R120, R168). -/
theorem byte_performLines_alone (h : writes o = true) (line : Nat) (s : State) (x : Nat) :
    (performLines o (4096 - line % 4096) line s.alone).dram.byte x =
      if 64 * line ≤ x ∧ x < 64 * (line + (4096 - line % 4096)) ∧ x < s.dram.installed then
        s.lineByte o line (x - 64 * line)
      else s.dram.byte x :=
  byte_performLines h _ line s.alone x fun j h1 h2 => by omega

end State

/-- Settles O58: how transfers start, how their lines are performed, and the rows that end them. -/
theorem transfersPerformTheirLinesAndEnd : Obligations.TransfersPerformTheirLinesAndEnd := by
  refine ⟨fun n seed => ?sequence, fun as bs h => mismatchesOf_eq as bs h, fun s g slot => ?starts, fun s => ?choice,
    fun s => ?runs⟩
  case sequence =>
    intro bit
    have hbit : ∀ k, k < 8 * n → bit k = lfsrBit seed k := fun k hk => by
      show ((patternBytes n seed).getD (k / 8) 0).getLsbD (k % 8) = _
      rw [getD_patternBytes seed (by omega), getLsbD_patternByte]
    refine ⟨length_patternBytes n seed, fun k hk hn => ?_, fun k hk hn => ?_, fun m => patternBytes_add n m seed⟩
    · rw [hbit k hn, lfsrBit_of_seed seed hk]
    · rw [hbit k hn, hbit (k - 5) (by omega), hbit (k - 23) (by omega), lfsrBit_recurrence seed hk]
  case starts =>
    intro sent first copied filled
    have hcopied : copied = _ := s.claimCopyStart_eq g slot
    have hfilled : filled = _ := s.claimFillStart_eq g
    have hcopy : s.startCopy g slot =
        (copied.setStore (sent .writeBlock (slot + 4) { bytes := [], length := 262144 } (.copy g slot))).setDram
          (first .copy) := by
      rw [hcopied, State.startCopy, State.claimCopyStart_eq]
      rfl
    refine ⟨hcopy, ?_, ?_, ?_, fun h hh => ?_, ?_, rfl, s.startPresave_eq g slot⟩
    · rw [hfilled, State.startFill, State.claimFillStart_eq]
      rfl
    · rw [hfilled, State.startZeroFill, State.claimFillStart_eq]
      rfl
    · rw [hfilled, ← State.fillStart_eq]
      exact (Tracker.recAt_putRec _ _ _ _).trans (if_pos rfl)
    · rw [hfilled]
      exact (Tracker.recAt_putRec _ _ _ _).trans (if_neg hh)
    · rw [hfilled]
      rfl
  case choice =>
    intro parked demand back
    have hdemand : (if s.demandState then s.listed false else none) = demand := if_congr s.demandState_iff rfl rfl
    refine ⟨fun h => if_neg fun hc => ?_, fun hz hr hp => ?_⟩
    · obtain ⟨hz, hr, hp⟩ := hc
      rcases h with h | h | h
      · exact h hz
      · cases hr.symm.trans h
      · cases hp.symm.trans (s.parked_iff.mpr h)
    · have hfree : s.parked = false := Bool.eq_false_iff.mpr fun hc => hp (s.parked_iff.mp hc)
      exact ⟨fun g hg => State.zeroChoice_of_listed hz hr hfree (hdemand.trans hg), fun hd =>
        ⟨fun hb => State.zeroChoice_of_neither hz hr hfree (hdemand.trans hd) hb,
          fun g hb => State.zeroChoice_of_background hz hr hfree (hdemand.trans hd) hb⟩⟩
  case runs =>
    intro ends
    have hends : ∀ (c : Instr) (o : Owner), exec c s = .next (s.lastLine o) → ends c o := fun c o hrun =>
      ⟨fun a ha hc hp => hrun.trans (congrArg Host.Outcome.next (State.lastLine_of_presented ha hc hp)),
        fun hstill => hrun.trans (congrArg Host.Outcome.next (State.lastLine_of_still hstill))⟩
    refine ⟨fun g => hends _ _ rfl, hends _ _ rfl, hends _ _ rfl, hends _ _ rfl,
      fun hl => ⟨hends _ _ (congrArg Host.Outcome.next (if_pos hl)), congrArg Host.Outcome.next (if_pos hl)⟩,
      fun hl => ⟨hends _ _ (congrArg Host.Outcome.next (if_neg (Option.not_isSome_iff_eq_none.mpr hl))),
        congrArg Host.Outcome.next (if_neg (Option.not_isSome_iff_eq_none.mpr hl))⟩,
      fun stop fuel a hc ha => State.serveUntil_of_next ((if_pos hc).trans ha) stop fuel,
      fun o line hc hq hp hw hwf => ?alone⟩
    intro k here
    have hk : linesLeft o line = k := State.linesLeft_eq hw line
    have hgranule : o ≠ .fetch → k = 4096 - line % 4096 := fun ho => if_neg ho
    have hend := (State.runTransfer_alone hw hc hq hp).trans (State.transferOver_eq hw _)
    rw [hk] at hend
    obtain ⟨hqueue, htracker, hru, hfaults, hside, hsent, hwake, hlines, hinject⟩ :=
      State.performLines_others o k line s.alone
    have hwritten : State.writes o = true → ∀ x, (State.performLines o k line s.alone).dram.byte x =
        if here x then s.lineByte o line (x - 64 * line) else s.dram.byte x := fun hwr x => by
      have hk' : k = 4096 - line % 4096 := hgranule fun ho => by rw [ho] at hwr; cases hwr
      have hbyte := State.byte_performLines_alone hwr line s x
      rw [← hk'] at hbyte
      exact hbyte.trans (if_congr Iff.rfl rfl rfl)
    have hwithin : o ≠ .fetch → ∀ x, here x → x - 64 * line < 262144 := fun ho x hx => by
      have hk' := hgranule ho
      have hupper := hx.2.1
      omega
    refine ⟨_, hend, hqueue, htracker, hru, hfaults, hside, hsent, hwake, hlines, hinject, fun ho => ?other,
      fun g bs ho hf x => ?filled, fun ho x => ?zeroed, fun ho x => ?patterned, fun ho x => ?same, fun ho => ?compared,
      fun op ho hop => ?copied, fun l ho hl => ?loaded, fun r ho hl hr => ?fetched⟩
    case other =>
      exact ⟨State.performLines_kept (field := State.tc) (fun t line => (t.performLine_owner ho line).1) k line s.alone,
        State.performLines_kept (field := State.region) (fun t line => (t.performLine_owner ho line).2) k line s.alone⟩
    case filled =>
      subst ho
      rw [hwritten rfl x, State.lineByte_fill hf]
    case zeroed =>
      subst ho
      exact hwritten rfl x
    case patterned =>
      subst ho
      rw [hwritten rfl x]
      by_cases hx : here x
      · rw [if_pos hx, if_pos hx, getD_patternBytes _ (hwithin (fun h => nomatch h) x hx)]
        refine congrArg (patternByte s.dram.generator (x - 64 * line) ^^^ ·) (if_congr ?_ rfl rfl)
        have hlower := hx.1
        exact and_congr_right fun _ => and_congr_right fun _ => by omega
      · rw [if_neg hx, if_neg hx]
    case same =>
      refine State.performLines_kept (field := fun t => t.dram.byte x) (fun t line => ?_) k line s.alone
      rcases ho with rfl | rfl | rfl
      · rfl
      · rfl
      · exact t.byte_performLine_fetch line x
    case compared =>
      subst ho
      have hlen := s.dram.length_readLines hwf line k
      have hk' : 262144 = 64 * k + (262144 - 64 * k) := by
        have := hgranule (fun h => nomatch h)
        omega
      rw [hk', State.mismatchesOf_whole _ _ hlen]
      exact State.mismatches_performLines k line s.alone hwf
    case copied =>
      subst ho
      exact State.op_performLines_copy k line s.alone op hwf hop
    case loaded =>
      subst ho
      exact State.performLines_load k line s.alone l hwf hl
    case fetched =>
      subst ho
      exact State.performLines_start k line s.alone r hwf hl hr

end Sys2Proof.Machine
end

