-- ==== Sys2Proof/Proofs/SlotCounts.lean ====
section
/-! How many places hold a slot (R82), counted over the granule table: what a claim on one granule, a claim on all, and
a table built anew do to the count. -/

namespace Sys2Proof.Machine

/-! ## The places of a record and of a table -/

/-- The slot fields of a record that hold a slot (R2). -/
def GRec.slotCount (r : GRec) (n : Nat) : Nat := r.committed.toList.count n + r.pending.toList.count n

/-- The slot fields of a table that hold a slot. -/
def GTable.slotCount (t : GTable) (n : Nat) : Nat := (t.map fun x => x.2.slotCount n).sum

theorem count_toList (o : Option Nat) (n : Nat) : o.toList.count n = if o = some n then 1 else 0 := by
  cases o with
  | none => rfl
  | some m => simp [List.count_singleton]

theorem GTable.slotCount_eq (t : GTable) (n : Nat) :
    t.slotCount n =
      (t.countP fun x => decide (x.2.committed = some n)) + t.countP fun x => decide (x.2.pending = some n) := by
  induction t with
  | nil => rfl
  | cons x t ih =>
    have hcons : GTable.slotCount (x :: t) n = x.2.slotCount n + GTable.slotCount t n := rfl
    rw [hcons, ih, GRec.slotCount, count_toList, count_toList, List.countP_cons, List.countP_cons]
    simp only [decide_eq_true_eq]
    omega

/-! ## The count over the granules -/

theorem GTable.get_cons (k : Nat) (r : GRec) (t : GTable) (g : Nat) :
    GTable.get ((k, r) :: t) g = if g = k then r else GTable.get t g := by
  unfold GTable.get
  rw [List.lookup_cons]
  by_cases h : g = k
  · rw [if_pos h, h, beq_self_eq_true]
    rfl
  · rw [if_neg h, beq_false_of_ne h]

theorem GTable.get_of_not_mem {t : GTable} {g : Nat} (h : ∀ x ∈ t, x.1 ≠ g) : GTable.get t g = GRec.blank := by
  by_contra hne
  exact h _ (GTable.mem_of_get hne) rfl

/-- A sum over the records of a canonical table, over any range that holds its granules. -/
theorem GTable.sum_map_eq {t : GTable} (hwf : GTable.wf t = true) {N : Nat} (hN : ∀ x ∈ t, x.1 < N) (w : GRec → Nat)
    (hw : w GRec.blank = 0) : (t.map fun x => w x.2).sum = ∑ g ∈ Finset.range N, w (GTable.get t g) := by
  induction t with
  | nil => exact (Finset.sum_eq_zero fun g _ => hw).symm
  | cons x t ih =>
    obtain ⟨k, r⟩ := x
    obtain ⟨hp, hb⟩ := (GTable.wf_iff _).mp hwf
    obtain ⟨hk, hp⟩ := List.pairwise_cons.mp hp
    have htail : GTable.wf t = true := (GTable.wf_iff t).mpr ⟨hp, fun y hy => hb y (List.mem_cons_of_mem _ hy)⟩
    have hblank : GTable.get t k = GRec.blank := GTable.get_of_not_mem fun y hy => (Nat.ne_of_lt (hk y hy)).symm
    have hcount : ∀ g, w (GTable.get ((k, r) :: t) g) = (if g = k then w r else 0) + w (GTable.get t g) := fun g => by
      rw [GTable.get_cons]
      split
      · rename_i hg
        rw [hg, hblank, hw, Nat.add_zero]
      · rw [Nat.zero_add]
    rw [List.map_cons, List.sum_cons, ih htail fun y hy => hN y (List.mem_cons_of_mem _ hy),
      Finset.sum_congr rfl fun g _ => hcount g, Finset.sum_add_distrib, Finset.sum_ite_eq' _ k,
      if_pos (Finset.mem_range.mpr (hN _ List.mem_cons_self))]

theorem GTable.slotCount_eq_sum {t : GTable} (hwf : GTable.wf t = true) {N : Nat} (hN : ∀ x ∈ t, x.1 < N) (n : Nat) :
    t.slotCount n = ∑ g ∈ Finset.range N, (GTable.get t g).slotCount n :=
  GTable.sum_map_eq hwf hN (fun r => r.slotCount n) rfl

theorem GTable.exists_bound (t : GTable) : ∃ N, ∀ x ∈ t, x.1 < N := by
  refine ⟨(t.map fun x => x.1 + 1).sum, fun x hx => ?_⟩
  exact List.le_sum_of_mem (List.mem_map_of_mem (f := fun x : Nat × GRec => x.1 + 1) hx)

theorem GTable.bound_of_blank {t : GTable} {N : Nat} (hwf : GTable.wf t = true)
    (h : ∀ g, N ≤ g → GTable.get t g = GRec.blank) : ∀ x ∈ t, x.1 < N := by
  intro x hx
  by_contra hle
  have hblank := h x.1 (Nat.le_of_not_lt hle)
  rw [GTable.get_of_mem hwf hx] at hblank
  exact ((GTable.wf_iff t).mp hwf).2 x hx hblank

/-! ## What claims do to the count -/

/-- A claim on one granule moves the count by that granule's part. -/
theorem GTable.slotCount_put {t : GTable} (hwf : GTable.wf t = true) (g : Nat) (r : GRec) (n : Nat) :
    (GTable.put t g r).slotCount n + (GTable.get t g).slotCount n = t.slotCount n + r.slotCount n := by
  obtain ⟨N, hN⟩ := t.exists_bound
  have hN' : ∀ x ∈ t, x.1 < max N (g + 1) := fun x hx => lt_of_lt_of_le (hN x hx) (le_max_left _ _)
  have hput : ∀ x ∈ GTable.put t g r, x.1 < max N (g + 1) :=
    GTable.bound_of_blank (GTable.wf_put t g r hwf) fun k hk => by
      have hkg : k ≠ g := by omega
      rw [GTable.get_put, if_neg hkg]
      exact GTable.get_of_not_mem fun x hx => Nat.ne_of_lt (lt_of_lt_of_le (hN' x hx) hk)
  have hg : g ∈ Finset.range (max N (g + 1)) := Finset.mem_range.mpr (by omega)
  rw [GTable.slotCount_eq_sum (GTable.wf_put t g r hwf) hput, GTable.slotCount_eq_sum hwf hN',
    ← Finset.add_sum_erase _ _ hg, ← Finset.add_sum_erase _ _ hg, GTable.get_put, if_pos rfl]
  have hrest : ∑ x ∈ (Finset.range (max N (g + 1))).erase g, (GTable.get (GTable.put t g r) x).slotCount n =
      ∑ x ∈ (Finset.range (max N (g + 1))).erase g, (GTable.get t x).slotCount n :=
    Finset.sum_congr rfl fun x hx => by rw [GTable.get_put, if_neg (Finset.ne_of_mem_erase hx)]
  rw [hrest]
  omega

theorem GTable.slotCount_append (t u : GTable) (n : Nat) :
    GTable.slotCount (t ++ u) n = t.slotCount n + u.slotCount n := by
  unfold GTable.slotCount
  rw [List.map_append, List.sum_append]

theorem GTable.slotCount_cell (g : Nat) (r : GRec) (n : Nat) : (GTable.cell g r).slotCount n = r.slotCount n := by
  unfold GTable.cell
  split
  · rename_i h
    rw [h]
    rfl
  · rfl

/-- A claim on every granule makes of each record its own count. -/
theorem GTable.slotCount_mapRecs (t : GTable) (f : Nat → GRec → GRec) (n : Nat) :
    (GTable.mapRecs t f).slotCount n = (t.map fun x => (f x.1 x.2).slotCount n).sum := by
  induction t with
  | nil => rfl
  | cons x t ih =>
    have hcons : GTable.mapRecs (x :: t) f = GTable.cell x.1 (f x.1 x.2) ++ GTable.mapRecs t f := rfl
    rw [hcons, GTable.slotCount_append, GTable.slotCount_cell, ih]
    rfl

theorem GTable.slotCount_build (N : Nat) (f : Nat → GRec) (n : Nat) :
    (GTable.build N f).slotCount n = ∑ g ∈ Finset.range N, (f g).slotCount n := by
  have hbound : ∀ x ∈ GTable.build N f, x.1 < N :=
    GTable.bound_of_blank (GTable.wf_build N f) fun g hg => by rw [GTable.get_build, if_neg (Nat.not_lt.mpr hg)]
  rw [GTable.slotCount_eq_sum (GTable.wf_build N f) hbound]
  exact Finset.sum_congr rfl fun g hg => by rw [GTable.get_build, if_pos (Finset.mem_range.mp hg)]

theorem GTable.slotCount_eq_zero {t : GTable} (hwf : GTable.wf t = true) {n : Nat}
    (h : ∀ g, (GTable.get t g).slotCount n = 0) : t.slotCount n = 0 := by
  obtain ⟨N, hN⟩ := t.exists_bound
  rw [GTable.slotCount_eq_sum hwf hN]
  exact Finset.sum_eq_zero fun g _ => h g

end Sys2Proof.Machine
end

