-- ==== Sys2Proof/Proofs/SlotInvariant.lean ====
section
/-! The invariant that keeps every slot in one place (R82): which operations in flight a granule's record answers to,
and what the states of the part allow. -/

namespace Sys2Proof.Machine

/-! ## What the invariant looks at -/

/-- What a granule's record asks of the transfers: a copy in flight with the slot pending, a fill that may start, a fill
in flight, by its class, or nothing. -/
inductive Role where
  | copying (pending : Option Nat)
  | absent
  | filling (preserved : Bool)
  | free

def GRec.role (r : GRec) : Role :=
  match r.st with
  | .copying | .recopy => .copying r.pending
  | .absent => .absent
  | .filling => .filling r.cls.preserved
  | _ => .free

/-- A role that ACTIVE, UNCONFIGURED and STARTING may find (R113). -/
def Role.settled : Role → Prop
  | .absent | .filling _ => False
  | _ => True

/-- The purpose of the operation on the link, unless it is disregarded (R71). -/
def StorePort.flying (p : StorePort) : Option Purpose :=
  p.op.bind fun o => if o.disregarded then none else some o.purpose

/-- The slot of a copy on the link that is disregarded (R71). -/
def StorePort.stray (p : StorePort) : Option Nat :=
  p.op.bind fun o =>
    match o.purpose with
    | .copy _ slot => if o.disregarded then some slot else none
    | _ => none

/-- The transfers that present one line at a time and change the part's state or a record as they end. -/
def Owner.lone : Owner → Bool
  | .fill _ | .pattern | .compare => true
  | _ => false

def Access.lone (a : Access) : Option Owner :=
  match a.src with
  | .engine o => if o.lone then some o else none
  | _ => none

/-- The lone transfers that wait at the DRAM Port. -/
def DramPort.lone (d : DramPort) : List Owner := d.queue.filterMap Access.lone

/-- DRAM is in self-refresh, or on its way in or out (R135). -/
def DramCond.refreshing : DramCond → Bool
  | .enteringSr | .selfRefresh | .exitingSr => true
  | _ => false

/-- No copy whose slot is pending is on the link. -/
def StorePort.noCopy (p : StorePort) : Prop := ∀ g slot, p.flying ≠ some (.copy g slot)

/-- What the steps of a bring-up have judged: the header that a resume takes up, or the retired list adopted
(R85, R126). -/
def BringUp.judged (b : BringUp) (retired : List Nat) : Prop :=
  (b.step = .index → b.mode ≠ .attach ∧ ∃ h, b.header0 = some h ∧ h.retiredOk b.slots = true) ∧
    (b.step = .emptyIndex ∨ b.step = .emptyHeader → retired.Nodup ∧ ∀ n ∈ retired, n < b.slots)

namespace State

/-- The number of places that hold a slot. -/
def slotCount (s : State) (n : Nat) : Nat :=
  s.engine.freeSlots.count n + s.tracker.table.slotCount n + s.engine.retired.count n + s.store.stray.toList.count n

theorem placesOf_eq (s : State) (n : Nat) : s.placesOf n = s.slotCount n := by
  unfold placesOf slotCount StorePort.stray
  rw [GTable.slotCount_eq, ← Nat.add_assoc]
  refine congrArg _ ?_
  cases s.store.op with
  | none => rfl
  | some o =>
    obtain ⟨_, _, _, _, purpose, disregarded⟩ := o
    cases purpose with
    | copy g slot => cases disregarded <;> simp [List.count_singleton]
    | _ => rfl

/-- A park is past its drain, or the part sleeps or wakes: no copy is in flight (R140). -/
def stilled (s : State) : Prop :=
  s.tc.state = .sleeping ∨ s.tc.state = .unparking ∨
    (s.tc.state = .parking ∧ s.tc.parkPhase ≠ .none ∧ s.tc.parkPhase ≠ .drain)

/-! ## The slots and the records -/

/-- Every slot is in one place, and each record answers to the transfers in flight. -/
structure SlotsPlaced (s : State) : Prop where
  sound : s.tracker.sound
  counted : s.tracker.counted
  blank : s.checkBlank
  placed : s.store.status = .attached → ∀ n, s.slotCount n = if n < s.store.slots then 1 else 0
  vacant : s.store.status ≠ .attached → ∀ g n, (s.recOf g).slotCount n = 0
  copied : ∀ g p, (s.recOf g).role = .copying p ↔ ∃ slot, p = some slot ∧ s.store.flying = some (.copy g slot)
  filled : ∀ g, s.store.flying = some (.fill g) → (s.recOf g).role = .filling true
  lined : ∀ g, Owner.fill g ∈ s.dram.lone → (s.recOf g).role = .filling true ∧ s.store.flying ≠ some (.fill g)
  lone : s.dram.lone.Nodup
  zeroed : ∀ g, s.engine.zeroFill = some g → (s.recOf g).role = .filling false
  listed : ∀ g ∈ s.engine.fillList, (s.recOf g).role = .absent

/-! ## What the states allow -/

/-- What is under way agrees with the state of the part. -/
structure CoursesHeld (s : State) : Prop where
  settled : s.tc.state = .active ∨ s.tc.state = .unconfigured ∨ s.tc.state = .starting →
    ∀ g, (s.recOf g).role.settled
  detached : s.tc.state = .unconfigured ∨ s.tc.state = .starting → s.store.status ≠ .attached
  bringUp : ∀ b, s.engine.bringUp = some b →
    s.store.status ≠ .attached ∧ b.judged s.engine.retired ∧ (b.mode ≠ .attach → s.tc.state = .starting)
  load : s.region.load ≠ none →
    s.tc.state = .active ∧ s.tc.railLoss = false ∧ s.side.handling = true ∧ s.tc.fetching = none ∧
      s.attaching = false ∧ s.store.noCopy
  fetching : s.tc.fetching ≠ none → s.side.handling = true ∧ s.attaching = false
  attaching : s.attaching = true → s.side.handling = true ∧ s.tc.state = .active ∧ s.tc.railLoss = false
  commit : s.store.flying = some .commitIndex ∨ s.store.flying = some .commitHeader →
    s.tc.state = .committing ∧ (s.engine.commitPhase = .index ∨ s.engine.commitPhase = .header)
  pattern : Owner.pattern ∈ s.dram.lone → s.tc.state = .parking ∧ s.tc.parkPhase = .pattern
  compare : Owner.compare ∈ s.dram.lone → s.tc.state = .unparking ∧ s.dram.cond = .up
  entering : s.dram.cond = .enteringSr → s.tc.state = .parking ∧ (s.tc.parkPhase = .srEntry ∨ s.tc.parkPhase = .undo)
  asleep : s.dram.cond = .selfRefresh → s.tc.state = .sleeping
  exiting : s.dram.cond = .exitingSr →
    s.tc.state = .unparking ∨ (s.tc.state = .parking ∧ s.tc.parkPhase = .undo)
  undone : s.tc.state = .parking → s.tc.parkPhase = .undo → s.tc.waitingAbort ≠ none
  still : s.stilled → s.store.noCopy
  rail : s.tc.railLoss = true →
    s.dram.lone = [] ∧ s.dram.cond.refreshing = false ∧ s.store.noCopy ∧ ∀ g, s.store.flying ≠ some (.fill g)
  units : s.tracker.units ≤ 64 ∧ ∀ r, s.tc.fetching = some r → r.units ≤ 64

/-- The invariant. -/
structure Slotted (s : State) : Prop extends SlotsPlaced s, CoursesHeld s

/-! ## What leaves the invariant as it is -/

/-- `t` is in the state of `s`, with the same courses under way. -/
structure SameState (s t : State) : Prop where
  units : t.tracker.units = s.tracker.units := by exact rfl
  bringUp : t.engine.bringUp = s.engine.bringUp := by exact rfl
  phase : t.engine.commitPhase = s.engine.commitPhase := by exact rfl
  attached : t.store.status = .attached → s.store.status = .attached := by exact id
  cond : t.dram.cond = s.dram.cond := by exact rfl
  state : t.tc.state = s.tc.state := by exact rfl
  park : t.tc.parkPhase = s.tc.parkPhase := by exact rfl
  abort : s.tc.waitingAbort ≠ none → t.tc.waitingAbort ≠ none := by exact id
  railLoss : t.tc.railLoss = s.tc.railLoss := by exact rfl
  fetching : t.tc.fetching.map StartReq.units = s.tc.fetching.map StartReq.units := by exact rfl
  load : t.region.load.map Load.addr = s.region.load.map Load.addr := by exact rfl
  handling : t.side.handling = s.side.handling := by exact rfl

/-- `t` has the transfers and the slots out of the table that `s` has. -/
structure SameTransfers (s t : State) : Prop where
  retired : t.engine.retired = s.engine.retired := by exact rfl
  fillList : t.engine.fillList = s.engine.fillList := by exact rfl
  zeroFill : t.engine.zeroFill = s.engine.zeroFill := by exact rfl
  status : t.store.status = s.store.status := by exact rfl
  flying : t.store.flying = s.store.flying := by exact rfl
  stray : t.store.stray = s.store.stray := by exact rfl
  slots : t.store.slots = s.store.slots := by exact rfl
  lone : t.dram.lone = s.dram.lone := by exact rfl

/-- `t` has the transfers, the slots out of the table and the courses of `s`. -/
structure SameCourses (s t : State) : Prop extends SameState s t, SameTransfers s t

theorem SameState.trans {s t u : State} (a : SameState s t) (b : SameState t u) : SameState s u where
  units := b.units.trans a.units
  bringUp := b.bringUp.trans a.bringUp
  phase := b.phase.trans a.phase
  attached := a.attached ∘ b.attached
  cond := b.cond.trans a.cond
  state := b.state.trans a.state
  park := b.park.trans a.park
  abort := b.abort ∘ a.abort
  railLoss := b.railLoss.trans a.railLoss
  fetching := b.fetching.trans a.fetching
  load := b.load.trans a.load
  handling := b.handling.trans a.handling

theorem SameState.load_none {s t : State} (k : SameState s t) : t.region.load = none ↔ s.region.load = none := by
  rw [← Option.map_eq_none_iff (f := Load.addr), k.load, Option.map_eq_none_iff]

theorem SameState.fetching_none {s t : State} (k : SameState s t) : t.tc.fetching = none ↔ s.tc.fetching = none := by
  rw [← Option.map_eq_none_iff (f := StartReq.units), k.fetching, Option.map_eq_none_iff]

theorem SameState.fetching_units {s t : State} (k : SameState s t) (h : ∀ r, s.tc.fetching = some r → r.units ≤ 64)
    {r : StartReq} (hr : t.tc.fetching = some r) : r.units ≤ 64 := by
  have hmap := k.fetching
  rw [hr, Option.map_some] at hmap
  obtain ⟨x, hx, hu⟩ := Option.map_eq_some_iff.mp hmap.symm
  exact hu ▸ h x hx

/-- The operations that may go out on the link in a state of the part (R83, R149). -/
def launches (s : State) (p : Purpose) : Prop :=
  match p with
  | .copy _ _ => ¬ s.stilled ∧ s.tc.railLoss = false ∧ s.region.load = none
  | .fill _ => s.tc.railLoss = false
  | .commitIndex | .commitHeader =>
    s.tc.state = .committing ∧ (s.engine.commitPhase = .index ∨ s.engine.commitPhase = .header)
  | .markClear | .bringUp _ => True

/-- The lone transfers that may present a line in a state of the part (R140, R146). -/
def presents (s : State) (o : Owner) : Prop :=
  s.tc.railLoss = false ∧
    match o with
    | .pattern => s.tc.state = .parking ∧ s.tc.parkPhase = .pattern
    | .compare => s.tc.state = .unparking ∧ s.dram.cond = .up
    | _ => True

theorem attaching_of_bringUp {s t : State} (h : t.engine.bringUp = s.engine.bringUp) : t.attaching = s.attaching := by
  unfold attaching
  rw [h]

/-- The courses go on in the same state, with the operations in flight that were, or that may go out. -/
theorem CoursesHeld.of_state {s t : State} (h : s.CoursesHeld) (k : SameState s t)
    (hrole : ∀ g, (s.recOf g).role.settled → (t.recOf g).role.settled)
    (hretired : t.engine.retired = s.engine.retired ∨ t.engine.retired = [] ∨ s.engine.bringUp = none)
    (hfly : ∀ p, t.store.flying = some p → s.store.flying = some p ∨ s.launches p)
    (hlone : ∀ o ∈ t.dram.lone, o ∈ s.dram.lone ∨ s.presents o) : t.CoursesHeld := by
  have hcopy : s.stilled ∨ s.tc.railLoss = true ∨ s.region.load ≠ none → s.store.noCopy → t.store.noCopy := by
    intro hc hs g slot hf
    rcases hfly _ hf with hf | ⟨h1, h2, h3⟩
    · exact hs g slot hf
    · rcases hc with hc | hc | hc
      · exact h1 hc
      · rw [h2] at hc; cases hc
      · exact hc h3
  refine ⟨fun hst g => ?settled, fun hst => ?detached, fun b hb => ?bringUp, fun hl => ?load, fun hf => ?fetching,
    fun ha => ?attaching, fun hc => ?commit, fun hp => ?pattern, fun hp => ?compare, fun hc => ?entering,
    fun hc => ?asleep, fun hc => ?exiting, fun hst hp => ?undone, fun hs => ?still, fun hr => ?rail, ?units⟩
  case settled => exact hrole g (h.settled (by rwa [k.state] at hst) g)
  case detached =>
    exact fun ha => h.detached (by rwa [k.state] at hst) (k.attached ha)
  case bringUp =>
    rw [k.bringUp] at hb
    rw [k.state]
    obtain ⟨hd, hj, hm⟩ := h.bringUp b hb
    refine ⟨hd ∘ k.attached, ?_, hm⟩
    rcases hretired with hret | hret | hret
    · rw [hret]
      exact hj
    · rw [hret]
      exact ⟨hj.1, fun _ => ⟨List.nodup_nil, nofun⟩⟩
    · rw [hret] at hb
      cases hb
  case load =>
    have hl : s.region.load ≠ none := fun hn => hl (k.load_none.mpr hn)
    rw [k.state, k.railLoss, k.handling, k.fetching_none, attaching_of_bringUp k.bringUp]
    obtain ⟨hst, hr, hh, hf, ha, hc⟩ := h.load hl
    exact ⟨hst, hr, hh, hf, ha, hcopy (.inr (.inr hl)) hc⟩
  case fetching =>
    rw [k.handling, attaching_of_bringUp k.bringUp]
    exact h.fetching fun hn => hf (k.fetching_none.mpr hn)
  case attaching =>
    rw [k.handling, k.state, k.railLoss]
    exact h.attaching (by rwa [attaching_of_bringUp k.bringUp] at ha)
  case commit =>
    rw [k.state, k.phase]
    rcases hc with hc | hc
    · exact (hfly _ hc).elim (fun hc => h.commit (.inl hc)) id
    · exact (hfly _ hc).elim (fun hc => h.commit (.inr hc)) id
  case pattern =>
    rw [k.state, k.park]
    exact (hlone _ hp).elim h.pattern And.right
  case compare =>
    rw [k.state, k.cond]
    exact (hlone _ hp).elim h.compare And.right
  case entering =>
    rw [k.state, k.park]
    exact h.entering (by rwa [k.cond] at hc)
  case asleep =>
    rw [k.state]
    exact h.asleep (by rwa [k.cond] at hc)
  case exiting =>
    rw [k.state, k.park]
    exact h.exiting (by rwa [k.cond] at hc)
  case undone => exact k.abort (h.undone (by rwa [k.state] at hst) (by rwa [k.park] at hp))
  case still =>
    have hs' : s.stilled := by unfold stilled at hs ⊢; rwa [k.state, k.park] at hs
    exact hcopy (.inl hs') (h.still hs')
  case rail =>
    rw [k.railLoss] at hr
    obtain ⟨hnone, hcond, hc, hfill⟩ := h.rail hr
    rw [k.cond]
    refine ⟨List.eq_nil_iff_forall_not_mem.mpr fun o ho => ?_, hcond, hcopy (.inr (.inl hr)) hc, fun g hf => ?_⟩
    · rcases hlone o ho with ho | ⟨hf, _⟩
      · rw [hnone] at ho
        cases ho
      · rw [hr] at hf
        cases hf
    · rcases hfly _ hf with hf | hf
      · exact hfill g hf
      · rw [show s.tc.railLoss = false from hf] at hr
        cases hr
  case units =>
    rw [k.units]
    exact ⟨h.units.1, fun _ => k.fetching_units h.units.2⟩

theorem CoursesHeld.of_roles {s t : State} (h : s.CoursesHeld) (k : SameCourses s t)
    (hrole : ∀ g, (s.recOf g).role.settled → (t.recOf g).role.settled) : t.CoursesHeld :=
  h.of_state k.toSameState hrole (.inl k.retired) (fun _ hp => .inl (k.flying ▸ hp)) fun _ ho => .inl (k.lone ▸ ho)

/-- A record claimed so that it asks what it asked, the slots handed on where they were held. -/
theorem SlotsPlaced.of_roles {s t : State} (h : s.SlotsPlaced) (k : SameCourses s t) (hr : Ranged s t)
    (hrole : ∀ g, (t.recOf g).role = (s.recOf g).role)
    (hcount : s.store.status = .attached → ∀ n, t.slotCount n = s.slotCount n)
    (hvacant : s.store.status ≠ .attached → ∀ g n, (t.recOf g).slotCount n = 0) : t.SlotsPlaced where
  sound := hr.sound h.sound
  counted := hr.counted h.counted
  blank := hr.blank h.sound h.blank
  placed ha n := by
    rw [k.status] at ha
    rw [hcount ha, k.slots]
    exact h.placed ha n
  vacant ha := hvacant (by rwa [k.status] at ha)
  copied g p := by
    rw [hrole, k.flying]
    exact h.copied g p
  filled g hf := by
    rw [hrole]
    exact h.filled g (by rwa [k.flying] at hf)
  lined g hm := by
    rw [hrole, k.flying]
    exact h.lined g (by rwa [k.lone] at hm)
  lone := by
    rw [k.lone]
    exact h.lone
  zeroed g hz := by
    rw [hrole]
    exact h.zeroed g (by rwa [k.zeroFill] at hz)
  listed g hg := by
    rw [hrole]
    exact h.listed g (by rwa [k.fillList] at hg)

theorem Slotted.of_roles {s t : State} (h : s.Slotted) (k : SameCourses s t) (hr : Ranged s t)
    (hrole : ∀ g, (t.recOf g).role = (s.recOf g).role)
    (hcount : s.store.status = .attached → ∀ n, t.slotCount n = s.slotCount n)
    (hvacant : s.store.status ≠ .attached → ∀ g n, (t.recOf g).slotCount n = 0) : t.Slotted :=
  ⟨h.toSlotsPlaced.of_roles k hr hrole hcount hvacant, h.toCoursesHeld.of_roles k fun g hg => by rwa [hrole g]⟩

/-- What touches neither the table nor what the invariant looks at. -/
theorem SlotsPlaced.of_same {s t : State} (h : s.SlotsPlaced) (k : SameTransfers s t)
    (ht : t.tracker = s.tracker := by exact rfl) (hf : t.engine.freeSlots = s.engine.freeSlots := by exact rfl) :
    t.SlotsPlaced where
  sound := ht ▸ h.sound
  counted := ht ▸ h.counted
  blank := checkBlank_of_tracker ht h.blank
  placed ha n := by
    rw [slotCount, ht, hf, k.retired, k.stray, k.slots]
    exact h.placed (by rwa [k.status] at ha) n
  vacant ha g n := by
    rw [recOf, ht]
    exact h.vacant (by rwa [k.status] at ha) g n
  copied g p := by
    rw [recOf, ht, k.flying]
    exact h.copied g p
  filled g hf := by
    rw [recOf, ht]
    exact h.filled g (by rwa [k.flying] at hf)
  lined g hm := by
    rw [recOf, ht, k.flying]
    exact h.lined g (by rwa [k.lone] at hm)
  lone := by
    rw [k.lone]
    exact h.lone
  zeroed g hz := by
    rw [recOf, ht]
    exact h.zeroed g (by rwa [k.zeroFill] at hz)
  listed g hg := by
    rw [recOf, ht]
    exact h.listed g (by rwa [k.fillList] at hg)

theorem Slotted.of_same {s t : State} (h : s.Slotted) (k : SameCourses s t)
    (ht : t.tracker = s.tracker := by exact rfl) (hf : t.engine.freeSlots = s.engine.freeSlots := by exact rfl) :
    t.Slotted :=
  ⟨h.toSlotsPlaced.of_same k.toSameTransfers ht hf, h.toCoursesHeld.of_roles k fun g hg => by rwa [recOf, ht]⟩

end State

end Sys2Proof.Machine
end

