-- ==== Sys2Proof/Proofs/SlotClaims.lean ====
section
/-! The claims that keep every slot in its place and what each record asks (R9, R16, R17, R20), and the judging and
releasing of requests, which are made of them. -/

namespace Sys2Proof.Machine

namespace GRec

/-! ## Claims that only hand slots on -/

/-- A claim hands on the slots that the record no longer holds. -/
def handsOn (r after : GRec) (frees : List Nat) : Prop := ∀ n, after.slotCount n + frees.count n = r.slotCount n

theorem handsOn_write (r : GRec) : r.handsOn r.write r.writeFrees := by
  intro n
  obtain ⟨st, committed, pending, cls⟩ := r
  cases st <;> simp [slotCount, write, writeFrees]

theorem handsOn_copyGood (r : GRec) : r.handsOn r.copyGood r.copyGoodFrees := by
  intro n
  obtain ⟨st, committed, pending, cls⟩ := r
  cases st <;> simp [slotCount, copyGood, copyGoodFrees]

theorem handsOn_commit (r : GRec) : r.handsOn r.commit r.commitFrees := by
  intro n
  obtain ⟨st, committed, pending, cls⟩ := r
  cases st <;> simp [slotCount, commit, commitFrees, Nat.add_comm]

theorem handsOn_abandon (r : GRec) : r.handsOn r.abandon r.abandonFrees := by
  intro n
  obtain ⟨st, committed, pending, cls⟩ := r
  cases st <;> simp [slotCount, abandon, abandonFrees]

theorem handsOn_releasePoison (r : GRec) : r.handsOn r.releasePoison [] := by
  intro n
  obtain ⟨st, committed, pending, cls⟩ := r
  cases st <;> simp [slotCount, releasePoison]

theorem handsOn_fillStart (r : GRec) : r.handsOn r.fillStart [] := by
  intro n
  obtain ⟨st, committed, pending, cls⟩ := r
  cases st <;> simp [slotCount, fillStart]

theorem handsOn_fillGood (r : GRec) : r.handsOn r.fillGood [] := by
  intro n
  obtain ⟨st, committed, pending, cls⟩ := r
  cases st <;> simp [slotCount, fillGood]

theorem role_write (r : GRec) : r.write.role = r.role := by
  obtain ⟨st, committed, pending, cls⟩ := r
  cases st <;> rfl

theorem role_commit (r : GRec) : r.commit.role = r.role := by
  obtain ⟨st, committed, pending, cls⟩ := r
  cases st <;> rfl

theorem role_abandon (r : GRec) : r.abandon.role = r.role := by
  obtain ⟨st, committed, pending, cls⟩ := r
  cases st <;> rfl

theorem role_releasePoison (r : GRec) : r.releasePoison.role = r.role := by
  obtain ⟨st, committed, pending, cls⟩ := r
  cases st <;> rfl

theorem role_of_absent {r : GRec} (h : r.st = .absent) : r.role = .absent := by rw [role, h]

theorem st_of_absent {r : GRec} (h : r.role = .absent) : r.st = .absent := by
  obtain ⟨st, committed, pending, cls⟩ := r
  cases st <;> cases h
  rfl

end GRec

namespace State

variable {s : State}

/-! ## A claim on one granule, and on every granule -/

theorem sameCourses_claim (s : State) (g : Nat) (f : GRec → GRec) (frees : GRec → List Nat) :
    SameCourses s (s.claim g f frees) := by
  have hengine := s.engine_claim g f frees
  rw [only_claim]
  exact
    { units := rfl
      retired := (congrArg ImageEngine.retired hengine :)
      fillList := (congrArg ImageEngine.fillList hengine :)
      zeroFill := (congrArg ImageEngine.zeroFill hengine :)
      bringUp := (congrArg ImageEngine.bringUp hengine :)
      phase := (congrArg ImageEngine.commitPhase hengine :) }

/-- A claim moves the count by what it makes of the record and what it hands on. -/
theorem slotCount_claim_add (hwf : GTable.wf s.tracker.table = true) (g : Nat) (f : GRec → GRec)
    (frees : GRec → List Nat) (n : Nat) :
    (s.claim g f frees).slotCount n + (s.recOf g).slotCount n =
      s.slotCount n + ((f (s.recOf g)).slotCount n + (frees (s.recOf g)).count n) := by
  have hput := GTable.slotCount_put hwf g (f (s.recOf g)) n
  have hget : GTable.get s.tracker.table g = s.recOf g := rfl
  have htable : (s.claim g f frees).tracker.table = GTable.put s.tracker.table g (f (s.recOf g)) := by
    rw [tracker_claim]
    rfl
  have hfree : (s.claim g f frees).engine.freeSlots = s.engine.freeSlots ++ frees (s.recOf g) := by rw [engine_claim]
  have hsame := s.sameCourses_claim g f frees
  rw [slotCount, slotCount, hfree, htable, hsame.retired, hsame.stray, List.count_append]
  rw [hget] at hput
  omega

theorem slotCount_claim (hwf : GTable.wf s.tracker.table = true) {g : Nat} {f : GRec → GRec} {frees : GRec → List Nat}
    (hf : (s.recOf g).handsOn (f (s.recOf g)) (frees (s.recOf g))) (n : Nat) :
    (s.claim g f frees).slotCount n = s.slotCount n := by
  have hadd := slotCount_claim_add hwf g f frees n
  have hone := hf n
  omega

theorem slotCount_of_handsOn {r after : GRec} {frees : List Nat} (h : r.handsOn after frees) {n : Nat}
    (h0 : r.slotCount n = 0) : after.slotCount n = 0 := by
  have := h n
  omega

theorem Slotted.claim {g : Nat} {f : GRec → GRec} {frees : GRec → List Nat} (h : s.Slotted)
    (hr : Ranged s (s.claim g f frees)) (hrole : (f (s.recOf g)).role = (s.recOf g).role)
    (hf : (s.recOf g).handsOn (f (s.recOf g)) (frees (s.recOf g))) : (s.claim g f frees).Slotted := by
  refine h.of_roles (s.sameCourses_claim g f frees) hr (fun x => ?_) (fun _ => slotCount_claim h.sound.1 hf)
    fun ha x n => ?_
  · rw [recOf_claim]
    split
    · rename_i hx
      rw [hrole, hx]
    · rfl
  · rw [recOf_claim]
    split
    · exact slotCount_of_handsOn hf (h.vacant ha g n)
    · exact h.vacant ha x n

theorem sameCourses_claimAll (s : State) (f : Nat → GRec → GRec) (frees : GRec → List Nat) :
    SameCourses s (s.claimAll f frees) := by
  have hengine := s.engine_claimAll f frees
  rw [only_claimAll]
  exact
    { units := rfl
      retired := (congrArg ImageEngine.retired hengine :)
      fillList := (congrArg ImageEngine.fillList hengine :)
      zeroFill := (congrArg ImageEngine.zeroFill hengine :)
      bringUp := (congrArg ImageEngine.bringUp hengine :)
      phase := (congrArg ImageEngine.commitPhase hengine :) }

theorem slotCount_mapRecs_handsOn {f : Nat → GRec → GRec} {frees : GRec → List Nat} (n : Nat) : ∀ t : GTable,
    (∀ x ∈ t, x.2.handsOn (f x.1 x.2) (frees x.2)) →
    (GTable.mapRecs t f).slotCount n + (t.flatMap fun x => frees x.2).count n = t.slotCount n
  | [], _ => rfl
  | x :: t, h => by
    have htail := slotCount_mapRecs_handsOn n t fun y hy => h y (List.mem_cons_of_mem x hy)
    have hhead := h x List.mem_cons_self n
    rw [GTable.slotCount_mapRecs] at htail
    have hcons : GTable.slotCount (x :: t) n = x.2.slotCount n + GTable.slotCount t n := rfl
    rw [GTable.slotCount_mapRecs, hcons, List.flatMap_cons, List.count_append, List.map_cons, List.sum_cons]
    omega

theorem slotCount_claimAll {f : Nat → GRec → GRec} {frees : GRec → List Nat}
    (hf : ∀ x ∈ s.tracker.table, x.2.handsOn (f x.1 x.2) (frees x.2)) (n : Nat) :
    (s.claimAll f frees).slotCount n = s.slotCount n := by
  have htable : (s.claimAll f frees).tracker.table = GTable.mapRecs s.tracker.table f := by
    rw [tracker_claimAll]
    rfl
  have hmap := slotCount_mapRecs_handsOn n s.tracker.table hf
  have hsame := s.sameCourses_claimAll f frees
  rw [slotCount, slotCount, freeSlots_claimAll, htable, hsame.retired, hsame.stray, List.count_append]
  omega

theorem Slotted.claimAll {f : Nat → GRec → GRec} {frees : GRec → List Nat} (h : s.Slotted)
    (hr : Ranged s (s.claimAll f frees)) (hblank : ∀ g, f g GRec.blank = GRec.blank)
    (hrole : ∀ g r, (f g r).role = r.role) (hf : ∀ g (r : GRec), r.handsOn (f g r) (frees r)) :
    (s.claimAll f frees).Slotted := by
  refine h.of_roles (s.sameCourses_claimAll f frees) hr (fun g => ?_) (fun _ => slotCount_claimAll fun x _ => hf _ _)
    fun ha g n => ?_
  · rw [recOf_claimAll _ h.sound.1 (hblank g), hrole]
  · rw [recOf_claimAll _ h.sound.1 (hblank g)]
    exact slotCount_of_handsOn (hf g _) (h.vacant ha g n)

/-! ## Writes, commits, abandonments and releases of poison -/

theorem Slotted.claimWrite (h : s.Slotted) (g : Nat) : (s.claimWrite g).Slotted :=
  h.claim (s.ranged_claimWrite g) (GRec.role_write _) (GRec.handsOn_write _)

theorem Slotted.claimCommit (h : s.Slotted) : s.claimCommit.Slotted :=
  h.claimAll s.ranged_claimCommit (fun _ => rfl) (fun _ => GRec.role_commit) fun _ => GRec.handsOn_commit

theorem Slotted.claimAbandon (h : s.Slotted) : s.claimAbandon.Slotted :=
  h.claimAll s.ranged_claimAbandon (fun _ => rfl) (fun _ => GRec.role_abandon) fun _ => GRec.handsOn_abandon

theorem Slotted.claimRelease (h : s.Slotted) (first count : Nat) : (s.claimRelease first count).Slotted := by
  refine h.claimAll (s.ranged_claimRelease first count) (fun g => ite_self _) (fun g r => ?_) fun g r => ?_
  · split
    · exact GRec.role_releasePoison r
    · rfl
  · split
    · exact GRec.handsOn_releasePoison r
    · exact fun n => rfl

/-! ## Accesses that join the queue, and the fill list -/

theorem lone_enqueue (s : State) (a : Access) : (s.enqueue a).dram.lone = s.dram.lone ++ a.lone.toList := by
  show (s.dram.queue ++ [a]).filterMap Access.lone = _
  rw [List.filterMap_append]
  cases ha : a.lone with
  | none => rw [List.filterMap_cons_none ha]; rfl
  | some o => rw [List.filterMap_cons_some ha]; rfl

theorem Slotted.enqueue (h : s.Slotted) {a : Access} (ha : a.lone = none) : (s.enqueue a).Slotted :=
  h.of_same { lone := by rw [lone_enqueue, ha]; exact List.append_nil _ }

theorem Slotted.setFillList (h : s.Slotted) {l : List Nat}
    (hl : ∀ g ∈ l, g ∈ s.engine.fillList ∨ (s.recOf g).st = .absent) :
    (s.setEngine { s.engine with fillList := l }).Slotted := by
  refine ⟨⟨h.sound, h.counted, h.blank, h.placed, h.vacant, h.copied, h.filled, h.lined, h.lone, h.zeroed,
    fun g hg => ?_⟩, h.toCoursesHeld.of_state {} (fun _ => id) (.inl rfl) (fun _ hp => .inl hp) fun _ ho => .inl ho⟩
  exact (hl g hg).elim (h.listed g) GRec.role_of_absent

/-- Judging and releasing requests. -/
theorem Slotted.of_judging {s t : State} (j : Judging s t) (h : s.Slotted) : t.Slotted := by
  induction j with
  | refl => exact h
  | trans _ _ ih ih' => exact ih' (ih h)
  | ru | sent | faults | file => exact h.of_same {}
  | fillList s l hl => exact h.setFillList hl
  | enqueue s a ha =>
    refine h.enqueue ?_
    unfold Access.lone
    split
    · rename_i o ho
      obtain ⟨n, rfl⟩ := ha o ho
      rfl
    · rfl
  | write s g => exact h.claimWrite g

end State

end Sys2Proof.Machine
end

