-- ==== Sys2Proof/Proofs/SlotMoves.lean ====
section
/-! What keeps every slot in its place as the part changes its state: the returns and failures of entries, and the states
that an entry goes through (R102 to R104, R109, R110, R113, R142). -/

namespace Sys2Proof.Machine

theorem GRec.settled_iff (r : GRec) : r.role.settled ↔ r.st.countsAbsent = false := by
  obtain ⟨st, committed, pending, cls⟩ := r
  cases st <;> simp [GRec.role, Role.settled, GState.countsAbsent]

namespace State

variable {s t : State}

/-! ## What a state change asks -/

/-- Nothing is under way that ties the part to its state: no load, no ATTACH_STORE, no write of a commit, no pattern and
no compare. -/
structure Quiet (s : State) : Prop where
  unbound : s.region.load = none ∧ s.attaching = false
  commit : s.store.flying ≠ some .commitIndex ∧ s.store.flying ≠ some .commitHeader
  pattern : Owner.pattern ∉ s.dram.lone
  compare : Owner.compare ∉ s.dram.lone

theorem Quiet.of_same (q : s.Quiet) (k : SameCourses s t) : t.Quiet where
  unbound := ⟨k.load_none.mpr q.unbound.1, (attaching_of_bringUp k.bringUp).trans q.unbound.2⟩
  commit := by
    rw [k.flying]
    exact q.commit
  pattern := by
    rw [k.lone]
    exact q.pattern
  compare := by
    rw [k.lone]
    exact q.compare

theorem attaching_of_none (h : t.engine.bringUp = none) : t.attaching = false := by
  unfold attaching
  rw [h]

/-- What is under way in `t` was so in `s`. -/
structure Carried (s t : State) : Prop where
  units : t.tracker.units ≤ s.tracker.units := by exact Nat.le_refl _
  attached : t.store.status = .attached → s.store.status = .attached ∨ t.engine.bringUp = none := by exact .inl
  retired : t.engine.retired = s.engine.retired ∨ t.engine.bringUp = none := by exact .inl rfl
  flying : ∀ p, t.store.flying = some p → s.store.flying = some p := by exact fun _ => id
  lone : ∀ o, o ∈ t.dram.lone → o ∈ s.dram.lone := by exact fun _ => id
  bringUp : t.engine.bringUp = s.engine.bringUp ∨ t.engine.bringUp = none := by exact .inl rfl
  railLoss : t.tc.railLoss = true → s.tc.railLoss = true := by exact id
  fetching : t.tc.fetching = s.tc.fetching := by exact rfl
  load : t.region.load = s.region.load ∨ t.region.load = none := by exact .inl rfl
  handling : t.side.handling = s.side.handling := by exact rfl

theorem Carried.not_attaching (k : Carried s t) (h : s.attaching = false) : t.attaching = false := by
  rcases k.bringUp with hb | hb
  · rwa [attaching_of_bringUp hb]
  · exact attaching_of_none hb

/-- Self-refresh is on its way in, held or on its way out in the states that it belongs to (R135, R141, R142, R146). -/
structure Refreshes (s : State) : Prop where
  entering : s.dram.cond = .enteringSr → s.tc.state = .parking ∧ (s.tc.parkPhase = .srEntry ∨ s.tc.parkPhase = .undo)
  asleep : s.dram.cond = .selfRefresh → s.tc.state = .sleeping
  exiting : s.dram.cond = .exitingSr → s.tc.state = .unparking ∨ (s.tc.state = .parking ∧ s.tc.parkPhase = .undo)
  rail : s.tc.railLoss = true → s.dram.cond.refreshing = false

theorem refreshes_of_awake (h : s.dram.cond.refreshing = false) : s.Refreshes where
  entering hc := by rw [hc] at h; cases h
  asleep hc := by rw [hc] at h; cases h
  exiting hc := by rw [hc] at h; cases h
  rail _ := h

/-- A change of state, where nothing under way ties the part to the state it leaves. -/
theorem CoursesHeld.move (h : s.CoursesHeld) (q : s.Quiet) (k : Carried s t) (hcond : t.Refreshes)
    (hroles : t.tc.state = .active ∨ t.tc.state = .unconfigured ∨ t.tc.state = .starting →
      ∀ g, (t.recOf g).role.settled)
    (hdetached : t.tc.state = .unconfigured ∨ t.tc.state = .starting → t.store.status ≠ .attached)
    (hsteps : t.engine.bringUp = none ∨ t.tc.state = .starting ∨ s.tc.state ≠ .starting)
    (hundone : t.tc.state = .parking → t.tc.parkPhase = .undo → t.tc.waitingAbort ≠ none)
    (hstill : t.stilled → s.store.noCopy) : t.CoursesHeld where
  settled := hroles
  detached := hdetached
  bringUp b hb := by
    have hsome : t.engine.bringUp ≠ none := by rw [hb]; exact nofun
    obtain ⟨hd, hj, hm⟩ := h.bringUp b (k.bringUp.resolve_right hsome ▸ hb)
    rw [k.retired.resolve_right hsome]
    refine ⟨fun ha => hd ((k.attached ha).resolve_right hsome), hj, fun hmode => ?_⟩
    exact (hsteps.resolve_left hsome).resolve_right fun hs => hs (hm hmode)
  load hl := k.load.elim (fun hk => absurd (hk.trans q.unbound.1) hl) fun hk => absurd hk hl
  fetching hf := by
    exact ⟨k.handling.trans (h.fetching (k.fetching ▸ hf)).1, k.not_attaching q.unbound.2⟩
  attaching ha := nomatch (k.not_attaching q.unbound.2).symm.trans ha
  commit hc := hc.elim (fun hc => absurd (k.flying _ hc) q.commit.1) fun hc => absurd (k.flying _ hc) q.commit.2
  pattern hp := absurd (k.lone _ hp) q.pattern
  compare hp := absurd (k.lone _ hp) q.compare
  entering := hcond.entering
  asleep := hcond.asleep
  exiting := hcond.exiting
  undone := hundone
  still hs g slot hf := hstill hs g slot (k.flying _ hf)
  rail hr := by
    obtain ⟨hnone, _, hcopy, hfill⟩ := h.rail (k.railLoss hr)
    refine ⟨List.eq_nil_iff_forall_not_mem.mpr fun o ho => ?_, hcond.rail hr, fun g slot hf => hcopy g slot (k.flying _ hf),
      fun g hf => hfill g (k.flying _ hf)⟩
    have hmem := k.lone o ho
    rw [hnone] at hmem
    cases hmem
  units := by
    rw [k.fetching]
    exact ⟨k.units.trans h.units.1, h.units.2⟩

/-- `t` is `s` in another state of the part, its bring-up gone on or over. -/
structure Moved (s t : State) : Prop extends SameTransfers s t where
  tracker : t.tracker = s.tracker := by exact rfl
  freeSlots : t.engine.freeSlots = s.engine.freeSlots := by exact rfl
  bringUp : t.engine.bringUp = s.engine.bringUp ∨ t.engine.bringUp = none := by exact .inl rfl
  railLoss : t.tc.railLoss = true → s.tc.railLoss = true := by exact id
  fetching : t.tc.fetching = s.tc.fetching := by exact rfl
  load : t.region.load = s.region.load := by exact rfl
  handling : t.side.handling = s.side.handling := by exact rfl

theorem Moved.carried (k : Moved s t) : Carried s t where
  units := (congrArg Tracker.units k.tracker).le
  attached ha := .inl (k.status ▸ ha)
  retired := .inl k.retired
  flying _ hp := k.flying ▸ hp
  lone _ ho := k.lone ▸ ho
  bringUp := k.bringUp
  railLoss := k.railLoss
  fetching := k.fetching
  load := .inl k.load
  handling := k.handling

theorem Slotted.move (h : s.Slotted) (q : s.Quiet) (k : Moved s t) (hcond : t.Refreshes)
    (hroles : t.tc.state = .active ∨ t.tc.state = .unconfigured ∨ t.tc.state = .starting →
      ∀ g, (s.recOf g).role.settled)
    (hdetached : t.tc.state = .unconfigured ∨ t.tc.state = .starting → s.store.status ≠ .attached)
    (hsteps : t.engine.bringUp = none ∨ t.tc.state = .starting ∨ s.tc.state ≠ .starting)
    (hundone : t.tc.state = .parking → t.tc.parkPhase = .undo → t.tc.waitingAbort ≠ none)
    (hstill : t.stilled → s.store.noCopy) : t.Slotted :=
  ⟨h.toSlotsPlaced.of_same k.toSameTransfers k.tracker k.freeSlots,
    h.toCoursesHeld.move q k.carried hcond (fun hst g => by rw [recOf, k.tracker]; exact hroles hst g)
      (fun hst => by rw [k.status]; exact hdetached hst) hsteps
      hundone hstill⟩

/-! ## What the states leave under way -/

theorem CoursesHeld.unbound (h : s.CoursesHeld) (hst : s.tc.state ≠ .active) :
    s.region.load = none ∧ s.attaching = false := by
  refine ⟨?_, Bool.eq_false_iff.mpr fun ha => hst (h.attaching ha).2.1⟩
  by_contra hl
  exact hst (h.load hl).1

theorem CoursesHeld.unbound_of_ready (h : s.CoursesHeld) (hr : s.side.handling = false) :
    s.region.load = none ∧ s.attaching = false := by
  refine ⟨?_, Bool.eq_false_iff.mpr fun ha => nomatch hr.symm.trans (h.attaching ha).1⟩
  by_contra hl
  obtain ⟨_, _, hh, _⟩ := h.load hl
  exact nomatch hr.symm.trans hh

theorem CoursesHeld.unbound_of_lost (h : s.CoursesHeld) (hr : s.tc.railLoss = true) :
    s.region.load = none ∧ s.attaching = false := by
  refine ⟨?_, Bool.eq_false_iff.mpr fun ha => nomatch hr.symm.trans (h.attaching ha).2.2⟩
  by_contra hl
  exact nomatch hr.symm.trans (h.load hl).2.1

theorem CoursesHeld.noCommit (h : s.CoursesHeld)
    (hc : s.tc.state ≠ .committing ∨ (s.engine.commitPhase ≠ .index ∧ s.engine.commitPhase ≠ .header)) :
    s.store.flying ≠ some .commitIndex ∧ s.store.flying ≠ some .commitHeader := by
  have hno : ¬ (s.store.flying = some .commitIndex ∨ s.store.flying = some .commitHeader) := fun hf => by
    obtain ⟨hst, hp⟩ := h.commit hf
    rcases hc with hc | ⟨h1, h2⟩
    · exact hc hst
    · exact hp.elim h1 h2
  exact ⟨fun hf => hno (.inl hf), fun hf => hno (.inr hf)⟩

theorem CoursesHeld.awake (h : s.CoursesHeld) (hn : ¬ s.stilled) : s.dram.cond.refreshing = false := by
  have hphase : ∀ p, s.tc.state = .parking → s.tc.parkPhase = p → p ≠ .none → p ≠ .drain → False :=
    fun p hst hp h1 h2 => hn (.inr (.inr ⟨hst, hp ▸ h1, hp ▸ h2⟩))
  cases hc : s.dram.cond with
  | enteringSr =>
    obtain ⟨hst, hp | hp⟩ := h.entering hc
    · exact (hphase _ hst hp (by decide) (by decide)).elim
    · exact (hphase _ hst hp (by decide) (by decide)).elim
  | selfRefresh => exact absurd (.inl (h.asleep hc)) hn
  | exitingSr =>
    rcases h.exiting hc with hst | ⟨hst, hp⟩
    · exact absurd (.inr (.inl hst)) hn
    · exact (hphase _ hst hp (by decide) (by decide)).elim
  | notUp | bringingUp | up => rfl

theorem CoursesHeld.quiet (h : s.CoursesHeld) (hn : ¬ s.stilled) (hl : s.region.load = none ∧ s.attaching = false)
    (hc : s.tc.state ≠ .committing ∨ (s.engine.commitPhase ≠ .index ∧ s.engine.commitPhase ≠ .header)) : s.Quiet where
  unbound := hl
  commit := h.noCommit hc
  pattern hp := by
    obtain ⟨hst, hph⟩ := h.pattern hp
    exact hn (.inr (.inr ⟨hst, by rw [hph]; decide, by rw [hph]; decide⟩))
  compare hp := hn (.inr (.inl (h.compare hp).1))

theorem not_stilled (h1 : s.tc.state ≠ .sleeping) (h2 : s.tc.state ≠ .unparking) (h3 : s.tc.state ≠ .parking) :
    ¬ s.stilled := by
  rintro (h | h | h)
  · exact h1 h
  · exact h2 h
  · exact h3 h.1

theorem not_stilled_of_drain (h : s.tc.state = .parking) (hp : s.tc.parkPhase = .none ∨ s.tc.parkPhase = .drain) :
    ¬ s.stilled := by
  rintro (hs | hs | ⟨_, h1, h2⟩)
  · rw [h] at hs
    cases hs
  · rw [h] at hs
    cases hs
  · exact hp.elim h1 h2

/-! ## ACTIVE and RESTORING -/

theorem granule_lt (hb : s.checkBlank) (hu : s.tracker.units ≤ 64) {g : Nat} (hg : s.recOf g ≠ GRec.blank) :
    g + 1 < s.granules ∧ g < 65536 := by
  have hlt : g + 1 < s.granules := Nat.lt_of_not_le fun hle => hg (hb g hle)
  have hsize : s.granules = 1024 * s.tracker.units := rfl
  omega

theorem SlotsPlaced.settled_of_anyAbsent (h : s.SlotsPlaced) (hu : s.tracker.units ≤ 64) (ha : s.anyAbsent = false)
    (g : Nat) : (s.recOf g).role.settled := by
  rw [GRec.settled_iff]
  by_contra hc
  have hst := (GState.countsAbsent_iff _).mp (Bool.eq_true_of_not_eq_false hc)
  have hne : s.recOf g ≠ GRec.blank := fun hblank => by
    rw [hblank] at hst
    exact hst.elim (nomatch ·) (nomatch ·)
  have hkeys : ∀ x ∈ s.tracker.table, x.1 < 65536 := fun x hx =>
    (granule_lt h.blank hu fun hblank => ((GTable.wf_iff _).mp h.sound.1).2 x hx
      ((GTable.get_of_mem h.sound.1 hx).symm.trans hblank)).2
  obtain ⟨_, habsent, _⟩ := summaryFlagsFollowTheTable s h.counted hkeys
  have htrue := habsent.mpr ⟨_, GTable.mem_of_get hne, hst⟩
  rw [ha] at htrue
  cases htrue

theorem returnTarget_eq (s : State) :
    s.returnTarget = .restoring ∧ s.anyAbsent = true ∨ s.returnTarget = .active ∧ s.anyAbsent = false := by
  unfold returnTarget
  cases s.anyAbsent with
  | true => exact .inl ⟨rfl, rfl⟩
  | false => exact .inr ⟨rfl, rfl⟩

/-- The part goes on running. -/
theorem Slotted.toRunning (h : s.Slotted) (q : s.Quiet) (k : Moved s t) (hcond : t.dram.cond.refreshing = false)
    (hst : t.tc.state = s.returnTarget) (hsteps : t.engine.bringUp = none ∨ s.tc.state ≠ .starting) : t.Slotted := by
  rcases s.returnTarget_eq with ⟨hr, _⟩ | ⟨hr, ha⟩
  · rw [hr] at hst
    refine h.move q k (refreshes_of_awake hcond) ?_ ?_ (hsteps.imp_right .inr) ?_ ?_ <;> simp [hst, stilled]
  · rw [hr] at hst
    refine h.move q k (refreshes_of_awake hcond) (fun _ => h.settled_of_anyAbsent h.units.1 ha) ?_ (hsteps.imp_right .inr) ?_ ?_ <;>
      simp [hst, stilled]

/-- The part is in an entry, or on its way back from IMAGED_OFF. -/
theorem Slotted.toEntry (h : s.Slotted) (q : s.Quiet) (k : Moved s t) (hcond : t.dram.cond.refreshing = false)
    (hst : t.tc.state = .saving ∨ t.tc.state = .committing ∨ t.tc.state = .reviving ∨ t.tc.state = .imagedOff ∨
      (t.tc.state = .parking ∧ t.tc.parkPhase = .drain))
    (hsteps : s.tc.state ≠ .starting) : t.Slotted := by
  rcases hst with hst | hst | hst | hst | ⟨hst, hp⟩
  case inr.inr.inr.inr =>
    refine h.move q k (refreshes_of_awake hcond) ?_ ?_ (.inr (.inr hsteps)) ?_ ?_ <;> simp [hst, hp, stilled]
  all_goals
    refine h.move q k (refreshes_of_awake hcond) ?_ ?_ (.inr (.inr hsteps)) ?_ ?_ <;> simp [hst, stilled]

end State

end Sys2Proof.Machine
end

