-- ==== Sys2Proof/Proofs/SlotTransfers.lean ====
section
/-! How copies, fills and zero fills begin and end, with every slot in one place (R12 to R14, R18, R19, R81, R95, R119,
R120, R122). -/

namespace Sys2Proof.Machine

namespace GRec

theorem role_copying_iff (r : GRec) (p : Option Nat) :
    r.role = .copying p ↔ (r.st = .copying ∨ r.st = .recopy) ∧ r.pending = p := by
  obtain ⟨st, committed, pending, cls⟩ := r
  cases st <;> simp [role]

theorem role_filling_iff (r : GRec) (b : Bool) : r.role = .filling b ↔ r.st = .filling ∧ r.cls.preserved = b := by
  obtain ⟨st, committed, pending, cls⟩ := r
  cases st <;> simp [role]

theorem role_absent_iff (r : GRec) : r.role = .absent ↔ r.st = .absent := ⟨st_of_absent, role_of_absent⟩

theorem role_of_dirty {r : GRec} (h : r.st = .dirty) : r.role = .free := by rw [role, h]

end GRec

namespace State

variable {s t : State} {g slot : Nat}

/-! ## One granule at a time -/

/-- The record of a granule answers to the transfers in flight. -/
structure Answers (s : State) (g : Nat) : Prop where
  copied : ∀ p, (s.recOf g).role = .copying p ↔ ∃ slot, p = some slot ∧ s.store.flying = some (.copy g slot)
  filled : s.store.flying = some (.fill g) → (s.recOf g).role = .filling true
  lined : Owner.fill g ∈ s.dram.lone → (s.recOf g).role = .filling true ∧ s.store.flying ≠ some (.fill g)
  zeroed : s.engine.zeroFill = some g → (s.recOf g).role = .filling false
  listed : g ∈ s.engine.fillList → (s.recOf g).role = .absent

theorem SlotsPlaced.answers (h : s.SlotsPlaced) (g : Nat) : s.Answers g :=
  ⟨h.copied g, h.filled g, h.lined g, h.zeroed g, h.listed g⟩

/-- The transfers of a granule are as they were, or over. -/
structure SameFor (s t : State) (x : Nat) : Prop where
  copy : ∀ slot, t.store.flying = some (.copy x slot) ↔ s.store.flying = some (.copy x slot)
  fill : t.store.flying = some (.fill x) → s.store.flying = some (.fill x)
  line : Owner.fill x ∈ t.dram.lone → Owner.fill x ∈ s.dram.lone
  zero : t.engine.zeroFill = some x → s.engine.zeroFill = some x
  list : x ∈ t.engine.fillList → x ∈ s.engine.fillList

theorem Answers.of_same (h : s.Answers g) (k : SameFor s t g) (hr : t.recOf g = s.recOf g) : t.Answers g where
  copied p := by
    simp only [hr, k.copy]
    exact h.copied p
  filled hf := hr ▸ h.filled (k.fill hf)
  lined hl := ⟨hr ▸ (h.lined (k.line hl)).1, fun hf => (h.lined (k.line hl)).2 (k.fill hf)⟩
  zeroed hz := hr ▸ h.zeroed (k.zero hz)
  listed hl := hr ▸ h.listed (k.list hl)

/-- A record that asks nothing has no transfer. -/
theorem Answers.idle (h : s.Answers g) (hr : (s.recOf g).role = .free) :
    s.store.flying ≠ some (.fill g) ∧ Owner.fill g ∉ s.dram.lone ∧ s.engine.zeroFill ≠ some g ∧
      g ∉ s.engine.fillList := by
  refine ⟨fun hf => ?_, fun hl => ?_, fun hz => ?_, fun hl => ?_⟩
  · exact nomatch hr.symm.trans (h.filled hf)
  · exact nomatch hr.symm.trans (h.lined hl).1
  · exact nomatch hr.symm.trans (h.zeroed hz)
  · exact nomatch hr.symm.trans (h.listed hl)

/-- A record whose fill may start has no transfer. -/
theorem Answers.waiting (h : s.Answers g) (hr : (s.recOf g).role = .absent) :
    s.store.flying ≠ some (.fill g) ∧ Owner.fill g ∉ s.dram.lone ∧ s.engine.zeroFill ≠ some g := by
  refine ⟨fun hf => ?_, fun hl => ?_, fun hz => ?_⟩
  · exact nomatch hr.symm.trans (h.filled hf)
  · exact nomatch hr.symm.trans (h.lined hl).1
  · exact nomatch hr.symm.trans (h.zeroed hz)

/-- A change of one record and of its granule's transfers. -/
theorem SlotsPlaced.of_one (h : s.SlotsPlaced) (hr : Ranged s t) (g : Nat)
    (hother : ∀ x, x ≠ g → t.recOf x = s.recOf x) (hsame : ∀ x, x ≠ g → SameFor s t x) (hg : t.Answers g)
    (hlone : t.dram.lone.Nodup) (hstatus : t.store.status = s.store.status) (hslots : t.store.slots = s.store.slots)
    (hcount : ∀ n, t.slotCount n = s.slotCount n)
    (hvacant : s.store.status ≠ .attached → ∀ n, (t.recOf g).slotCount n = 0) : t.SlotsPlaced := by
  have hall : ∀ x, t.Answers x := fun x => by
    by_cases hx : x = g
    · exact hx ▸ hg
    · exact (h.answers x).of_same (hsame x hx) (hother x hx)
  exact
    { sound := hr.sound h.sound
      counted := hr.counted h.counted
      blank := hr.blank h.sound h.blank
      placed := fun ha n => by
        rw [hcount, hslots]
        exact h.placed (hstatus ▸ ha) n
      vacant := fun ha x n => by
        rw [hstatus] at ha
        by_cases hx : x = g
        · exact hx ▸ hvacant ha n
        · rw [hother x hx]
          exact h.vacant ha x n
      copied := fun x => (hall x).copied
      filled := fun x => (hall x).filled
      lined := fun x => (hall x).lined
      lone := hlone
      zeroed := fun x => (hall x).zeroed
      listed := fun x => (hall x).listed }

theorem recOf_claim_ne {f : GRec → GRec} {frees : GRec → List Nat} {x : Nat} (hx : x ≠ g) :
    (s.claim g f frees).recOf x = s.recOf x := by
  rw [recOf_claim, if_neg hx]

theorem recOf_claim_same {f : GRec → GRec} {frees : GRec → List Nat} :
    (s.claim g f frees).recOf g = f (s.recOf g) := by
  rw [recOf_claim, if_pos rfl]

theorem SlotsPlaced.attached_of_slot (h : s.SlotsPlaced) {n : Nat} (hn : (s.recOf g).slotCount n ≠ 0) :
    s.store.status = .attached := by
  by_contra ha
  exact hn (h.vacant ha g n)

/-! ## Operations that go out and come to an end -/

theorem flying_of_none (h : s.store.op = none) : s.store.flying = none := by rw [StorePort.flying, h]; rfl

theorem stray_of_none (h : s.store.op = none) : s.store.stray = none := by rw [StorePort.stray, h]; rfl

theorem flying_of_op {o : StoreOp} (h : s.store.op = some o) (hd : o.disregarded = false) :
    s.store.flying = some o.purpose := by
  rw [StorePort.flying, h, Option.bind_some, hd]
  rfl

theorem flying_of_disregarded {o : StoreOp} (h : s.store.op = some o) (hd : o.disregarded = true) :
    s.store.flying = none := by
  rw [StorePort.flying, h, Option.bind_some, hd]
  rfl

theorem stray_of_op {o : StoreOp} (h : s.store.op = some o) (hd : o.disregarded = false) : s.store.stray = none := by
  rw [StorePort.stray, h, Option.bind_some, hd]
  cases o.purpose <;> rfl

theorem lone_withdraw (s : State) (gone : Owner → Bool) :
    (s.withdraw gone).dram.lone = s.dram.lone.filter fun o => !gone o := by
  show (s.dram.queue.filter _).filterMap Access.lone = (s.dram.queue.filterMap Access.lone).filter _
  rw [List.filterMap_filter, List.filter_filterMap]
  refine List.filterMap_congr fun a _ => ?_
  obtain ⟨src, line⟩ := a
  cases src with
  | engine o =>
    by_cases ho : o.lone = true <;> by_cases hg : gone o = true <;> simp [Access.lone, ho, hg, Option.filter]
  | _ => rfl

/-! ## Starts (R12, R18, R95, R119, R120) -/

theorem slotCount_copyStart {r : GRec} (h : r.st = .dirty) (hs : r.sound) (n : Nat) :
    (r.copyStart slot).slotCount n = r.slotCount n + [slot].count n := by
  obtain ⟨st, committed, pending, cls⟩ := r
  cases h
  obtain ⟨_, rfl⟩ := hs
  rfl

theorem role_copyStart {r : GRec} (h : r.st = .dirty) : (r.copyStart slot).role = .copying (some slot) := by
  obtain ⟨st, committed, pending, cls⟩ := r
  cases h
  rfl

/-- The claim of a copy start takes the slot from the free slot queue into the record. -/
theorem slotCount_claimCopyStart (h : s.SlotsPlaced) (hst : (s.recOf g).st = .dirty) {rest : List Nat}
    (hfree : s.engine.freeSlots = slot :: rest) (n : Nat) : (s.claimCopyStart g slot).slotCount n = s.slotCount n := by
  have hadd := slotCount_claim_add (s := s.setEngine { s.engine with freeSlots := s.engine.freeSlots.tail }) h.sound.1 g
    (GRec.copyStart slot) (fun _ => []) n
  have hone := slotCount_copyStart (slot := slot) hst (Tracker.sound_recAt h.sound g) n
  have hrec : (s.setEngine { s.engine with freeSlots := s.engine.freeSlots.tail }).recOf g = s.recOf g := rfl
  have htail : (s.setEngine { s.engine with freeSlots := s.engine.freeSlots.tail }).slotCount n + [slot].count n =
      s.slotCount n := by
    have hcons : (slot :: rest).count n = rest.count n + [slot].count n := by
      rw [List.count_cons, List.count_singleton]
    show s.engine.freeSlots.tail.count n + s.tracker.table.slotCount n + s.engine.retired.count n +
      s.store.stray.toList.count n + _ = s.engine.freeSlots.count n + s.tracker.table.slotCount n +
      s.engine.retired.count n + s.store.stray.toList.count n
    rw [hfree, List.tail_cons, hcons]
    omega
  have hrec' : (s.recOf g).copyStart slot = GRec.copyStart slot (s.recOf g) := rfl
  rw [hrec, hrec', List.count_nil] at hadd
  show ((s.setEngine _).claim g (GRec.copyStart slot) fun _ => []).slotCount n = _
  rw [hrec'] at hone
  omega

theorem sameCourses_claimKeep (s : State) (g : Nat) (f : GRec → GRec) : SameCourses s (s.claimKeep g f) :=
  s.sameCourses_claim g f _

theorem Slotted.startCopy (h : s.Slotted) (hop : s.store.op = none) (ha : s.store.status = .attached)
    (hst : (s.recOf g).st = .dirty) {rest : List Nat} (hfree : s.engine.freeSlots = slot :: rest)
    (hl : s.launches (.copy g slot)) : (s.startCopy g slot).Slotted := by
  have k := (s.setEngine { s.engine with freeSlots := s.engine.freeSlots.tail }).sameCourses_claimKeep g
    (GRec.copyStart slot)
  have hfly : (s.startCopy g slot).store.flying = some (.copy g slot) := rfl
  have hnone := flying_of_none hop
  have hlone : (s.startCopy g slot).dram.lone = s.dram.lone := by
    show (State.enqueue _ _).dram.lone = _
    rw [lone_enqueue]
    exact (List.append_nil _).trans k.lone
  have hrec : ∀ x, (s.startCopy g slot).recOf x = if x = g then (s.recOf g).copyStart slot else s.recOf x :=
    fun x => recOf_claim _ _ _ _ _
  have hidle := (h.answers g).idle (GRec.role_of_dirty hst)
  have hcopying := role_copyStart (slot := slot) hst
  refine ⟨h.toSlotsPlaced.of_one (s.ranged_startCopy g slot) g (fun x hx => (hrec x).trans (if_neg hx))
    (fun x hx => ⟨fun n => ?_, fun hf => ?_, fun hm => hlone ▸ hm, fun hz => k.zeroFill ▸ hz, fun hm => k.fillList ▸ hm⟩)
    ⟨fun p => ?_, fun hf => ?_, fun hm => ?_, fun hz => ?_, fun hm => ?_⟩ (hlone ▸ h.lone) k.status k.slots (fun n => ?_)
    fun hd => absurd ha hd, ?_⟩
  · rw [hfly, hnone]
    exact ⟨fun hc => absurd (Purpose.copy.inj (Option.some.inj hc)).1.symm hx, fun hc => nomatch hc⟩
  · rw [hfly] at hf
    cases hf
  · rw [hrec, if_pos rfl, hcopying, hfly]
    exact ⟨fun hp => ⟨slot, (Role.copying.inj hp).symm, rfl⟩, fun ⟨n, hp, hc⟩ => by
      rw [hp, (Purpose.copy.inj (Option.some.inj hc)).2]⟩
  · rw [hfly] at hf
    cases hf
  · exact absurd (hlone ▸ hm) hidle.2.1
  · exact absurd (k.zeroFill ▸ hz) hidle.2.2.1
  · exact absurd (k.fillList ▸ hm) hidle.2.2.2
  · have hstray : (s.startCopy g slot).store.stray = (s.claimCopyStart g slot).store.stray :=
      (stray_of_none hop).symm.trans k.stray.symm
    rw [← slotCount_claimCopyStart h.toSlotsPlaced hst hfree n]
    unfold slotCount
    rw [hstray]
    rfl
  · refine h.toCoursesHeld.of_state (SameState.trans (SameState.trans {} k.toSameState) {}) (fun x hx => ?_)
      (.inl k.retired) (fun p hp => .inr ?_) fun o ho => .inl (hlone ▸ ho)
    · rw [hrec]
      split
      · rw [hcopying]
        trivial
      · exact hx
    · rw [hfly] at hp
      exact Option.some.inj hp ▸ hl

theorem role_fillStart {r : GRec} (h : r.st = .absent) : r.fillStart.role = .filling r.cls.preserved := by
  obtain ⟨st, committed, pending, cls⟩ := r
  cases h
  rfl

theorem slotCount_claimFillStart (h : s.SlotsPlaced) (g n : Nat) : (s.claimFillStart g).slotCount n = s.slotCount n :=
  slotCount_claim (s := s.setEngine { s.engine with fillList := s.engine.fillList.filter fun x => decide (x ≠ g) })
    h.sound.1 (GRec.handsOn_fillStart _) n

theorem mem_fillList_claimFillStart {x : Nat} (hm : x ∈ (s.claimFillStart g).engine.fillList) :
    x ∈ s.engine.fillList ∧ x ≠ g := by
  unfold claimFillStart at hm
  rw [(sameCourses_claimKeep _ g GRec.fillStart).fillList] at hm
  have hm : x ∈ s.engine.fillList.filter fun x => decide (x ≠ g) := hm
  obtain ⟨hmem, hne⟩ := List.mem_filter.mp hm
  exact ⟨hmem, of_decide_eq_true hne⟩

theorem Slotted.startFill (h : s.Slotted) (hop : s.store.op = none) (hst : (s.recOf g).st = .absent)
    (hcls : (s.recOf g).cls.preserved = true) (hl : s.tc.railLoss = false) : (s.startFill g).Slotted := by
  have k := (s.setEngine { s.engine with
    fillList := s.engine.fillList.filter fun x => decide (x ≠ g) }).sameCourses_claimKeep g GRec.fillStart
  have hfly : (s.startFill g).store.flying = some (.fill g) := rfl
  have hnone := flying_of_none hop
  have hlone : (s.startFill g).dram.lone = s.dram.lone := k.lone
  have hrec : ∀ x, (s.startFill g).recOf x = if x = g then (s.recOf g).fillStart else s.recOf x :=
    fun x => recOf_claim _ _ _ _ _
  have hwait := (h.answers g).waiting (GRec.role_of_absent hst)
  have hfilling : (s.recOf g).fillStart.role = .filling true := (role_fillStart hst).trans (by rw [hcls])
  have hlist : ∀ x, x ∈ (s.startFill g).engine.fillList → x ∈ s.engine.fillList ∧ x ≠ g :=
    fun x hm => mem_fillList_claimFillStart hm
  refine ⟨h.toSlotsPlaced.of_one (s.ranged_startFill g) g (fun x hx => (hrec x).trans (if_neg hx))
    (fun x hx => ⟨fun n => ?_, fun hf => ?_, fun hm => hlone ▸ hm, fun hz => k.zeroFill ▸ hz,
      fun hm => (hlist x hm).1⟩)
    ⟨fun p => ?_, fun hf => ?_, fun hm => ?_, fun hz => ?_, fun hm => absurd rfl (hlist g hm).2⟩ (hlone ▸ h.lone)
    k.status k.slots (fun n => ?_) fun hd n => ?_, ?_⟩
  · rw [hfly, hnone]
    exact ⟨nofun, nofun⟩
  · rw [hfly] at hf
    exact absurd (Purpose.fill.inj (Option.some.inj hf)).symm hx
  · rw [hrec, if_pos rfl, hfilling, hfly]
    exact ⟨nofun, fun ⟨_, _, hc⟩ => nomatch hc⟩
  · rw [hrec, if_pos rfl]
    exact hfilling
  · exact absurd (hlone ▸ hm) hwait.2.1
  · exact absurd (k.zeroFill ▸ hz) hwait.2.2
  · have hstray : (s.startFill g).store.stray = (s.claimFillStart g).store.stray :=
      (stray_of_none hop).symm.trans k.stray.symm
    rw [← slotCount_claimFillStart h.toSlotsPlaced g n]
    unfold slotCount
    rw [hstray]
    rfl
  · rw [hrec, if_pos rfl]
    exact slotCount_of_handsOn (GRec.handsOn_fillStart _) (h.vacant hd g n)
  · refine h.toCoursesHeld.of_state (SameState.trans (SameState.trans {} k.toSameState) {}) (fun x hx => ?_)
      (.inl k.retired) (fun p hp => .inr ?_) fun o ho => .inl (hlone ▸ ho)
    · rw [hrec]
      split
      · rename_i hxg
        rw [hxg, GRec.role_of_absent hst] at hx
        exact hx.elim
      · exact hx
    · rw [hfly] at hp
      exact Option.some.inj hp ▸ hl

theorem Slotted.startZeroFill (h : s.Slotted) (hst : (s.recOf g).st = .absent)
    (hcls : (s.recOf g).cls.preserved = false) : (s.startZeroFill g).Slotted := by
  have k := (s.setEngine { s.engine with
    fillList := s.engine.fillList.filter fun x => decide (x ≠ g) }).sameCourses_claimKeep g GRec.fillStart
  have hfly : (s.startZeroFill g).store.flying = s.store.flying := k.flying
  have hlone : (s.startZeroFill g).dram.lone = s.dram.lone := by
    show (State.enqueue _ _).dram.lone = _
    rw [lone_enqueue]
    exact (List.append_nil _).trans k.lone
  have hrec : ∀ x, (s.startZeroFill g).recOf x = if x = g then (s.recOf g).fillStart else s.recOf x :=
    fun x => recOf_claim _ _ _ _ _
  have hwait := (h.answers g).waiting (GRec.role_of_absent hst)
  have hfilling : (s.recOf g).fillStart.role = .filling false := (role_fillStart hst).trans (by rw [hcls])
  have hzero : (s.startZeroFill g).engine.zeroFill = some g := rfl
  have hlist : ∀ x, x ∈ (s.startZeroFill g).engine.fillList → x ∈ s.engine.fillList ∧ x ≠ g :=
    fun x hm => mem_fillList_claimFillStart hm
  have hnocopy : ∀ n, s.store.flying ≠ some (.copy g n) := fun n hc =>
    nomatch (GRec.role_of_absent hst).symm.trans ((h.copied g _).mpr ⟨n, rfl, hc⟩)
  refine ⟨h.toSlotsPlaced.of_one (s.ranged_startZeroFill g) g (fun x hx => (hrec x).trans (if_neg hx))
    (fun x hx => ⟨fun n => by rw [hfly], fun hf => hfly ▸ hf, fun hm => hlone ▸ hm, fun hm => ?_,
      fun hm => (hlist x hm).1⟩)
    ⟨fun p => ?_, fun hf => absurd (hfly ▸ hf) hwait.1, fun hm => absurd (hlone ▸ hm) hwait.2.1, fun _ => ?_,
      fun hm => absurd rfl (hlist g hm).2⟩ (hlone ▸ h.lone)
    k.status k.slots (fun n => ?_) fun hd n => ?_, ?_⟩
  · exact absurd (Option.some.inj (hzero.symm.trans hm)).symm hx
  · rw [hrec, if_pos rfl, hfilling, hfly]
    exact ⟨nofun, fun ⟨n, _, hc⟩ => absurd hc (hnocopy n)⟩
  · rw [hrec, if_pos rfl]
    exact hfilling
  · exact slotCount_claimFillStart h.toSlotsPlaced g n
  · rw [hrec, if_pos rfl]
    exact slotCount_of_handsOn (GRec.handsOn_fillStart _) (h.vacant hd g n)
  · refine h.toCoursesHeld.of_state (SameState.trans (SameState.trans {} k.toSameState) {}) (fun x hx => ?_)
      (.inl k.retired) (fun p hp => .inl (hfly ▸ hp)) fun o ho => .inl (hlone ▸ ho)
    rw [hrec]
    split
    · rename_i hxg
      rw [hxg, GRec.role_of_absent hst] at hx
      exact hx.elim
    · exact hx

/-! ## Ends (R13, R14, R19, R81, R119, R120, R122) -/

theorem Answers.of_free (hr : (t.recOf g).role = .free) (hcopy : ∀ n, t.store.flying ≠ some (.copy g n))
    (hfill : t.store.flying ≠ some (.fill g)) (hline : Owner.fill g ∉ t.dram.lone)
    (hzero : t.engine.zeroFill ≠ some g) (hlist : g ∉ t.engine.fillList) : t.Answers g where
  copied p := by
    rw [hr]
    exact ⟨nofun, fun ⟨n, _, hc⟩ => absurd hc (hcopy n)⟩
  filled hf := absurd hf hfill
  lined hl := absurd hl hline
  zeroed hz := absurd hz hzero
  listed hl := absurd hl hlist

theorem flying_endOp (s : State) (timer : Timer) : (s.endOp timer).store.flying = none := rfl

theorem CoursesHeld.endOp (h : s.CoursesHeld) (timer : Timer) : (s.endOp timer).CoursesHeld :=
  h.of_state {} (fun _ => id) (.inl rfl) (fun _ hp => nomatch hp) fun _ ho => .inl ho

/-- An operation that is no copy comes to an end. -/
theorem Slotted.endOp (h : s.Slotted) {o : StoreOp} (hop : s.store.op = some o)
    (hp : ∀ g slot, o.purpose ≠ .copy g slot) (timer : Timer) : (s.endOp timer).Slotted := by
  have hstray : s.store.stray = none := by
    rw [StorePort.stray, hop, Option.bind_some]
    split
    · rename_i hc
      exact absurd hc (hp _ _)
    · rfl
  have hcopy : ∀ g slot, s.store.flying ≠ some (.copy g slot) := fun g slot hc => by
    obtain ⟨x, hx, hc⟩ := Option.bind_eq_some_iff.mp hc
    rw [hop] at hx
    cases hx
    split at hc
    · cases hc
    · exact hp g slot (Option.some.inj hc)
  refine ⟨⟨h.sound, h.counted, h.blank, fun ha n => ?_, h.vacant, fun g p => ?_, nofun, fun g hm => ?_, h.lone, h.zeroed,
    h.listed⟩, h.toCoursesHeld.endOp timer⟩
  · refine Eq.trans ?_ (h.placed ha n)
    show _ + (none : Option Nat).toList.count n = _ + s.store.stray.toList.count n
    rw [hstray]
    rfl
  · rw [flying_endOp]
    refine (h.copied g p).trans ⟨fun ⟨n, _, hc⟩ => absurd hc (hcopy g n), nofun⟩
  · exact ⟨(h.lined g hm).1, nofun⟩

theorem role_copyGood {r : GRec} {p : Option Nat} (h : r.role = .copying p) : r.copyGood.role = .free := by
  obtain ⟨hst, _⟩ := (GRec.role_copying_iff r p).mp h
  obtain ⟨st, committed, pending, cls⟩ := r
  rcases hst with rfl | rfl <;> rfl

theorem role_copyLost {r : GRec} {p : Option Nat} (h : r.role = .copying p) : r.copyLost.role = .free := by
  obtain ⟨hst, _⟩ := (GRec.role_copying_iff r p).mp h
  obtain ⟨st, committed, pending, cls⟩ := r
  rcases hst with rfl | rfl <;> rfl

theorem slotCount_copyLost {r : GRec} (h : r.role = .copying (some slot)) (n : Nat) :
    r.copyLost.slotCount n + [slot].count n = r.slotCount n := by
  obtain ⟨hst, hp⟩ := (GRec.role_copying_iff r _).mp h
  obtain ⟨st, committed, pending, cls⟩ := r
  cases hp
  rcases hst with rfl | rfl <;> rfl

/-- A copy comes to an end: its granule's record asks nothing more, and the slot is in the place it goes to. -/
theorem Slotted.copyOver (h : s.Slotted) (hfly : s.store.flying = some (.copy g slot)) (hr : Ranged s t)
    (hother : ∀ x, x ≠ g → t.recOf x = s.recOf x) (hrole : (t.recOf g).role = .free) (hnone : t.store.flying = none)
    (hlone : t.dram.lone.Sublist s.dram.lone) (hzero : t.engine.zeroFill = s.engine.zeroFill)
    (hlist : t.engine.fillList = s.engine.fillList) (hstatus : t.store.status = s.store.status)
    (hslots : t.store.slots = s.store.slots) (k : SameState s t)
    (hcount : ∀ n, t.slotCount n = s.slotCount n) : t.Slotted := by
  have hcopying := (h.copied g _).mpr ⟨slot, rfl, hfly⟩
  have ha : s.store.status = .attached := h.attached_of_slot (g := g) (n := slot) (by
    have := slotCount_copyLost hcopying slot
    rw [List.count_singleton_self] at this
    omega)
  refine ⟨h.toSlotsPlaced.of_one hr g hother (fun x hx => ⟨fun n => ?_, fun hf => ?_, fun hm => hlone.subset hm,
    fun hz => hzero ▸ hz, fun hm => hlist ▸ hm⟩) (.of_free hrole ?_ ?_ (fun hm => ?_) (fun hz => ?_) fun hm => ?_)
    (h.lone.sublist hlone) hstatus hslots hcount (fun hd => absurd ha hd), ?_⟩
  · rw [hnone, hfly]
    exact ⟨nofun, fun hc => absurd (Purpose.copy.inj (Option.some.inj hc)).1.symm hx⟩
  · rw [hnone] at hf
    cases hf
  · rw [hnone]
    exact nofun
  · rw [hnone]
    exact nofun
  · exact nomatch hcopying.symm.trans (h.lined g (hlone.subset hm)).1
  · exact nomatch hcopying.symm.trans (h.zeroed g (hzero ▸ hz))
  · exact nomatch hcopying.symm.trans (h.listed g (hlist ▸ hm))
  · refine h.toCoursesHeld.of_state k (fun x hx => ?_) (.inr (.inr ?_)) (fun p hp => ?_) fun o ho => .inl (hlone.subset ho)
    · by_cases hxg : x = g
      · rw [hxg, hrole]
        trivial
      · rwa [hother x hxg]
    · by_contra hb
      obtain ⟨b, hb⟩ := Option.ne_none_iff_exists'.mp hb
      exact (h.bringUp b hb).1 ha
    · rw [hnone] at hp
      cases hp

theorem sublist_lone_withdraw (s : State) (gone : Owner → Bool) :
    (s.withdraw gone).dram.lone.Sublist s.dram.lone := by
  rw [lone_withdraw]
  exact List.filter_sublist

/-- A copy in flight, its operation ended and its accesses withdrawn. -/
def copyEndedAt (s : State) (timer : Timer) : State := (s.endOp timer).withdraw fun o => o = .copy

theorem slotCount_copyEndedAt (hs : s.store.stray = none) (timer : Timer) (n : Nat) :
    (s.copyEndedAt timer).slotCount n = s.slotCount n := by
  show _ + (none : Option Nat).toList.count n = _ + s.store.stray.toList.count n
  rw [hs]
  rfl

theorem stray_of_flying {p : Purpose} (h : s.store.flying = some p) : s.store.stray = none := by
  obtain ⟨o, ho, hp⟩ := Option.bind_eq_some_iff.mp h
  refine stray_of_op ho ?_
  cases hd : o.disregarded with
  | false => rfl
  | true =>
    rw [hd] at hp
    cases hp

theorem lone_claim_copyEndedAt (s : State) (timer : Timer) (g : Nat) (f : GRec → GRec) (frees : GRec → List Nat) :
    ((s.copyEndedAt timer).claim g f frees).dram.lone.Sublist s.dram.lone := by
  rw [((s.copyEndedAt timer).sameCourses_claim g f frees).lone]
  exact sublist_lone_withdraw _ _

theorem Slotted.copyGood (h : s.Slotted) (hfly : s.store.flying = some (.copy g slot)) (timer : Timer) :
    ((s.endOp timer).copyGood g).Slotted := by
  have hcopying := (h.copied g _).mpr ⟨slot, rfl, hfly⟩
  have k := (s.copyEndedAt timer).sameCourses_claim g GRec.copyGood GRec.copyGoodFrees
  refine h.copyOver hfly ((s.ranged_endOp timer).trans (ranged_copyGood _ g)) (fun x hx => recOf_claim_ne hx)
    (recOf_claim_same (s := s.copyEndedAt timer) ▸ role_copyGood hcopying) k.flying ?_ k.zeroFill k.fillList k.status k.slots
    (SameState.trans {} k.toSameState) fun n => ?_
  · exact s.lone_claim_copyEndedAt timer g _ _
  · exact (slotCount_claim (s := s.copyEndedAt timer) h.sound.1 (GRec.handsOn_copyGood _) n).trans
      (slotCount_copyEndedAt (stray_of_flying hfly) timer n)

theorem count_retireSlot (s : State) (slot n : Nat) : (s.retireSlot slot).slotCount n = s.slotCount n + [slot].count n := by
  have happend : (s.engine.retired ++ [slot]).count n = s.engine.retired.count n + [slot].count n := List.count_append
  show s.engine.freeSlots.count n + s.tracker.table.slotCount n + (s.engine.retired ++ [slot]).count n +
    s.store.stray.toList.count n = s.engine.freeSlots.count n + s.tracker.table.slotCount n + s.engine.retired.count n +
    s.store.stray.toList.count n + [slot].count n
  omega

theorem Slotted.copyRetired (h : s.Slotted) (hfly : s.store.flying = some (.copy g slot)) (timer : Timer)
    (hr : Ranged s ((((s.endOp timer).withdraw fun o => o = .copy).claimCopyLost g).retireSlot slot)) :
    ((((s.endOp timer).withdraw fun o => o = .copy).claimCopyLost g).retireSlot slot).Slotted := by
  have hcopying := (h.copied g _).mpr ⟨slot, rfl, hfly⟩
  have k := (s.copyEndedAt timer).sameCourses_claimKeep g GRec.copyLost
  refine h.copyOver hfly hr (fun x hx => recOf_claim_ne hx)
    (recOf_claim_same (s := s.copyEndedAt timer) ▸ role_copyLost hcopying) k.flying ?_ k.zeroFill k.fillList k.status k.slots
    (SameState.trans (SameState.trans {} k.toSameState) {}) fun n => ?_
  · exact s.lone_claim_copyEndedAt timer g _ _
  · have hadd := slotCount_claim_add (s := s.copyEndedAt timer) h.sound.1 g GRec.copyLost (fun _ => []) n
    have hone := slotCount_copyLost hcopying n
    have hrec : (s.copyEndedAt timer).recOf g = s.recOf g := rfl
    rw [hrec, slotCount_copyEndedAt (stray_of_flying hfly), List.count_nil] at hadd
    have hretire := count_retireSlot ((s.copyEndedAt timer).claim g GRec.copyLost fun _ => []) slot n
    refine hretire.trans ?_
    omega

end State

end Sys2Proof.Machine
end

