-- ==== Sys2Proof/Proofs/SlotFills.lean ====
section
/-! How fills go on and end, with every slot in one place (R19, R81, R119, R120, R122). -/

namespace Sys2Proof.Machine

namespace GRec

theorem role_fillGood {r : GRec} {b : Bool} (h : r.role = .filling b) : r.fillGood.role = .free := by
  obtain ⟨hst, _⟩ := (role_filling_iff r b).mp h
  obtain ⟨st, committed, pending, cls⟩ := r
  cases hst
  cases hp : cls.preserved <;> simp [fillGood, role, hp]

theorem role_fillBad {r : GRec} (h : r.role = .filling true) : r.fillBad.role = .free := by
  obtain ⟨hst, hp⟩ := (role_filling_iff r true).mp h
  obtain ⟨st, committed, pending, cls⟩ := r
  cases hst
  have hp : cls.preserved = true := hp
  simp [fillBad, role, hp]

theorem slotCount_fillBad {r : GRec} (h : r.role = .filling true) (hs : r.sound) (n : Nat) :
    r.fillBad.slotCount n + [r.committed.getD 0].count n = r.slotCount n := by
  obtain ⟨hst, hp⟩ := (role_filling_iff r true).mp h
  obtain ⟨st, committed, pending, cls⟩ := r
  cases hst
  have hp : cls.preserved = true := hp
  obtain ⟨rfl, ⟨_, hc⟩ | ⟨hz, _⟩⟩ := hs
  · obtain ⟨c, rfl⟩ := Option.isSome_iff_exists.mp hc
    simp [fillBad, slotCount, hp]
  · rw [show cls = .zero from hz] at hp
    cases hp

/-- A granule whose fill comes from a slot holds one. -/
theorem slotCount_ne_zero_of_filling {r : GRec} (h : r.role = .filling true) (hs : r.sound) : ∃ n, r.slotCount n ≠ 0 :=
  ⟨r.committed.getD 0, by
    have := slotCount_fillBad h hs (r.committed.getD 0)
    rw [List.count_singleton_self] at this
    omega⟩

end GRec

namespace State

variable {s t : State} {g : Nat}

/-! ## The block of a fill arrives (R119) -/

theorem Slotted.fillArrives (h : s.Slotted) {o : StoreOp} (hop : s.store.op = some o) (hd : o.disregarded = false)
    (hp : o.purpose = .fill g) (timer : Timer) (block : Frame) : ((s.endOp timer).fillArrives g block).Slotted := by
  have hfly : s.store.flying = some (.fill g) := hp ▸ flying_of_op hop hd
  have hu := h.endOp hop (by rw [hp]; exact nofun) timer
  have hnew : Owner.fill g ∉ s.dram.lone := fun hm => (h.lined g hm).2 hfly
  have hlone : ((s.endOp timer).fillArrives g block).dram.lone = s.dram.lone ++ [.fill g] := lone_enqueue _ _
  refine ⟨⟨hu.sound, hu.counted, hu.blank, hu.placed, hu.vacant, hu.copied, nofun, fun x hm => ⟨?_, nofun⟩, ?_, hu.zeroed,
    hu.listed⟩, hu.toCoursesHeld.of_state {} (fun _ => id) (.inl rfl) (fun _ hf => .inl hf) fun x ho => ?_⟩
  · rw [hlone] at hm
    rcases List.mem_append.mp hm with hm | hm
    · exact (h.lined x hm).1
    · cases List.mem_singleton.mp hm
      exact h.filled g hfly
  · rw [hlone]
    exact h.lone.append (List.nodup_singleton _) fun x hx hm => hnew (List.mem_singleton.mp hm ▸ hx)
  · rw [hlone] at ho
    rcases List.mem_append.mp ho with ho | ho
    · exact .inl ho
    · cases List.mem_singleton.mp ho
      refine .inr ⟨?_, trivial⟩
      cases hr : s.tc.railLoss with
      | false => exact hr
      | true =>
        obtain ⟨_, _, _, hfill⟩ := h.rail hr
        exact absurd hfly (hfill g)

/-! ## A fill is over -/

/-- A fill comes to an end: its granule's record asks nothing more. -/
theorem Slotted.fillOver {b : Bool} (h : s.Slotted) (hrole : (s.recOf g).role = .filling b) (hr : Ranged s t)
    (hother : ∀ x, x ≠ g → t.recOf x = s.recOf x) (hfree : (t.recOf g).role = .free)
    (hfly : ∀ p, t.store.flying = some p ↔ s.store.flying = some p ∧ p ≠ .fill g)
    (hlone : t.dram.lone = s.dram.lone) (hline : Owner.fill g ∉ s.dram.lone)
    (hzero : ∀ x, t.engine.zeroFill = some x → s.engine.zeroFill = some x ∧ x ≠ g)
    (hlist : t.engine.fillList = s.engine.fillList) (hstatus : t.store.status = s.store.status)
    (hslots : t.store.slots = s.store.slots) (k : SameState s t)
    (hcount : ∀ n, t.slotCount n = s.slotCount n)
    (hvacant : s.store.status ≠ .attached → ∀ n, (t.recOf g).slotCount n = 0)
    (hretired : t.engine.retired = s.engine.retired ∨ t.engine.retired = [] ∨ s.engine.bringUp = none) : t.Slotted := by
  have hcopy : ∀ x n, t.store.flying = some (.copy x n) ↔ s.store.flying = some (.copy x n) := fun x n =>
    (hfly _).trans (and_iff_left nofun)
  refine ⟨h.toSlotsPlaced.of_one hr g hother (fun x hx => ⟨hcopy x, fun hf => ((hfly _).mp hf).1, fun hm => hlone ▸ hm,
    fun hz => (hzero x hz).1, fun hm => hlist ▸ hm⟩) (.of_free hfree (fun n hc => ?_) (fun hf => ?_) (fun hm => ?_)
    (fun hz => (hzero g hz).2 rfl) fun hm => ?_) (hlone ▸ h.lone) hstatus hslots hcount hvacant, ?_⟩
  · exact nomatch hrole.symm.trans ((h.copied g _).mpr ⟨n, rfl, (hcopy g n).mp hc⟩)
  · exact ((hfly _).mp hf).2 rfl
  · exact hline (hlone ▸ hm)
  · exact nomatch hrole.symm.trans (h.listed g (hlist ▸ hm))
  · refine h.toCoursesHeld.of_state k (fun x hx => ?_) hretired (fun p hp => .inl ((hfly p).mp hp).1)
      fun o ho => .inl (hlone ▸ ho)
    by_cases hxg : x = g
    · rw [hxg, hfree]
      trivial
    · rwa [hother x hxg]

theorem Slotted.fillGood (h : s.Slotted) (hrole : (s.recOf g).role = .filling true)
    (hfly : s.store.flying ≠ some (.fill g)) (hline : Owner.fill g ∉ s.dram.lone) : (s.fillGood g).Slotted := by
  have k := (s.dropFill g).sameCourses_claimKeep g GRec.fillGood
  have hr := (s.ranged_dropFill g).trans (ranged_claimFillGood _ g)
  refine Slotted.of_judging (judging_leftAbsent _ _) (h.fillOver hrole hr (fun x hx => recOf_claim_ne hx) ?_ (fun p => ?_)
    k.lone hline (fun x hz => ?_) k.fillList k.status k.slots (SameState.trans {} k.toSameState) (fun n => ?_) (fun hd n => ?_)
    (.inl k.retired))
  · exact recOf_claim_same (s := s.dropFill g) ▸ GRec.role_fillGood hrole
  · rw [show (State.claimFillGood _ g).store.flying = s.store.flying from k.flying]
    exact ⟨fun hp => ⟨hp, fun hc => hfly (hc ▸ hp)⟩, And.left⟩
  · have hz : s.engine.zeroFill = some x := k.zeroFill ▸ hz
    refine ⟨hz, fun hx => nomatch hrole.symm.trans (h.zeroed g (hx ▸ hz))⟩
  · exact slotCount_claim (s := s.dropFill g) h.sound.1 (GRec.handsOn_fillGood _) n
  · exact recOf_claim_same (s := s.dropFill g) ▸ slotCount_of_handsOn (GRec.handsOn_fillGood _) (h.vacant hd g n)

theorem Slotted.zeroFillGood (h : s.Slotted) (hz : s.engine.zeroFill = some g) : (s.zeroFillGood g).Slotted := by
  have hrole := h.zeroed g hz
  have hfly : s.store.flying ≠ some (.fill g) := fun hf => nomatch hrole.symm.trans (h.filled g hf)
  have hline : Owner.fill g ∉ s.dram.lone := fun hm => nomatch hrole.symm.trans (h.lined g hm).1
  have k := (s.setEngine { s.engine with zeroFill := none }).sameCourses_claimKeep g GRec.fillGood
  have hr : Ranged s ((s.setEngine { s.engine with zeroFill := none }).claimFillGood g) :=
    Ranged.trans (.of_kept (s.evolves_setEngine _)) (ranged_claimFillGood _ g)
  refine Slotted.of_judging (judging_leftAbsent _ _) (h.fillOver hrole hr (fun x hx => recOf_claim_ne hx) ?_ (fun p => ?_)
    k.lone hline (fun x hx => nomatch k.zeroFill ▸ hx) k.fillList k.status k.slots (SameState.trans {} k.toSameState) (fun n => ?_)
    (fun hd n => ?_) (.inl k.retired))
  · exact recOf_claim_same (s := s.setEngine { s.engine with zeroFill := none }) ▸ GRec.role_fillGood hrole
  · rw [show (State.claimFillGood _ g).store.flying = s.store.flying from k.flying]
    exact ⟨fun hp => ⟨hp, fun hc => hfly (hc ▸ hp)⟩, And.left⟩
  · exact slotCount_claim (s := s.setEngine { s.engine with zeroFill := none }) h.sound.1 (GRec.handsOn_fillGood _) n
  · exact recOf_claim_same (s := s.setEngine { s.engine with zeroFill := none }) ▸
      slotCount_of_handsOn (GRec.handsOn_fillGood _) (h.vacant hd g n)

/-- A fill that was answered otherwise, its slot retired (R19, R81). -/
def fillRetired (s : State) (g : Nat) : State :=
  ((s.dropFill g).claimFillBad g).retireSlot (((s.recOf g).committed).getD 0)

theorem Slotted.fillRetired (h : s.Slotted) (hrole : (s.recOf g).role = .filling true) (hop : s.store.op = none)
    (hline : Owner.fill g ∉ s.dram.lone) (hr : Ranged s (s.fillRetired g)) : (s.fillRetired g).Slotted := by
  have hsound := Tracker.sound_recAt h.sound g
  have k := (s.dropFill g).sameCourses_claimKeep g GRec.fillBad
  obtain ⟨m, hm⟩ := GRec.slotCount_ne_zero_of_filling hrole hsound
  have ha := h.attached_of_slot hm
  have hnone : (s.fillRetired g).store.flying = s.store.flying := k.flying
  refine h.fillOver hrole hr (fun x hx => recOf_claim_ne hx) ?_ (fun p => ?_) k.lone hline (fun x hz => ?_) k.fillList
    k.status k.slots (SameState.trans (SameState.trans {} k.toSameState) {}) (fun n => ?_) (fun hd => absurd ha hd) (.inr (.inr ?_))
  · exact recOf_claim_same (s := s.dropFill g) ▸ GRec.role_fillBad hrole
  · rw [hnone, flying_of_none hop]
    exact ⟨nofun, nofun⟩
  · have hz : s.engine.zeroFill = some x := k.zeroFill ▸ hz
    exact ⟨hz, fun hx => nomatch hrole.symm.trans (h.zeroed g (hx ▸ hz))⟩
  · have hadd := slotCount_claim_add (s := s.dropFill g) h.sound.1 g GRec.fillBad (fun _ => []) n
    have hone := GRec.slotCount_fillBad hrole hsound n
    have hrec : (s.dropFill g).recOf g = s.recOf g := rfl
    have hsame : (s.dropFill g).slotCount n = s.slotCount n := rfl
    rw [hrec, hsame, List.count_nil] at hadd
    refine (count_retireSlot _ _ n).trans ?_
    show ((s.dropFill g).claim g GRec.fillBad fun _ => []).slotCount n + _ = _
    omega
  · by_contra hb
    obtain ⟨b, hb⟩ := Option.ne_none_iff_exists'.mp hb
    exact (h.bringUp b hb).1 ha

end State

end Sys2Proof.Machine
end

