-- ==== Sys2Proof/Proofs/SlotLosses.lean ====
section
/-! What the loss of DRAM, of the rails and of the part's settings makes of the slots and of the courses under way
(R21, R123, R147, R149, R151). -/

namespace Sys2Proof.Machine

namespace GRec

/-- The slot that a copy in flight takes with it as its record gives it up. -/
def lost (r : GRec) : List Nat :=
  match r.role with
  | .copying p => p.toList
  | _ => []

theorem handsOn_dramLoss (r : GRec) : r.handsOn r.dramLoss (r.dramLossFrees ++ r.lost) := by
  intro n
  obtain ⟨st, committed, pending, cls⟩ := r
  by_cases hz : cls = .zero <;> cases st <;> simp [slotCount, dramLoss, dramLossFrees, lost, role, hz, Nat.add_comm]

theorem role_dramLoss (r : GRec) : r.dramLoss.role = .absent ∨ r.dramLoss.role = .free := by
  obtain ⟨st, committed, pending, cls⟩ := r
  by_cases hz : cls = .zero <;> cases st <;> simp [role, dramLoss, hz]

theorem role_dramLoss_of_absent {r : GRec} (h : r.role = .absent) : r.dramLoss.role = .absent := by
  have hst := (role_absent_iff r).mp h
  obtain ⟨st, committed, pending, cls⟩ := r
  cases hst
  rfl

end GRec

theorem GTable.count_flatMap_append (t : GTable) (a b : GRec → List Nat) (n : Nat) :
    (t.flatMap fun x => a x.2 ++ b x.2).count n = (t.flatMap fun x => a x.2).count n + (t.flatMap fun x => b x.2).count n := by
  induction t with
  | nil => rfl
  | cons x t ih =>
    simp only [List.flatMap_cons, List.count_append, ih]
    omega

/-! ## Copies and fills disregarded (R71, R123) -/

/-- The Store Port with a copy or a fill on its link disregarded. -/
def StorePort.letGo (p : StorePort) : StorePort := { p with op := State.dataDisregarded p.op }

theorem StorePort.flying_letGo {p : StorePort} {q : Purpose} (h : p.letGo.flying = some q) :
    p.flying = some q ∧ (∀ g n, q ≠ .copy g n) ∧ ∀ g, q ≠ .fill g := by
  obtain ⟨status, op, num, timer, back, slots⟩ := p
  cases op with
  | none => cases h
  | some o =>
    obtain ⟨_, _, _, _, purpose, d⟩ := o
    cases purpose <;> cases d <;> cases h <;> exact ⟨rfl, nofun, nofun⟩

/-- The slot of the copy in flight. -/
def StorePort.carried (p : StorePort) : Option Nat :=
  match p.flying with
  | some (.copy _ n) => some n
  | _ => none

theorem StorePort.carried_of_copy {p : StorePort} {g n : Nat} (h : p.flying = some (.copy g n)) :
    p.carried = some n := by
  rw [carried, h]

theorem StorePort.carried_of_not_copy {p : StorePort} (h : p.noCopy) : p.carried = none := by
  unfold carried
  split
  · rename_i g n hf
    exact absurd hf (h g n)
  · rfl

theorem StorePort.exists_copy {p : StorePort} (h : ¬ p.noCopy) : ∃ g n, p.flying = some (.copy g n) := by
  unfold noCopy at h
  push Not at h
  exact h

theorem StorePort.stray_letGo (p : StorePort) (n : Nat) :
    p.letGo.stray.toList.count n = p.stray.toList.count n + p.carried.toList.count n := by
  obtain ⟨status, op, num, timer, back, slots⟩ := p
  cases op with
  | none => rfl
  | some o =>
    obtain ⟨_, _, _, _, purpose, d⟩ := o
    cases purpose with
    | copy g slot => cases d <;> simp [letGo, stray, flying, carried, State.dataDisregarded]
    | _ => cases d <;> rfl

namespace State

variable {s t : State}

theorem SlotsPlaced.lost_eq (h : s.SlotsPlaced) (g : Nat) :
    (∃ n, s.store.flying = some (.copy g n) ∧ (s.recOf g).lost = [n]) ∨
      ((∀ n, s.store.flying ≠ some (.copy g n)) ∧ (s.recOf g).lost = []) := by
  by_cases hc : ∃ n, s.store.flying = some (.copy g n)
  · obtain ⟨n, hn⟩ := hc
    exact .inl ⟨n, hn, by rw [GRec.lost, (h.copied g (some n)).mpr ⟨n, rfl, hn⟩]; rfl⟩
  · have hno : ∀ n, s.store.flying ≠ some (.copy g n) := fun n hn => hc ⟨n, hn⟩
    refine .inr ⟨hno, ?_⟩
    unfold GRec.lost
    split
    · rename_i p hp
      obtain ⟨n, _, hn⟩ := (h.copied g p).mp hp
      exact absurd hn (hno n)
    · rfl

/-- The slots that the records of copies give up are that of the copy in flight. -/
theorem SlotsPlaced.count_lost (h : s.SlotsPlaced) (n : Nat) :
    (s.tracker.table.flatMap fun x => x.2.lost).count n = s.store.carried.toList.count n := by
  obtain ⟨N, hN⟩ := s.tracker.table.exists_bound
  have hsum : (s.tracker.table.flatMap fun x => x.2.lost).count n =
      ∑ g ∈ Finset.range N, (s.recOf g).lost.count n := by
    rw [List.count_flatMap]
    exact GTable.sum_map_eq h.sound.1 hN (fun r => r.lost.count n) rfl
  rw [hsum]
  by_cases hc : s.store.noCopy
  · rw [StorePort.carried_of_not_copy hc]
    refine Finset.sum_eq_zero fun g _ => ?_
    rcases h.lost_eq g with ⟨m, hm, _⟩ | ⟨_, hl⟩
    · exact absurd hm (hc g m)
    · rw [hl]
      rfl
  · obtain ⟨k, m, hk⟩ := StorePort.exists_copy hc
    have hlost : ∀ g, (s.recOf g).lost.count n = if g = k then [m].count n else 0 := fun g => by
      rcases h.lost_eq g with ⟨j, hj, hl⟩ | ⟨hno, hl⟩
      · rw [hk] at hj
        obtain ⟨rfl, rfl⟩ := Purpose.copy.inj (Option.some.inj hj)
        rw [hl, if_pos rfl]
      · rw [hl, if_neg fun hg : g = k => hno m (hg ▸ hk)]
        rfl
    have hmem : k ∈ Finset.range N := by
      have hne : s.recOf k ≠ GRec.blank := fun hb => by
        have hr := (h.copied k (some m)).mpr ⟨m, rfl, hk⟩
        rw [hb] at hr
        cases hr
      exact Finset.mem_range.mpr (hN _ (GTable.mem_of_get hne))
    rw [StorePort.carried_of_copy hk, Finset.sum_congr rfl fun g _ => hlost g, Finset.sum_ite_eq' _ k, if_pos hmem]
    rfl

/-! ## The DRAM-loss marking (R21, R123) -/

theorem recOf_markDramLoss (hwf : GTable.wf s.tracker.table = true) (g : Nat) :
    s.markDramLoss.recOf g = (s.recOf g).dramLoss := by
  have htable : s.disregardTransfers.tracker = s.tracker := tracker_disregardTransfers s
  have hrec : s.disregardTransfers.recOf g = s.recOf g := by rw [recOf, htable]; rfl
  rw [← hrec]
  exact recOf_claimAll _ (by rw [htable]; exact hwf) rfl

theorem store_markDramLoss (s : State) : s.markDramLoss.store = s.store.letGo := by
  rw [markDramLoss_eq]
  rfl

theorem lone_markDramLoss (s : State) :
    s.markDramLoss.dram.lone = s.dram.lone.filter fun o => !Owner.moves o := by
  rw [← lone_withdraw, withdraw_moves, markDramLoss_eq]
  rfl

theorem tracker_markDramLoss (s : State) : s.markDramLoss.tracker = s.claimDramLoss.tracker := by
  rw [markDramLoss_eq]
  rfl

theorem engine_markDramLoss (s : State) :
    s.markDramLoss.engine = { s.claimDramLoss.engine with fills := [], zeroFill := none } := by
  rw [markDramLoss_eq]
  rfl

theorem slotCount_markDramLoss (h : s.SlotsPlaced) (n : Nat) : s.markDramLoss.slotCount n = s.slotCount n := by
  have hmap := slotCount_mapRecs_handsOn (f := fun _ => GRec.dramLoss)
    (frees := fun r => r.dramLossFrees ++ r.lost) n s.tracker.table fun x _ => x.2.handsOn_dramLoss
  have htable : s.claimDramLoss.tracker.table = GTable.mapRecs s.tracker.table fun _ => GRec.dramLoss := by
    rw [tracker_claimDramLoss]
    rfl
  rw [GTable.count_flatMap_append, h.count_lost] at hmap
  rw [slotCount, store_markDramLoss, StorePort.stray_letGo, tracker_markDramLoss, engine_markDramLoss,
    engine_claimDramLoss, htable]
  show (s.engine.freeSlots ++ s.tracker.table.flatMap fun x => x.2.dramLossFrees).count n + _ +
    s.engine.retired.count n + _ = s.engine.freeSlots.count n + s.tracker.table.slotCount n + s.engine.retired.count n +
      s.store.stray.toList.count n
  rw [List.count_append]
  omega

theorem SlotsPlaced.markDramLoss (h : s.SlotsPlaced) : s.markDramLoss.SlotsPlaced := by
  have hr := s.ranged_markDramLoss
  have hrec := recOf_markDramLoss h.sound.1
  have hstore := s.store_markDramLoss
  have hlone := s.lone_markDramLoss
  refine ⟨hr.sound h.sound, hr.counted h.counted, hr.blank h.sound h.blank, fun ha n => ?_, fun ha g n => ?_,
    fun g p => ?_, fun g hf => ?_, fun g hm => ?_, ?_, fun g hz => ?_, fun g hm => ?_⟩
  · rw [hstore] at ha ⊢
    exact (slotCount_markDramLoss h n).trans (h.placed ha n)
  · rw [hstore] at ha
    rw [hrec]
    exact slotCount_of_handsOn (GRec.handsOn_dramLoss _) (h.vacant ha g n)
  · rw [hrec, hstore]
    constructor
    · intro hc
      rcases GRec.role_dramLoss (s.recOf g) with hr | hr <;> rw [hr] at hc <;> cases hc
    · rintro ⟨n, _, hc⟩
      exact absurd rfl ((StorePort.flying_letGo hc).2.1 g n)
  · rw [hstore] at hf
    exact absurd rfl ((StorePort.flying_letGo hf).2.2 g)
  · rw [hlone] at hm
    cases (List.mem_filter.mp hm).2
  · rw [hlone]
    exact h.lone.filter _
  · rw [engine_markDramLoss] at hz
    cases hz
  · rw [engine_markDramLoss, engine_claimDramLoss] at hm
    rw [hrec]
    exact GRec.role_dramLoss_of_absent (h.listed g hm)

theorem kept_markDramLoss (s : State) :
    s.markDramLoss.tc = s.tc ∧ s.markDramLoss.region = s.region ∧ s.markDramLoss.side = s.side ∧
      s.markDramLoss.dram.cond = s.dram.cond ∧ s.markDramLoss.engine.retired = s.engine.retired ∧
      s.markDramLoss.engine.bringUp = s.engine.bringUp ∧ s.markDramLoss.tracker.units = s.tracker.units := by
  rw [tracker_markDramLoss, engine_markDramLoss, engine_claimDramLoss, tracker_claimDramLoss, markDramLoss_eq]
  exact ⟨rfl, rfl, rfl, rfl, rfl, rfl, rfl⟩

/-- What is under way after the marking was so before it. -/
theorem carried_markDramLoss (s : State) : Carried s s.markDramLoss := by
  obtain ⟨htc, hregion, hside, hcond, hretired, hbring, hunits⟩ := s.kept_markDramLoss
  exact
    { units := hunits.le
      attached := fun ha => .inl (by rwa [store_markDramLoss] at ha)
      retired := .inl hretired
      flying := fun p hp => by
        rw [store_markDramLoss] at hp
        exact (StorePort.flying_letGo hp).1
      lone := fun o ho => by
        rw [lone_markDramLoss] at ho
        exact List.mem_of_mem_filter ho
      bringUp := .inl hbring
      railLoss := by rw [htc]; exact id
      fetching := by rw [htc]
      load := .inl (by rw [hregion])
      handling := by rw [hside] }

theorem Carried.trans {u : State} (a : Carried s t) (b : Carried t u)
    (hend : t.engine.bringUp = none → u.engine.bringUp = none := by exact id) : Carried s u where
  units := b.units.trans a.units
  attached ha := (b.attached ha).elim (fun ha => (a.attached ha).imp_right hend) .inr
  retired := b.retired.elim (fun hb => a.retired.imp hb.trans hend) .inr
  flying p := a.flying p ∘ b.flying p
  lone o := a.lone o ∘ b.lone o
  bringUp := b.bringUp.elim (fun hb => a.bringUp.imp hb.trans hb.trans) .inr
  railLoss := a.railLoss ∘ b.railLoss
  fetching := b.fetching.trans a.fetching
  load := b.load.elim (fun hb => a.load.imp hb.trans hb.trans) .inr
  handling := b.handling.trans a.handling

/-- What follows the marking as IMAGED_OFF is entered (R147). -/
def imagedOffAfter (s : State) : State :=
  let s := s.setDram { s.dram with cond := .notUp }
  let s := s.setTc { s.tc with railLoss := false, parkPhase := .none, sleepTimer := Timer.stopped }
  let s := s.setEngine { s.engine with paceTimer := Timer.stopped, fillTimer := Timer.stopped, grant := false }
  s.enterState .imagedOff

theorem sameTransfers_imagedOffAfter (s : State) : SameTransfers s s.imagedOffAfter := {}

theorem carried_imagedOffAfter (s : State) : Carried s s.imagedOffAfter := { railLoss := nofun }

theorem SlotsPlaced.imagedOffAfter (h : s.SlotsPlaced) : s.imagedOffAfter.SlotsPlaced :=
  h.of_same (sameTransfers_imagedOffAfter s) rfl rfl

theorem CoursesHeld.imagedOffAfter {u : State} (h : s.CoursesHeld) (q : s.Quiet) (k : Carried s u)
    (hst : s.tc.state ≠ .starting) : u.imagedOffAfter.CoursesHeld := by
  have hstate : u.imagedOffAfter.tc.state = .imagedOff := rfl
  refine h.move q (k.trans (carried_imagedOffAfter u)) (refreshes_of_awake rfl) ?_ ?_ (.inr (.inr hst)) ?_ ?_
  · rw [hstate]
    exact fun hc => hc.elim nofun fun hc => hc.elim nofun nofun
  · rw [hstate]
    exact fun hc => hc.elim nofun nofun
  · rw [hstate]
    exact nofun
  · rintro (hc | hc | ⟨hc, _⟩) <;> exact nomatch hstate.symm.trans hc

/-- IMAGED_OFF is entered from a state that has nothing under way (R147). -/
theorem Slotted.enterImagedOff (h : s.Slotted) (q : s.Quiet) (hst : s.tc.state ≠ .starting) :
    s.enterImagedOff.Slotted := by
  exact ⟨h.toSlotsPlaced.markDramLoss.imagedOffAfter, h.toCoursesHeld.imagedOffAfter q s.carried_markDramLoss hst⟩

/-! ## The UNCONFIGURED path (R151) -/

theorem role_of_empty {s : State} (h : s.tracker.table = []) (g : Nat) : s.recOf g = GRec.blank := by
  unfold recOf Tracker.recAt
  rw [h]
  rfl

/-- A part whose table is empty, with no store and nothing of a fill under way. -/
theorem slotsPlaced_of_empty (htable : s.tracker.table = []) (hcounted : s.tracker.counted)
    (hstatus : s.store.status ≠ .attached) (hcopy : s.store.noCopy) (hfill : ∀ g, s.store.flying ≠ some (.fill g))
    (hline : ∀ g, Owner.fill g ∉ s.dram.lone) (hlone : s.dram.lone.Nodup) (hzero : s.engine.zeroFill = none)
    (hlist : s.engine.fillList = []) : s.SlotsPlaced where
  sound := ⟨by rw [htable]; exact GTable.wf_nil, by rw [htable]; exact nofun⟩
  counted := hcounted
  blank := checkBlank_of_nil htable
  placed ha := absurd ha hstatus
  vacant _ g n := by rw [role_of_empty htable]; rfl
  copied g p := by
    rw [role_of_empty htable]
    exact ⟨nofun, fun ⟨n, _, hc⟩ => absurd hc (hcopy g n)⟩
  filled g hf := absurd hf (hfill g)
  lined g hm := absurd hm (hline g)
  lone := hlone
  zeroed g hz := by rw [hzero] at hz; cases hz
  listed g hm := by rw [hlist] at hm; cases hm

/-- The UNCONFIGURED path by its blocks, but for the state's own entry. -/
def unconfiguredAfter (s : State) : State :=
  let s := s.claimClear.clearEngine
  let s := s.setRegion { s.region with file := RegionFile.empty }
  let s := s.disregardOp
  let s := s.setStore { s.store with status := .detached }
  let s := s.setTc { s.tc with railLoss := false, start := none, parkPhase := .none }
  s.enterState .unconfigured

theorem flying_disregardOp (s : State) : s.disregardOp.store.flying = none := by
  show (s.store.op.map _).bind _ = none
  cases s.store.op <;> rfl

theorem slotted_unconfiguredAfter (u : State) (hload : u.region.load = none) (hlone : u.dram.lone = [])
    (hcond : u.dram.cond.refreshing = false) (hfetch : u.tc.fetching ≠ none → u.side.handling = true)
    (hunits : ∀ r, u.tc.fetching = some r → r.units ≤ 64) : u.unconfiguredAfter.Slotted := by
  have hfly : u.unconfiguredAfter.store.flying = none := flying_disregardOp u
  have htable : u.unconfiguredAfter.tracker.table = [] := rfl
  have hl : u.unconfiguredAfter.dram.lone = [] := hlone
  have hc : u.unconfiguredAfter.dram.cond.refreshing = false := hcond
  refine ⟨slotsPlaced_of_empty htable Tracker.counted_reset nofun (fun g n => by rw [hfly]; exact nofun)
    (fun g => by rw [hfly]; exact nofun) (fun g => by rw [hl]; exact nofun) (by rw [hl]; exact List.nodup_nil) rfl rfl,
    ?_⟩
  exact
    { settled := fun _ g => by rw [role_of_empty htable]; trivial
      detached := fun _ => nofun
      bringUp := fun _ hb => nomatch hb
      load := fun hn => absurd hload hn
      fetching := fun hf => ⟨hfetch hf, rfl⟩
      attaching := fun ha => nomatch ha
      commit := fun hp => by rw [hfly] at hp; exact hp.elim nofun nofun
      pattern := fun hp => by rw [hl] at hp; cases hp
      compare := fun hp => by rw [hl] at hp; cases hp
      entering := fun he => by rw [he] at hc; cases hc
      asleep := fun he => by rw [he] at hc; cases hc
      exiting := fun he => by rw [he] at hc; cases hc
      undone := fun hs => nomatch hs
      still := fun _ g n => by rw [hfly]; exact nofun
      rail := fun hr => nomatch hr
      units := ⟨Nat.zero_le _, hunits⟩ }

theorem Slotted.toUnconfigured (h : s.Slotted) (hload : s.region.load = none) (hlone : s.dram.lone = [])
    (hcond : s.dram.cond.refreshing = false) : s.toUnconfigured.Slotted := by
  have k := s.sameCourses_claimAll (fun _ => GRec.abandon) GRec.abandonFrees
  exact slotted_unconfiguredAfter s.claimAbandon (k.load_none.mpr hload) (k.lone.trans hlone)
    ((congrArg _ k.cond).trans hcond) (fun hf => k.handling.trans
      (h.fetching fun hn => hf (k.fetching_none.mpr hn)).1)
    fun _ => k.fetching_units h.units.2

end State

end Sys2Proof.Machine
end

