-- ==== Sys2Proof/Proofs/SlotRails.lean ====
section
/-! Rails that fall keep every slot in its place (R49, R71, R149). -/

namespace Sys2Proof.Machine

/-- The Store Port with the operation on its link disregarded (R71). -/
def StorePort.disregard (p : StorePort) : StorePort := { p with op := p.op.map fun o => { o with disregarded := true } }

theorem StorePort.flying_disregard (p : StorePort) : p.disregard.flying = none := by
  show (p.op.map _).bind _ = none
  cases p.op <;> rfl

theorem StorePort.stray_disregard_letGo (p : StorePort) : p.letGo.disregard.stray = p.letGo.stray := by
  obtain ⟨status, op, num, timer, back, slots⟩ := p
  cases op with
  | none => rfl
  | some o =>
    obtain ⟨_, _, _, _, purpose, d⟩ := o
    cases purpose <;> rfl

namespace State

variable {s t : State}

/-! ## What a rail loss leaves (R149) -/

theorem store_takeRailLoss (s : State) :
    s.takeRailLoss.store = s.store.letGo ∨ s.takeRailLoss.store = s.store.letGo.disregard := by
  rw [takeRailLoss_blocks]
  show ({ s.store with op := s.lossReported.opAtLoss } : StorePort) = _ ∨
    ({ s.store with op := s.lossReported.opAtLoss } : StorePort) = _
  unfold opAtLoss
  split
  · exact .inr rfl
  · exact .inl rfl

theorem flying_takeRailLoss {p : Purpose} (hp : s.takeRailLoss.store.flying = some p) :
    s.store.flying = some p ∧ (∀ g n, p ≠ .copy g n) ∧ ∀ g, p ≠ .fill g := by
  rcases s.store_takeRailLoss with hs | hs
  · exact StorePort.flying_letGo (hs ▸ hp)
  · rw [hs, StorePort.flying_disregard] at hp
    cases hp

theorem stray_takeRailLoss (s : State) (n : Nat) :
    s.takeRailLoss.store.stray.toList.count n = s.store.stray.toList.count n + s.store.carried.toList.count n := by
  rw [← StorePort.stray_letGo]
  rcases s.store_takeRailLoss with hs | hs
  · rw [hs]
  · rw [hs, StorePort.stray_disregard_letGo]

/-- The rest of what a rail loss leaves. -/
structure Lost (s t : State) : Prop where
  state : t.tc.state = s.tc.state
  railLoss : t.tc.railLoss = true
  park : t.tc.parkPhase = .none
  fetching : t.tc.fetching = none
  load : t.region.load = none
  bringUp : t.engine.bringUp = none
  phase : t.engine.commitPhase = s.engine.commitPhase
  freeSlots : t.engine.freeSlots = s.engine.freeSlots
  retired : t.engine.retired = s.engine.retired
  fillList : t.engine.fillList = s.engine.fillList
  zeroFill : t.engine.zeroFill = none
  cond : t.dram.cond = .notUp
  queue : t.dram.queue = []
  tracker : t.tracker = s.lossMarked.dropCopy.tracker

theorem lost_takeRailLoss (s : State) : Lost s s.takeRailLoss := by
  rw [takeRailLoss_blocks]
  exact ⟨rfl, rfl, rfl, rfl, rfl, rfl, rfl, rfl, rfl, rfl, rfl, rfl, rfl, rfl⟩

theorem tracker_dropCopy_of_copy {g slot : Nat} (hf : s.store.flying = some (.copy g slot)) :
    s.lossMarked.dropCopy.tracker = s.tracker.putRec g (s.recOf g).copyLost := by
  obtain ⟨o, ho, hp⟩ := Option.bind_eq_some_iff.mp hf
  have hd : o.disregarded = false := by
    cases hd : o.disregarded with
    | false => rfl
    | true => rw [hd] at hp; cases hp
  rw [hd] at hp
  rw [dropCopy_of_copy (s := s.lossMarked) ho (Option.some.inj hp) hd, claimCopyLost, claimKeep, tracker_claim]
  rfl

theorem tracker_dropCopy_of_not_copy (hf : s.store.noCopy) : s.lossMarked.dropCopy.tracker = s.tracker := by
  rw [dropCopy_of_not_inFlight]
  · rfl
  · refine Bool.eq_false_iff.mpr fun hc => ?_
    obtain ⟨o, g, slot, ho, hp, hd⟩ := (s.lossMarked.copyInFlight_iff).mp hc
    exact hf g slot (hp ▸ flying_of_op ho hd)

/-- What a rail loss makes of a record. -/
theorem recOf_takeRailLoss (s : State) (x : Nat) :
    s.takeRailLoss.recOf x = s.recOf x ∧ (∀ n, s.store.flying ≠ some (.copy x n)) ∨
      ∃ n, s.store.flying = some (.copy x n) ∧ s.takeRailLoss.recOf x = (s.recOf x).copyLost := by
  by_cases hc : s.store.noCopy
  · refine .inl ⟨?_, hc x⟩
    rw [recOf, s.lost_takeRailLoss.tracker, tracker_dropCopy_of_not_copy hc]
    rfl
  · obtain ⟨g, slot, hg⟩ := StorePort.exists_copy hc
    have hrec : s.takeRailLoss.recOf x = if x = g then (s.recOf g).copyLost else s.recOf x := by
      rw [recOf, s.lost_takeRailLoss.tracker, tracker_dropCopy_of_copy hg, Tracker.recAt_putRec]
      rfl
    by_cases hx : x = g
    · rw [hrec, if_pos hx, hx]
      exact .inr ⟨slot, hg, rfl⟩
    · rw [hrec, if_neg hx, hg]
      exact .inl ⟨rfl, fun n hn => hx (Purpose.copy.inj (Option.some.inj hn)).1.symm⟩

theorem role_takeRailLoss (h : s.SlotsPlaced) (x : Nat) :
    s.takeRailLoss.recOf x = s.recOf x ∧ (∀ p, (s.recOf x).role ≠ .copying p) ∨
      (∃ n, (s.recOf x).role = .copying (some n)) ∧ (s.takeRailLoss.recOf x).role = .free := by
  rcases recOf_takeRailLoss s x with ⟨hr, hno⟩ | ⟨n, hn, hr⟩
  · refine .inl ⟨hr, fun p hp => ?_⟩
    obtain ⟨n, _, hn⟩ := (h.copied x p).mp hp
    exact hno n hn
  · have hrole := (h.copied x (some n)).mpr ⟨n, rfl, hn⟩
    exact .inr ⟨⟨n, hrole⟩, hr ▸ role_copyLost hrole⟩

theorem slotCount_takeRailLoss (h : s.SlotsPlaced) (n : Nat) : s.takeRailLoss.slotCount n = s.slotCount n := by
  have l := s.lost_takeRailLoss
  have htable : s.takeRailLoss.tracker.table.slotCount n + s.store.carried.toList.count n =
      s.tracker.table.slotCount n := by
    rw [l.tracker]
    by_cases hc : s.store.noCopy
    · rw [tracker_dropCopy_of_not_copy hc, StorePort.carried_of_not_copy hc]
      rfl
    · obtain ⟨g, slot, hg⟩ := StorePort.exists_copy hc
      have hone := slotCount_copyLost ((h.copied g (some slot)).mpr ⟨slot, rfl, hg⟩) n
      have hput := GTable.slotCount_put h.sound.1 g (s.recOf g).copyLost n
      rw [tracker_dropCopy_of_copy hg, StorePort.carried_of_copy hg]
      have hget : GTable.get s.tracker.table g = s.recOf g := rfl
      rw [hget] at hput
      show (GTable.put s.tracker.table g (s.recOf g).copyLost).slotCount n + [slot].count n = _
      omega
  rw [slotCount, slotCount, l.freeSlots, l.retired, stray_takeRailLoss]
  omega

theorem SlotsPlaced.takeRailLoss (h : s.SlotsPlaced) : s.takeRailLoss.SlotsPlaced := by
  have l := s.lost_takeRailLoss
  have hr := s.ranged_takeRailLoss
  have hlone : s.takeRailLoss.dram.lone = [] := by rw [DramPort.lone, l.queue]; rfl
  have hstatus : s.takeRailLoss.store.status = s.store.status := by
    rcases s.store_takeRailLoss with hs | hs <;> rw [hs] <;> rfl
  have hslots : s.takeRailLoss.store.slots = s.store.slots := by
    rcases s.store_takeRailLoss with hs | hs <;> rw [hs] <;> rfl
  refine ⟨hr.sound h.sound, hr.counted h.counted, hr.blank h.sound h.blank, fun ha n => ?_, fun ha g n => ?_,
    fun g p => ?_, fun g hf => ?_, fun g hm => ?_, ?_, fun g hz => ?_, fun g hm => ?_⟩
  · rw [slotCount_takeRailLoss h, hslots]
    exact h.placed (hstatus ▸ ha) n
  · rw [hstatus] at ha
    rcases recOf_takeRailLoss s g with ⟨hrec, _⟩ | ⟨m, hm, _⟩
    · rw [hrec]
      exact h.vacant ha g n
    · refine absurd (h.attached_of_slot (g := g) (n := m) ?_) ha
      have := slotCount_copyLost ((h.copied g (some m)).mpr ⟨m, rfl, hm⟩) m
      rw [List.count_singleton_self] at this
      omega
  · refine ⟨fun hc => ?_, fun ⟨n, _, hc⟩ => absurd rfl ((flying_takeRailLoss hc).2.1 g n)⟩
    rcases role_takeRailLoss h g with ⟨hrec, hno⟩ | ⟨_, hfree⟩
    · rw [hrec] at hc
      exact absurd hc (hno p)
    · rw [hfree] at hc
      cases hc
  · exact absurd rfl ((flying_takeRailLoss hf).2.2 g)
  · rw [hlone] at hm
    cases hm
  · rw [hlone]
    exact List.nodup_nil
  · rw [l.zeroFill] at hz
    cases hz
  · have habsent := h.listed g (l.fillList ▸ hm)
    rcases role_takeRailLoss h g with ⟨hrec, _⟩ | ⟨⟨n, hn⟩, _⟩
    · rw [hrec]
      exact habsent
    · exact nomatch habsent.symm.trans hn

theorem Slotted.takeRailLoss (h : s.Slotted) : s.takeRailLoss.Slotted := by
  have l := s.lost_takeRailLoss
  have hlone : s.takeRailLoss.dram.lone = [] := by rw [DramPort.lone, l.queue]; rfl
  have hstatus : s.takeRailLoss.store.status = s.store.status := by
    rcases s.store_takeRailLoss with hs | hs <;> rw [hs] <;> rfl
  have hcopy : s.takeRailLoss.store.noCopy := fun g n hf => (flying_takeRailLoss hf).2.1 g n rfl
  refine ⟨h.toSlotsPlaced.takeRailLoss, ?_⟩
  exact
    { settled := fun hst g => by
        rcases role_takeRailLoss h.toSlotsPlaced g with ⟨hrec, _⟩ | ⟨_, hfree⟩
        · rw [hrec]
          exact h.settled (l.state ▸ hst) g
        · rw [hfree]
          trivial
      detached := fun hst => hstatus ▸ h.detached (l.state ▸ hst)
      bringUp := fun b hb => nomatch l.bringUp.symm.trans hb
      load := fun hl => absurd l.load hl
      fetching := fun hf => absurd l.fetching hf
      attaching := fun ha => nomatch (attaching_of_none l.bringUp).symm.trans ha
      commit := fun hc => by
        rw [l.state, l.phase]
        exact h.commit (hc.imp (fun hc => (flying_takeRailLoss hc).1) fun hc => (flying_takeRailLoss hc).1)
      pattern := fun hp => by rw [hlone] at hp; cases hp
      compare := fun hp => by rw [hlone] at hp; cases hp
      entering := fun hc => nomatch l.cond.symm.trans hc
      asleep := fun hc => nomatch l.cond.symm.trans hc
      exiting := fun hc => nomatch l.cond.symm.trans hc
      undone := fun _ hp => nomatch l.park.symm.trans hp
      still := fun _ => hcopy
      rail := fun _ => ⟨hlone, by rw [l.cond]; rfl, hcopy, fun g hf => (flying_takeRailLoss hf).2.2 g rfl⟩
      units := by
        rw [l.fetching]
        refine ⟨?_, nofun⟩
        have hu : s.takeRailLoss.tracker.units = s.tracker.units := by
          rw [l.tracker]
          rcases s.lossMarked.dropCopy_cases with hd | ⟨g, hd⟩
          · rw [hd]
            rfl
          · rw [hd, claimCopyLost, claimKeep, tracker_claim]
            rfl
        rw [hu]
        exact h.units.1 }

/-! ## A rail that falls in UNCONFIGURED (R49, R137) -/

theorem Slotted.fallen (h : s.Slotted) (hst : s.tc.state = .unconfigured) : s.fallen.Slotted := by
  have hlone : s.fallen.dram.lone = [] := rfl
  refine ⟨⟨h.sound, h.counted, h.blank, h.placed, h.vacant, h.copied, h.filled, ?_, ?_, h.zeroed, h.listed⟩, ?_⟩
  · rw [hlone]
    exact nofun
  · rw [hlone]
    exact List.nodup_nil
  · exact
      { settled := h.settled
        detached := h.detached
        bringUp := h.bringUp
        load := fun hl => nomatch hst.symm.trans (h.load hl).1
        fetching := fun hf => absurd rfl hf
        attaching := fun ha => nomatch hst.symm.trans (h.attaching ha).2.1
        commit := h.commit
        pattern := fun hp => by rw [hlone] at hp; cases hp
        compare := fun hp => by rw [hlone] at hp; cases hp
        entering := nofun
        asleep := nofun
        exiting := nofun
        undone := h.undone
        still := h.still
        rail := fun hr => ⟨hlone, rfl, (h.rail hr).2.2⟩
        units := ⟨h.units.1, nofun⟩ }

theorem Slotted.unconfiguredFall (h : s.Slotted) (hst : s.tc.state = .unconfigured) : s.unconfiguredFall.Slotted := by
  have hfallen := h.fallen hst
  by_cases hs : s.tc.start = none
  · rw [unconfiguredFall_of_no_start hs]
    exact hfallen
  · rw [unconfiguredFall_of_start hs]
    have hload : s.region.load = none := (h.unbound (by rw [hst]; decide)).1
    exact (hfallen.toUnconfigured hload rfl rfl).of_same {}

end State

end Sys2Proof.Machine
end

