-- ==== Sys2Proof/Proofs/SlotEntries.lean ====
section
/-! Entries, their returns and failures, parks and rail losses' ends keep every slot in its place (R102 to R110, R139 to
R142, R147, R150, R152). -/

namespace Sys2Proof.Machine

namespace State

variable {s t : State}

theorem Slotted.report (h : s.Slotted) (c : FaultClass) (addr : Nat) (d : FaultDetail) : (s.report c addr d).Slotted :=
  h.of_same {}

theorem Slotted.writeOutcome (h : s.Slotted) (op : LongOp) (result : OutcomeResult) (reason : OutcomeReason) :
    (s.writeOutcome op result reason).Slotted :=
  h.of_same {}

theorem Slotted.releaseAll (h : s.Slotted) (reason : Hold) : (s.releaseAll reason).Slotted :=
  .of_judging (s.judging_releaseAll reason) h

theorem returnTarget_states (s : State) : s.returnTarget = .active ∨ s.returnTarget = .restoring := by
  rcases s.returnTarget_eq with ⟨h, _⟩ | ⟨h, _⟩
  · exact .inr h
  · exact .inl h

/-! ## Returns and failures of an entry (R103, R110) -/

theorem Slotted.returnEntry (h : s.Slotted) (q : s.Quiet) (hst : s.tc.state = .saving ∨ s.tc.state = .committing)
    (kind : AbortKind) : (s.returnEntry kind).Slotted := by
  have hn : ¬ s.stilled := by rcases hst with hst | hst <;> simp [stilled, hst]
  have hs : s.tc.state ≠ .starting := by rcases hst with hst | hst <;> simp [hst]
  have hrun : (s.enterRunning.setTc { s.enterRunning.tc with waitingAbort := none }).Slotted :=
    h.toRunning q {} (h.awake hn) rfl (.inr hs)
  exact ((hrun.releaseAll .commit).report _ _ _).writeOutcome _ _ _

theorem Slotted.endCommit (h : s.Slotted) (q : s.Quiet) (hst : s.tc.state = .saving ∨ s.tc.state = .committing) :
    s.endCommit.Slotted := by
  have hn : ¬ s.stilled := by rcases hst with hst | hst <;> simp [stilled, hst]
  refine h.toEntry q {} (h.awake hn) ?_ ?_
  · rcases hst with hst | hst
    · exact .inl hst
    · exact .inr (.inl hst)
  · rcases hst with hst | hst <;> rw [hst] <;> decide

theorem Slotted.failEntry (h : s.Slotted) (q : s.Quiet) (hst : s.tc.state = .saving ∨ s.tc.state = .committing)
    (reason : OutcomeReason) : (s.failEntry reason).Slotted := by
  have hn : ¬ s.stilled := by rcases hst with hst | hst <;> simp [stilled, hst]
  have hs : s.tc.state ≠ .starting := by rcases hst with hst | hst <;> simp [hst]
  have hrun : (s.endCommit.enterRunning.setTc { s.endCommit.enterRunning.tc with waitingAbort := none }).Slotted :=
    h.toRunning q {} (h.awake hn) rfl (.inr hs)
  exact (hrun.releaseAll .commit).writeOutcome _ _ _

/-! ## The tests of an entry (R102 to R104, R113) -/

theorem CoursesHeld.quiet_saving (h : s.CoursesHeld) (hst : s.tc.state = .saving) : s.Quiet :=
  h.quiet (by simp [stilled, hst]) (h.unbound (by rw [hst]; decide)) (.inl (by rw [hst]; decide))

theorem CoursesHeld.quiet_committing (h : s.CoursesHeld) (hst : s.tc.state = .committing)
    (hp : s.engine.commitPhase ≠ .index ∧ s.engine.commitPhase ≠ .header) : s.Quiet :=
  h.quiet (by simp [stilled, hst]) (h.unbound (by rw [hst]; decide)) (.inr hp)

theorem Slotted.savingTest (h : s.Slotted) : s.savingTest.Slotted := by
  unfold State.savingTest
  split
  · rename_i hc
    obtain ⟨hst, _, _⟩ := hc
    have q := h.quiet_saving hst
    have hn : ¬ s.stilled := by simp [stilled, hst]
    split
    · exact h.returnEntry q (.inl hst) _
    · split
      · exact h.toEntry q {} (h.awake hn) (.inr (.inl rfl)) (by rw [hst]; decide)
      · split
        · exact (h.report _ _ _).failEntry (CoursesHeld.quiet_saving (h.report _ _ _).toCoursesHeld hst) (.inl hst) _
        · exact h
  · exact h

theorem Slotted.commitWait (h : s.Slotted) : s.commitWait.Slotted := by
  unfold State.commitWait
  split
  · rename_i hc
    obtain ⟨hst, hp, _⟩ := hc
    have q := h.quiet_committing hst (by rw [hp]; decide)
    have hn : ¬ s.stilled := by simp [stilled, hst]
    split
    · split
      · exact h
      · exact h.toEntry q {} (h.awake hn) (.inr (.inl hst)) (by rw [hst]; decide)
    · split
      · exact h
      · refine Slotted.releaseAll ?_ .commit
        exact h.toEntry q {} (h.awake hn) (.inl rfl) (by rw [hst]; decide)
  · exact h

theorem Slotted.restoringTest (h : s.Slotted) : s.restoringTest.Slotted := by
  unfold State.restoringTest
  split
  · rename_i hc
    obtain ⟨hst, _, ha⟩ := hc
    have hn : ¬ s.stilled := by simp [stilled, hst]
    have q := h.quiet hn (h.unbound (by rw [hst]; decide)) (.inl (by rw [hst]; decide))
    have htarget : s.returnTarget = .active := if_neg (by rw [ha]; decide)
    exact h.toRunning q {} (h.awake hn) htarget.symm (.inr (by rw [hst]; decide))
  · exact h

/-! ## What follows a commit (R106, R109) -/

theorem Slotted.nextPass (h : s.Slotted) (q : s.Quiet) (hst : s.tc.state = .committing) (addr : Nat) :
    (s.nextPass addr).Slotted := by
  unfold State.nextPass
  have hnoted : (if s.engine.lateNoted then s else s.report .lateWrite addr (.number 0)).Slotted := by
    split
    · exact h
    · exact h.report _ _ _
  have hstate : (if s.engine.lateNoted then s else s.report .lateWrite addr (.number 0)).tc.state = .committing := by
    split <;> exact hst
  have hquiet : (if s.engine.lateNoted then s else s.report .lateWrite addr (.number 0)).Quiet := by
    split
    · exact q
    · exact (q.of_same {})
  generalize (if s.engine.lateNoted then s else s.report .lateWrite addr (.number 0)) = u at *
  have hn : ¬ u.stilled := by simp [stilled, hstate]
  refine Slotted.releaseAll ?_ .commit
  exact hnoted.toEntry hquiet {} (hnoted.awake hn) (.inl rfl) (by rw [hstate]; decide)

theorem Slotted.hibernated (h : s.Slotted) (q : s.Quiet) (hst : s.tc.state ≠ .starting) : s.hibernated.Slotted :=
  (h.enterImagedOff q hst).writeOutcome _ _ _

theorem Slotted.enterParking (h : s.Slotted) (q : s.Quiet) (hn : ¬ s.stilled) (hst : s.tc.state ≠ .starting) :
    s.enterParking.Slotted :=
  h.toEntry q {} (h.awake hn) (.inr (.inr (.inr (.inr ⟨rfl, rfl⟩)))) hst

theorem Slotted.commitDecision (h : s.Slotted) (q : s.Quiet) (hst : s.tc.state = .committing) :
    s.commitDecision.Slotted := by
  have hn : ¬ s.stilled := by simp [stilled, hst]
  have hs : s.tc.state ≠ .starting := by rw [hst]; decide
  unfold State.commitDecision
  split
  · exact h
  · split
    · exact h.returnEntry q (.inr hst) _
    · split
      · split
        · exact h.hibernated q hs
        · exact h.enterParking q hn hs
      · split
        · exact h.nextPass q hst _
        · exact (h.report _ _ _).failEntry (q.of_same {}) (.inr hst) _

theorem Slotted.endMarked (h : s.Slotted) (q : s.Quiet) (hst : s.tc.state = .committing) :
    (s.setEngine { s.engine with mark := .set, headerRecord := s.engine.builtHeader }).endCommit.Slotted := by
  have hset : (s.setEngine { s.engine with mark := .set, headerRecord := s.engine.builtHeader }).Slotted := h.of_same {}
  exact hset.endCommit (q.of_same {}) (.inr hst)

/-- A commit that no operation carries any more is over (R106). -/
theorem Slotted.commitDone (h : s.Slotted) (q : s.Quiet) (hst : s.tc.state = .committing) : s.commitDone.Slotted := by
  have k := (s.setEngine { s.engine with epoch := s.engine.epoch + 1 }).sameCourses_claimAll (fun _ => GRec.commit)
    GRec.commitFrees
  have h1 : (s.setEngine { s.engine with epoch := s.engine.epoch + 1 }).claimCommit.Slotted :=
    Slotted.claimCommit (h.of_same {})
  have q1 : (s.setEngine { s.engine with epoch := s.engine.epoch + 1 }).claimCommit.Quiet :=
    Quiet.of_same (q.of_same {}) k
  have hst1 : (s.setEngine { s.engine with epoch := s.engine.epoch + 1 }).claimCommit.tc.state = .committing :=
    k.state.trans hst
  exact h1.endMarked q1 hst1

/-! ## Parks (R140 to R142) -/

theorem Slotted.parkReturn (h : s.Slotted) (q : s.Quiet) (hcond : s.dram.cond.refreshing = false)
    (hst : s.tc.state ≠ .starting) (kind : AbortKind) : (s.parkReturn kind).Slotted := by
  have hrun : (s.enterRunning.setTc
      { s.enterRunning.tc with parkPhase := .none, waitingAbort := none, parkStoreDown := false }).Slotted :=
    h.toRunning q {} hcond rfl (.inr hst)
  exact ((hrun.releaseAll .parking).report _ _ _).writeOutcome _ _ _

end State

end Sys2Proof.Machine
end

