-- ==== Sys2Proof/Proofs/SlotParks.lean ====
section
/-! Parks, sleep, and where a rail loss goes on to, with every slot in its place (R139 to R142, R146, R150, R152). -/

namespace Sys2Proof.Machine

namespace State

variable {s t : State}

/-! ## Lines presented -/

/-- A transfer presents a line: it waits for no other, and the part is in the state that it belongs to. -/
theorem Slotted.present (h : s.Slotted) {o : Owner}
    (hp : o.lone = true → s.presents o ∧ o ∉ s.dram.lone ∧
      ∀ g, o = .fill g → (s.recOf g).role = .filling true ∧ s.store.flying ≠ some (.fill g)) (line : Nat) :
    (s.present o line).Slotted := by
  cases ho : o.lone with
  | false => exact h.enqueue (by simp [Access.lone, ho])
  | true =>
    obtain ⟨hpres, hnew, hfill⟩ := hp ho
    have hlone : (s.present o line).dram.lone = s.dram.lone ++ [o] := by
      refine (lone_enqueue _ _).trans ?_
      simp [Access.lone, ho]
    refine ⟨⟨h.sound, h.counted, h.blank, h.placed, h.vacant, h.copied, h.filled, fun g hm => ?_, ?_, h.zeroed, h.listed⟩,
      h.toCoursesHeld.of_state {} (fun _ => id) (.inl rfl) (fun _ hf => .inl hf) fun x hx => ?_⟩
    · rw [hlone] at hm
      rcases List.mem_append.mp hm with hm | hm
      · exact h.lined g hm
      · exact hfill g (List.mem_singleton.mp hm).symm
    · rw [hlone]
      exact h.lone.append (List.nodup_singleton _) fun x hx hm => hnew (List.mem_singleton.mp hm ▸ hx)
    · rw [hlone] at hx
      rcases List.mem_append.mp hx with hx | hx
      · exact .inl hx
      · exact .inr (List.mem_singleton.mp hx ▸ hpres)

/-! ## Changes within a park, and sleep -/

/-- A park past its drain, sleep and its end follow one another with no copy in flight. -/
theorem Slotted.sleepOn (h : s.Slotted) (q : s.Quiet) (k : Moved s t) (hcond : t.Refreshes)
    (hst : t.tc.state = .parking ∨ t.tc.state = .sleeping ∨ t.tc.state = .unparking) (hs : s.tc.state ≠ .starting)
    (hcopy : s.store.noCopy) (hundone : t.tc.state = .parking → t.tc.parkPhase = .undo → t.tc.waitingAbort ≠ none) :
    t.Slotted := by
  refine h.move q k hcond (fun hc => ?_) (fun hc => ?_) (.inr (.inr hs)) hundone fun _ => hcopy
  · rcases hst with hst | hst | hst <;> rw [hst] at hc <;> exact hc.elim nofun fun hc => hc.elim nofun nofun
  · rcases hst with hst | hst | hst <;> rw [hst] at hc <;> exact hc.elim nofun nofun

theorem Slotted.parkAbort (h : s.Slotted) (hst : s.tc.state = .parking) (kind : AbortKind) :
    (s.parkAbort kind).Slotted := by
  have hs : s.tc.state ≠ .starting := by rw [hst]; decide
  have hload := h.unbound (by rw [hst]; decide)
  have hcommit := h.noCommit (.inl (by rw [hst]; decide))
  unfold State.parkAbort
  split
  · exact h
  · rename_i hnone
    split
    · rename_i hp
      have hn := not_stilled_of_drain hst (.inr hp)
      exact h.parkReturn (h.quiet hn hload (.inl (by rw [hst]; decide))) (h.awake hn) hs kind
    · exact h.of_same { abort := fun _ => nofun }
    · rename_i hp
      have q : s.Quiet := ⟨hload, hcommit, fun hm => (nomatch hp.symm.trans (h.pattern hm).2),
        fun hm => nomatch hst.symm.trans (h.compare hm).1⟩
      refine h.sleepOn q {} ⟨fun _ => ⟨hst, .inr rfl⟩, h.asleep, fun _ => .inr ⟨hst, rfl⟩, fun hr => (h.rail hr).2.1⟩
        (.inl hst) hs (h.still (.inr (.inr ⟨hst, by rw [hp]; decide, by rw [hp]; decide⟩))) fun _ _ => nofun
    all_goals exact h

theorem Slotted.beginPattern (h : s.Slotted) (hst : s.tc.state = .parking) (hp : s.tc.parkPhase = .drain)
    (hr : s.tc.railLoss = false) (hop : s.store.op = none) : s.beginPattern.Slotted := by
  have hn := not_stilled_of_drain hst (.inr hp)
  have q := h.quiet hn (h.unbound (by rw [hst]; decide)) (.inl (by rw [hst]; decide))
  refine Slotted.present (o := .pattern) ?_ ?_ _
  · exact h.sleepOn q {} (refreshes_of_awake (h.awake hn)) (.inl hst) (by rw [hst]; decide)
      (fun g n hf => nomatch (flying_of_none hop).symm.trans hf) nofun
  · exact fun _ => ⟨⟨hr, hst, rfl⟩, q.pattern, nofun⟩

theorem Slotted.parkTest (h : s.Slotted) : s.parkTest.Slotted := by
  unfold State.parkTest
  split
  · rename_i hc
    obtain ⟨hst, hp, hr, _, hop, _⟩ := hc
    exact h.beginPattern hst hp hr hop
  · exact h

/-- The pattern is written, or its writing given up: its last line has been performed (R141, R142). -/
theorem Slotted.patternDone (h : s.Slotted) (hst : s.tc.state = .parking) (hp : s.tc.parkPhase = .pattern)
    (hgone : Owner.pattern ∉ s.dram.lone) (hr : s.tc.railLoss = false) (hcond : s.dram.cond.refreshing = false) :
    s.patternDone.Slotted := by
  have hs : s.tc.state ≠ .starting := by rw [hst]; decide
  have q : s.Quiet := ⟨h.unbound (by rw [hst]; decide), h.noCommit (.inl (by rw [hst]; decide)), hgone,
    fun hm => nomatch hst.symm.trans (h.compare hm).1⟩
  unfold State.patternDone
  split
  · have hidle : (s.setDram { s.dram with checkPhase := .idle }).Slotted := h.of_same {}
    exact hidle.parkReturn (q.of_same {}) hcond hs _
  · refine h.sleepOn q {} ⟨fun _ => ⟨hst, .inl rfl⟩, nofun, nofun, fun hc => nomatch hr.symm.trans hc⟩ (.inl hst) hs
      (h.still (.inr (.inr ⟨hst, by rw [hp]; decide, by rw [hp]; decide⟩))) nofun

theorem Slotted.enterSleeping (h : s.Slotted) (hcond : s.dram.cond = .enteringSr) (hp : s.tc.parkPhase ≠ .undo) :
    ((s.setDram { s.dram with cond := .selfRefresh }).enterSleeping).Slotted := by
  obtain ⟨hst, hphase⟩ := h.entering hcond
  have hp : s.tc.parkPhase = .srEntry := hphase.resolve_right hp
  have q : s.Quiet := ⟨h.unbound (by rw [hst]; decide), h.noCommit (.inl (by rw [hst]; decide)),
    fun hm => (nomatch hp.symm.trans (h.pattern hm).2), fun hm => nomatch hst.symm.trans (h.compare hm).1⟩
  have hrail : s.tc.railLoss ≠ true := fun hr => by
    have := (h.rail hr).2.1
    rw [hcond] at this
    cases this
  exact h.sleepOn q {} ⟨nofun, fun _ => rfl, nofun, fun hr => absurd hr hrail⟩ (.inr (.inl rfl)) (by rw [hst]; decide)
    (h.still (.inr (.inr ⟨hst, by rw [hp]; decide, by rw [hp]; decide⟩))) nofun

/-- A park that is being undone leaves self-refresh again (R142). -/
theorem Slotted.undoSleep (h : s.Slotted) (hcond : s.dram.cond = .enteringSr) (hp : s.tc.parkPhase = .undo) :
    (s.setDram { s.dram with cond := .exitingSr }).Slotted := by
  obtain ⟨hst, _⟩ := h.entering hcond
  have q : s.Quiet := ⟨h.unbound (by rw [hst]; decide), h.noCommit (.inl (by rw [hst]; decide)),
    fun hm => (nomatch hp.symm.trans (h.pattern hm).2), fun hm => nomatch hst.symm.trans (h.compare hm).1⟩
  have hrail : s.tc.railLoss ≠ true := fun hr => by
    have := (h.rail hr).2.1
    rw [hcond] at this
    cases this
  exact h.sleepOn q {} ⟨nofun, nofun, fun _ => .inr ⟨hst, hp⟩, fun hr => absurd hr hrail⟩ (.inl hst)
    (by rw [hst]; decide) (h.still (.inr (.inr ⟨hst, by rw [hp]; decide, by rw [hp]; decide⟩))) h.undone

/-! ## Where a rail loss goes on to (R150, R152) -/

theorem CoursesHeld.quiet_lost (h : s.CoursesHeld) (hr : s.tc.railLoss = true)
    (hc : s.tc.state ≠ .committing ∨ (s.engine.commitPhase ≠ .index ∧ s.engine.commitPhase ≠ .header)) : s.Quiet := by
  have hlone := (h.rail hr).1
  exact ⟨h.unbound_of_lost hr, h.noCommit hc, by rw [hlone]; exact nofun, by rw [hlone]; exact nofun⟩

theorem Slotted.railLossOutcome (h : s.Slotted) (result : OutcomeResult) : (s.railLossOutcome result).Slotted := by
  unfold State.railLossOutcome
  split
  · exact h.of_same {}
  · exact h.of_same {}

theorem Slotted.railLossToImagedOff (h : s.Slotted) (q : s.Quiet) (hst : s.tc.state ≠ .starting) :
    s.railLossToImagedOff.Slotted :=
  (h.enterImagedOff q hst).railLossOutcome _

theorem Slotted.bringUpIfReady (h : s.Slotted) : s.bringUpIfReady.Slotted := by
  unfold State.bringUpIfReady
  split
  · rename_i hc
    have hcond := hc.2
    exact ⟨h.toSlotsPlaced.of_same {},
      { settled := h.settled
        detached := h.detached
        bringUp := h.bringUp
        load := h.load
        fetching := h.fetching
        attaching := h.attaching
        commit := h.commit
        pattern := h.pattern
        compare := fun hm => nomatch hcond.symm.trans (h.compare hm).2
        entering := nofun
        asleep := nofun
        exiting := nofun
        undone := h.undone
        still := h.still
        rail := fun hr => ⟨(h.rail hr).1, rfl, (h.rail hr).2.2⟩
        units := h.units }⟩
  · exact h

theorem Slotted.railLossToUnconfigured (h : s.Slotted) (hr : s.tc.railLoss = true) :
    s.railLossToUnconfigured.Slotted := by
  obtain ⟨hlone, hcond, _⟩ := h.rail hr
  exact ((h.toUnconfigured (h.unbound_of_lost hr).1 hlone hcond).railLossOutcome _).bringUpIfReady

theorem Slotted.railCourse (h : s.Slotted) : s.railCourse.Slotted := by
  unfold State.railCourse
  split
  · rename_i hr
    split
    · exact h.railLossToUnconfigured hr
    · rename_i hst
      have hs : s.tc.state ≠ .starting := by rw [hst]; decide
      split
      · rename_i hp
        exact h.railLossToImagedOff (h.quiet_lost hr (.inr (by rw [hp]; decide))) hs
      · split
        · rename_i hc
          have q := h.quiet_lost hr (.inr (by rw [hc.1]; decide))
          exact (h.endCommit q (.inr hst)).railLossToImagedOff ⟨q.unbound, q.commit, q.pattern, q.compare⟩ hs
        · exact h
    · rename_i hstart hcommit
      split
      · exact h.railLossToImagedOff (h.quiet_lost hr (.inl hcommit)) hstart
      · split
        · exact h
        · exact h.railLossToUnconfigured hr
  · exact h

end State

end Sys2Proof.Machine
end

