-- ==== Sys2Proof/Proofs/SlotSettling.lean ====
section
/-! What follows an event within its step keeps every slot in its place (R83, R84, R93, R102 to R104, R113, R138, R150,
R152). -/

namespace Sys2Proof.Machine

namespace State

variable {s t : State}

/-! ## START goes on (R63, R138) -/

theorem CoursesHeld.quiet_starting (h : s.CoursesHeld) (hst : s.tc.state = .starting) : s.Quiet :=
  h.quiet (by simp [stilled, hst]) (h.unbound (by rw [hst]; decide)) (.inl (by rw [hst]; decide))

/-- START ends in ACTIVE, which finds nothing ABSENT or FILLING (R113, R138). -/
theorem Slotted.finishStart (h : s.Slotted) (hst : s.tc.state = .starting) (reason : OutcomeReason) :
    (s.finishStart reason .active).Slotted := by
  refine Slotted.writeOutcome ?_ _ _ _
  refine h.move (h.quiet_starting hst) { bringUp := .inr rfl }
    (refreshes_of_awake (h.awake (by simp [stilled, hst]))) (fun _ => h.settled (.inr (.inr hst))) ?_ (.inl rfl) nofun ?_
  · exact fun hc => hc.elim nofun nofun
  · rintro (hc | hc | ⟨hc, _⟩) <;> cases hc

/-- The steps of START or ATTACH_STORE begin (R87, R138). -/
theorem Slotted.beginSteps (h : s.Slotted) (hd : s.store.status ≠ .attached) (hl : s.region.load = none)
    {mode : BringUpMode} (hmode : mode ≠ .attach → s.tc.state = .starting)
    (hattach : mode = .attach → s.side.handling = true ∧ s.tc.fetching = none ∧ s.tc.state = .active ∧
      s.tc.railLoss = false) :
    (s.setEngine { s.engine with bringUp := some (newBringUp mode) }).Slotted := by
  have hmode' : (s.setEngine { s.engine with bringUp := some (newBringUp mode) }).attaching = true → mode = .attach :=
    of_decide_eq_true
  refine ⟨h.toSlotsPlaced.of_same {}, ?_⟩
  exact
    { settled := h.settled
      detached := h.detached
      bringUp := fun b hb => by
        cases hb
        exact ⟨hd, ⟨nofun, fun hc => hc.elim nofun nofun⟩, hmode⟩
      load := fun hn => absurd hl hn
      fetching := fun hf => by
        refine ⟨(h.fetching hf).1, Bool.eq_false_iff.mpr fun ha => hf (hattach (hmode' ha)).2.1⟩
      attaching := fun ha => ⟨(hattach (hmode' ha)).1, (hattach (hmode' ha)).2.2⟩
      commit := h.commit
      pattern := h.pattern
      compare := h.compare
      entering := h.entering
      asleep := h.asleep
      exiting := h.exiting
      undone := h.undone
      still := h.still
      rail := h.rail
      units := h.units }

theorem Slotted.startSteps (h : s.Slotted) (r : StartReq) :
    (if s.tc.state = .starting ∧ s.dram.cond = .up ∧ s.engine.bringUp = none then
      if r.fresh && !r.storeUse then s.finishStart .none .active
      else s.setEngine { s.engine with bringUp := some (newBringUp (if r.fresh then .fresh else .resume)) }
    else s).Slotted := by
  split
  · rename_i hc
    obtain ⟨hst, _, _⟩ := hc
    split
    · exact h.finishStart hst _
    · refine h.beginSteps (h.detached (.inr hst)) (h.unbound (by rw [hst]; decide)).1 (fun _ => hst) fun hm => ?_
      split at hm <;> cases hm
  · exact h

theorem Slotted.toStarting (h : s.Slotted) (hst : s.tc.state = .unconfigured) (r : StartReq) :
    ((s.enterState .starting).setTc { (s.enterState .starting).tc with start := some r }).Slotted := by
  have hn : ¬ s.stilled := by simp [stilled, hst]
  have q := h.quiet hn (h.unbound (by rw [hst]; decide)) (.inl (by rw [hst]; decide))
  refine h.move q {} (refreshes_of_awake (h.awake hn)) (fun _ => h.settled (.inr (.inl hst)))
    (fun _ => h.detached (.inl hst)) (.inr (.inl rfl)) nofun ?_
  rintro (hc | hc | ⟨hc, _⟩) <;> cases hc

theorem Slotted.startTest (h : s.Slotted) : s.startTest.Slotted := by
  unfold State.startTest
  split
  · exact h
  · rename_i r _
    by_cases hd : r.phase = .draining ∧ s.tc.state = .unconfigured ∧ s.ru.table = []
    · simp only [if_pos hd]
      exact (h.toStarting hd.2.1 { r with phase := .running }).startSteps r
    · simp only [if_neg hd]
      exact h.startSteps r

/-! ## The store arbiter (R83) -/

/-- An operation that is neither a copy nor a fill goes out. -/
theorem Slotted.sendOp (h : s.Slotted) (hop : s.store.op = none) {p : Purpose} (hl : s.launches p)
    (hcopy : ∀ g n, p ≠ .copy g n) (hfill : ∀ g, p ≠ .fill g) (kind : FrameKind) (block : Nat) (payload : Frame) :
    (s.sendOp kind block payload p).Slotted := by
  have hfly : (s.sendOp kind block payload p).store.flying = some p := rfl
  have hnone := flying_of_none hop
  have hstray : (s.sendOp kind block payload p).store.stray = none := stray_of_op rfl rfl
  refine ⟨⟨h.sound, h.counted, h.blank, fun ha n => ?_, h.vacant, fun g x => ?_, fun g hf => ?_, fun g hm => ?_, h.lone,
    h.zeroed, h.listed⟩,
    h.toCoursesHeld.of_state {} (fun _ => id) (.inl rfl) (fun x hx => .inr ?_) fun _ ho => .inl ho⟩
  · refine Eq.trans ?_ (h.placed ha n)
    unfold slotCount
    rw [hstray, stray_of_none hop]
    rfl
  · refine (h.copied g x).trans ⟨fun ⟨n, _, hc⟩ => (nomatch hnone.symm.trans hc), fun ⟨n, _, hc⟩ => ?_⟩
    exact absurd (Option.some.inj (hfly.symm.trans hc)) (hcopy g n)
  · exact absurd (Option.some.inj (hfly.symm.trans hf)) (hfill g)
  · exact ⟨(h.lined g hm).1, fun hf => hfill g (Option.some.inj (hfly.symm.trans hf))⟩
  · exact Option.some.inj (hfly.symm.trans hx) ▸ hl

theorem Slotted.sendStep (h : s.Slotted) (hop : s.store.op = none) (b : BringUp) : (s.sendStep b).Slotted := by
  have hsend : ∀ step kind block payload, (s.sendOp kind block payload (.bringUp step)).Slotted :=
    fun step => h.sendOp hop (p := .bringUp step) trivial nofun nofun
  unfold State.sendStep
  split <;> exact hsend _ _ _ _

/-- What the state gives the work that the arbiter chooses. -/
def workable (s : State) : StoreWork → Prop
  | .demandFill g | .backgroundFill g =>
    (s.recOf g).st = .absent ∧ (s.recOf g).cls.preserved = true ∧ s.tc.railLoss = false
  | .saveCopy g n | .presaveCopy g n =>
    s.store.status = .attached ∧ (s.recOf g).st = .dirty ∧ (∃ rest, s.engine.freeSlots = n :: rest) ∧
      s.launches (.copy g n)
  | .commitIndex => s.launches .commitIndex
  | .commitHeader => s.launches .commitHeader
  | _ => True

theorem listed_eq_some {b : Bool} {g : Nat} (h : s.listed b = some g) :
    g ∈ s.engine.fillList ∧ (s.recOf g).cls.preserved = b :=
  ⟨List.mem_of_find?_eq_some h, by simpa using List.find?_some h⟩

theorem dirtyScan_eq_some (h : s.SlotsPlaced) {start g : Nat} (hg : s.tracker.dirtyScan start = some g) :
    (s.recOf g).st = .dirty :=
  ((s.tracker.scan_eq_some h.sound.1 .dirty (by decide) start g).mp hg).1.2

theorem background_eq_some (h : s.SlotsPlaced) {g : Nat} (hg : s.background = some g) : (s.recOf g).st = .absent := by
  unfold background at hg
  split at hg
  · exact ((s.tracker.scan_eq_some h.sound.1 .absent (by decide) _ g).mp hg).1.2
  · cases hg

theorem workable_rankCommit {w : StoreWork} (h : s.rankCommit = some w) : s.workable w := by
  unfold rankCommit at h
  split at h
  · rename_i hst
    split at h
    · rename_i hp
      cases h
      exact ⟨hst, .inl hp⟩
    · rename_i hp
      cases h
      exact ⟨hst, .inr hp⟩
    · cases h
  · cases h

theorem workable_rankDemand (hs : s.SlotsPlaced) (hr : s.tc.railLoss = false) {w : StoreWork}
    (h : s.rankDemand = some w) : s.workable w := by
  unfold rankDemand at h
  split at h
  · obtain ⟨g, hg, rfl⟩ := Option.map_eq_some_iff.mp h
    obtain ⟨hmem, hcls⟩ := listed_eq_some hg
    exact ⟨GRec.st_of_absent (hs.listed g hmem), hcls, hr⟩
  · cases h

theorem workable_rankSave (hs : s.Slotted) (ha : s.store.status = .attached) (hr : s.tc.railLoss = false)
    {w : StoreWork} (h : s.rankSave = some w) : s.workable w := by
  unfold rankSave at h
  split at h
  · rename_i hst
    split at h
    · rename_i g n rest hg hfree
      cases h
      refine ⟨ha, dirtyScan_eq_some hs.toSlotsPlaced hg, ⟨rest, hfree⟩, ?_, hr, (hs.unbound (by rw [hst.1]; decide)).1⟩
      simp [stilled, hst.1]
    · cases h
  · cases h

theorem workable_rankBackground (hs : s.SlotsPlaced) (hr : s.tc.railLoss = false) {w : StoreWork}
    (h : s.rankBackground = some w) : s.workable w := by
  unfold rankBackground at h
  split at h
  · rename_i g hg
    split at h
    · rename_i hcls
      cases h
      exact ⟨background_eq_some hs hg, hcls, hr⟩
    · cases h
  · cases h

theorem workable_rankPresave (hs : s.SlotsPlaced) (ha : s.store.status = .attached) (hr : s.tc.railLoss = false)
    {w : StoreWork} (h : s.rankPresave = some w) : s.workable w := by
  unfold rankPresave at h
  split at h
  · rename_i hc
    obtain ⟨hrun, _, _, hload⟩ := hc
    split at h
    · rename_i n rest g hfree hg
      cases h
      refine ⟨ha, dirtyScan_eq_some hs hg, ⟨rest, hfree⟩, ?_, hr, ?_⟩
      · rcases (TState.running_iff _).mp hrun with hst | hst <;> simp [stilled, hst]
      · exact Option.not_isSome_iff_eq_none.mp (by rw [show s.region.load.isSome = false from hload]; decide)
    · cases h
      trivial
    · cases h
  · cases h

theorem workable_chooseStore (h : s.Slotted) {w : StoreWork} (hw : s.chooseStore = some w) : s.workable w := by
  unfold chooseStore at hw
  split at hw
  · cases hw
    trivial
  · split at hw
    · cases hw
    · rename_i hc
      have ha : s.store.status = .attached := by
        by_contra hne
        exact hc (.inl hne)
      split at hw
      · cases hw
        trivial
      · rcases Option.or_eq_some_iff.mp hw with hw | ⟨_, hw⟩
        · exact workable_rankCommit hw
        · split at hw
          · cases hw
          · rename_i hr
            have hr : s.tc.railLoss = false := Bool.eq_false_iff.mpr hr
            rcases Option.or_eq_some_iff.mp hw with hw | ⟨_, hw⟩
            · exact workable_rankDemand h.toSlotsPlaced hr hw
            · rcases Option.or_eq_some_iff.mp hw with hw | ⟨_, hw⟩
              · exact workable_rankSave h ha hr hw
              · rcases Option.or_eq_some_iff.mp hw with hw | ⟨_, hw⟩
                · exact workable_rankBackground h.toSlotsPlaced hr hw
                · exact workable_rankPresave h.toSlotsPlaced ha hr hw

theorem Slotted.startWork (h : s.Slotted) (hop : s.store.op = none) {w : StoreWork} (hw : s.workable w) :
    (s.startWork w).Slotted := by
  cases w with
  | bringUp step =>
    unfold State.startWork
    dsimp only
    split
    · exact h.sendStep hop _
    · exact h
  | markClear =>
    have hq : (s.setEngine { s.engine with markClearQueued := false }).Slotted := h.of_same {}
    exact hq.sendOp hop (p := .markClear) trivial nofun nofun _ _ _
  | commitIndex => exact h.sendOp hop (p := .commitIndex) hw nofun nofun _ _ _
  | commitHeader => exact h.sendOp hop (p := .commitHeader) hw nofun nofun _ _ _
  | demandFill g => exact h.startFill hop hw.1 hw.2.1 hw.2.2
  | backgroundFill g => exact (h.startFill hop hw.1 hw.2.1 hw.2.2).of_same {}
  | saveCopy g n =>
    obtain ⟨ha, hst, ⟨rest, hfree⟩, hl⟩ := hw
    exact h.startCopy hop ha hst hfree hl
  | presaveCopy g n =>
    obtain ⟨ha, hst, ⟨rest, hfree⟩, hl⟩ := hw
    exact (h.startCopy hop ha hst hfree hl).of_same {}
  | presaveNone => exact h.of_same {}

theorem Slotted.storeChoice (h : s.Slotted) : s.storeChoice.Slotted := by
  unfold State.storeChoice
  split
  · rename_i hfree
    have hop : s.store.op = none := by
      simp only [storeFree, Bool.and_eq_true, Option.isNone_iff_eq_none] at hfree
      exact hfree.1
    split
    · rename_i w hw
      exact h.startWork hop (workable_chooseStore h hw)
    · exact h
  · exact h

theorem Slotted.zeroChoice (h : s.Slotted) : s.zeroChoice.Slotted := by
  unfold State.zeroChoice
  split
  · split
    · rename_i g hg
      have hlist : s.listed false = some g := by
        split at hg
        · exact hg
        · cases hg
      obtain ⟨hmem, hcls⟩ := listed_eq_some hlist
      exact h.startZeroFill (GRec.st_of_absent (h.listed g hmem)) hcls
    · split
      · rename_i g hg
        split
        · rename_i hcls
          exact (h.startZeroFill (background_eq_some h.toSlotsPlaced hg) (by rw [hcls]; rfl)).of_same {}
        · exact h
      · exact h
  · exact h

/-! ## Settling -/

theorem Slotted.tcTests (h : s.Slotted) : s.tcTests.Slotted :=
  h.restoringTest.commitWait.savingTest.commitWait.railCourse

theorem Slotted.drive (h : s.Slotted) : s.drive.Slotted := h.of_same {}

theorem Slotted.settle (h : s.Slotted) : s.settle.Slotted :=
  h.startTest.tcTests.storeChoice.zeroChoice.storeChoice.parkTest.drive

end State

end Sys2Proof.Machine
end

