-- ==== Sys2Proof/Proofs/SlotDown.lean ====
section
/-! A store that goes DOWN gives up every slot, and what waited for it is told (R22, R79, R81, R132). -/

namespace Sys2Proof.Machine

namespace GRec

/-- The record that a store DOWN leaves (R17, R22). -/
def down (r : GRec) : GRec := r.abandon.storeDown

theorem slotCount_down (r : GRec) (n : Nat) : r.down.slotCount n = 0 := by
  obtain ⟨st, committed, pending, cls⟩ := r
  cases st <;> simp [down, abandon, storeDown, slotCount]

theorem role_down (r : GRec) :
    r.down.role = .free ∨ (r.down.role = r.role ∧ r.cls.preserved = false ∧ r.st.countsAbsent = true) := by
  obtain ⟨st, committed, pending, cls⟩ := r
  cases hp : cls.preserved <;> cases st <;> simp [down, abandon, storeDown, role, hp, GState.countsAbsent]

theorem role_down_of_zero {r : GRec} (h : r.role = .filling false) : r.down.role = .filling false := by
  obtain ⟨hst, hp⟩ := (role_filling_iff r false).mp h
  obtain ⟨st, committed, pending, cls⟩ := r
  cases hst
  have hp : cls.preserved = false := hp
  simp [down, abandon, storeDown, role, hp]

theorem role_down_of_absent {r : GRec} (h : r.role = .absent) (hp : r.cls.preserved = false) :
    r.down.role = .absent := by
  have hst := (role_absent_iff r).mp h
  obtain ⟨st, committed, pending, cls⟩ := r
  cases hst
  have hp : cls.preserved = false := hp
  simp [down, abandon, storeDown, role, hp]

end GRec

namespace State

variable {s t : State} {g : Nat}

/-- A part with no operation on its link, the record that the last one was for perhaps still as it was. -/
structure Idle (s : State) : Prop extends CoursesHeld s where
  sound : s.tracker.sound
  counted : s.tracker.counted
  blank : s.checkBlank
  op : s.store.op = none
  lone : s.dram.lone.Nodup
  zeroed : ∀ g, s.engine.zeroFill = some g → (s.recOf g).role = .filling false
  listed : ∀ g ∈ s.engine.fillList, (s.recOf g).role = .absent

theorem Slotted.idle_endOp (h : s.Slotted) (timer : Timer) : (s.endOp timer).Idle :=
  ⟨h.toCoursesHeld.endOp timer, h.sound, h.counted, h.blank, rfl, h.lone, h.zeroed, h.listed⟩

theorem Idle.withdraw (h : s.Idle) (gone : Owner → Bool) : (s.withdraw gone).Idle := by
  have hsub := sublist_lone_withdraw s gone
  exact ⟨h.toCoursesHeld.of_state {} (fun _ => id) (.inl rfl) (fun _ hf => .inl hf) fun _ ho => .inl (hsub.subset ho),
    h.sound, h.counted, h.blank, h.op, h.lone.sublist hsub, h.zeroed, h.listed⟩

theorem Idle.dropFill (h : s.Idle) (g : Nat) : (s.dropFill g).Idle :=
  ⟨h.toCoursesHeld.of_state {} (fun _ => id) (.inl rfl) (fun _ hf => .inl hf) fun _ ho => .inl ho,
    h.sound, h.counted, h.blank, h.op, h.lone, h.zeroed, h.listed⟩

/-! ## What a store DOWN leaves -/

theorem tracker_downed (s : State) : s.downed.tracker = s.claimAbandon.claimStoreDown.tracker := by
  obtain ⟨_, htracker, _⟩ := s.downed_others
  exact htracker

theorem recOf_downed (hs : s.tracker.sound) (g : Nat) : s.downed.recOf g = (s.recOf g).down := by
  have habandon := s.ranged_claimAbandon.sound hs
  have hrec : s.claimAbandon.recOf g = (s.recOf g).abandon := recOf_claimAll _ hs.1 rfl
  rw [recOf, tracker_downed]
  exact (recOf_claimStoreDown habandon.1 g).trans (by rw [hrec]; rfl)

theorem sameState_downed (s : State) : SameState s s.downed := by
  obtain ⟨hstore, _, htc, _, _, hregion, hdram⟩ := s.downed_others
  have k := (s.setStore { s.store with status := .down }).sameCourses_claimAll (fun _ => GRec.abandon) GRec.abandonFrees
  exact
    { units := k.units
      bringUp := k.bringUp
      phase := k.phase
      attached := by rw [hstore]; exact nofun
      cond := by rw [hdram]; rfl
      state := by rw [htc]
      park := by rw [htc]
      abort := by rw [htc]; exact id
      railLoss := by rw [htc]
      fetching := by rw [htc]
      load := by rw [hregion]
      handling := k.handling }

theorem mem_poisonedByDown (hg : (s.recOf g).st.countsAbsent = true) (hp : (s.recOf g).cls.preserved = true) :
    g ∈ s.poisonedByDown := by
  have hne : s.recOf g ≠ GRec.blank := fun hb => by
    rw [hb] at hg
    cases hg
  refine List.mem_map.mpr ⟨_, List.mem_filter.mpr ⟨GTable.mem_of_get hne, ?_⟩, rfl⟩
  show ((s.recOf g).st.countsAbsent && (s.recOf g).cls.preserved) = true
  rw [hg, hp]
  rfl

theorem Idle.downed (h : s.Idle) : s.downed.Slotted := by
  obtain ⟨hstore, htracker, _, _, _, _, hdram⟩ := s.downed_others
  have k := s.sameState_downed
  have hr := s.ranged_claimAbandon.trans (ranged_claimStoreDown _)
  have hrec := recOf_downed h.sound
  have hfly : s.downed.store.flying = none := by
    rw [hstore]
    exact flying_of_none h.op
  have hlone : s.downed.dram.lone = s.dram.lone.filter fun o => !Owner.isFill o := by
    rw [hdram]
    exact lone_withdraw _ _
  have hzero : s.downed.engine.zeroFill = s.engine.zeroFill :=
    ((s.setStore { s.store with status := .down }).sameCourses_claimAll (fun _ => GRec.abandon)
      GRec.abandonFrees).zeroFill
  have hstatus : s.downed.store.status ≠ .attached := by
    rw [hstore]
    exact nofun
  refine ⟨⟨htracker ▸ hr.sound h.sound, htracker ▸ hr.counted h.counted,
    checkBlank_of_tracker htracker (hr.blank h.sound h.blank), fun ha => absurd ha hstatus, fun _ g n => ?_, fun g p => ?_,
    fun g hf => (nomatch hfly.symm.trans hf), fun g hm => ?_, ?_, fun g hz => ?_, fun g hm => ?_⟩,
    h.toCoursesHeld.of_state k (fun g hg => ?_) (.inr (.inl rfl)) (fun p hp => (nomatch hfly.symm.trans hp))
      fun o ho => .inl ?_⟩
  · rw [hrec]
    exact GRec.slotCount_down _ n
  · rw [hrec]
    refine ⟨fun hc => ?_, fun ⟨n, _, hc⟩ => (nomatch hfly.symm.trans hc)⟩
    rcases (s.recOf g).role_down with hf | ⟨hsame, _, habsent⟩
    · exact nomatch hf.symm.trans hc
    · obtain ⟨hst, _⟩ := (GRec.role_copying_iff _ p).mp (hsame.symm.trans hc)
      rcases hst with hst | hst <;> rw [hst] at habsent <;> cases habsent
  · rw [hlone] at hm
    cases (List.mem_filter.mp hm).2
  · rw [hlone]
    exact h.lone.filter _
  · rw [hrec]
    exact GRec.role_down_of_zero (h.zeroed g (hzero ▸ hz))
  · obtain ⟨hmem, hnot⟩ := (s.mem_fillList_downed g).mp hm
    have habsent := h.listed g hmem
    rw [hrec]
    refine GRec.role_down_of_absent habsent (Bool.eq_false_iff.mpr fun hp => hnot (mem_poisonedByDown ?_ hp))
    exact (GState.countsAbsent_iff _).mpr (.inl (GRec.st_of_absent habsent))
  · rw [hrec]
    rcases (s.recOf g).role_down with hf | ⟨hsame, _⟩
    · rw [hf]
      trivial
    · rwa [hsame]
  · rw [hlone] at ho
    exact List.mem_of_mem_filter ho

/-! ## The end of ATTACH_STORE (R87, R88) -/

/-- The courses that are left when ATTACH_STORE is over. -/
theorem CoursesHeld.attachOver (h : s.CoursesHeld) (ha : s.attaching = true) (hbring : t.engine.bringUp = none)
    (hunits : t.tracker.units = s.tracker.units) (hrole : ∀ g, (s.recOf g).role.settled → (t.recOf g).role.settled)
    (hphase : t.engine.commitPhase = s.engine.commitPhase) (hfly : t.store.flying = s.store.flying)
    (hdram : t.dram = s.dram) (hregion : t.region = s.region)
    (htc : t.tc.state = s.tc.state ∧ t.tc.parkPhase = s.tc.parkPhase ∧ t.tc.waitingAbort = s.tc.waitingAbort ∧
      t.tc.railLoss = s.tc.railLoss ∧ t.tc.fetching = s.tc.fetching) : t.CoursesHeld := by
  obtain ⟨hst, hp, hw, hr, hf⟩ := htc
  obtain ⟨_, hact, hrail⟩ := h.attaching ha
  have hfetch : s.tc.fetching = none := by
    by_contra hne
    exact nomatch ha.symm.trans (h.fetching hne).2
  have hload : s.region.load = none := by
    by_contra hne
    obtain ⟨_, _, _, _, hno, _⟩ := h.load hne
    exact nomatch ha.symm.trans hno
  have hn : ¬ t.stilled := by simp [stilled, hst, hact]
  exact
    { settled := fun hs g => hrole g (h.settled (hst ▸ hs) g)
      detached := fun hs => by
        rw [hst, hact] at hs
        exact hs.elim nofun nofun
      bringUp := fun b hb => nomatch hbring.symm.trans hb
      load := fun hl => absurd (hregion ▸ hload) hl
      fetching := fun hne => absurd (hf.trans hfetch) hne
      attaching := fun hc => nomatch (attaching_of_none hbring).symm.trans hc
      commit := fun hc => by
        rw [hst, hphase]
        rw [hfly] at hc
        exact h.commit hc
      pattern := fun hm => by rw [hst, hp]; exact h.pattern (hdram ▸ hm)
      compare := fun hm => by rw [hst, hdram]; exact h.compare (hdram ▸ hm)
      entering := fun hc => by rw [hst, hp]; exact h.entering (hdram ▸ hc)
      asleep := fun hc => by rw [hst]; exact h.asleep (hdram ▸ hc)
      exiting := fun hc => by rw [hst, hp]; exact h.exiting (hdram ▸ hc)
      undone := fun hs hu => by rw [hw]; exact h.undone (hst ▸ hs) (hp ▸ hu)
      still := fun hs => absurd hs hn
      rail := fun hc => nomatch (hr.symm.trans hc).symm.trans hrail
      units := by
        rw [hunits, hf]
        exact h.units }

theorem Slotted.finishAttach (h : s.Slotted) (ha : s.attaching = true) (reply : ReplyCode) (result : OutcomeResult)
    (reason : OutcomeReason) : (s.finishAttach reply result reason).Slotted :=
  ⟨h.toSlotsPlaced.of_same {}, h.toCoursesHeld.attachOver ha rfl rfl (fun _ => id) rfl rfl rfl rfl
    ⟨rfl, rfl, rfl, rfl, rfl⟩⟩

/-! ## Who is told (R79) -/

theorem CoursesHeld.quiet_idle (h : s.CoursesHeld) (hst : s.tc.state = .saving ∨ s.tc.state = .committing)
    (hop : s.store.op = none) : s.Quiet := by
  have hn : ¬ s.stilled := by rcases hst with hst | hst <;> simp [stilled, hst]
  have hact : s.tc.state ≠ .active := by rcases hst with hst | hst <;> simp [hst]
  have hfly := flying_of_none hop
  exact
    { unbound := h.unbound hact
      commit := by rw [hfly]; exact ⟨nofun, nofun⟩
      pattern := fun hm => by
        obtain ⟨hp, _⟩ := h.pattern hm
        rcases hst with hst | hst <;> exact nomatch hst.symm.trans hp
      compare := fun hm => by
        obtain ⟨hp, _⟩ := h.compare hm
        rcases hst with hst | hst <;> exact nomatch hst.symm.trans hp }

theorem Slotted.tellStoreDown (h : s.Slotted) (hop : s.store.op = none) : s.tellStoreDown.Slotted := by
  unfold State.tellStoreDown
  split
  · rename_i hst
    have q := h.quiet_idle (.inr hst) hop
    split
    · exact h.endCommit q (.inr hst)
    · exact h.failEntry q (.inr hst) _
  · rename_i hst
    split
    · exact h
    · exact h.failEntry (h.quiet_idle (.inl hst) hop) (.inl hst) _
  · rename_i hst
    split
    · exact h
    · exact h.finishStart hst _
  · exact h.of_same {}
  · split
    · rename_i ha
      exact h.finishAttach ha _ _ _
    · exact h

theorem op_of_judging {s t : State} (j : Judging s t) : t.store.op = s.store.op := by
  induction j with
  | refl | ru | sent | faults | file | fillList | enqueue => rfl
  | trans _ _ ih ih' => exact ih'.trans ih
  | write s g => exact (congrArg (fun x : State => x.store.op) (s.only_claim g GRec.write GRec.writeFrees)).trans rfl

theorem Idle.storeDown (h : s.Idle) (reason : StoreReason) : (s.storeDown reason).Slotted := by
  obtain ⟨hstore, _⟩ := s.downed_others
  have j := s.downed.judging_leftAbsent s.poisonedByDown
  have hop : (s.downed.leftAbsent s.poisonedByDown).store.op = none :=
    (op_of_judging j).trans (by rw [hstore]; exact h.op)
  rw [storeDown_eq]
  exact Slotted.tellStoreDown ((Slotted.of_judging j h.downed).report _ _ _) hop

/-! ## Operations that end with the store DOWN (R14, R19, R81) -/

theorem Slotted.copyBad (h : s.Slotted) {slot : Nat} (hfly : s.store.flying = some (.copy g slot)) (timer : Timer) :
    ((s.endOp timer).copyBad g slot).Slotted := by
  unfold State.copyBad
  dsimp only
  split
  · exact ((h.idle_endOp timer).withdraw _).storeDown _
  · rename_i hfull
    have hr : Ranged s ((((s.endOp timer).withdraw fun o => o = .copy).claimCopyLost g).retireSlot slot) :=
      (((s.ranged_endOp timer).trans (ranged_withdraw _ _)).trans (ranged_claimCopyLost _ g)).trans
        (ranged_retireSlot _ slot ((retiredFull_claimCopyLost _ g).trans (Bool.eq_false_iff.mpr hfull)))
    exact (h.copyRetired hfly timer hr).report _ _ _

theorem Slotted.fillBad (h : s.Slotted) {o : StoreOp} (hop : s.store.op = some o) (hd : o.disregarded = false)
    (hp : o.purpose = .fill g) (timer : Timer) : ((s.endOp timer).fillBad g).Slotted := by
  have hfly : s.store.flying = some (.fill g) := hp ▸ flying_of_op hop hd
  have hline : Owner.fill g ∉ s.dram.lone := fun hm => (h.lined g hm).2 hfly
  unfold State.fillBad
  dsimp only
  split
  · exact ((h.idle_endOp timer).dropFill g).storeDown _
  · rename_i hfull
    have hended := h.endOp hop (by rw [hp]; exact nofun) timer
    have hr : Ranged (s.endOp timer) ((s.endOp timer).fillRetired g) :=
      ((ranged_dropFill _ g).trans (ranged_claimFillBad _ g)).trans
        (ranged_retireSlot _ _ ((retiredFull_claimFillBad _ g).trans (Bool.eq_false_iff.mpr hfull)))
    exact .of_judging (judging_leftAbsent _ _) ((hended.fillRetired (h.filled g hfly) rfl hline hr).report _ _ _)

end State

end Sys2Proof.Machine
end

