-- ==== Sys2Proof/Proofs/SlotBringUps.lean ====
section
/-! The steps of START and ATTACH_STORE keep every slot in its place, and an attached store has each slot in one
(R85 to R89, R125 to R129). -/

namespace Sys2Proof.Machine

/-! ## The slots of an attached store (R86, R89) -/

theorem count_freeOf (slots : Nat) {named retired : List Nat} (hn : named.Nodup) (hr : retired.Nodup)
    (hnamed : ∀ n ∈ named, n < slots ∧ n ∉ retired) (hretired : ∀ n ∈ retired, n < slots) (n : Nat) :
    (freeOf slots named retired).count n + named.count n + retired.count n = if n < slots then 1 else 0 := by
  have hfree : (freeOf slots named retired).Nodup := List.nodup_range.filter _
  have hmem : n ∈ freeOf slots named retired ↔ n < slots ∧ n ∉ named ∧ n ∉ retired := by
    simp [freeOf, List.mem_filter]
  rw [hfree.count, hn.count, hr.count]
  by_cases h1 : n ∈ named
  · obtain ⟨hlt, hno⟩ := hnamed n h1
    simp [hmem, h1, hno, hlt]
  · by_cases h2 : n ∈ retired
    · simp [hmem, h1, h2, hretired n h2]
    · simp [hmem, h1, h2]

/-- The slots that an index names, counted over the granules. -/
theorem count_namedSlots (n : Nat) : ∀ (index : List IndexEntry) (N : Nat),
    (∀ g, index[g]? = some (.slot n) → g < N) →
    (namedSlots index).count n = ∑ g ∈ Finset.range N, if index.getD g .none = .slot n then 1 else 0
  | [], N, _ => (Finset.sum_eq_zero fun g _ => if_neg nofun).symm
  | e :: index, 0, h => by
    have hrest := count_namedSlots n index 0 fun g hg => absurd (h (g + 1) hg) (Nat.not_lt_zero _)
    have hhead : e ≠ .slot n := fun he => absurd (h 0 (by rw [he]; rfl)) (Nat.not_lt_zero _)
    rw [namedSlots_cons, List.count_append, hrest, Finset.range_zero, Finset.sum_empty, Finset.sum_empty, Nat.add_zero]
    cases e with
    | slot m => exact List.count_eq_zero_of_not_mem fun hm => hhead (by rw [List.mem_singleton.mp hm])
    | lost | none => rfl
  | e :: index, N + 1, h => by
    have hrest := count_namedSlots n index N fun g hg => Nat.lt_of_succ_lt_succ (h (g + 1) hg)
    rw [namedSlots_cons, List.count_append, hrest, Finset.sum_range_succ', Nat.add_comm]
    refine congrArg _ ?_
    rw [List.getD_cons_zero]
    cases e with
    | slot m => simp [List.count_singleton]
    | lost | none => rfl

namespace State

variable {s t : State}

/-! ## Steps that follow one another -/

theorem Slotted.toIdle (h : s.Slotted) (hop : s.store.op = none) : s.Idle :=
  ⟨h.toCoursesHeld, h.sound, h.counted, h.blank, hop, h.lone, h.zeroed, h.listed⟩

/-- A bring-up goes on, with the retired list that it may put in place. -/
theorem Slotted.stepOn (h : s.Slotted) {b b' : BringUp} (hb : s.engine.bringUp = some b) (hm : b'.mode = b.mode)
    {l : List Nat} (hj : b'.judged l) :
    (s.setEngine { s.engine with retired := l, bringUp := some b' }).Slotted := by
  obtain ⟨hd, _, hmode⟩ := h.bringUp b hb
  have hattach : (s.setEngine { s.engine with retired := l, bringUp := some b' }).attaching = s.attaching := by
    unfold attaching
    rw [hb]
    exact congrArg (fun m => decide (m = .attach)) hm
  refine ⟨⟨h.sound, h.counted, h.blank, fun ha => absurd ha hd, h.vacant, h.copied, h.filled, h.lined, h.lone, h.zeroed,
    h.listed⟩, ?_⟩
  exact
    { settled := h.settled
      detached := h.detached
      bringUp := fun x hx => by
        cases hx
        exact ⟨hd, hj, fun hne => hmode (hm ▸ hne)⟩
      load := fun hl => by
        rw [hattach]
        exact h.load hl
      fetching := fun hf => by
        rw [hattach]
        exact h.fetching hf
      attaching := fun ha => h.attaching (hattach ▸ ha)
      commit := h.commit
      pattern := h.pattern
      compare := h.compare
      entering := h.entering
      asleep := h.asleep
      exiting := h.exiting
      undone := h.undone
      still := h.still
      rail := h.rail
      units := h.units }

theorem Slotted.nextStep (h : s.Slotted) {b b' : BringUp} (hb : s.engine.bringUp = some b) (hm : b'.mode = b.mode)
    (hj : b'.judged s.engine.retired) : (s.nextStep b').Slotted :=
  h.stepOn hb hm hj

/-! ## START RESUME fails (R129) -/

theorem SlotsPlaced.noCopy_of_detached (h : s.SlotsPlaced) (hd : s.store.status ≠ .attached) : s.store.noCopy := by
  intro g n hf
  obtain ⟨_, hp⟩ := (GRec.role_copying_iff _ _).mp ((h.copied g (some n)).mpr ⟨n, rfl, hf⟩)
  have hzero := h.vacant hd g n
  rw [GRec.slotCount, hp, Option.toList_some, List.count_singleton_self] at hzero
  omega

/-- Where no record is ABSENT or FILLING, no fill is under way or listed. -/
theorem SlotsPlaced.noFill_of_settled (h : s.SlotsPlaced) (hs : ∀ g, (s.recOf g).role.settled) :
    (∀ g, s.store.flying ≠ some (.fill g)) ∧ (∀ g, Owner.fill g ∉ s.dram.lone) ∧ s.engine.zeroFill = none ∧
      s.engine.fillList = [] := by
  have hfill : ∀ g b, (s.recOf g).role ≠ .filling b := fun g b hr => by
    have := hs g
    rw [hr] at this
    exact this
  refine ⟨fun g hf => hfill g _ (h.filled g hf), fun g hm => hfill g _ (h.lined g hm).1, ?_, ?_⟩
  · by_contra hz
    obtain ⟨g, hg⟩ := Option.ne_none_iff_exists'.mp hz
    exact hfill g _ (h.zeroed g hg)
  · refine List.eq_nil_iff_forall_not_mem.mpr fun g hg => ?_
    have := hs g
    rw [h.listed g hg] at this
    exact this

/-- `t` is `u` with START over: the bring-up gone, and another state of the part entered. -/
structure Ended (u t : State) : Prop where
  tracker : t.tracker = u.tracker
  bringUp : t.engine.bringUp = none
  freeSlots : t.engine.freeSlots = u.engine.freeSlots
  retired : t.engine.retired = u.engine.retired
  fillList : t.engine.fillList = u.engine.fillList
  zeroFill : t.engine.zeroFill = u.engine.zeroFill
  store : t.store = u.store
  dram : t.dram = u.dram
  load : t.region.load = u.region.load
  side : t.side = u.side
  railLoss : t.tc.railLoss = u.tc.railLoss
  fetching : t.tc.fetching = u.tc.fetching

theorem ended_finishStart (u : State) (reason : OutcomeReason) (st : TState) : Ended u (u.finishStart reason st) := by
  obtain ⟨htracker, hstore, hdram, _, hregion, _, hside⟩ := u.others_finishStart reason st
  obtain ⟨_, _, hbring, _, hfree, hretired⟩ := u.written_finishStart reason st
  exact ⟨htracker, hbring, hfree, hretired, rfl, rfl, hstore, hdram, congrArg RegionUnit.load hregion, hside, rfl, rfl⟩

theorem ended_resumeFail (s : State) (reason : OutcomeReason) : Ended s.claimClear (s.resumeFail reason) :=
  ⟨rfl, rfl, rfl, rfl, rfl, rfl, rfl, rfl, rfl, rfl, rfl, rfl⟩

theorem SlotsPlaced.ended {u : State} (h : u.SlotsPlaced) (k : Ended u t) : t.SlotsPlaced :=
  h.of_same
    { retired := k.retired
      fillList := k.fillList
      zeroFill := k.zeroFill
      status := congrArg StorePort.status k.store
      flying := congrArg StorePort.flying k.store
      stray := congrArg StorePort.stray k.store
      slots := congrArg StorePort.slots k.store
      lone := congrArg DramPort.lone k.dram } k.tracker k.freeSlots

/-- START is over: what it put in place is in `u`. -/
theorem CoursesHeld.ended {u : State} (h : s.CoursesHeld) (hst : s.tc.state = .starting) (k : Ended u t)
    (hstate : t.tc.state = .active ∨ t.tc.state = .restoring ∨ t.tc.state = .unconfigured)
    (hroles : t.tc.state ≠ .restoring → ∀ g, (u.recOf g).role.settled)
    (hdetached : t.tc.state = .unconfigured → u.store.status ≠ .attached)
    (hunits : u.tracker.units ≤ s.tracker.units) (hfly : u.store.flying = s.store.flying) (hdram : u.dram = s.dram)
    (hload : u.region.load = s.region.load) (hside : u.side = s.side) (htc : u.tc = s.tc) : t.CoursesHeld := by
  have hcond : t.dram.cond.refreshing = false := by
    rw [k.dram, hdram]
    exact h.awake (by simp [stilled, hst])
  refine h.move (h.quiet_starting hst)
    { units := by rw [k.tracker]; exact hunits
      attached := fun _ => .inr k.bringUp
      retired := .inr k.bringUp
      flying := fun p hp => by rwa [k.store, hfly] at hp
      lone := fun o ho => by rwa [k.dram, hdram] at ho
      bringUp := .inr k.bringUp
      railLoss := by rw [k.railLoss, htc]; exact id
      fetching := by rw [k.fetching, htc]
      load := .inl (k.load.trans hload)
      handling := by rw [k.side, hside] }
    (refreshes_of_awake hcond) (fun hs g => ?_) (fun hs => ?_) (.inl k.bringUp) (fun hs => ?_) (fun hs => ?_)
  · rw [recOf, k.tracker]
    refine hroles (fun hc => ?_) g
    rw [hc] at hs
    exact hs.elim nofun fun hs => hs.elim nofun nofun
  · rw [k.store]
    rcases hstate with hstate | hstate | hstate
    · rw [hstate] at hs
      exact hs.elim nofun nofun
    · rw [hstate] at hs
      exact hs.elim nofun nofun
    · exact hdetached hstate
  · rcases hstate with hstate | hstate | hstate <;> exact nomatch hstate.symm.trans hs
  · rcases hstate with hstate | hstate | hstate <;> rcases hs with hc | hc | ⟨hc, _⟩ <;>
      exact nomatch hstate.symm.trans hc

theorem Slotted.resumeFail (h : s.Slotted) (hst : s.tc.state = .starting) (reason : OutcomeReason) :
    (s.resumeFail reason).Slotted := by
  have hd := h.detached (.inr hst)
  obtain ⟨hfill, hline, hzero, hlist⟩ := h.noFill_of_settled (h.settled (.inr (.inr hst)))
  have htable : s.claimClear.tracker.table = [] := rfl
  have hstate : (s.resumeFail reason).tc.state = .unconfigured := rfl
  have hplaced : s.claimClear.SlotsPlaced :=
    slotsPlaced_of_empty htable Tracker.counted_reset hd (h.noCopy_of_detached hd) hfill hline h.lone hzero hlist
  refine ⟨hplaced.ended (s.ended_resumeFail reason), h.toCoursesHeld.ended hst (s.ended_resumeFail reason)
    (.inr (.inr hstate)) (fun _ g => ?_) (fun _ => hd) (Nat.zero_le _) rfl rfl rfl rfl rfl⟩
  rw [role_of_empty htable]
  trivial

theorem Slotted.stepFailed (h : s.Slotted) (hop : s.store.op = none) {b : BringUp} (hb : s.engine.bringUp = some b)
    (reason : StoreReason) : (s.stepFailed b reason).Slotted := by
  obtain ⟨_, _, hmode⟩ := h.bringUp b hb
  unfold State.stepFailed
  split
  · rename_i hm
    exact h.resumeFail (hmode (by rw [hm]; exact nofun)) _
  · exact (h.toIdle hop).storeDown _

/-! ## The empty epoch (R85, R86) -/

theorem attaching_of_mode {b : BringUp} (hb : s.engine.bringUp = some b) (hm : b.mode = .attach) :
    s.attaching = true := by
  rw [attaching, hb]
  exact decide_eq_true hm

theorem SlotsPlaced.setRetired (h : s.SlotsPlaced) (hd : s.store.status ≠ .attached) (l : List Nat) :
    (s.setEngine { s.engine with retired := l }).SlotsPlaced :=
  ⟨h.sound, h.counted, h.blank, fun ha => absurd ha hd, h.vacant, h.copied, h.filled, h.lined, h.lone, h.zeroed, h.listed⟩

/-- ATTACH_STORE is over: what it put in place is in `u`. -/
theorem Slotted.attachEnds {u : State} (h : s.Slotted) (ha : s.attaching = true) (hplaced : u.SlotsPlaced)
    (hrec : u.tracker = s.tracker) (hphase : u.engine.commitPhase = s.engine.commitPhase)
    (hfly : u.store.flying = s.store.flying) (hdram : u.dram = s.dram) (hregion : u.region = s.region)
    (htc : u.tc = s.tc) (reply : ReplyCode) (result : OutcomeResult) (reason : OutcomeReason) :
    (u.finishAttach reply result reason).Slotted := by
  refine ⟨hplaced.of_same {}, h.toCoursesHeld.attachOver ha rfl (congrArg Tracker.units hrec) (fun g hg => ?_) hphase
    hfly hdram hregion ?_⟩
  · have hsame : (u.finishAttach reply result reason).recOf g = u.recOf g := rfl
    rwa [hsame, recOf, hrec]
  · have hkept : ∀ v : State, (v.finishAttach reply result reason).tc.state = v.tc.state ∧
        (v.finishAttach reply result reason).tc.parkPhase = v.tc.parkPhase ∧
        (v.finishAttach reply result reason).tc.waitingAbort = v.tc.waitingAbort ∧
        (v.finishAttach reply result reason).tc.railLoss = v.tc.railLoss ∧
        (v.finishAttach reply result reason).tc.fetching = v.tc.fetching := fun v => ⟨rfl, rfl, rfl, rfl, rfl⟩
    rw [← htc]
    exact hkept u

theorem Slotted.capacityFails (h : s.Slotted) {b b' : BringUp} (hb : s.engine.bringUp = some b)
    (hm : b'.mode = b.mode) (l : List Nat) : ((s.setEngine { s.engine with retired := l }).capacityFails b').Slotted := by
  obtain ⟨hd, _, hmode⟩ := h.bringUp b hb
  unfold State.capacityFails
  split
  · rename_i hattach
    exact h.attachEnds (attaching_of_mode hb (hm ▸ hattach)) (h.setRetired hd b'.formerRetired) rfl rfl rfl rfl rfl rfl
      _ _ _
  · rename_i hattach
    have hst := hmode (hm ▸ hattach)
    exact ⟨(h.setRetired hd []).ended (ended_finishStart _ _ _), h.toCoursesHeld.ended hst (ended_finishStart _ _ _)
      (.inl rfl) (fun _ => h.settled (.inr (.inr hst))) nofun (Nat.le_refl _) rfl rfl rfl rfl rfl⟩

theorem nodup_adoptedRetired (chosen : Option Header) (slots : Nat) :
    (adoptedRetired chosen slots).Nodup ∧ ∀ n ∈ adoptedRetired chosen slots, n < slots := by
  unfold adoptedRetired
  split
  · split
    · rename_i h hc
      obtain ⟨_, hlt, hnodup⟩ := (retiredOk_iff h slots).mp hc.2
      exact ⟨hnodup, hlt⟩
    · exact ⟨List.nodup_nil, nofun⟩
  · exact ⟨List.nodup_nil, nofun⟩

theorem Slotted.adopt (h : s.Slotted) {b b' : BringUp} (hb : s.engine.bringUp = some b) (hm : b'.mode = b.mode) :
    (s.adopt b').Slotted := by
  have hadopted := nodup_adoptedRetired (highest b'.header0 b'.header1) b'.slots
  by_cases hfits : 2 * preservedCount s.region.file s.granules +
      (adoptedRetired (highest b'.header0 b'.header1) b'.slots).length ≤ b'.slots
  · rw [adopt_of_fits rfl hfits]
    exact h.stepOn hb (by exact hm) ⟨fun hc => (nomatch hc), fun _ => hadopted⟩
  · rw [adopt_of_not_fits rfl hfits]
    exact h.capacityFails hb (by exact hm) (adoptedRetired (highest b'.header0 b'.header1) b'.slots)

theorem slotCount_of_vacant (h : s.SlotsPlaced) (hd : s.store.status ≠ .attached) (n : Nat) :
    s.tracker.table.slotCount n = 0 :=
  GTable.slotCount_eq_zero h.sound.1 fun g => h.vacant hd g n

/-- The slots of an empty epoch are in place: each is free or retired (R86, R89). -/
theorem SlotsPlaced.emptyEpoch {u : State} {slots : Nat} (h : s.SlotsPlaced) (hd : s.store.status ≠ .attached)
    (hop : s.store.op = none) (hnodup : s.engine.retired.Nodup) (hlt : ∀ n ∈ s.engine.retired, n < slots)
    (htracker : u.tracker = s.tracker) (hfree : u.engine.freeSlots = freeOf slots [] s.engine.retired)
    (hretired : u.engine.retired = s.engine.retired) (hfill : u.engine.fillList = s.engine.fillList)
    (hzero : u.engine.zeroFill = s.engine.zeroFill)
    (hstore : u.store = { s.store with status := .attached, slots := slots }) (hdram : u.dram = s.dram) :
    u.SlotsPlaced := by
  have hrec : ∀ g, u.recOf g = s.recOf g := fun g => by rw [recOf, htracker]; rfl
  have hflying : u.store.flying = s.store.flying := by rw [hstore]; rfl
  refine ⟨htracker ▸ h.sound, htracker ▸ h.counted, checkBlank_of_tracker htracker h.blank, fun _ n => ?_,
    fun ha => absurd (by rw [hstore]) ha, fun g p => ?_, fun g hf => ?_, fun g hm => ?_, ?_, fun g hz => ?_, fun g hm => ?_⟩
  · have hslots : u.store.slots = slots := by rw [hstore]
    have hstray : u.store.stray = none := stray_of_none (by rw [hstore]; exact hop)
    rw [hslots, ← count_freeOf slots List.nodup_nil hnodup nofun hlt n, slotCount, hfree, hretired, htracker, hstray,
      slotCount_of_vacant h hd]
    rfl
  · rw [hrec, hflying]
    exact h.copied g p
  · rw [hrec]
    exact h.filled g (hflying ▸ hf)
  · rw [hrec, hflying]
    exact h.lined g (hdram ▸ hm)
  · rw [hdram]
    exact h.lone
  · rw [hrec]
    exact h.zeroed g (hzero ▸ hz)
  · rw [hrec]
    exact h.listed g (hfill ▸ hm)

theorem Slotted.attached (h : s.Slotted) (hop : s.store.op = none) {b : BringUp} (hb : s.engine.bringUp = some b)
    (hstep : b.step = .emptyHeader) : (s.attached b).Slotted := by
  obtain ⟨hd, hj, hmode⟩ := h.bringUp b hb
  obtain ⟨hnodup, hlt⟩ := hj.2 (.inr hstep)
  have hplaced := h.emptyEpoch hd hop hnodup hlt (u := (s.setEngine
      { s.engine with
        epoch := b.oldEpoch + 1
        mark := .clear
        headerRecord := b.header0
        freeSlots := freeOf b.slots [] s.engine.retired
        exhaustionNoted := false }).setStore { s.store with status := .attached, slots := b.slots })
    rfl rfl rfl rfl rfl rfl rfl
  unfold State.attached
  dsimp only
  split
  · rename_i hattach
    exact h.attachEnds (attaching_of_mode hb hattach) hplaced rfl rfl rfl rfl rfl rfl _ _ _
  · rename_i hattach
    have hst := hmode hattach
    exact ⟨hplaced.ended (ended_finishStart _ _ _), h.toCoursesHeld.ended hst (ended_finishStart _ _ _)
      (.inl rfl) (fun _ => h.settled (.inr (.inr hst))) nofun (Nat.le_refl _) rfl rfl rfl rfl rfl⟩

end State

end Sys2Proof.Machine
end

