-- ==== Sys2Proof/Proofs/SlotResumes.lean ====
section
/-! A resume builds a table whose granules hold the slots that the index names, each one; and the steps of a bring-up
keep every slot in its place (R25, R85, R125 to R129). -/

namespace Sys2Proof.Machine

namespace GRec

theorem resume_of_not_preserved (e : IndexEntry) {cls : GClass} (h : cls.preserved = false) :
    GRec.resume e cls = { st := .absent, committed := none, pending := none, cls := cls } ∨
      GRec.resume e cls = { st := .void, committed := none, pending := none, cls := cls } := by
  have hnot : ¬ cls.preserved = true := by
    rw [h]
    decide
  unfold resume
  rw [if_neg hnot]
  by_cases hz : cls = .zero
  · exact .inl (if_pos hz)
  · exact .inr (if_neg hz)

theorem slotCount_resume {e : IndexEntry} {cls : GClass} (h : ∀ n, e = .slot n → cls.preserved = true) (n : Nat) :
    (GRec.resume e cls).slotCount n = if e = .slot n then 1 else 0 := by
  cases hc : cls.preserved with
  | true => cases e <;> simp [resume, hc, slotCount, List.count_singleton]
  | false =>
    have hno : e ≠ .slot n := fun he => by
      rw [h n he] at hc
      cases hc
    rw [if_neg hno]
    rcases resume_of_not_preserved e hc with hr | hr <;> rw [hr] <;> rfl

theorem role_resume (e : IndexEntry) (cls : GClass) :
    (GRec.resume e cls).role = .absent ∨ (GRec.resume e cls).role = .free := by
  cases hc : cls.preserved with
  | true => cases e <;> simp [resume, hc, role]
  | false =>
    rcases resume_of_not_preserved e hc with hr | hr <;> rw [hr]
    · exact .inl rfl
    · exact .inr rfl

end GRec

theorem indexOk_slot {granules slots : Nat} {h : Header} {index : List IndexEntry}
    (hok : indexOk granules slots h index = true) {g n : Nat} (hg : index[g]? = some (.slot n)) :
    g + 1 < granules ∧ (h.file.classOf granules g).preserved = true ∧ n < slots ∧ n ∉ h.retired := by
  obtain ⟨hplace, hslot, _⟩ := (resumeClaimFollowsItsTable.1 granules slots h index).mp hok
  obtain ⟨hlt, hcls⟩ := hplace g _ hg nofun
  exact ⟨hlt, (GClass.preserved_iff _).mpr hcls, hslot g n hg⟩

theorem indexOk_nodup {granules slots : Nat} {h : Header} {index : List IndexEntry}
    (hok : indexOk granules slots h index = true) : (namedSlots index).Nodup := by
  rw [indexOk, Bool.and_eq_true, decide_eq_true_eq] at hok
  exact hok.2

theorem getElem?_of_getD {index : List IndexEntry} {g n : Nat} (h : index.getD g .none = .slot n) :
    index[g]? = some (.slot n) := by
  rw [List.getD_eq_getElem?_getD] at h
  cases hg : index[g]? with
  | none =>
    rw [hg] at h
    cases h
  | some e =>
    rw [hg] at h
    exact congrArg some h

namespace State

variable {s t : State}

/-- The table that a resume builds, with its region file in force. -/
def resumed (s : State) (h : Header) (index : List IndexEntry) : State :=
  (s.setRegion { s.region with file := h.file }).claimResume index

theorem recOf_resumed (s : State) (h : Header) (index : List IndexEntry) (g : Nat) :
    (s.resumed h index).recOf g =
      if g < s.granules then GRec.resume (index.getD g .none) (h.file.classOf s.granules g) else GRec.blank :=
  recOf_claimResume _ _ _

theorem role_resumed (s : State) (h : Header) (index : List IndexEntry) (g : Nat) :
    ((s.resumed h index).recOf g).role = .absent ∨ ((s.resumed h index).recOf g).role = .free := by
  rw [recOf_resumed]
  split
  · exact GRec.role_resume _ _
  · exact .inr rfl

theorem ranged_resumed (s : State) (h : Header) (index : List IndexEntry) : Ranged s (s.resumed h index) :=
  (s.ranged_setRegion { s.region with file := h.file }).trans (ranged_claimResume _ index)

/-- The table of a resume holds the slots that the index names. -/
theorem slotCount_resumed {slots : Nat} {h : Header} {index : List IndexEntry}
    (hok : indexOk s.granules slots h index = true) (n : Nat) :
    (s.resumed h index).tracker.table.slotCount n = (namedSlots index).count n := by
  rw [count_namedSlots n index s.granules fun g hg => by
    obtain ⟨hlt, _⟩ := indexOk_slot hok hg
    omega]
  refine (GTable.slotCount_build s.granules
    (fun g => GRec.resume (index.getD g .none) (h.file.classOf s.granules g)) n).trans ?_
  refine Finset.sum_congr rfl fun g _ => GRec.slotCount_resume (fun m hm => ?_) n
  obtain ⟨_, hcls, _⟩ := indexOk_slot hok (getElem?_of_getD hm)
  exact hcls

/-- A resume puts every slot in one place (R25, R89, R128). -/
theorem SlotsPlaced.resumed {u : State} {slots : Nat} {h : Header} {index : List IndexEntry} (hs : s.SlotsPlaced)
    (hsettled : ∀ g, (s.recOf g).role.settled) (hop : s.store.op = none)
    (hok : indexOk s.granules slots h index = true) (hretiredOk : h.retiredOk slots = true)
    (htracker : u.tracker = (s.resumed h index).tracker)
    (hfree : u.engine.freeSlots = freeOf slots (namedSlots index) h.retired) (hretired : u.engine.retired = h.retired)
    (hfill : u.engine.fillList = s.engine.fillList) (hzero : u.engine.zeroFill = s.engine.zeroFill)
    (hstore : u.store = { s.store with status := .attached, slots := slots }) (hdram : u.dram = s.dram) :
    u.SlotsPlaced := by
  obtain ⟨_, hlt, hnodup⟩ := (retiredOk_iff h slots).mp hretiredOk
  obtain ⟨_, hnoline, hnozero, hnolist⟩ := hs.noFill_of_settled hsettled
  have hr := s.ranged_resumed h index
  have hrec : ∀ g, (u.recOf g).role = .absent ∨ (u.recOf g).role = .free := fun g => by
    have hsame : u.recOf g = (s.resumed h index).recOf g := by rw [recOf, htracker]; rfl
    rw [hsame]
    exact s.role_resumed h index g
  have hflying : u.store.flying = none := flying_of_none (by rw [hstore]; exact hop)
  have hslots : u.store.slots = slots := by rw [hstore]
  have hstray : u.store.stray = none := stray_of_none (by rw [hstore]; exact hop)
  refine ⟨htracker ▸ hr.sound hs.sound, htracker ▸ hr.counted hs.counted,
    checkBlank_of_tracker htracker (hr.blank hs.sound hs.blank), fun _ n => ?_, fun ha => absurd (by rw [hstore]) ha,
    fun g p => ?_, fun g hf => (nomatch hflying.symm.trans hf), fun g hm => absurd (hdram ▸ hm) (hnoline g), ?_,
    fun g hz => (nomatch (hzero.trans hnozero).symm.trans hz), fun g hm => ?_⟩
  · rw [hslots, ← count_freeOf slots (indexOk_nodup hok) hnodup ?_ hlt n, slotCount, hfree, hretired, htracker, hstray,
      slotCount_resumed hok]
    · rfl
    · intro m hm
      obtain ⟨g, hg⟩ := mem_namedSlots.mp hm
      obtain ⟨_, _, hslot⟩ := indexOk_slot hok hg
      exact hslot
  · rw [hflying]
    refine ⟨fun hc => ?_, fun ⟨_, _, hc⟩ => (nomatch hc)⟩
    rcases hrec g with hg | hg <;> exact nomatch hg.symm.trans hc
  · rw [hdram]
    exact hs.lone
  · rw [hfill, hnolist] at hm
    cases hm

theorem Slotted.resumeDone (h : s.Slotted) (hop : s.store.op = none) (hst : s.tc.state = .starting) {b : BringUp}
    {x : Header} {index : List IndexEntry} (hx : x.retiredOk b.slots = true)
    (hok : indexOk s.granules b.slots x index = true) : (s.resumeDone b x index).Slotted := by
  have hplaced := h.toSlotsPlaced.resumed (h.settled (.inr (.inr hst))) hop hok hx
    (u := ((s.resumed x index).setEngine
      { s.engine with
        retired := x.retired
        freeSlots := freeOf b.slots (namedSlots index) x.retired
        exhaustionNoted := false
        epoch := x.epoch
        mark := .set
        headerRecord := some x }).setStore { s.store with status := .attached, slots := b.slots })
    rfl rfl rfl rfl rfl rfl rfl
  generalize hu : ((s.resumed x index).setEngine
      { s.engine with
        retired := x.retired
        freeSlots := freeOf b.slots (namedSlots index) x.retired
        exhaustionNoted := false
        epoch := x.epoch
        mark := .set
        headerRecord := some x }).setStore { s.store with status := .attached, slots := b.slots } = u at hplaced
  have hdone : s.resumeDone b x index = u.finishStart .none u.returnTarget := by rw [← hu]; rfl
  have hunits : u.tracker.units = s.tracker.units := by rw [← hu]; rfl
  have hstate : (u.finishStart .none u.returnTarget).tc.state = u.returnTarget := rfl
  have k := ended_finishStart u .none u.returnTarget
  rw [hdone]
  refine ⟨hplaced.ended k, h.toCoursesHeld.ended hst k ?_ (fun hc => ?_) (fun hc => ?_) hunits.le (by rw [← hu]; rfl)
    (by rw [← hu]; rfl) (by rw [← hu]; rfl) (by rw [← hu]; rfl) (by rw [← hu]; rfl)⟩
  · rw [hstate]
    exact u.returnTarget_states.imp_right .inl
  · rw [hstate] at hc
    rcases u.returnTarget_eq with ⟨ht, _⟩ | ⟨_, ha⟩
    · exact absurd ht hc
    · exact hplaced.settled_of_anyAbsent (hunits ▸ h.units.1) ha
  · rcases u.returnTarget_eq with ⟨ht, _⟩ | ⟨ht, _⟩ <;> exact nomatch (hstate.trans ht).symm.trans hc

/-! ## Headers and indices judged (R126, R127) -/

theorem retiredOk_of_headerFault {granules units slots : Nat} {x : Header} (h : headerFault granules units slots x = none) :
    x.retiredOk slots = true := by
  unfold headerFault at h
  split at h
  · cases h
  · split at h
    · cases h
    · split at h
      · cases h
      · rename_i hc
        cases hr : x.retiredOk slots with
        | true => rfl
        | false => rw [hr] at hc; exact absurd rfl hc

theorem Slotted.judgeHeader (h : s.Slotted) {b b' : BringUp} (hb : s.engine.bringUp = some b) (hm : b'.mode = b.mode)
    (hmode : b.mode = .resume) : (s.judgeHeader b').Slotted := by
  have hattach : b.mode ≠ .attach := by
    rw [hmode]
    exact nofun
  obtain ⟨_, _, hstarting⟩ := h.bringUp b hb
  have hst := hstarting hattach
  cases hh : highest b'.header0 b'.header1 with
  | none =>
    rw [judgeHeader_of_none hh]
    exact h.resumeFail hst _
  | some x =>
    cases hf : headerFault s.granules s.tracker.units b'.slots x with
    | some reason =>
      rw [judgeHeader_of_fault hh hf]
      exact h.resumeFail hst _
    | none =>
      rw [judgeHeader_of_sound hh hf]
      exact h.nextStep hb hm ⟨fun _ => ⟨fun hc => hattach (hm.symm.trans hc), x, rfl, retiredOk_of_headerFault hf⟩,
        fun hc => hc.elim nofun nofun⟩

theorem Slotted.judgeIndex (h : s.Slotted) (hop : s.store.op = none) {b : BringUp} (hb : s.engine.bringUp = some b)
    (hstep : b.step = .index) (block : Frame) : (s.judgeIndex b block).Slotted := by
  obtain ⟨_, ⟨hindex, _⟩, hmode⟩ := h.bringUp b hb
  obtain ⟨hattach, x, hx, hretired⟩ := hindex hstep
  have hst := hmode hattach
  by_cases hc : checkCode { bytes := block.bytes.take 262144, length := 262144 } = b.indexCode
  · cases hi : decodeIndex block with
    | none =>
      rw [judgeIndex_of_invalid (.inr (.inr hi))]
      exact h.resumeFail hst _
    | some index =>
      rw [judgeIndex_of_valid hx hc hi]
      split
      · rename_i hok
        exact h.resumeDone hop hst hretired hok
      · exact h.resumeFail hst _
  · rw [judgeIndex_of_invalid (.inr (.inl hc))]
    exact h.resumeFail hst _

/-! ## Steps answered, and steps that expire -/

theorem Slotted.stepGood (h : s.Slotted) (hop : s.store.op = none) {b : BringUp} (hb : s.engine.bringUp = some b)
    (f : Frame) : (s.stepGood b f).Slotted := by
  obtain ⟨_, ⟨_, hempty⟩, _⟩ := h.bringUp b hb
  cases hs : b.step with
  | identify =>
    rw [stepGood_of_identify hs]
    split
    · exact h.nextStep hb rfl ⟨fun hc => (nomatch hc), fun hc => hc.elim nofun nofun⟩
    · exact h.stepFailed hop hb _
  | header0 =>
    rw [stepGood_of_header0 hs]
    exact h.nextStep hb rfl ⟨fun hc => (nomatch hc), fun hc => hc.elim nofun nofun⟩
  | header1 =>
    by_cases hm : b.mode = .resume
    · rw [stepGood_of_header1_resume hs hm]
      exact h.judgeHeader hb rfl hm
    · rw [stepGood_of_header1_adopt hs hm]
      exact h.adopt hb rfl
  | index =>
    rw [stepGood_of_index hs]
    exact h.judgeIndex hop hb hs _
  | emptyIndex =>
    rw [stepGood_of_emptyIndex hs]
    exact h.nextStep hb rfl ⟨fun hc => (nomatch hc), fun _ => hempty (.inl hs)⟩
  | emptyHeader =>
    rw [stepGood_of_emptyHeader hs]
    exact h.attached hop hb hs

theorem Slotted.stepBad (h : s.Slotted) (hop : s.store.op = none) {b : BringUp} (hb : s.engine.bringUp = some b) :
    (s.stepBad b).Slotted := by
  unfold State.stepBad
  split <;> exact h.stepFailed hop hb _

theorem Slotted.stepExpired (h : s.Slotted) (hop : s.store.op = none) {b : BringUp} (hb : s.engine.bringUp = some b) :
    (s.stepExpired b).Slotted := by
  unfold State.stepExpired
  split <;> exact h.stepFailed hop hb _

end State

end Sys2Proof.Machine
end

