-- ==== Sys2Proof/Proofs/SlotLoads.lean ====
section
/-! The ends of the fetches of region tables keep every slot in its place: a reload leaves every slot with its granule
(R24, R37, R38, R40, R137). -/

namespace Sys2Proof.Machine

namespace GRec

/-- A record with no transfer and no slot pending keeps its slot through a reload. -/
theorem slotCount_reload {r : GRec} (h : r.pending = none) (cls : GClass) (n : Nat) :
    (r.reload cls).slotCount n = r.slotCount n := by
  obtain ⟨st, committed, pending, c⟩ := r
  cases h
  cases hc : c.preserved <;> cases hn : cls.preserved <;> simp [reload, slotCount, hc, hn]

theorem role_reload {r : GRec} (h : r.role = .free) (cls : GClass) : (r.reload cls).role = .free := by
  obtain ⟨st, committed, pending, c⟩ := r
  cases hc : c.preserved <;> cases hn : cls.preserved <;> simp only [reload, hc, hn]
  case true.true => cases st <;> cases h <;> rfl
  all_goals rfl

/-- After an abandonment a slot is pending in copies only. -/
theorem pending_abandon {r : GRec} (hs : r.sound) (hr : ∀ p, r.role ≠ .copying p) : r.abandon.pending = none := by
  obtain ⟨st, committed, pending, c⟩ := r
  cases st with
  | copying | recopy => exact absurd rfl (hr pending)
  | saved => rfl
  | clean => exact hs.2.2
  | void | dirty | poison => exact hs.2
  | absent | filling => exact hs.1

end GRec

namespace State

variable {s t : State}

/-! ## Judging keeps the courses -/

theorem sameState_of_judging (j : Judging s t) : SameState s t := by
  induction j with
  | refl | ru | sent | faults | file | fillList | enqueue => exact {}
  | trans _ _ ih ih' => exact ih.trans ih'
  | write s g => exact (s.sameCourses_claim g GRec.write GRec.writeFrees).toSameState

/-! ## The reload (R24) -/

theorem sameCourses_setFile (s : State) (file : RegionFile) :
    SameCourses s (s.setRegion { s.region with file := file }) := {}

theorem recOf_setFile (s : State) (file : RegionFile) (g : Nat) :
    (s.setRegion { s.region with file := file }).recOf g = s.recOf g := rfl

theorem Slotted.setFile (h : s.Slotted) (file : RegionFile) :
    (s.setRegion { s.region with file := file }).Slotted :=
  h.of_same (s.sameCourses_setFile file)

theorem sameCourses_claimReload (s : State) : SameCourses s s.claimReload := by
  rw [claimReload_eq]
  split
  · unfold noticeDirty
    split
    · exact {}
    · exact {}
  · exact {}

theorem freeSlots_claimReload (s : State) : s.claimReload.engine.freeSlots = s.engine.freeSlots := by
  rw [claimReload_eq]
  split
  · rw [engine_noticeDirty]
    rfl
  · rfl

/-- A reload where no transfer is on a granule and no slot is pending. -/
theorem Slotted.claimReload (h : s.Slotted) (hrole : ∀ g, (s.recOf g).role = .free)
    (hpending : ∀ g, (s.recOf g).pending = none) : s.claimReload.Slotted := by
  have k := s.sameCourses_claimReload
  have hblank : ∀ g, ¬ g < s.granules → s.recOf g = GRec.blank := fun g hg => h.blank g (by omega)
  have hcount : ∀ g n, (s.claimReload.recOf g).slotCount n = (s.recOf g).slotCount n := fun g n => by
    rw [recOf_claimReload]
    split
    · exact GRec.slotCount_reload (hpending g) _ n
    · rename_i hg
      rw [hblank g hg]
  refine h.of_roles k s.ranged_claimReload (fun g => ?_) (fun _ n => ?_) fun hd g n => ?_
  · rw [recOf_claimReload]
    split
    · rw [hrole g, GRec.role_reload (hrole g)]
    · rename_i hg
      rw [hblank g hg]
  · have hold : s.tracker.table.slotCount n = ∑ g ∈ Finset.range s.granules, (s.recOf g).slotCount n :=
      GTable.slotCount_eq_sum h.sound.1 (GTable.bound_of_blank h.sound.1 fun g hg => hblank g (Nat.not_lt.mpr hg)) n
    have hnew : s.claimReload.tracker.table.slotCount n =
        ∑ g ∈ Finset.range s.granules, (s.recOf g).slotCount n := by
      rw [only_claimReload]
      refine (GTable.slotCount_build _ _ n).trans (Finset.sum_congr rfl fun g _ => ?_)
      exact GRec.slotCount_reload (hpending g) _ n
    rw [slotCount, slotCount, freeSlots_claimReload, k.retired, k.stray, hnew, hold]
  · rw [hcount]
    exact h.vacant hd g n

/-! ## Replies (R37, R38, R40, R137) -/

/-- The courses where what ties the part to a command under way may change: its load, its fetch and its hold. -/
theorem CoursesHeld.rebound (h : s.CoursesHeld)
    (hload : t.region.load ≠ none →
      s.tc.state = .active ∧ s.tc.railLoss = false ∧ t.side.handling = true ∧ t.tc.fetching = none ∧
        s.attaching = false ∧ s.store.noCopy)
    (hfetch : t.tc.fetching ≠ none → t.side.handling = true ∧ s.attaching = false)
    (hattach : s.attaching = true → t.side.handling = true)
    (hunits : t.tracker.units ≤ 64 ∧ ∀ r, t.tc.fetching = some r → r.units ≤ 64)
    (hrole : ∀ g, (s.recOf g).role.settled → (t.recOf g).role.settled)
    (hretired : t.engine.retired = s.engine.retired) (hbring : t.engine.bringUp = s.engine.bringUp)
    (hphase : t.engine.commitPhase = s.engine.commitPhase) (hstore : t.store = s.store)
    (hlone : t.dram.lone = s.dram.lone) (hcond : t.dram.cond = s.dram.cond)
    (htc : t.tc.state = s.tc.state ∧ t.tc.parkPhase = s.tc.parkPhase ∧ t.tc.waitingAbort = s.tc.waitingAbort ∧
      t.tc.railLoss = s.tc.railLoss) : t.CoursesHeld := by
  obtain ⟨hst, hp, hw, hr⟩ := htc
  have hattaching : t.attaching = s.attaching := attaching_of_bringUp hbring
  exact
    { settled := fun hs g => hrole g (h.settled (hst ▸ hs) g)
      detached := fun hs => by
        rw [hstore]
        exact h.detached (hst ▸ hs)
      bringUp := fun b hb => by
        rw [hstore, hretired, hst]
        exact h.bringUp b (hbring ▸ hb)
      load := fun hl => by
        rw [hst, hr, hattaching, hstore]
        exact hload hl
      fetching := fun hf => by
        rw [hattaching]
        exact hfetch hf
      attaching := fun ha => by
        rw [hattaching] at ha
        rw [hst, hr]
        exact ⟨hattach ha, (h.attaching ha).2⟩
      commit := fun hc => by
        rw [hst, hphase]
        exact h.commit (hstore ▸ hc)
      pattern := fun hm => by
        rw [hst, hp]
        exact h.pattern (hlone ▸ hm)
      compare := fun hm => by
        rw [hst, hcond]
        exact h.compare (hlone ▸ hm)
      entering := fun hc => by
        rw [hst, hp]
        exact h.entering (hcond ▸ hc)
      asleep := fun hc => by
        rw [hst]
        exact h.asleep (hcond ▸ hc)
      exiting := fun hc => by
        rw [hst, hp]
        exact h.exiting (hcond ▸ hc)
      undone := fun hs hu => by
        rw [hw]
        exact h.undone (hst ▸ hs) (hp ▸ hu)
      still := fun hs => by
        rw [hstore]
        refine h.still ?_
        unfold stilled at hs ⊢
        rwa [hst, hp] at hs
      rail := fun hc => by
        rw [hstore, hlone, hcond]
        exact h.rail (hr ▸ hc)
      units := hunits }

/-- What is left under way when no load and no fetch goes on: the reply is given. -/
theorem CoursesHeld.replied (h : s.CoursesHeld) (hload : t.region.load = none) (hfetch : t.tc.fetching = none)
    (hattach : s.attaching = false) (hunits : t.tracker.units ≤ 64)
    (hrole : ∀ g, (s.recOf g).role.settled → (t.recOf g).role.settled)
    (hretired : t.engine.retired = s.engine.retired) (hbring : t.engine.bringUp = s.engine.bringUp)
    (hphase : t.engine.commitPhase = s.engine.commitPhase) (hstore : t.store = s.store) (hdram : t.dram = s.dram)
    (htc : t.tc.state = s.tc.state ∧ t.tc.parkPhase = s.tc.parkPhase ∧ t.tc.waitingAbort = s.tc.waitingAbort ∧
      t.tc.railLoss = s.tc.railLoss) : t.CoursesHeld :=
  h.rebound (fun hl => absurd hload hl) (fun hf => absurd hfetch hf) (fun ha => (nomatch hattach.symm.trans ha))
    ⟨hunits, fun _ hr => (nomatch hfetch.symm.trans hr)⟩ hrole hretired hbring hphase hstore
    (congrArg DramPort.lone hdram) (congrArg DramPort.cond hdram) htc

/-- The reply is given to a command that nothing holds any more. -/
theorem Slotted.putDeferred (h : s.Slotted) (hload : s.region.load = none) (hfetch : s.tc.fetching = none)
    (hattach : s.attaching = false) (command : Nat) (code : ReplyCode) : (s.putDeferred command code).Slotted :=
  ⟨h.toSlotsPlaced.of_same {}, h.toCoursesHeld.replied hload hfetch hattach h.units.1 (fun _ => id) rfl rfl rfl rfl rfl
    ⟨rfl, rfl, rfl, rfl⟩⟩

theorem Slotted.dropLoad (h : s.Slotted) (hfetch : s.tc.fetching = none) (hattach : s.attaching = false) :
    (s.setRegion { s.region with load := none }).Slotted :=
  ⟨h.toSlotsPlaced.of_same {}, h.toCoursesHeld.replied rfl hfetch hattach h.units.1 (fun _ => id) rfl rfl rfl rfl rfl
    ⟨rfl, rfl, rfl, rfl⟩⟩

theorem Slotted.endLoad (h : s.Slotted) (hfetch : s.tc.fetching = none) (hattach : s.attaching = false)
    (reply : ReplyCode) : (s.endLoad reply).Slotted := by
  have hdropped := h.dropLoad hfetch hattach
  have j := (s.setRegion { s.region with load := none }).judging_releaseAll .regionLoad
  have k := sameState_of_judging j
  exact (Slotted.of_judging j hdropped).putDeferred (k.load_none.mpr rfl) (k.fetching_none.mpr hfetch)
    ((attaching_of_bringUp k.bringUp).trans hattach) _ _

/-! ## The fetch of LOAD_REGIONS has ended (R37) -/

/-- Where every record is settled and no copy is in flight, no record asks for a transfer. -/
theorem SlotsPlaced.free_of_settled (h : s.SlotsPlaced) (hsettled : ∀ g, (s.recOf g).role.settled)
    (hcopy : s.store.noCopy) (g : Nat) : (s.recOf g).role = .free := by
  cases hr : (s.recOf g).role with
  | copying p =>
    obtain ⟨n, _, hn⟩ := (h.copied g p).mp hr
    exact absurd hn (hcopy g n)
  | absent | filling =>
    have := hsettled g
    rw [hr] at this
    exact this.elim
  | free => rfl

theorem Slotted.applyLoad (h : s.Slotted) (hrole : ∀ g, (s.recOf g).role = .free) (file : RegionFile) :
    (s.applyLoad file).Slotted := by
  have habandoned : (s.claimAbandon.setRegion { s.claimAbandon.region with file := file }).Slotted :=
    h.claimAbandon.setFile file
  have hrec : ∀ g, (s.claimAbandon.setRegion { s.claimAbandon.region with file := file }).recOf g = (s.recOf g).abandon :=
    fun g => recOf_claimAll _ h.sound.1 rfl
  refine habandoned.claimReload (fun g => ?_) fun g => ?_
  · rw [hrec, GRec.role_abandon]
    exact hrole g
  · rw [hrec]
    refine GRec.pending_abandon (Tracker.sound_recAt h.sound g) fun p hp => ?_
    exact nomatch (hrole g).symm.trans hp

theorem Slotted.loadFetched (h : s.Slotted) {l : Load} (hl : s.region.load = some l) : (s.loadFetched l).Slotted := by
  obtain ⟨hst, _, _, hfetch, hattach, hcopy⟩ := h.load (by rw [hl]; exact nofun)
  have hrole := h.free_of_settled (h.settled (.inl hst)) hcopy
  have k : SameState s (s.applyLoad (fileOf l.addr l.fetched)) := by
    have ka := (s.sameCourses_claimAll (fun _ => GRec.abandon) GRec.abandonFrees).toSameState
    have kf := (s.claimAbandon.sameCourses_setFile (fileOf l.addr l.fetched)).toSameState
    exact (ka.trans kf).trans (sameCourses_claimReload _).toSameState
  unfold State.loadFetched
  dsimp only
  split
  · exact (h.applyLoad hrole _).endLoad (k.fetching_none.mpr hfetch) ((attaching_of_bringUp k.bringUp).trans hattach) _
  · exact h.endLoad hfetch hattach _

/-! ## START accepted and refused (R40, R137) -/

theorem CoursesHeld.noLoad (h : s.CoursesHeld) (hf : s.tc.fetching ≠ none) : s.region.load = none := by
  by_contra hl
  obtain ⟨_, _, _, hfetch, _⟩ := h.load hl
  exact hf hfetch

theorem Slotted.refuseStart (h : s.Slotted) (hf : s.tc.fetching ≠ none) (reply : ReplyCode) :
    (s.refuseStart reply).Slotted :=
  ⟨h.toSlotsPlaced.of_same {}, h.toCoursesHeld.replied (h.noLoad hf) rfl (h.fetching hf).2 h.units.1 (fun _ => id) rfl
    rfl rfl rfl rfl ⟨rfl, rfl, rfl, rfl⟩⟩

/-- START begins from an empty table. -/
theorem Slotted.acceptStart (h : s.Slotted) (hst : s.tc.state = .unconfigured) {r : StartReq} (hr : r.units ≤ 64) :
    (s.acceptStart r).Slotted := by
  have hd := h.detached (.inl hst)
  obtain ⟨hload, hattach⟩ := h.unbound (by rw [hst]; decide)
  obtain ⟨hfill, hline, hzero, hlist⟩ := h.noFill_of_settled (h.settled (.inr (.inl hst)))
  have htable : (s.acceptStart r).tracker.table = [] := rfl
  refine ⟨slotsPlaced_of_empty htable (((s.evolves_acceptStart r).counted h.counted)) hd (h.noCopy_of_detached hd) hfill
    hline h.lone hzero hlist, h.toCoursesHeld.replied hload rfl hattach hr (fun g _ => ?_) rfl rfl rfl rfl rfl
    ⟨rfl, rfl, rfl, rfl⟩⟩
  rw [role_of_empty htable]
  trivial

theorem Slotted.startFetched (h : s.Slotted) {r : StartReq} (hf : s.tc.fetching = some r) :
    (s.startFetched r).Slotted := by
  have hsome : s.tc.fetching ≠ none := by
    rw [hf]
    exact nofun
  unfold State.startFetched
  dsimp only
  split
  · exact h.refuseStart hsome _
  · rename_i hst
    split
    · have hbegun := h.acceptStart (Decidable.not_not.mp hst) (h.units.2 r hf)
      have htable : (s.acceptStart r).tracker.table = [] := rfl
      refine (hbegun.setFile (fileOf r.tableAddr r.fetched)).claimReload (fun g => ?_) fun g => ?_
      · rw [recOf_setFile, role_of_empty htable]
        rfl
      · rw [recOf_setFile, role_of_empty htable]
        rfl
    · exact h.refuseStart hsome _

theorem Slotted.fetchDone (h : s.Slotted) : s.fetchDone.Slotted := by
  unfold State.fetchDone
  split
  · rename_i l _ hl
    exact h.loadFetched hl
  · rename_i r _ hf
    exact h.startFetched hf
  · exact h

end State

end Sys2Proof.Machine
end

