-- ==== Sys2Proof/Proofs/SlotLines.lean ====
section
/-! The accesses of the DRAM Port and the ends of its transfers keep every slot in its place (R53, R64, R119, R120, R141,
R168, R170 to R172). -/

namespace Sys2Proof.Machine

namespace State

variable {s t : State}

/-! ## An access leaves the queue -/

/-- The DRAM Port without an access of its queue. -/
def dequeued (s : State) (a : Access) : State := s.setDram { s.dram with queue := s.dram.queue.erase a }

theorem sublist_lone_dequeued (s : State) (a : Access) : (s.dequeued a).dram.lone.Sublist s.dram.lone :=
  List.erase_sublist.filterMap _

/-- A lone transfer that has its line performed waits no more. -/
theorem not_mem_lone_dequeued {a : Access} {o : Owner} (hlone : s.dram.lone.Nodup) (ha : a ∈ s.dram.queue)
    (ho : a.lone = some o) : o ∈ s.dram.lone ∧ o ∉ (s.dequeued a).dram.lone := by
  have hperm : s.dram.lone.Perm (o :: (s.dequeued a).dram.lone) := by
    have h := (List.perm_cons_erase ha).filterMap Access.lone
    rwa [List.filterMap_cons_some ho] at h
  refine ⟨hperm.mem_iff.mpr List.mem_cons_self, ?_⟩
  exact (List.nodup_cons.mp (hperm.nodup_iff.mp hlone)).1

theorem Slotted.dequeued (h : s.Slotted) (a : Access) : (s.dequeued a).Slotted := by
  have hsub := s.sublist_lone_dequeued a
  exact ⟨⟨h.sound, h.counted, h.blank, h.placed, h.vacant, h.copied, h.filled, fun g hm => h.lined g (hsub.subset hm),
      h.lone.sublist hsub, h.zeroed, h.listed⟩,
    h.toCoursesHeld.of_state {} (fun _ => id) (.inl rfl) (fun _ hf => .inl hf) fun _ ho => .inl (hsub.subset ho)⟩

/-! ## An access is performed -/

/-- `t` has the slots and the transfers of `s`, and the courses. -/
structure SamePlaces (s t : State) : Prop extends SameCourses s t where
  tracker : t.tracker = s.tracker := by exact rfl
  freeSlots : t.engine.freeSlots = s.engine.freeSlots := by exact rfl

theorem SamePlaces.recOf (k : SamePlaces s t) (g : Nat) : t.recOf g = s.recOf g := by
  rw [State.recOf, k.tracker]
  rfl

theorem Slotted.of_places (h : s.Slotted) (k : SamePlaces s t) : t.Slotted :=
  h.of_same k.toSameCourses k.tracker k.freeSlots

theorem SameTransfers.trans {u : State} (a : SameTransfers s t) (b : SameTransfers t u) : SameTransfers s u where
  retired := b.retired.trans a.retired
  fillList := b.fillList.trans a.fillList
  zeroFill := b.zeroFill.trans a.zeroFill
  status := b.status.trans a.status
  flying := b.flying.trans a.flying
  stray := b.stray.trans a.stray
  slots := b.slots.trans a.slots
  lone := b.lone.trans a.lone

theorem SamePlaces.trans {u : State} (a : SamePlaces s t) (b : SamePlaces t u) : SamePlaces s u :=
  ⟨⟨a.toSameState.trans b.toSameState, a.toSameTransfers.trans b.toSameTransfers⟩, b.tracker.trans a.tracker,
    b.freeSlots.trans a.freeSlots⟩

theorem samePlaces_setPayload (s : State) (f : StoreOp → Frame) :
    SamePlaces s (s.setStore { s.store with op := s.store.op.map fun o => { o with payload := f o } }) := by
  have hflying : (s.setStore { s.store with op := s.store.op.map fun o => { o with payload := f o } }).store.flying =
      s.store.flying := by
    show (s.store.op.map _).bind _ = s.store.op.bind _
    cases s.store.op <;> rfl
  have hstray : (s.setStore { s.store with op := s.store.op.map fun o => { o with payload := f o } }).store.stray =
      s.store.stray := by
    show (s.store.op.map _).bind _ = s.store.op.bind _
    cases s.store.op <;> rfl
  exact { flying := hflying, stray := hstray }

theorem samePlaces_writeDram (s : State) (line : Nat) (bs : List (Option Byte)) :
    SamePlaces s (s.writeDram line bs) := {}

theorem samePlaces_setGenerator (s : State) (x : BitVec 23) :
    SamePlaces s (s.setDram { s.dram with generator := x }) := {}

theorem samePlaces_fetchLine (s : State) (line : Nat) : SamePlaces s (s.performLine .fetch line) := by
  cases hl : s.region.load with
  | some l =>
    rw [performLine_fetch_load hl]
    exact { load := by rw [hl]; rfl }
  | none =>
    rw [performLine_fetch_start hl]
    exact { fetching := by show (s.tc.fetching.map _).map _ = _; rw [Option.map_map]; rfl }

theorem samePlaces_performLine (s : State) (o : Owner) (line : Nat) : SamePlaces s (s.performLine o line) := by
  cases o with
  | copy => exact s.samePlaces_setPayload _
  | fill g => exact (s.samePlaces_writeDram _ _).trans {}
  | zeroFill | writeBack d => exact s.samePlaces_writeDram _ _
  | fetch => exact s.samePlaces_fetchLine line
  | pattern => exact (s.samePlaces_writeDram _ _).trans (samePlaces_setGenerator _ _)
  | compare => exact {}

theorem samePlaces_performed (s : State) (tag : BitVec 5) (live : Bool) (data : List Byte) :
    SamePlaces s (s.performed tag live data) := by
  unfold performed
  split
  · exact {}
  · exact {}

theorem samePlaces_perform (s : State) (a : Access) : SamePlaces (s.dequeued a) (s.perform a) := by
  obtain ⟨src, line⟩ := a
  cases src with
  | upRead tag live => exact samePlaces_performed _ _ _ _
  | upWrite tag live data enables => exact (samePlaces_writeDram _ _ _).trans (samePlaces_performed _ _ _ _)
  | engine o => exact samePlaces_performLine _ _ _

/-- An access is performed and counted in the upstream run (R64). -/
def accessed (s : State) (a : Access) : State :=
  (s.perform a).setDram { (s.perform a).dram with runCount := runAfter s.dram.queue s.dram.runCount a }

theorem samePlaces_setRunCount (s : State) (n : Nat) : SamePlaces s (s.setDram { s.dram with runCount := n }) := {}

theorem samePlaces_accessed (s : State) (a : Access) : SamePlaces (s.dequeued a) (s.accessed a) :=
  (s.samePlaces_perform a).trans (samePlaces_setRunCount _ _)

theorem serve_engine {a : Access} {o : Owner} (ha : a.src = .engine o) :
    s.serve a = (s.accessed a).afterLine o a.line := by
  rw [serve, ha]
  rfl

theorem serve_upstream {a : Access} (ha : ∀ o, a.src ≠ .engine o) : s.serve a = s.accessed a := by
  unfold serve
  dsimp only
  split
  · rename_i o ho
    exact absurd ho (ha o)
  · rfl

/-! ## The ends of the pattern and of the compare (R141, R142, R171, R172) -/

theorem CoursesHeld.quiet_unparking (h : s.CoursesHeld) (hst : s.tc.state = .unparking)
    (hgone : Owner.compare ∉ s.dram.lone) : s.Quiet where
  unbound := h.unbound (by rw [hst]; decide)
  commit := h.noCommit (.inl (by rw [hst]; decide))
  pattern hm := nomatch hst.symm.trans (h.pattern hm).1
  compare := hgone

/-- The DRAM-loss marking where the retention check fails (R172). -/
theorem Slotted.markUnparking (h : s.Slotted) (q : s.Quiet) (hst : s.tc.state = .unparking)
    (hcond : s.dram.cond = .up) : s.markDramLoss.Slotted := by
  obtain ⟨htc, _, _, hdram, _⟩ := s.kept_markDramLoss
  have hstate : s.markDramLoss.tc.state = .unparking := by
    rw [htc]
    exact hst
  refine ⟨h.toSlotsPlaced.markDramLoss, h.toCoursesHeld.move q s.carried_markDramLoss
    (refreshes_of_awake (by rw [hdram, hcond]; rfl)) ?_ ?_ (.inr (.inr (by rw [hst]; decide))) ?_ fun _ => ?_⟩
  · rw [hstate]
    exact fun hc => hc.elim nofun fun hc => hc.elim nofun nofun
  · rw [hstate]
    exact fun hc => hc.elim nofun nofun
  · rw [hstate]
    exact nofun
  · exact h.still (.inr (.inl hst))

/-- UNPARKING ends. -/
theorem Slotted.endUnparking (h : s.Slotted) (q : s.Quiet) (hst : s.tc.state = .unparking)
    (hcond : s.dram.cond = .up) (reason : OutcomeReason) :
    (s.enterRunning.writeOutcome .exitSleep .completed reason).Slotted := by
  have hrun : s.enterRunning.Slotted :=
    h.toRunning q {} (by rw [show s.enterRunning.dram.cond = s.dram.cond from rfl, hcond]; rfl) rfl
      (.inr (by rw [hst]; decide))
  exact hrun.writeOutcome _ _ _

theorem Slotted.checkFails (h : s.Slotted) (q : s.Quiet) (hst : s.tc.state = .unparking)
    (hcond : s.dram.cond = .up) : s.checkFails.Slotted := by
  obtain ⟨htc, _, _, hdram, _⟩ := s.kept_markDramLoss
  have hmarked := (h.markUnparking q hst hcond).report .retentionLost 0
    (.number (s.markDramLoss.tracker.poisonTotal - s.tracker.poisonTotal))
  have hstate : s.markDramLoss.tc.state = .unparking := by
    rw [htc]
    exact hst
  refine hmarked.endUnparking (hmarked.quiet_unparking hstate fun hm => q.compare ?_) hstate (hdram.trans hcond) _
  exact s.carried_markDramLoss.lone _ hm

theorem Slotted.compareDone (h : s.Slotted) (hst : s.tc.state = .unparking) (hcond : s.dram.cond = .up)
    (hgone : Owner.compare ∉ s.dram.lone) : s.compareDone.Slotted := by
  have hnoted : ∀ n, (s.setDram { s.dram with lastErrors := n, checkPhase := .idle }).Slotted := fun n => h.of_same {}
  have q := h.quiet_unparking hst hgone
  unfold State.compareDone
  dsimp only
  split
  · exact (hnoted _).endUnparking (q.of_same {}) hst hcond _
  · exact (hnoted _).checkFails (q.of_same {}) hst hcond

/-! ## After a line (R64) -/

/-- What a transfer whose line has been performed still has: its place in the state of the part, and its record. -/
structure Performs (s : State) (o : Owner) : Prop where
  up : s.dram.cond = .up
  gone : o.lone = true → o ∉ s.dram.lone
  presents : o.lone = true → s.presents o
  filling : ∀ g, o = .fill g → (s.recOf g).role = .filling true ∧ s.store.flying ≠ some (.fill g)

theorem Slotted.transferEnd (h : s.Slotted) {o : Owner} (p : Performs s o) : (s.transferEnd o).Slotted := by
  cases o with
  | copy | writeBack => exact h
  | fill g =>
    obtain ⟨hrole, hfly⟩ := p.filling g rfl
    exact h.fillGood hrole hfly (p.gone rfl)
  | zeroFill =>
    cases hz : s.engine.zeroFill with
    | none =>
      rw [State.transferEnd, hz]
      exact h
    | some g =>
      rw [transferEnd_zeroFill hz]
      exact h.zeroFillGood hz
  | fetch => exact h.fetchDone
  | pattern =>
    obtain ⟨hrail, hst, hphase⟩ := p.presents rfl
    exact h.patternDone hst hphase (p.gone rfl) hrail (by rw [p.up]; rfl)
  | compare =>
    obtain ⟨_, hst, hcond⟩ := p.presents rfl
    exact h.compareDone hst hcond (p.gone rfl)

theorem Slotted.transferOver (h : s.Slotted) {o : Owner} (p : Performs s o) : (s.transferOver o).Slotted := by
  unfold State.transferOver
  split
  · exact h
  · exact h
  · exact (h.transferEnd p).settle

theorem Slotted.afterLine (h : s.Slotted) {o : Owner} (p : Performs s o) (line : Nat) : (s.afterLine o line).Slotted := by
  unfold State.afterLine
  split
  · exact h.transferOver p
  · exact h.present (fun ho => ⟨p.presents ho, p.gone ho, p.filling⟩) _

theorem Slotted.performs (h : s.Slotted) {a : Access} {o : Owner} (hcond : s.dram.cond = .up) (ha : a ∈ s.dram.queue)
    (ho : a.src = .engine o) : Performs (s.accessed a) o := by
  have k := s.samePlaces_accessed a
  have hlone : o.lone = true → a.lone = some o := fun hl => by
    rw [Access.lone, ho]
    exact if_pos hl
  have hmem : o.lone = true → o ∈ s.dram.lone := fun hl => (not_mem_lone_dequeued h.lone ha (hlone hl)).1
  refine ⟨k.cond.trans hcond, fun hl => ?_, fun hl => ⟨?_, ?_⟩, fun g hg => ?_⟩
  · rw [k.lone]
    exact (not_mem_lone_dequeued h.lone ha (hlone hl)).2
  · rw [k.railLoss]
    refine Bool.eq_false_iff.mpr fun hr => ?_
    have hm := hmem hl
    rw [(h.rail hr).1] at hm
    cases hm
  · rw [k.state, k.park, k.cond]
    cases o with
    | pattern => exact h.pattern (hmem hl)
    | compare => exact h.compare (hmem hl)
    | _ => trivial
  · rw [k.recOf, k.flying]
    exact h.lined g (hg ▸ hmem (by rw [hg]; rfl))

theorem Slotted.serve (h : s.Slotted) (hcond : s.dram.cond = .up) {a : Access} (ha : a ∈ s.dram.queue) :
    (s.serve a).Slotted := by
  have hacc : (s.accessed a).Slotted := (h.dequeued a).of_places (s.samePlaces_accessed a)
  by_cases ho : ∃ o, a.src = .engine o
  · obtain ⟨o, ho⟩ := ho
    rw [serve_engine ho]
    exact hacc.afterLine (h.performs hcond ha ho) _
  · rw [serve_upstream fun o hc => ho ⟨o, hc⟩]
    exact hacc

/-! ## The arbiter (R64) -/

theorem mem_of_pickAccess {queue : List Access} {run : Nat} {a : Access} (h : pickAccess queue run = some a) :
    a ∈ queue := by
  unfold pickAccess at h
  dsimp only at h
  split at h
  · exact List.mem_of_find?_eq_some h
  · cases h

theorem mem_of_arbiterChoice {a : Access} (h : s.arbiterChoice = some a) : s.dram.cond = .up ∧ a ∈ s.dram.queue := by
  unfold arbiterChoice at h
  split at h
  · rename_i hc
    exact ⟨hc, mem_of_pickAccess h⟩
  · cases h

theorem Slotted.serveUntil (stop : Access → Bool) : ∀ (fuel : Nat) {s : State}, s.Slotted →
    (State.serveUntil stop fuel s).Slotted
  | 0, _, h => h
  | fuel + 1, s, h => by
    unfold State.serveUntil
    split
    · exact h
    · rename_i a ha
      obtain ⟨hcond, hmem⟩ := mem_of_arbiterChoice ha
      split
      · exact h.serve hcond hmem
      · exact Slotted.serveUntil stop fuel (h.serve hcond hmem)

theorem Slotted.runTransfer (h : s.Slotted) (o : Owner) (a : Access) : (s.runTransfer o a).Slotted :=
  h.serveUntil _ _

theorem Slotted.lastLine (h : s.Slotted) (o : Owner) : (s.lastLine o).Slotted := by
  unfold State.lastLine
  split
  · split
    · exact (h.runTransfer o _).settle
    · exact h
  · exact h

/-! ## The commands of the DRAM Port -/

theorem Slotted.sendPerformed (h : s.Slotted) (tag : BitVec 5) : (s.sendPerformed tag).Slotted := by
  unfold State.sendPerformed
  split
  · exact .of_judging (judging_complete _ _ _) h
  · exact h

theorem Slotted.upstreamAccessDone (h : s.Slotted) (tag : BitVec 5) : (s.upstreamAccessDone tag).Slotted := by
  unfold State.upstreamAccessDone
  split
  · exact (h.sendPerformed tag).settle
  · split
    · exact ((h.serveUntil _ _).sendPerformed tag).settle
    · exact h

theorem Slotted.engineAccessDone (h : s.Slotted) : s.engineAccessDone.Slotted := by
  unfold State.engineAccessDone
  split
  · exact (h.serveUntil _ _).settle
  · exact h

theorem Slotted.regionFetchEnd (h : s.Slotted) : s.regionFetchEnd.Slotted := by
  unfold State.regionFetchEnd
  split
  · exact h.lastLine _
  · exact h

theorem Slotted.startTableFetchEnd (h : s.Slotted) : s.startTableFetchEnd.Slotted := by
  unfold State.startTableFetchEnd
  split
  · exact h
  · exact h.lastLine _

end State

end Sys2Proof.Machine
end

