-- ==== Sys2Proof/Proofs/SlotDram.lean ====
section
/-! The ends of DRAM bring-up, of self-refresh entry and of self-refresh exit keep every slot in its place (R130, R135,
R141, R142, R146). -/

namespace Sys2Proof.Machine

namespace State

variable {s t : State}

/-- DRAM comes UP, its queue as it was. -/
theorem Slotted.setUp (h : s.Slotted) {d : DramPort} (hqueue : d.queue = s.dram.queue) (hcond : d.cond = .up) :
    (s.setDram d).Slotted := by
  have hlone : (s.setDram d).dram.lone = s.dram.lone := congrArg (List.filterMap Access.lone) hqueue
  have hup : (s.setDram d).dram.cond = .up := hcond
  refine ⟨h.toSlotsPlaced.of_same { lone := hlone }, ?_⟩
  exact
    { settled := h.settled
      detached := h.detached
      bringUp := h.bringUp
      load := h.load
      fetching := h.fetching
      attaching := h.attaching
      commit := h.commit
      pattern := fun hm => h.pattern (hlone ▸ hm)
      compare := fun hm => ⟨(h.compare (hlone ▸ hm)).1, hcond⟩
      entering := fun hc => nomatch hup.symm.trans hc
      asleep := fun hc => nomatch hup.symm.trans hc
      exiting := fun hc => nomatch hup.symm.trans hc
      undone := h.undone
      still := h.still
      rail := fun hr => by
        rw [hlone, hup]
        exact ⟨(h.rail hr).1, rfl, (h.rail hr).2.2⟩
      units := h.units }

/-- REVIVING ends (R130). -/
theorem Slotted.endReviving (h : s.Slotted) (hst : s.tc.state = .reviving) :
    (s.enterRunning.writeOutcome .exitImaged .completed .none).Slotted := by
  have hn : ¬ s.stilled := by simp [stilled, hst]
  have q := h.quiet hn (h.unbound (by rw [hst]; decide)) (.inl (by rw [hst]; decide))
  have hrun : s.enterRunning.Slotted := h.toRunning q {} (h.awake hn) rfl (.inr (by rw [hst]; decide))
  exact hrun.writeOutcome _ _ _

theorem Slotted.dramBringupEnd (h : s.Slotted) (installed : Nat) : (s.dramBringupEnd installed).Slotted := by
  unfold State.dramBringupEnd
  split
  · dsimp only
    have hup : (s.setDram
        { s.dram with
          cond := .up
          runCount := 0
          mem := []
          bringUps := s.dram.bringUps + 1
          installed := installed }).Slotted := h.setUp rfl rfl
    split
    · rename_i hst
      exact (hup.endReviving hst).settle
    · exact hup.settle
  · exact h

theorem Slotted.selfRefreshEntryEnd (h : s.Slotted) : s.selfRefreshEntryEnd.Slotted := by
  unfold State.selfRefreshEntryEnd
  split
  · rename_i hc
    split
    · rename_i hp
      exact (h.undoSleep hc hp).settle
    · rename_i hp
      exact (h.enterSleeping hc hp).settle
  · exact h

/-- The compare begins: UNPARKING has DRAM UP, and no compare under way (R146, R170). -/
theorem Slotted.beginCompare (h : s.Slotted) (hst : s.tc.state = .unparking) (hcond : s.dram.cond = .up)
    (hrail : s.tc.railLoss = false) (hgone : Owner.compare ∉ s.dram.lone) : s.beginCompare.Slotted := by
  have hbegun : (s.setDram
      { s.dram with checkPhase := .comparing, generator := seedOf s.dram.parkCount, mismatches := 0 }).Slotted :=
    h.of_same {}
  exact hbegun.present (o := .compare) (fun _ => ⟨⟨hrail, hst, hcond⟩, hgone, fun _ hg => (nomatch hg)⟩) _

/-- A part whose self-refresh is being left wakes, or its park is being undone. -/
theorem CoursesHeld.leaving (h : s.CoursesHeld) (hc : s.dram.cond = .exitingSr) :
    s.tc.railLoss = false ∧ Owner.pattern ∉ s.dram.lone ∧ Owner.compare ∉ s.dram.lone ∧
      (s.tc.state = .unparking ∨ s.tc.state = .parking ∧ s.tc.waitingAbort ≠ none) := by
  refine ⟨Bool.eq_false_iff.mpr fun hr => ?_, fun hm => ?_, fun hm => (nomatch hc.symm.trans (h.compare hm).2), ?_⟩
  · obtain ⟨_, href, _⟩ := h.rail hr
    rw [hc] at href
    cases href
  · obtain ⟨hst, hp⟩ := h.pattern hm
    rcases h.exiting hc with hu | ⟨_, hu⟩
    · exact nomatch hst.symm.trans hu
    · exact nomatch hp.symm.trans hu
  · rcases h.exiting hc with hu | ⟨hst, hp⟩
    · exact .inl hu
    · exact .inr ⟨hst, h.undone hst hp⟩

theorem Slotted.selfRefreshExitEnd (h : s.Slotted) (decay : List Host.Cell) : (s.selfRefreshExitEnd decay).Slotted := by
  unfold State.selfRefreshExitEnd
  split
  · rename_i hc
    obtain ⟨hrail, hpattern, hcompare, hcourse⟩ := h.leaving hc
    have hqueue : (s.dram.decay decay).queue = s.dram.queue := by rw [DramPort.decay_eq]
    have hleft : ∀ d : DramPort, d.queue = s.dram.queue → d.cond = .up → (s.setDram d).Slotted ∧
        (s.setDram d).dram.cond = .up ∧ (s.setDram d).dram.lone = s.dram.lone ∧ (s.setDram d).tc = s.tc :=
      fun d hq hup => ⟨h.setUp hq hup, hup, congrArg (List.filterMap Access.lone) hq, rfl⟩
    obtain ⟨hu, hup, hlone, htc⟩ := hleft { s.dram.decay decay with cond := .up } hqueue rfl
    dsimp only at hu hup hlone htc ⊢
    generalize s.setDram { s.dram.decay decay with cond := .up } = u at *
    rw [← htc] at hcourse hrail
    rw [← hlone] at hpattern hcompare
    split
    · rename_i kind hst _
      have q : u.Quiet := ⟨hu.unbound (by rw [hst]; decide), hu.noCommit (.inl (by rw [hst]; decide)), hpattern, hcompare⟩
      exact (hu.parkReturn q (by rw [hup]; rfl) (by rw [hst]; decide) kind).settle
    · rename_i hno
      have hst : u.tc.state = .unparking := hcourse.resolve_right fun ⟨hst, hw⟩ => by
        obtain ⟨kind, hk⟩ := Option.ne_none_iff_exists'.mp hw
        exact hno kind hst hk
      exact (hu.beginCompare hst hup hrail hcompare).settle
  · exact h

end State

end Sys2Proof.Machine
end

