-- ==== Sys2Proof/Proofs/SlotCopies.lean ====
section
/-! A copy in flight outlives what follows from the accesses that are served while its lines are read, so that it is the
copy that its answer ends (R64, R68). -/

namespace Sys2Proof.Machine

namespace State

variable {s t : State} {g slot : Nat}

theorem op_claim (s : State) (x : Nat) (f : GRec → GRec) (frees : GRec → List Nat) :
    (s.claim x f frees).store.op = s.store.op := by
  rw [only_claim]
  rfl

/-- A part with a copy in flight. -/
structure Copying (s : State) (g slot : Nat) : Prop extends Slotted s where
  copy : s.store.flying = some (.copy g slot)

namespace Copying

theorem next (h : s.Copying g slot) (ht : t.Slotted) (hop : t.store.op = s.store.op) : t.Copying g slot := by
  refine ⟨ht, ?_⟩
  rw [StorePort.flying, hop]
  exact h.copy

theorem not_noCopy (h : s.Copying g slot) : ¬ s.store.noCopy := fun hn => hn g slot h.copy

theorem op (h : s.Copying g slot) : s.store.op ≠ none := fun hop => nomatch (flying_of_none hop).symm.trans h.copy

theorem railLoss (h : s.Copying g slot) : s.tc.railLoss = false :=
  Bool.eq_false_iff.mpr fun hr => h.not_noCopy (h.rail hr).2.2.1

theorem unloaded (h : s.Copying g slot) : s.region.load = none := by
  by_contra hl
  obtain ⟨_, _, _, _, _, hn⟩ := h.load hl
  exact h.not_noCopy hn

theorem not_stilled (h : s.Copying g slot) : ¬ s.stilled := fun hs => h.not_noCopy (h.still hs)

theorem begun (h : s.Copying g slot) : s.tc.state ≠ .unconfigured ∧ s.tc.state ≠ .starting := by
  have hattached : ¬ s.store.status ≠ .attached := fun hd => h.not_noCopy (h.noCopy_of_detached hd)
  exact ⟨fun hst => hattached (h.detached (.inl hst)), fun hst => hattached (h.detached (.inr hst))⟩

theorem copyInFlight (h : s.Copying g slot) : s.copyInFlight = true := by
  rw [copyInFlight_iff]
  obtain ⟨o, ho, hp⟩ := Option.bind_eq_some_iff.mp h.copy
  split at hp
  · cases hp
  · rename_i hd
    exact ⟨o, g, slot, ho, Option.some.inj hp, Bool.eq_false_iff.mpr hd⟩

/-! ## What follows an access within its step -/

theorem startTest (h : s.Copying g slot) : s.startTest = s := startTest_eq s h.begun.1 h.begun.2

theorem restoringTest (h : s.Copying g slot) : s.restoringTest.Copying g slot := by
  refine h.next h.toSlotted.restoringTest ?_
  unfold State.restoringTest
  split <;> rfl

theorem commitWait (h : s.Copying g slot) : s.commitWait.Copying g slot := by
  refine h.next h.toSlotted.commitWait ?_
  unfold State.commitWait
  split
  · split
    · split <;> rfl
    · split
      · rfl
      · exact (op_of_judging (judging_releaseAll _ .commit)).trans rfl
  · rfl

theorem savingTest (h : s.Copying g slot) : s.savingTest = s := savingTest_of_copy h.copyInFlight

theorem railCourse (h : s.Copying g slot) : s.railCourse = s := if_neg (by rw [h.railLoss]; decide)

theorem tcTests (h : s.Copying g slot) : s.tcTests.Copying g slot := by
  have h2 := h.restoringTest.commitWait
  have h4 := h2.commitWait
  unfold State.tcTests
  rw [h2.savingTest, h4.railCourse]
  exact h4

theorem storeChoice (h : s.Copying g slot) : s.storeChoice = s := by
  refine if_neg fun hf => ?_
  simp only [storeFree, Bool.and_eq_true, Option.isNone_iff_eq_none] at hf
  exact h.op hf.1

theorem zeroChoice (h : s.Copying g slot) : s.zeroChoice.Copying g slot := by
  have hstart : ∀ (u : State) (x : Nat), (u.startZeroFill x).store.op = u.store.op := fun u x =>
    op_claim (u.setEngine { u.engine with fillList := u.engine.fillList.filter fun k => decide (k ≠ x) }) x
      GRec.fillStart fun _ => []
  refine h.next h.toSlotted.zeroChoice ?_
  unfold State.zeroChoice
  split
  · split
    · exact hstart _ _
    · split
      · split
        · exact hstart _ _
        · rfl
      · rfl
  · rfl

theorem parkTest (h : s.Copying g slot) : s.parkTest = s := by
  refine if_neg ?_
  rintro ⟨_, _, _, _, hop, _⟩
  exact h.op hop

theorem settle (h : s.Copying g slot) : s.settle.Copying g slot := by
  have h1 := h.tcTests
  have h2 := h1.zeroChoice
  unfold State.settle
  rw [h.startTest, h1.storeChoice, h2.storeChoice, h2.parkTest]
  exact h2.next h2.toSlotted.drive rfl

/-! ## Accesses served -/

theorem accessed (h : s.Copying g slot) (a : Access) : (s.accessed a).Copying g slot := by
  have k := s.samePlaces_accessed a
  exact ⟨(h.toSlotted.dequeued a).of_places k, k.flying.trans h.copy⟩

theorem transferEnd (h : s.Copying g slot) {o : Owner} (p : Performs s o) : (s.transferEnd o).Copying g slot := by
  refine h.next (h.toSlotted.transferEnd p) ?_
  have hclaim : ∀ (u : State) (x : Nat), ((u.claimFillGood x).leftAbsent [x]).store.op = u.store.op := fun u x =>
    (op_of_judging (judging_leftAbsent _ _)).trans (op_claim u x GRec.fillGood fun _ => [])
  cases o with
  | copy | writeBack => rfl
  | fill x => exact hclaim (s.dropFill x) x
  | zeroFill =>
    cases hz : s.engine.zeroFill with
    | none => rw [State.transferEnd, hz]
    | some x =>
      rw [transferEnd_zeroFill hz]
      exact hclaim (s.setEngine { s.engine with zeroFill := none }) x
  | fetch =>
    cases hf : s.tc.fetching with
    | none =>
      have hdone : s.fetchDone = s := by rw [fetchDone, h.unloaded, hf]
      exact congrArg (fun v : State => v.store.op) (show s.transferEnd .fetch = s from hdone)
    | some r =>
      have hdone : s.fetchDone = s.refuseStart .wrongState :=
        (fetchDone_of_start h.unloaded hf).trans (startFetched_of_left h.begun.1)
      exact (congrArg (fun v : State => v.store.op) (show s.transferEnd .fetch = _ from hdone)).trans rfl
  | pattern =>
    obtain ⟨_, hst, hp⟩ := p.presents rfl
    exact absurd (.inr (.inr ⟨hst, by rw [hp]; decide, by rw [hp]; decide⟩)) h.not_stilled
  | compare =>
    obtain ⟨_, hst, _⟩ := p.presents rfl
    exact absurd (.inr (.inl hst)) h.not_stilled

theorem transferOver (h : s.Copying g slot) {o : Owner} (p : Performs s o) : (s.transferOver o).Copying g slot := by
  unfold State.transferOver
  split
  · exact h
  · exact h
  · exact (h.transferEnd p).settle

theorem serve (h : s.Copying g slot) (hcond : s.dram.cond = .up) {a : Access} (ha : a ∈ s.dram.queue) :
    (s.serve a).Copying g slot := by
  have hserved := h.toSlotted.serve hcond ha
  by_cases ho : ∃ o, a.src = .engine o
  · obtain ⟨o, ho⟩ := ho
    rw [serve_engine ho] at hserved ⊢
    unfold afterLine at hserved ⊢
    split
    · exact (h.accessed a).transferOver (h.performs hcond ha ho)
    · rename_i hc
      rw [if_neg hc] at hserved
      exact (h.accessed a).next hserved rfl
  · rw [serve_upstream fun o hc => ho ⟨o, hc⟩]
    exact h.accessed a

theorem serveUntil (stop : Access → Bool) : ∀ (fuel : Nat) {s : State}, s.Copying g slot →
    (State.serveUntil stop fuel s).Copying g slot
  | 0, _, h => h
  | fuel + 1, s, h => by
    unfold State.serveUntil
    split
    · exact h
    · rename_i a ha
      obtain ⟨hcond, hmem⟩ := mem_of_arbiterChoice ha
      split
      · exact h.serve hcond hmem
      · exact Copying.serveUntil stop fuel (h.serve hcond hmem)

theorem copyRead (h : s.Copying g slot) : s.copyRead.Copying g slot := by
  unfold State.copyRead
  split
  · split
    · exact h.serveUntil _ _
    · exact h
  · exact h

end Copying

end State

end Sys2Proof.Machine
end

