-- ==== Sys2Proof/Proofs/SlotAnswers.lean ====
section
/-! The ends of store operations, by their answer and by the STORE timer, keep every slot in its place (R69 to R71, R78,
R81, R95, R98, R105 to R109, R119, R191). -/

namespace Sys2Proof.Machine

namespace State

variable {s t : State}

/-! ## Operations that were disregarded (R71) -/

/-- A copy that was disregarded has ended: its slot joins the free slots of an ATTACHED store. -/
theorem Slotted.strayEnded (h : s.Slotted) {o : StoreOp} {g slot : Nat} (hop : s.store.op = some o)
    (hd : o.disregarded = true) (hp : o.purpose = .copy g slot) (timer : Timer) {l : List Nat} (noted : Bool)
    (hl : s.store.status = .attached → l = s.engine.freeSlots ++ [slot]) :
    ((s.endOp timer).setEngine { s.engine with freeSlots := l, exhaustionNoted := noted }).Slotted := by
  have hflying := flying_of_disregarded hop hd
  have hstray : s.store.stray = some slot := by
    rw [StorePort.stray, hop, Option.bind_some, hp]
    exact if_pos hd
  refine ⟨⟨h.sound, h.counted, h.blank, fun ha n => ?_, h.vacant, fun g p => ?_, nofun, fun g hm => ?_, h.lone, h.zeroed,
    h.listed⟩, h.toCoursesHeld.of_state {} (fun _ => id) (.inl rfl) (fun _ hf => (nomatch hf)) fun _ ho => .inl ho⟩
  · refine Eq.trans ?_ (h.placed ha n)
    show l.count n + s.tracker.table.slotCount n + s.engine.retired.count n + (none : Option Nat).toList.count n =
      s.engine.freeSlots.count n + s.tracker.table.slotCount n + s.engine.retired.count n + s.store.stray.toList.count n
    rw [hl ha, hstray, List.count_append, Option.toList_none, Option.toList_some, List.count_nil]
    omega
  · exact (h.copied g p).trans (by rw [hflying]; rfl)
  · exact ⟨(h.lined g hm).1, nofun⟩

theorem Slotted.disregardedEnd (h : s.Slotted) {o : StoreOp} (hop : s.store.op = some o) (hd : o.disregarded = true)
    (timer : Timer) : ((s.endOp timer).disregardedEnd o).Slotted := by
  by_cases hc : ∃ g slot, o.purpose = .copy g slot
  · obtain ⟨g, slot, hp⟩ := hc
    rw [disregardedEnd_of_copy hp]
    split
    · exact h.strayEnded hop hd hp timer false fun _ => rfl
    · rename_i ha
      exact h.strayEnded hop hd hp timer s.engine.exhaustionNoted fun hc => absurd hc ha
  · have hp : ∀ g slot, o.purpose ≠ .copy g slot := fun g slot hp => hc ⟨g, slot, hp⟩
    rw [disregardedEnd_of_other hp]
    exact h.endOp hop hp timer

/-! ## The writes of a commit (R105, R106) -/

/-- The index is written: the header is due. -/
theorem Slotted.indexWritten (h : s.Slotted) (hst : s.tc.state = .committing) (hop : s.store.op = none) :
    s.indexWritten.Slotted := by
  have hn : ¬ s.stilled := by simp [stilled, hst]
  exact h.toEntry (h.quiet_idle (.inr hst) hop) {} (h.awake hn) (.inr (.inl hst)) (by rw [hst]; decide)

theorem state_commitDone (s : State) : s.commitDone.tc.state = s.tc.state :=
  ((s.setEngine { s.engine with epoch := s.engine.epoch + 1 }).sameCourses_claimAll (fun _ => GRec.commit)
    GRec.commitFrees).state

/-- The header is written: the commit is over, and what follows it is decided (R109). -/
theorem Slotted.headerWritten (h : s.Slotted) (hst : s.tc.state = .committing) (hop : s.store.op = none) :
    s.commitDone.commitDecision.Slotted := by
  have hdone := h.commitDone (h.quiet_idle (.inr hst) hop) hst
  have hstate := s.state_commitDone.trans hst
  have hphase : s.commitDone.engine.commitPhase = .none := rfl
  exact hdone.commitDecision (hdone.quiet_committing hstate (by rw [hphase]; decide)) hstate

/-! ## Operations answered, and operations that expire -/

variable {o : StoreOp}

/-- The steps of a bring-up act where one is under way. -/
theorem Slotted.ofStep (h : s.Slotted) {f : BringUp → State} (hf : ∀ b, s.engine.bringUp = some b → (f b).Slotted)
    (ht : ∀ b, s.engine.bringUp = some b → t = f b) (hnone : s.engine.bringUp = none → t = s) : t.Slotted := by
  cases hb : s.engine.bringUp with
  | none =>
    rw [hnone hb]
    exact h
  | some b =>
    rw [ht b hb]
    exact hf b hb

theorem Slotted.opGood (h : s.Slotted) (hop : s.store.op = some o) (hd : o.disregarded = false) (timer : Timer)
    (f : Frame) : ((s.endOp timer).opGood o f).Slotted := by
  have hfly := flying_of_op hop hd
  cases hp : o.purpose with
  | copy g slot =>
    rw [opGood_of_copy hp]
    exact h.copyGood (hp ▸ hfly) timer
  | fill g =>
    rw [State.opGood, hp]
    exact h.fillArrives hop hd hp timer _
  | markClear =>
    rw [State.opGood, hp]
    exact (h.endOp hop (by rw [hp]; exact nofun) timer).of_same {}
  | commitIndex =>
    rw [State.opGood, hp]
    exact (h.endOp hop (by rw [hp]; exact nofun) timer).indexWritten (h.commit (.inl (hp ▸ hfly))).1 rfl
  | commitHeader =>
    rw [State.opGood, hp]
    exact (h.endOp hop (by rw [hp]; exact nofun) timer).headerWritten (h.commit (.inr (hp ▸ hfly))).1 rfl
  | bringUp step =>
    have hended := h.endOp hop (by rw [hp]; exact nofun) timer
    refine hended.ofStep (f := fun b => (s.endOp timer).stepGood b f) (fun b hb => hended.stepGood rfl hb f)
      (fun b hb => opGood_of_bringUp hp hb f) fun hb => ?_
    rw [State.opGood, hp]
    dsimp only
    rw [hb]

theorem Slotted.opBad (h : s.Slotted) (hop : s.store.op = some o) (hd : o.disregarded = false) (timer : Timer) :
    ((s.endOp timer).opBad o).Slotted := by
  have hfly := flying_of_op hop hd
  cases hp : o.purpose with
  | copy g slot =>
    rw [opBad_of_copy hp]
    exact h.copyBad (hp ▸ hfly) timer
  | fill g =>
    rw [State.opBad, hp]
    exact h.fillBad hop hd hp timer
  | markClear | commitIndex | commitHeader =>
    rw [State.opBad, hp]
    exact (h.idle_endOp timer).storeDown _
  | bringUp step =>
    have hended := h.endOp hop (by rw [hp]; exact nofun) timer
    refine hended.ofStep (f := fun b => (s.endOp timer).stepBad b) (fun b hb => hended.stepBad rfl hb)
      (fun b hb => ?_) fun hb => ?_
    · rw [State.opBad, hp]
      dsimp only
      rw [hb]
    · rw [State.opBad, hp]
      dsimp only
      rw [hb]

theorem Slotted.opExpired (h : s.Slotted) (hop : s.store.op = some o) (timer : Timer) :
    ((s.endOp timer).opExpired o).Slotted := by
  cases hp : o.purpose with
  | copy g slot =>
    rw [opExpired_of_copy hp]
    exact ((h.idle_endOp timer).withdraw _).storeDown _
  | fill | markClear | commitIndex | commitHeader =>
    rw [State.opExpired, hp]
    exact (h.idle_endOp timer).storeDown _
  | bringUp step =>
    have hended := h.endOp hop (by rw [hp]; exact nofun) timer
    refine hended.ofStep (f := fun b => (s.endOp timer).stepExpired b) (fun b hb => hended.stepExpired rfl hb)
      (fun b hb => ?_) fun hb => ?_
    · rw [State.opExpired, hp]
      dsimp only
      rw [hb]
    · rw [State.opExpired, hp]
      dsimp only
      rw [hb]

/-! ## The commands -/

theorem Slotted.answered (h : s.Slotted) (hop : s.store.op = some o) (f : Frame) : (s.answered o f).Slotted := by
  cases hd : o.disregarded with
  | true =>
    rw [answered_of_disregarded hd, readOut_of_not_read (.inl hd)]
    exact h.disregardedEnd hop hd _
  | false =>
    cases hg : o.goodBy f with
    | false =>
      rw [answered_of_bad hd hg, readOut_of_not_read (.inr hg)]
      exact h.opBad hop hd _
    | true =>
      rw [answered_of_good hd hg]
      by_cases hc : ∃ g slot, o.purpose = .copy g slot
      · obtain ⟨g, slot, hp⟩ := hc
        have hcopying : s.Copying g slot := ⟨h, hp ▸ flying_of_op hop hd⟩
        have hread := hcopying.copyRead
        rw [readOut_of_copy hp hd hg, opGood_of_copy hp]
        exact hread.copyGood hread.copy _
      · rw [readOut_of_other f fun g slot hp => hc ⟨g, slot, hp⟩]
        exact h.opGood hop hd _ f

theorem Slotted.expired (h : s.Slotted) (hop : s.store.op = some o) : (s.expired o).Slotted := by
  cases hd : o.disregarded with
  | true =>
    rw [expired_of_disregarded hd]
    exact h.disregardedEnd hop hd _
  | false =>
    rw [expired_of_regarded hd]
    exact h.opExpired hop _

theorem Slotted.endHoldBack (h : s.Slotted) (timer : Timer) : (s.endHoldBack timer).Slotted := h.of_same {}

theorem Slotted.storeResponse (h : s.Slotted) (f : Frame) : (s.storeResponse f).Slotted := by
  unfold State.storeResponse
  split
  · split
    · exact (h.endHoldBack _).settle
    · exact h
  · split
    · rename_i o hop
      split
      · exact (h.answered hop f).settle
      · exact h
    · exact h

theorem Slotted.storeTimerExpiry (h : s.Slotted) : s.storeTimerExpiry.Slotted := by
  unfold State.storeTimerExpiry
  split
  · split
    · exact (h.endHoldBack _).settle
    · split
      · rename_i o hop
        exact (h.expired hop).settle
      · exact h
  · exact h

end State

end Sys2Proof.Machine
end

