-- ==== Sys2Proof/Proofs/SlotEvents.lean ====
section
/-! The events from outside keep every slot in its place: traffic, rails, power, wake lines and timers (R4, R49, R50, R65,
R92, R94, R117, R145, R149, R153, R159 to R163, R191). -/

namespace Sys2Proof.Machine

namespace State

variable {s t : State}

/-! ## Traffic (R50, R65) -/

theorem Access.lone_orphan (a : Access) : Access.lone { a with src := Source.orphan a.src } = a.lone := by
  obtain ⟨src, line⟩ := a
  cases src <;> rfl

theorem Slotted.discardTable (h : s.Slotted) : s.discardTable.Slotted := by
  refine h.of_same { lone := ?_ }
  show (s.dram.queue.map _).filterMap Access.lone = s.dram.queue.filterMap Access.lone
  rw [List.filterMap_map]
  exact List.filterMap_congr fun a _ => Access.lone_orphan a

theorem Slotted.joinTable (h : s.Slotted) (e : Entry) : (s.joinTable e).Slotted := h.of_same {}

theorem Slotted.acceptRequest (h : s.Slotted) (packet : List Byte) (kind : ReqKind) :
    (s.acceptRequest packet kind).Slotted := by
  have htaken : ∀ e, ((s.joinTable e).takeUp e).Slotted := fun e => .of_judging (judging_takeUp _ _) (h.joinTable e)
  unfold State.acceptRequest
  dsimp only
  split
  · exact htaken _
  · split
    · exact h.joinTable _
    · split
      · rename_i hst
        exact (h.joinTable _).parkAbort hst _
      · exact htaken _

theorem Slotted.upstreamRequest (h : s.Slotted) (packet : List Byte) : (s.upstreamRequest packet).Slotted := by
  unfold State.upstreamRequest
  split
  · exact (h.acceptRequest _ _).settle
  · exact h.report _ _ _

theorem Slotted.linkReset (h : s.Slotted) : s.linkReset.Slotted := h.discardTable.settle

/-! ## Rails (R49, R149, R153) -/

theorem Slotted.setRail (h : s.Slotted) (r : Rail) (level : Bool) : (s.setRail r level).Slotted := by
  cases r
  · exact h.of_same {}
  · exact h.of_same {}

theorem Slotted.railFall (h : s.Slotted) (r : Rail) : (s.railFall r).Slotted := by
  have hset := h.setRail r false
  unfold State.railFall
  dsimp only
  split
  · split
    · exact hset.drive
    · split
      · rename_i hst
        exact (hset.unconfiguredFall hst).settle
      · split
        · exact hset.takeRailLoss.settle
        · exact hset
  · exact h

theorem Slotted.railRise (h : s.Slotted) (r : Rail) : (s.railRise r).Slotted := by
  have hset := h.setRail r true
  unfold State.railRise
  dsimp only
  split
  · exact hset.bringUpIfReady.settle
  · exact hset

/-! ## Power (R4, R191) -/

/-- A part whose blocks are those of the reset, but for what the invariant does not look at. -/
theorem slotted_of_reset (htracker : t.tracker = Tracker.reset) (hengine : t.engine = ImageEngine.reset)
    (htc : t.tc = TransitionController.reset) (hload : t.region.load = none) (hop : t.store.op = none)
    (hstatus : t.store.status = .detached) (hqueue : t.dram.queue = []) (hcond : t.dram.cond = .notUp) : t.Slotted := by
  have htable : t.tracker.table = [] := by rw [htracker]; rfl
  have hlone : t.dram.lone = [] := by rw [DramPort.lone, hqueue]; rfl
  have hfly := flying_of_none hop
  have hdetached : t.store.status ≠ .attached := by
    rw [hstatus]
    exact nofun
  have hstate : t.tc.state = .unconfigured := by
    rw [htc]
    rfl
  have hattaching : t.attaching = false := attaching_of_none (by rw [hengine]; rfl)
  have hcopy : t.store.noCopy := fun g n hf => nomatch hfly.symm.trans hf
  have hfill : ∀ g, t.store.flying ≠ some (.fill g) := fun g hf => nomatch hfly.symm.trans hf
  refine ⟨slotsPlaced_of_empty htable (by rw [htracker]; exact Tracker.counted_reset) hdetached hcopy hfill
    (by rw [hlone]; exact nofun) (by rw [hlone]; exact List.nodup_nil) (by rw [hengine]; rfl) (by rw [hengine]; rfl), ?_⟩
  exact
    { settled := fun _ g => by rw [role_of_empty htable]; trivial
      detached := fun _ => hdetached
      bringUp := fun b hb => by rw [hengine] at hb; cases hb
      load := fun hl => absurd hload hl
      fetching := fun hf => by rw [htc] at hf; exact absurd rfl hf
      attaching := fun ha => nomatch hattaching.symm.trans ha
      commit := fun hc => by rw [hfly] at hc; exact hc.elim nofun nofun
      pattern := fun hm => by rw [hlone] at hm; cases hm
      compare := fun hm => by rw [hlone] at hm; cases hm
      entering := fun hc => nomatch hcond.symm.trans hc
      asleep := fun hc => nomatch hcond.symm.trans hc
      exiting := fun hc => nomatch hcond.symm.trans hc
      undone := fun hs => nomatch hstate.symm.trans hs
      still := fun _ => hcopy
      rail := fun _ => ⟨hlone, by rw [hcond]; rfl, hcopy, hfill⟩
      units := by
        rw [htracker, htc]
        exact ⟨Nat.zero_le _, nofun⟩ }

theorem slotted_reset : State.reset.Slotted := slotted_of_reset rfl rfl rfl rfl rfl rfl rfl rfl

theorem slotted_powerOn (s : State) : s.powerOn.Slotted := slotted_of_reset rfl rfl rfl rfl rfl rfl rfl rfl

theorem slotted_standbyPowerOn (s : State) : s.standbyPowerOn.Slotted := s.slotted_powerOn.bringUpIfReady

theorem Slotted.putReply (h : s.Slotted) (command : Nat) (code : ReplyCode) (data : List Byte) :
    (s.putReply command code data).Slotted := h.of_same {}

theorem slotted_heldBack (s : State) : (s.powerOn.setStore s.holdBackStore).Slotted :=
  slotted_of_reset rfl rfl rfl rfl rfl rfl rfl rfl

theorem slotted_resetPart (s : State) : s.resetPart.Slotted := (s.slotted_heldBack.putReply _ _ _).bringUpIfReady

theorem Slotted.resetPartCommand (h : s.Slotted) (p : List Byte) : (s.resetPartCommand p).Slotted := by
  unfold State.resetPartCommand
  split
  · exact h.putReply _ _ _
  · exact s.slotted_resetPart

/-! ## Wake lines (R159 to R163) -/

theorem Slotted.setWake (h : s.Slotted) (x : WakeUnit) : (s.setWake x).Slotted := h.of_same {}

theorem Slotted.wakeInEntry (h : s.Slotted) {abort : State → State} (ha : (abort s).Slotted) :
    (s.wakeInEntry abort).Slotted := by
  unfold State.wakeInEntry
  split
  · exact h.setWake _
  · split
    · exact h
    · split
      · exact ha
      · exact h.setWake _

theorem Slotted.actOnWake (h : s.Slotted) : s.actOnWake.Slotted := by
  have habort : (s.setTc { s.tc with waitingAbort := some .wake }).Slotted := h.of_same { abort := fun _ => nofun }
  unfold State.actOnWake
  split
  · exact h.wakeInEntry habort
  · exact h.wakeInEntry habort
  · rename_i hst
    exact h.wakeInEntry (h.parkAbort hst _)
  · exact h.setWake _
  · exact h.setWake _
  all_goals exact h

theorem Slotted.lineMoved (h : s.Slotted) (line : Fin 5) (l : WakeLine × Bool) : (s.lineMoved line l).Slotted := by
  unfold State.lineMoved
  dsimp only
  split
  · exact Slotted.settle (Slotted.actOnWake ((h.setWake _).setWake _))
  · exact h.setWake _

theorem Slotted.wkAssert (h : s.Slotted) (line : Fin 5) : (s.wkAssert line).Slotted := by
  unfold State.wkAssert
  split
  · exact h
  · exact h.lineMoved _ _

theorem Slotted.wkDeassert (h : s.Slotted) (line : Fin 5) : (s.wkDeassert line).Slotted := by
  unfold State.wkDeassert
  split
  · exact h.setWake _
  · exact h

theorem Slotted.holdTimerExpiry (h : s.Slotted) (line : Fin 5) : (s.holdTimerExpiry line).Slotted := by
  unfold State.holdTimerExpiry
  split
  · exact h.lineMoved _ _
  · exact h

/-! ## Timers (R92, R94, R117, R145) -/

theorem Slotted.noteExhaustion (h : s.Slotted) : s.noteExhaustion.Slotted := by
  unfold State.noteExhaustion
  split
  · split
    · exact (h.report _ _ _).of_same {}
    · exact h
  · exact h

theorem Slotted.paceExpires (h : s.Slotted) : s.paceExpires.Slotted := by
  have hset : (s.setEngine { s.engine with paceTimer := Timer.expired }).Slotted := h.of_same {}
  exact hset.noteExhaustion

theorem Slotted.paceTimerExpiry (h : s.Slotted) : s.paceTimerExpiry.Slotted := by
  unfold State.paceTimerExpiry
  split
  · exact h.paceExpires.settle
  · exact h

theorem Slotted.fillTimerExpiry (h : s.Slotted) : s.fillTimerExpiry.Slotted := by
  unfold State.fillTimerExpiry
  split
  · have hset : (s.setEngine { s.engine with fillTimer := Timer.expired, grant := true }).Slotted := h.of_same {}
    exact hset.settle
  · exact h

theorem CoursesHeld.quiet_sleeping (h : s.CoursesHeld) (hst : s.tc.state = .sleeping) : s.Quiet where
  unbound := h.unbound (by rw [hst]; decide)
  commit := h.noCommit (.inl (by rw [hst]; decide))
  pattern hm := nomatch hst.symm.trans (h.pattern hm).1
  compare hm := nomatch hst.symm.trans (h.compare hm).1

theorem Slotted.setOrigin (h : s.Slotted) (op : LongOp) : (s.setOrigin op).Slotted := h.of_same {}

theorem Slotted.escalate (h : s.Slotted) (hst : s.tc.state = .sleeping) : s.escalate.Slotted := by
  unfold State.escalate
  split
  · have horigin := h.setOrigin .escalate
    have hsleeping : (s.setOrigin .escalate).tc.state = .sleeping := hst
    exact (horigin.enterImagedOff (horigin.quiet_sleeping hsleeping) (by rw [hsleeping]; decide)).writeOutcome _ _ _
  · have hset : (s.setTc { s.tc with sleepTimer := Timer.expired }).Slotted := h.of_same {}
    exact hset.setWake _

theorem Slotted.sleepTimerExpiry (h : s.Slotted) : s.sleepTimerExpiry.Slotted := by
  unfold State.sleepTimerExpiry
  split
  · rename_i hc
    exact (h.escalate hc.1).settle
  · exact h

theorem Slotted.idle (h : s.Slotted) : s.idle.Slotted := h.of_same {}

end State

end Sys2Proof.Machine
end

