-- ==== Sys2Proof/Proofs/SlotCommands.lean ====
section
/-! The sideband commands keep every slot in its place (R36, R40, R87, R91, R99, R130, R131, R137, R139, R144, R146, R148,
R183, R184). -/

namespace Sys2Proof.Machine

namespace State

variable {s t : State}

/-! ## A command frame is judged (R183, R184) -/

theorem Slotted.clearBuffer (h : s.Slotted) : s.clearBuffer.Slotted := h.of_same {}

/-- A command that acts finds the port READY, and, where R136 names it, no rail loss in progress. -/
theorem Slotted.command (h : s.Slotted) (code len : Nat) (p : List Byte) (named : Bool) {own : State → State}
    (hown : ∀ t : State, t.Slotted → t.side.handling = false → (named = true → t.tc.railLoss = false) →
      (own t).Slotted) : (s.command code len p named own).Slotted := by
  unfold State.command
  split
  · exact h.putReply _ _ _
  · split
    · exact h.putReply _ _ _
    · rename_i hready
      split
      · exact h.putReply _ _ _
      · rename_i hrail
        refine hown _ h.clearBuffer (Bool.eq_false_iff.mpr hready) fun hn => Bool.eq_false_iff.mpr fun hr => hrail ?_
        rw [hn, Bool.true_and]
        exact hr

/-- Nothing ties a part whose sideband port is READY. -/
theorem CoursesHeld.untied (h : s.CoursesHeld) (hready : s.side.handling = false) :
    s.region.load = none ∧ s.attaching = false ∧ s.tc.fetching = none := by
  obtain ⟨hload, hattach⟩ := h.unbound_of_ready hready
  refine ⟨hload, hattach, ?_⟩
  by_contra hf
  exact nomatch hready.symm.trans (h.fetching hf).1

theorem CoursesHeld.quiet_running (h : s.CoursesHeld) (hready : s.side.handling = false)
    (hrun : s.tc.state.running = true) : s.Quiet ∧ ¬ s.stilled ∧ s.tc.state ≠ .starting := by
  have hst := (TState.running_iff _).mp hrun
  have hn : ¬ s.stilled := by rcases hst with hst | hst <;> simp [stilled, hst]
  refine ⟨h.quiet hn (h.unbound_of_ready hready) (.inl ?_), hn, ?_⟩
  · rcases hst with hst | hst <;> rw [hst] <;> decide
  · rcases hst with hst | hst <;> rw [hst] <;> decide

/-- A command whose reply is deferred. -/
theorem Slotted.beginHandling (h : s.Slotted) (hready : s.side.handling = false) : s.beginHandling.Slotted := by
  obtain ⟨hload, hattach, hfetch⟩ := h.untied hready
  exact ⟨h.toSlotsPlaced.of_same {}, h.toCoursesHeld.replied hload hfetch hattach h.units.1 (fun _ => id) rfl rfl rfl rfl
    rfl ⟨rfl, rfl, rfl, rfl⟩⟩

/-- The fetch of a table presents its first line. -/
theorem Slotted.presentFetch (h : s.Slotted) (line : Nat) : (s.present .fetch line).Slotted :=
  h.present (o := .fetch) nofun line

/-! ## START (R40, R137) -/

theorem startArgs_units {p : List Byte} {a : StartArgs} (h : startArgs p = some a) : a.units ≤ 64 := by
  unfold startArgs at h
  split at h
  · split at h
    · rename_i hc
      cases h
      exact hc.2
    · cases h
  · cases h

theorem Slotted.fetchTable (h : s.Slotted) (hready : s.side.handling = false) {a : StartArgs} (ha : a.units ≤ 64) :
    (s.fetchTable a).Slotted := by
  obtain ⟨hload, hattach, _⟩ := h.untied hready
  have hbegun : (s.beginHandling.setTc
      { s.beginHandling.tc with fetching := some (startRequest a .fetching) }).Slotted := by
    refine ⟨h.toSlotsPlaced.of_same {}, h.toCoursesHeld.rebound (fun hl => absurd hload hl) (fun _ => ⟨rfl, hattach⟩)
      (fun _ => rfl) ⟨h.units.1, fun r hr => ?_⟩ (fun _ => id) rfl rfl rfl rfl rfl rfl ⟨rfl, rfl, rfl, rfl⟩⟩
    cases hr
    exact ha
  exact (hbegun.presentFetch _).settle

theorem Slotted.start (h : s.Slotted) (hready : s.side.handling = false) (p : List Byte) : (s.start p).Slotted := by
  unfold State.start
  split
  · rename_i htaken
    have hst : s.tc.state = .unconfigured := by
      rw [startTaken, Bool.and_eq_true, decide_eq_true_eq] at htaken
      exact htaken.1
    split
    · exact h.putReply _ _ _
    · rename_i a ha
      have hunits := startArgs_units ha
      split
      · split
        · exact h.fetchTable hready hunits
        · exact h.putReply _ _ _
      · split
        · exact (h.acceptStart hst (r := startRequest a .draining) hunits).settle
        · exact h.putReply _ _ _
  · exact h.putReply _ _ _

/-! ## LOAD_REGIONS and ATTACH_STORE (R36, R87) -/

theorem SlotsPlaced.noCopy_of_anyCopying (h : s.SlotsPlaced) (hc : s.anyCopying = false) : s.store.noCopy := by
  intro g n hf
  obtain ⟨hst, _⟩ := (GRec.role_copying_iff _ _).mp ((h.copied g (some n)).mpr ⟨n, rfl, hf⟩)
  have hne : s.recOf g ≠ GRec.blank := fun hb => by
    rw [hb] at hst
    exact hst.elim nofun nofun
  have htrue : s.anyCopying = true := by
    refine List.any_eq_true.mpr ⟨_, GTable.mem_of_get hne, ?_⟩
    rw [Bool.or_eq_true, decide_eq_true_eq, decide_eq_true_eq]
    exact hst
  exact nomatch hc.symm.trans htrue

theorem Slotted.beginLoad (h : s.Slotted) (hready : s.side.handling = false) (hst : s.tc.state = .active)
    (hrail : s.tc.railLoss = false) (hcopy : s.store.noCopy) (addr : Nat) : (s.beginLoad addr).Slotted := by
  obtain ⟨_, hattach, hfetch⟩ := h.untied hready
  have hbegun : (s.beginHandling.setRegion
      { s.beginHandling.region with load := some { addr := addr, fetched := [] } }).Slotted :=
    ⟨h.toSlotsPlaced.of_same {}, h.toCoursesHeld.rebound (fun _ => ⟨hst, hrail, rfl, hfetch, hattach, hcopy⟩)
      (fun hf => absurd hfetch hf) (fun _ => rfl) h.units (fun _ => id) rfl rfl rfl rfl rfl rfl ⟨rfl, rfl, rfl, rfl⟩⟩
  exact (hbegun.presentFetch _).settle

theorem Slotted.loadRegions (h : s.Slotted) (hready : s.side.handling = false) (hrail : s.tc.railLoss = false)
    (p : List Byte) : (s.loadRegions p).Slotted := by
  unfold State.loadRegions
  split
  · exact h.putReply _ _ _
  · rename_i hst
    split
    · exact h.putReply _ _ _
    · split
      · exact h.putReply _ _ _
      · rename_i hcopy
        exact h.beginLoad hready (Decidable.not_not.mp hst) hrail
          (h.noCopy_of_anyCopying (Bool.eq_false_iff.mpr hcopy)) _

theorem Slotted.attachStore (h : s.Slotted) (hready : s.side.handling = false) (hrail : s.tc.railLoss = false) :
    s.attachStore.Slotted := by
  obtain ⟨hload, _, hfetch⟩ := h.untied hready
  unfold State.attachStore
  split
  · exact h.putReply _ _ _
  · rename_i hc
    push Not at hc
    have hbegun := (h.beginHandling hready).beginSteps (mode := .attach) hc.2 hload (fun hm => absurd rfl hm)
      fun _ => ⟨rfl, hfetch, hc.1, hrail⟩
    exact hbegun.settle

/-! ## Entries (R99, R139, R148) -/

theorem Slotted.acceptTransition (h : s.Slotted) (op : LongOp) : (s.acceptTransition op).Slotted := h.of_same {}

theorem Slotted.setAbortable (h : s.Slotted) (flag : Bool) : (s.setAbortable flag).Slotted := h.of_same {}

/-- SAVING is entered for its first pass, with no abort waiting. -/
theorem Slotted.firstPass (h : s.Slotted) (q : s.Quiet) (hn : ¬ s.stilled) (hst : s.tc.state ≠ .starting) :
    (((s.setTc { s.tc with waitingAbort := none }).setEngine
      { s.engine with passes := 1, lateNoted := false }).enterState .saving).Slotted :=
  h.toEntry q {} (h.awake hn) (.inl rfl) hst

theorem Slotted.beginEntry (h : s.Slotted) (hready : s.side.handling = false) (hrun : s.tc.state.running = true)
    (op : LongOp) (flag : Bool) : (s.beginEntry op flag).Slotted := by
  have hset := (h.acceptTransition op).setAbortable flag
  obtain ⟨q, hn, hst⟩ := hset.quiet_running hready hrun
  exact hset.firstPass q hn hst

theorem Slotted.imagedEntry (h : s.Slotted) (hready : s.side.handling = false) (code : Nat) (op : LongOp)
    (p : List Byte) : (s.imagedEntry code op p).Slotted := by
  unfold State.imagedEntry
  split
  · rename_i hrun
    split
    · exact h.putReply _ _ _
    · split
      · exact ((h.beginEntry hready hrun op _).putReply _ _ _).settle
      · exact h.putReply _ _ _
  · exact h.putReply _ _ _

theorem Slotted.sleep (h : s.Slotted) (hready : s.side.handling = false) (p : List Byte) : (s.sleep p).Slotted := by
  unfold State.sleep
  split
  · rename_i hrun
    split
    · exact h.putReply _ _ _
    · rename_i flag _
      have hset := (h.acceptTransition .sleep).setAbortable flag
      obtain ⟨q, hn, hst⟩ := hset.quiet_running hready hrun
      exact ((hset.enterParking q hn hst).putReply _ _ _).settle
  · exact h.putReply _ _ _

theorem Slotted.abortEntry (h : s.Slotted) : s.abortEntry.Slotted := by
  have hwait : (s.setTc { s.tc with waitingAbort := s.tc.waitingAbort.or (some .request) }).Slotted := by
    refine h.of_same { abort := fun _ hc => ?_ }
    have hc : s.tc.waitingAbort.or (some .request) = none := hc
    rw [Option.or_eq_none_iff] at hc
    exact nomatch hc.2
  unfold State.abortEntry
  split
  · exact (hwait.putReply _ _ _).settle
  · exact (hwait.putReply _ _ _).settle
  · rename_i hst
    exact ((h.parkAbort hst _).putReply _ _ _).settle
  · exact h.putReply _ _ _

/-! ## Exits (R130, R144, R146) -/

/-- The part wakes, and DRAM leaves self-refresh. -/
theorem Slotted.wakes (h : s.Slotted) (hst : s.tc.state = .sleeping) (hrail : s.tc.railLoss = false) :
    ((s.enterState .unparking).setDram { s.dram with cond := .exitingSr }).Slotted := by
  have hrefresh : ((s.enterState .unparking).setDram { s.dram with cond := .exitingSr }).Refreshes :=
    ⟨nofun, nofun, fun _ => .inl rfl, fun hr => (nomatch hrail.symm.trans hr)⟩
  exact h.sleepOn (h.quiet_sleeping hst) {} hrefresh (.inr (.inr rfl)) (by rw [hst]; decide) (h.still (.inl hst)) nofun

theorem Slotted.exitSleep (h : s.Slotted) (hrail : s.tc.railLoss = false) : s.exitSleep.Slotted := by
  unfold State.exitSleep
  split
  · rename_i hc
    have hwakes := (h.acceptTransition .exitSleep).wakes hc.1 hrail
    exact (hwakes.putReply _ _ _).settle
  · exact h.putReply _ _ _

/-- The part is revived: DRAM is brought up again. -/
theorem Slotted.revives (h : s.Slotted) (hst : s.tc.state = .imagedOff) :
    (s.enterState .reviving).beginBringUp.Slotted := by
  have hn : ¬ s.stilled := by simp [stilled, hst]
  have q := h.quiet hn (h.unbound (by rw [hst]; decide)) (.inl (by rw [hst]; decide))
  exact h.toEntry q {} rfl (.inr (.inr (.inl rfl))) (by rw [hst]; decide)

theorem Slotted.exitImaged (h : s.Slotted) : s.exitImaged.Slotted := by
  unfold State.exitImaged
  split
  · rename_i hc
    exact (((h.acceptTransition .exitImaged).revives hc.1).putReply _ _ _).settle
  · exact h.putReply _ _ _

/-! ## RELEASE_POISON, and the settings (R91, R131) -/

theorem Slotted.releasePoison (h : s.Slotted) (p : List Byte) : (s.releasePoison p).Slotted := by
  unfold State.releasePoison
  split
  · split
    · exact h.putReply _ _ _
    · exact ((h.claimRelease _ _).putReply _ _ _).settle
  · exact h.putReply _ _ _

theorem Slotted.startPace (h : s.Slotted) : s.startPace.Slotted := by
  rw [startPace_eq]
  exact h.of_same {}

theorem Slotted.presaveAs (h : s.Slotted) (a : PresaveArg) : (s.presaveAs a).Slotted := by
  cases a with
  | on =>
    have hset : (s.setEngine { s.engine with presaveOn := true }).Slotted := h.of_same {}
    exact hset.startPace
  | off | pause => exact h.of_same {}
  | resume =>
    have hset : (s.setEngine { s.engine with presavePaused := false }).Slotted := h.of_same {}
    show s.presaveResume.Slotted
    by_cases hg : s.engine.paceTimer.status = .gated
    · by_cases hc : s.engine.paceTimer.count = 0
      · rw [presaveResume_of_gated_at_zero hg hc]
        exact hset.paceExpires
      · rw [presaveResume_of_gated hg hc]
        exact h.of_same {}
    · rw [presaveResume_of_not_gated hg]
      exact hset.startPace

theorem Slotted.presave (h : s.Slotted) (p : List Byte) : (s.presave p).Slotted := by
  unfold State.presave
  split
  · exact h.putReply _ _ _
  · exact ((h.presaveAs _).putReply _ _ _).settle

theorem Slotted.setParam (h : s.Slotted) (p : List Byte) : (s.setParam p).Slotted := by
  unfold State.setParam
  split
  · exact h.putReply _ _ _
  · exact h.of_same {}

theorem Slotted.setWakeLine (h : s.Slotted) (p : List Byte) : (s.setWakeLine p).Slotted := by
  unfold State.setWakeLine
  split
  · exact h.putReply _ _ _
  · exact (h.setWake _).putReply _ _ _

theorem Slotted.setReport (h : s.Slotted) (p : List Byte) : (s.setReport p).Slotted := by
  unfold State.setReport
  split
  · exact h.putReply _ _ _
  · exact h.of_same {}

theorem Slotted.setAlertDisable (h : s.Slotted) (p : List Byte) : (s.setAlertDisable p).Slotted := by
  unfold State.setAlertDisable
  split
  · exact h.putReply _ _ _
  · exact h.of_same {}

theorem Slotted.readSnapshot (h : s.Slotted) (p : List Byte) : (s.readSnapshot p).Slotted := by
  unfold State.readSnapshot
  split
  · exact h.putReply _ _ _
  · exact h.of_same {}

end State

/-! ## Every command, and a step -/

theorem exec_slotted (c : Instr) {s : State} (h : s.Slotted) : ∃ t, exec c s = .next t ∧ t.Slotted := by
  cases c with
  | start p => exact ⟨_, rfl, h.command _ _ _ _ fun _ ht hr _ => ht.start hr p⟩
  | loadRegions p => exact ⟨_, rfl, h.command _ _ _ _ fun _ ht hr hl => ht.loadRegions hr (hl rfl) p⟩
  | attachStore p => exact ⟨_, rfl, h.command _ _ _ _ fun _ ht hr hl => ht.attachStore hr (hl rfl)⟩
  | sleep p => exact ⟨_, rfl, h.command _ _ _ _ fun _ ht hr _ => ht.sleep hr p⟩
  | hybrid p => exact ⟨_, rfl, h.command _ _ _ _ fun _ ht hr _ => ht.imagedEntry hr _ _ p⟩
  | hibernate p => exact ⟨_, rfl, h.command _ _ _ _ fun _ ht hr _ => ht.imagedEntry hr _ _ p⟩
  | abortEntry p => exact ⟨_, rfl, h.command _ _ _ _ fun _ ht _ _ => ht.abortEntry⟩
  | exitSleep p => exact ⟨_, rfl, h.command _ _ _ _ fun _ ht _ hl => ht.exitSleep (hl rfl)⟩
  | exitImaged p => exact ⟨_, rfl, h.command _ _ _ _ fun _ ht _ _ => ht.exitImaged⟩
  | presave p => exact ⟨_, rfl, h.command _ _ _ _ fun _ ht _ _ => ht.presave p⟩
  | releasePoison p => exact ⟨_, rfl, h.command _ _ _ _ fun _ ht _ _ => ht.releasePoison p⟩
  | setParam p => exact ⟨_, rfl, h.command _ _ _ _ fun _ ht _ _ => ht.setParam p⟩
  | setWake p => exact ⟨_, rfl, h.command _ _ _ _ fun _ ht _ _ => ht.setWakeLine p⟩
  | clearWake p => exact ⟨_, rfl, h.command _ _ _ _ fun _ ht _ _ => ht.of_same {}⟩
  | report p => exact ⟨_, rfl, h.command _ _ _ _ fun _ ht _ _ => ht.setReport p⟩
  | reportAll p => exact ⟨_, rfl, h.command _ _ _ _ fun _ ht _ _ => ht.of_same {}⟩
  | alertDisable p => exact ⟨_, rfl, h.command _ _ _ _ fun _ ht _ _ => ht.setAlertDisable p⟩
  | readFault p => exact ⟨_, rfl, h.command _ _ _ _ fun _ ht _ _ => ht.putReply _ _ _⟩
  | clearFault p => exact ⟨_, rfl, h.command _ _ _ _ fun _ ht _ _ => ht.of_same {}⟩
  | status p => exact ⟨_, rfl, h.command _ _ _ _ fun _ ht _ _ => ht.putReply _ _ _⟩
  | readGranule p => exact ⟨_, rfl, h.command _ _ _ _ fun _ ht _ _ => ht.putReply _ _ _⟩
  | snapshot p => exact ⟨_, rfl, h.command _ _ _ _ fun _ ht _ _ => ht.of_same {}⟩
  | readSnapshot p => exact ⟨_, rfl, h.command _ _ _ _ fun _ ht _ _ => ht.readSnapshot p⟩
  | injectCheckError p => exact ⟨_, rfl, h.command _ _ _ _ fun _ ht _ _ => ht.of_same {}⟩
  | resetPart p => exact ⟨_, rfl, h.resetPartCommand p⟩
  | unknownCommandFrame code p => exact ⟨_, rfl, h.putReply _ _ _⟩
  | readReply => exact ⟨_, rfl, h.of_same {}⟩
  | upstreamRequest packet => exact ⟨_, rfl, h.upstreamRequest packet⟩
  | linkReset => exact ⟨_, rfl, h.linkReset⟩
  | upstreamAccessDone tag => exact ⟨_, rfl, h.upstreamAccessDone tag⟩
  | engineAccessDone => exact ⟨_, rfl, h.engineAccessDone⟩
  | railFall r => exact ⟨_, rfl, h.railFall r⟩
  | railRise r => exact ⟨_, rfl, h.railRise r⟩
  | wkAssert line => exact ⟨_, rfl, h.wkAssert line⟩
  | wkDeassert line => exact ⟨_, rfl, h.wkDeassert line⟩
  | holdTimerExpiry line => exact ⟨_, rfl, h.holdTimerExpiry line⟩
  | paceTimerExpiry => exact ⟨_, rfl, h.paceTimerExpiry⟩
  | fillTimerExpiry => exact ⟨_, rfl, h.fillTimerExpiry⟩
  | storeTimerExpiry => exact ⟨_, rfl, h.storeTimerExpiry⟩
  | sleepTimerExpiry => exact ⟨_, rfl, h.sleepTimerExpiry⟩
  | storeResponse f => exact ⟨_, rfl, h.storeResponse f⟩
  | fillEnd g => exact ⟨_, rfl, h.lastLine _⟩
  | zeroFillEnd => exact ⟨_, rfl, h.lastLine _⟩
  | dramBringupEnd n => exact ⟨_, rfl, h.dramBringupEnd n⟩
  | selfRefreshEntryEnd => exact ⟨_, rfl, h.selfRefreshEntryEnd⟩
  | selfRefreshExitEnd decay => exact ⟨_, rfl, h.selfRefreshExitEnd decay⟩
  | patternWriteEnd => exact ⟨_, rfl, h.lastLine _⟩
  | compareEnd => exact ⟨_, rfl, h.lastLine _⟩
  | regionFetchEnd => exact ⟨_, rfl, h.regionFetchEnd⟩
  | startTableFetchEnd => exact ⟨_, rfl, h.startTableFetchEnd⟩
  | standbyPowerOn => exact ⟨_, rfl, s.slotted_standbyPowerOn⟩

theorem State.Slotted.setPending {s : State} (h : s.Slotted) (q : List Instr) : (s.setPending q).Slotted := h.of_same {}

theorem step_slotted {s t : State} (h : s.Slotted) (hstep : step s = .next t) : t.Slotted := by
  obtain ⟨_, rfl⟩ | ⟨c, rest, _, he⟩ := step_cases hstep
  · exact h.idle
  · obtain ⟨t', ht', hslotted⟩ := exec_slotted c (h.setPending rest)
    rw [he] at ht'
    exact Host.Outcome.next.inj ht' ▸ hslotted

theorem slotted_of_reachable {s : State} (h : Reachable s) : s.Slotted := by
  induction h with
  | reset => exact State.slotted_reset
  | send _ _ _ _ ih => exact ih.setPending _
  | step _ _ _ hstep ih => exact step_slotted ih hstep

/-- Settles O43: by the invariant `Slotted`, which every command keeps. -/
theorem everySlotIsInOnePlace : Obligations.EverySlotIsInOnePlace := by
  intro s hs ha n
  rw [State.placesOf_eq]
  exact (slotted_of_reachable hs).placed ha n

end Sys2Proof.Machine
end
